-- ==== Sys2Proof/Word.lean ====
section
/-! DEFINITION. The word types of the block and their plainest arithmetic (00_scope R9). -/

namespace Sys2Proof

/-- A u8 (00_scope R9). -/
abbrev Byte := BitVec 8

/-- A 16-bit word: a bit-stream word or an s16 register (20_memory R64, 10_state R36). -/
abbrev Half := BitVec 16

/-- A u32 register (40_host_commands R110). -/
abbrev Word := BitVec 32

/-- The two's-complement reading of a 16-bit register as an integer (00_scope R9). -/
def s16 (h : Half) : Int := h.toInt

/-- `wrap_s16` as the stored 16-bit register (00_scope R9). -/
def wrapS16 (v : Int) : Half := BitVec.ofInt 16 v

/-- `a div b`: integer division truncated toward zero (00_scope R9). -/
def truncDiv (a b : Int) : Int := Int.tdiv a b

end Sys2Proof
end

