-- ==== Sys2Proof/Config.lean ====
section
/-! DEFINITION. What an implementation fixes and the free values: the buffer capacities (00_scope R7), the OPEN
host-side parameters (00_scope R7) and opaque constants for the values the spec leaves unspecified. Nothing in Lean can
evaluate an opaque constant, so a claim about one holds for every value. -/

namespace Sys2Proof.Config

/-- IN_CAPACITY, bytes of the input buffer (00_scope R7). -/
def inCapacity : Nat := 131072

/-- OUT_CAPACITY, bytes of the output buffer (00_scope R7). -/
def outCapacity : Nat := 131072

/-- ADPCM_MAX_BLOCK_BYTES (00_scope R7). -/
def adpcmMaxBlockBytes : Nat := 4096

/-- WINDOW_SIZE (00_scope R6). -/
def windowSize : Nat := 65536

/-- The byte of IN at an offset the host has not written since power-on: any value (20_memory R63; log 7). -/
opaque unwrittenIn : Nat → Byte

/-- The byte of OUT at an offset that holds no specified value, by the count of times OUT became unspecified
(10_state R42, 60_exceptions R282; log 8). -/
opaque unspecifiedOut : Nat → Nat → Byte

/-- What an unspecified register field reads as while FAULTED, by the count of such reads and the register's offset
(40_host_commands R110, R111; log 9). -/
opaque unspecifiedView : Nat → Nat → Word

/-- The byte order of a 2-byte field of the host's chunk header (00_scope R7, 45_lzx_frame R240). -/
inductive ByteOrder where
  /-- High byte first. -/
  | bigEndian
  /-- Low byte first. -/
  | littleEndian
  deriving DecidableEq, Repr, Inhabited

/-- CHUNK_PREFIX_ORDER, OPEN (00_scope R7; log 21). -/
opaque chunkOrder : ByteOrder

/-- DEFAULT_FRAME_SIZE, OPEN (00_scope R7; log 21). -/
opaque defaultFrameSize : Nat

end Sys2Proof.Config
end

