-- ==== Sys2Proof/Syntax.lean ====
section
/-! DEFINITION. The syntax of the block: its fault codes, the operand forms, and one constructor of `Instr` for each
row of spec/opcode_table.json (30_encoding R80 to R99). -/

namespace Sys2Proof

/-- The fault codes of 60_exceptions R281, one constructor for each name but NONE. -/
inductive ErrCode where
  /-- 0x01: CMD written with a value other than 1, 2, 3 while READY. -/
  | badCommand
  /-- 0x02: no RESET since power-on; latched at power-on only. -/
  | notReset
  /-- 0x03: FRAME_SIZE is 0 or above 65535. -/
  | badFrameSize
  /-- 0x04: IN_LEN is above 131070. -/
  | badLength
  /-- 0x10: block type 0 or 4 to 7. -/
  | badBlockType
  /-- 0x11: a consumed bit lies beyond the slack. -/
  | inputOverrun
  /-- 0x12: a raw byte at or past IN_LEN. -/
  | rawOverrun
  /-- 0x13: a length array with Kraft sum above 2^16 is built. -/
  | huffmanOversubscribed
  /-- 0x14: a symbol is decoded from a table whose lengths are all 0. -/
  | emptyTableLookup
  /-- 0x15: 16 bits match no code of an INCOMPLETE table. -/
  | unassignedCode
  /-- 0x16: a pretree run passes the end of its section. -/
  | lengthRunOverrun
  /-- 0x17: pretree symbol 19 is followed by a symbol 17, 18 or 19. -/
  | badPretreeRepeat
  /-- 0x18: a match offset of 0 or above 65536. -/
  | badMatchOffset
  /-- 0x19: a match longer than the bytes left in its run. -/
  | matchOverrun
  /-- 0x1A: a run would pass the window's end. -/
  | runStraddlesWindow
  /-- 0x1B: a frame the E8 filter would scan, under E8_POLICY = Fault. -/
  | e8TranslationRequired
  /-- 0x20: ADPCM_CHANNELS is not 1 or 2. -/
  | adpcmBadChannels
  /-- 0x21: ADPCM_BLOCK_BYTES is below 7 for each channel or above 4096. -/
  | adpcmBadBlockBytes
  /-- 0x22: IN_LEN is below ADPCM_BLOCK_BYTES. -/
  | adpcmTruncatedBlock
  /-- 0x23: a preamble predictor index above 6. -/
  | adpcmBadPredictor
  deriving DecidableEq, Repr

/-- The offset bits of a MATCH of slot 8 or above (30_encoding R94): raw extra bits, or in an ALIGNED block raw high
bits and one aligned symbol. -/
inductive OffBits where
  /-- B(EB) = v. -/
  | raw (v : BitVec 14)
  /-- B(EB - 3) = v, then H(ALIGN) = a; v has no bits when EB = 3. -/
  | split (v : BitVec 11) (a : BitVec 3)
  deriving DecidableEq, Repr

/-- The parts of the UNC_BODY row in stream order (30_encoding R89): the three offsets, one data byte, and the close
before the next block header with its pad byte when BLEN is odd. -/
inductive UncPart where
  /-- RAW32 R0, RAW32 R1, RAW32 R2 (43_lzx_block_headers R175). -/
  | offsets (r0 r1 r2 : Word)
  /-- One RAW8 of DATA (44_lzx_symbols R218). -/
  | data (b : Byte)
  /-- PADB if present, and the restart of the bit stream (43_lzx_block_headers R184). -/
  | close (pad : Option Byte)
  deriving DecidableEq, Repr

/-- What the sequencer decodes next inside a command: one constructor for each place of the stream grammar
(30_encoding sections 2 to 6). -/
inductive Expect where
  /-- The stream header (R84). -/
  | streamHdr
  /-- The 27-bit block header (R85). -/
  | blockHdr
  /-- The eight aligned lengths (R88). -/
  | alignLens
  /-- The twenty pretree lengths of a length section (R90). -/
  | preLens
  /-- A pretree element (R91). -/
  | preSym
  /-- The three raw offsets of an UNCOMPRESSED header (R89). -/
  | uncOffsets
  /-- A raw data byte of an UNCOMPRESSED run (R89). -/
  | uncData
  /-- The pad byte, if any, and the restart after an UNCOMPRESSED block (43_lzx_block_headers R184). -/
  | uncClose
  /-- A LIT or a MATCH of a VERBATIM or ALIGNED run (R93). -/
  | element
  /-- A length footer standing alone (44_lzx_symbols R220). -/
  | lenFooter
  /-- An aligned symbol standing alone (44_lzx_symbols R219). -/
  | alignSym
  /-- The preamble of an ADPCM block (R97, R98). -/
  | adpcmPreamble
  /-- A body byte of an ADPCM block (46_msadpcm R259, R260). -/
  | adpcmByte
  /-- A nibble standing alone: bits 7:4 of the next body byte (46_msadpcm R255). -/
  | adpcmNibble
  deriving DecidableEq, Repr

/-- One constructor for each row of spec/opcode_table.json, in the table's order. -/
inductive Instr where
  /-- RESET, CMD = 1 (40_host_commands R112). -/
  | reset
  /-- LZX_FRAME, CMD = 2 (40_host_commands R113). -/
  | lzxFrame
  /-- ADPCM_BLOCK, CMD = 3 (40_host_commands R115). -/
  | adpcmBlock
  /-- CMD_RESERVED, any other CMD value (40_host_commands R116). -/
  | cmdReserved (v : Word)
  /-- STREAM_HDR: the header bit is 0 (43_lzx_block_headers R170). -/
  | streamHdr
  /-- STREAM_HDR_E8: the header bit is 1, then the filesize (43_lzx_block_headers R170). -/
  | streamHdrE8 (filesize : Word)
  /-- BLK_VERBATIM (43_lzx_block_headers R171, R173). -/
  | blkVerbatim (blen : BitVec 24)
  /-- BLK_ALIGNED (43_lzx_block_headers R171, R174). -/
  | blkAligned (blen : BitVec 24)
  /-- BLK_UNCOMPRESSED (43_lzx_block_headers R171, R175). -/
  | blkUncompressed (blen : BitVec 24)
  /-- BLK_RESERVED0 (43_lzx_block_headers R176). -/
  | blkReserved0 (blen : BitVec 24)
  /-- BLK_RESERVED4_7: type 4 + t (43_lzx_block_headers R176). -/
  | blkReserved4to7 (t : BitVec 2) (blen : BitVec 24)
  /-- UNC_BODY, a part of it (43_lzx_block_headers R175, R184, 44_lzx_symbols R218). -/
  | uncBody (part : UncPart)
  /-- ALIGN_LENGTHS: ALIGNLEN[0..7], symbol 0 first (43_lzx_block_headers R174). -/
  | alignLengths (ls : List (BitVec 3))
  /-- PRETREE_LENGTHS: PRELEN[0..19], symbol 0 first (43_lzx_block_headers R177). -/
  | pretreeLengths (ls : List (BitVec 4))
  /-- PRE_DELTA: pretree symbol d in 0..15 (43_lzx_block_headers R178). -/
  | preDelta (d : BitVec 4)
  /-- PRE_DELTA16: pretree symbol 16 (43_lzx_block_headers R178). -/
  | preDelta16
  /-- PRE_ZRUN17: 4 + n zeros (43_lzx_block_headers R179). -/
  | preZrun17 (n : BitVec 4)
  /-- PRE_ZRUN18: 20 + n zeros (43_lzx_block_headers R180). -/
  | preZrun18 (n : BitVec 5)
  /-- PRE_REP19: 4 + b positions of one delta d (43_lzx_block_headers R181). -/
  | preRep19 (b : BitVec 1) (d : BitVec 5)
  /-- LIT (44_lzx_symbols R201). -/
  | lit (byte : Byte)
  /-- MATCH_REP0, slot 0 (44_lzx_symbols R204); `f` is the footer, 0 unless `lh` = 7. -/
  | matchRep0 (lh : BitVec 3) (f : Byte)
  /-- MATCH_REP1, slot 1 (44_lzx_symbols R205). -/
  | matchRep1 (lh : BitVec 3) (f : Byte)
  /-- MATCH_REP2, slot 2 (44_lzx_symbols R206). -/
  | matchRep2 (lh : BitVec 3) (f : Byte)
  /-- MATCH_OFF1, slot 3 (44_lzx_symbols R207). -/
  | matchOff1 (lh : BitVec 3) (f : Byte)
  /-- MATCH_S4_7, slot 4 + sl, one or two raw extra bits v (44_lzx_symbols R208, R209). -/
  | matchS4to7 (sl : BitVec 2) (lh : BitVec 3) (f : Byte) (v : BitVec 2)
  /-- MATCH_S8_9, slot 8 + sl (44_lzx_symbols R208, R210). -/
  | matchS8to9 (sl : BitVec 1) (lh : BitVec 3) (f : Byte) (o : OffBits)
  /-- MATCH_S10_11, slot 10 + sl (44_lzx_symbols R208, R211). -/
  | matchS10to11 (sl : BitVec 1) (lh : BitVec 3) (f : Byte) (o : OffBits)
  /-- MATCH_S12_15, slot 12 + sl (44_lzx_symbols R208, R211). -/
  | matchS12to15 (sl : BitVec 2) (lh : BitVec 3) (f : Byte) (o : OffBits)
  /-- MATCH_S16_31, slot 16 + sl (44_lzx_symbols R208, R211). -/
  | matchS16to31 (sl : BitVec 4) (lh : BitVec 3) (f : Byte) (o : OffBits)
  /-- LEN_FOOTER: a length-tree symbol (44_lzx_symbols R203, R220). -/
  | lenFooter (f : Byte)
  /-- ALIGN_SYM: an aligned-tree symbol (44_lzx_symbols R219). -/
  | alignSym (a : BitVec 3)
  /-- ADPCM_MONO_PREAMBLE (46_msadpcm R253). -/
  | adpcmMonoPreamble (pred : Byte) (delta s1 s2 : Half)
  /-- ADPCM_STEREO_PREAMBLE (46_msadpcm R254). -/
  | adpcmStereoPreamble (predL predR : Byte) (deltaL deltaR s1L s1R s2L s2R : Half)
  /-- ADPCM_MONO_BYTE: first nibble h, second nibble l (46_msadpcm R259). -/
  | adpcmMonoByte (h l : BitVec 4)
  /-- ADPCM_STEREO_BYTE: left nibble h, right nibble l (46_msadpcm R260). -/
  | adpcmStereoByte (h l : BitVec 4)
  /-- ADPCM_NIBBLE (46_msadpcm R255). -/
  | adpcmNibble (n : BitVec 4)
  deriving DecidableEq, Repr

end Sys2Proof
end

