-- ==== Sys2Proof/WellFormed.lean ====
section
/-! DEFINITION. Which terms of `Instr` an encoding of 30_encoding.md can produce. -/

namespace Sys2Proof

/-- The footer field of a MATCH is present exactly when LH = 7, and is then 0..248 (30_encoding R93, 44 R220). -/
def footerOk (lh : BitVec 3) (f : Byte) : Bool :=
  if lh = 7 then decide (f.toNat ≤ 248) else decide (f = 0)

/-- The offset bits fit a slot with `eb` extra bits, 3 or more (30_encoding R94). -/
def OffBits.fits (eb : Nat) : OffBits → Bool
  | .raw v => decide (v.toNat < 2 ^ eb)
  | .split v _ => decide (v.toNat < 2 ^ (eb - 3))

/-- The well-formed instructions: every operand within what its encoding admits (30_encoding R80 to R99). -/
def Instr.wf : Instr → Bool
  | .reset => true
  | .lzxFrame => true
  | .adpcmBlock => true
  | .cmdReserved v => decide (v ≠ 1 ∧ v ≠ 2 ∧ v ≠ 3)
  | .streamHdr => true
  | .streamHdrE8 _ => true
  | .blkVerbatim _ => true
  | .blkAligned _ => true
  | .blkUncompressed _ => true
  | .blkReserved0 _ => true
  | .blkReserved4to7 _ _ => true
  | .uncBody _ => true
  | .alignLengths ls => decide (ls.length = 8)
  | .pretreeLengths ls => decide (ls.length = 20)
  | .preDelta _ => true
  | .preDelta16 => true
  | .preZrun17 _ => true
  | .preZrun18 _ => true
  | .preRep19 _ d => decide (d.toNat ≤ 19)
  | .lit _ => true
  | .matchRep0 lh f => footerOk lh f
  | .matchRep1 lh f => footerOk lh f
  | .matchRep2 lh f => footerOk lh f
  | .matchOff1 lh f => footerOk lh f
  | .matchS4to7 sl lh f v => footerOk lh f && decide (v.toNat < 2 ^ (1 + sl.toNat / 2))
  | .matchS8to9 _ lh f o => footerOk lh f && o.fits 3
  | .matchS10to11 _ lh f o => footerOk lh f && o.fits 4
  | .matchS12to15 sl lh f o => footerOk lh f && o.fits (5 + sl.toNat / 2)
  | .matchS16to31 sl lh f o => footerOk lh f && o.fits (7 + sl.toNat / 2)
  | .lenFooter f => decide (f.toNat ≤ 248)
  | .alignSym _ => true
  | .adpcmMonoPreamble _ _ _ _ => true
  | .adpcmStereoPreamble _ _ _ _ _ _ _ _ => true
  | .adpcmMonoByte _ _ => true
  | .adpcmStereoByte _ _ => true
  | .adpcmNibble _ => true

end Sys2Proof
end

