-- ==== Sys2Proof/Decode.lean ====
section
/-! DEFINITION. Decoding and encoding: the position-slot tables, canonical Huffman tables (42_huffman), the decoder of
host commands, stream elements and ADPCM fields (30_encoding), the encoder, and the decoder of a word of
spec/opcode_table.json. Every decoder is total; what it cannot read it rejects with the fault of 60_exceptions R281. -/

namespace Sys2Proof

/-! ## Position slots -/

/-- `extraBits[slot]` (44_lzx_symbols R216). -/
def extraBits (slot : Nat) : Nat := if slot < 4 then 0 else slot / 2 - 1

/-- `positionBase[slot]` (44_lzx_symbols R217). -/
def positionBase : Nat → Nat
  | 0 => 0
  | s + 1 => positionBase s + 2 ^ extraBits s

/-! ## Bits and bytes of the input -/

/-- The bits of the current bit stream from the reader's position on; `none` lies past the slack (41_bitstream R133). -/
abbrev BitSource := Nat → Option Bool

/-- Bytes read one at a time from a cursor; `none` lies past the input (41_bitstream R136). -/
abbrev ByteSource := Nat → Option Byte

/-- `ReadBits(n)` at bit `pos` of the source: first bit most significant (41_bitstream R134). -/
def readBits (src : BitSource) (pos : Nat) : Nat → Except ErrCode Nat
  | 0 => .ok 0
  | n + 1 => do
    let v ← readBits src pos n
    match src (pos + n) with
    | none => .error .inputOverrun
    | some b => .ok (2 * v + b.toNat)

/-- `count` consecutive fields of `w` bits each, in stream order (30_encoding R88, R90). -/
def readFields (src : BitSource) (w : Nat) (pos : Nat) : Nat → Except ErrCode (List (BitVec w))
  | 0 => .ok []
  | n + 1 => do
    let v ← readBits src pos w
    let rest ← readFields src w (pos + w) n
    .ok (BitVec.ofNat w v :: rest)

/-- `RawByte()` at offset `o` of the cursor (41_bitstream R136). -/
def rawByte (src : ByteSource) (o : Nat) : Except ErrCode Byte :=
  match src o with
  | none => .error .rawOverrun
  | some b => .ok b

/-- Two bytes, least significant first (20_memory R64). -/
def le16 (src : ByteSource) (o : Nat) : Except ErrCode Half := do
  let lo ← rawByte src o
  let hi ← rawByte src (o + 1)
  .ok (hi ++ lo)

/-- `RawU32()`: four bytes, least significant first (41_bitstream R137). -/
def rawU32 (src : ByteSource) (o : Nat) : Except ErrCode Word := do
  let b0 ← rawByte src o
  let b1 ← rawByte src (o + 1)
  let b2 ← rawByte src (o + 2)
  let b3 ← rawByte src (o + 3)
  .ok (b3 ++ b2 ++ b1 ++ b0)

/-! ## Canonical Huffman tables -/

/-- One code of a table: symbol `sym` owns the `len`-bit pattern `code` (42_huffman R150). -/
structure HuffCode where
  sym : Nat
  len : Nat
  code : Nat
  deriving DecidableEq, Repr

/-- The symbols of a length array with a nonzero length, with that length, in symbol order. -/
def usedSyms (ls : List Nat) : List (Nat × Nat) :=
  ls.zipIdx.filterMap fun p => if p.1 = 0 then none else some (p.2, p.1)

/-- `order` of 42_huffman R150: shorter lengths first, then lower symbols. -/
def canonOrder (ls : List Nat) : List (Nat × Nat) :=
  (List.range 16).flatMap fun k => (usedSyms ls).filter fun p => p.2 == k + 1

/-- The code assignment loop of 42_huffman R150, from the current `code` and `prev`. -/
def assignCodes : Nat → Nat → List (Nat × Nat) → List HuffCode
  | _, _, [] => []
  | code, prev, (s, l) :: rest =>
    let c := code * 2 ^ (l - prev)
    { sym := s, len := l, code := c } :: assignCodes (c + 1) l rest

/-- `Canon(L, N)` with N the length of the array (42_huffman R150). -/
def canon (ls : List Nat) : List HuffCode := assignCodes 0 0 (canonOrder ls)

/-- The Kraft sum scaled to 2^16 (42_huffman R151). -/
def kraft (ls : List Nat) : Nat := ((usedSyms ls).map fun p => 2 ^ (16 - p.2)).sum

/-- The classes of 42_huffman R151. -/
inductive TableClass where
  /-- No symbol has a length. -/
  | empty
  /-- The Kraft sum is above 2^16. -/
  | oversubscribed
  /-- One symbol `sym` has a length, `len`. -/
  | single (sym len : Nat)
  /-- The Kraft sum is 2^16. -/
  | complete
  /-- The Kraft sum is below 2^16. -/
  | incomplete
  deriving DecidableEq, Repr

/-- The class of a length array, tested in the order of 42_huffman R151. -/
def classify (ls : List Nat) : TableClass :=
  match usedSyms ls with
  | [] => .empty
  | used =>
    if 65536 < kraft ls then .oversubscribed
    else
      match used with
      | [(s, n)] => .single s n
      | _ => if kraft ls = 65536 then .complete else .incomplete

/-- The check a build makes (42_huffman R152). -/
def buildTable (ls : List Nat) : Except ErrCode Unit :=
  if classify ls = .oversubscribed then .error .huffmanOversubscribed else .ok ()

/-- The decode loop of 42_huffman R153, with `fuel` bits still allowed, `l` bits read and their value `v`. -/
def walkCode (src : BitSource) (tbl : List HuffCode) (pos : Nat) :
    Nat → Nat → Nat → Except ErrCode (Nat × Nat)
  | 0, _, _ => .error .unassignedCode
  | fuel + 1, l, v =>
    match src (pos + l) with
    | none => .error .inputOverrun
    | some b =>
      match tbl.find? fun c => c.len == l + 1 && c.code == 2 * v + b.toNat with
      | some c => .ok (c.sym, l + 1)
      | none => walkCode src tbl pos fuel (l + 1) (2 * v + b.toNat)

/-- `DecodeSym(T)` for the table of `ls`: the symbol and the bits consumed (42_huffman R153 to R156). -/
def decodeSym (ls : List Nat) (src : BitSource) (pos : Nat) : Except ErrCode (Nat × Nat) :=
  match classify ls with
  | .empty => .error .emptyTableLookup
  | .single s n => do
    let _ ← readBits src pos n
    .ok (s, n)
  | .oversubscribed => walkCode src (canon ls) pos 16 0 0
  | .complete => walkCode src (canon ls) pos 16 0 0
  | .incomplete => walkCode src (canon ls) pos 16 0 0

/-! ## Contexts -/

/-- What decoding depends on beside the bits: the place in the stream, the four length arrays, whether the block is
ALIGNED, whether an UNCOMPRESSED block needs its pad byte, and whether an ADPCM block is stereo. -/
structure DecodeCtx where
  expect : Expect
  main : List Nat
  len : List Nat
  align : List Nat
  pre : List Nat
  aligned : Bool
  padded : Bool
  stereo : Bool
  deriving DecidableEq, Repr

/-- Whether an element of this kind is read from the bit stream; the others are read a byte at a time. -/
def Expect.isBits : Expect → Bool
  | .streamHdr => true
  | .blockHdr => true
  | .alignLens => true
  | .preLens => true
  | .preSym => true
  | .uncOffsets => false
  | .uncData => false
  | .uncClose => false
  | .element => true
  | .lenFooter => true
  | .alignSym => true
  | .adpcmPreamble => false
  | .adpcmByte => false
  | .adpcmNibble => false

/-! ## Decoders -/

/-- A u32 written to CMD (30_encoding R80). -/
def decodeCommand (v : Word) : Instr :=
  if v = 1 then .reset else if v = 2 then .lzxFrame else if v = 3 then .adpcmBlock else .cmdReserved v

/-- The stream header, 1 or 33 bits (30_encoding R84, 43_lzx_block_headers R170). -/
def decodeStreamHdr (src : BitSource) : Except ErrCode (Instr × Nat) := do
  let e8 ← readBits src 0 1
  if e8 = 0 then .ok (.streamHdr, 1)
  else
    let hi ← readBits src 1 16
    let lo ← readBits src 17 16
    .ok (.streamHdrE8 (BitVec.ofNat 16 hi ++ BitVec.ofNat 16 lo), 33)

/-- The block header, 27 bits (30_encoding R85, R86, 43_lzx_block_headers R171, R172). -/
def decodeBlockHdr (src : BitSource) : Except ErrCode (Instr × Nat) := do
  let t ← readBits src 0 3
  let hi ← readBits src 3 16
  let lo ← readBits src 19 8
  let blen : BitVec 24 := BitVec.ofNat 16 hi ++ BitVec.ofNat 8 lo
  .ok
    (if t = 0 then .blkReserved0 blen
      else if t = 1 then .blkVerbatim blen
      else if t = 2 then .blkAligned blen
      else if t = 3 then .blkUncompressed blen
      else .blkReserved4to7 (BitVec.ofNat 2 (t - 4)) blen, 27)

/-- ALIGNLEN[0..7] as eight B(3) (30_encoding R88). -/
def decodeAlignLens (src : BitSource) : Except ErrCode (Instr × Nat) := do
  let ls ← readFields src 3 0 8
  .ok (.alignLengths ls, 24)

/-- PRELEN[0..19] as twenty B(4) (30_encoding R90). -/
def decodePreLens (src : BitSource) : Except ErrCode (Instr × Nat) := do
  let ls ← readFields src 4 0 20
  .ok (.pretreeLengths ls, 80)

/-- A pretree element (30_encoding R91, 43_lzx_block_headers R177 to R181). -/
def decodePreSym (pre : List Nat) (src : BitSource) : Except ErrCode (Instr × Nat) := do
  let (z, k) ← decodeSym (pre.take 20) src 0
  if z < 16 then .ok (.preDelta (BitVec.ofNat 4 z), k)
  else if z = 16 then .ok (.preDelta16, k)
  else if z = 17 then do
    let n ← readBits src k 4
    .ok (.preZrun17 (BitVec.ofNat 4 n), k + 4)
  else if z = 18 then do
    let n ← readBits src k 5
    .ok (.preZrun18 (BitVec.ofNat 5 n), k + 5)
  else do
    let b ← readBits src k 1
    let (d, kd) ← decodeSym (pre.take 20) src (k + 1)
    .ok (.preRep19 (BitVec.ofNat 1 b) (BitVec.ofNat 5 d), k + 1 + kd)

/-- The offset bits of a slot at bit `pos` (30_encoding R94, 44_lzx_symbols R208 to R211). -/
def decodeOffset (c : DecodeCtx) (slot : Nat) (src : BitSource) (pos : Nat) : Except ErrCode (OffBits × Nat) :=
  let eb := extraBits slot
  if c.aligned && decide (3 ≤ eb) then do
    let v ← readBits src pos (eb - 3)
    let (a, k) ← decodeSym (c.align.take 8) src (pos + (eb - 3))
    .ok (.split (BitVec.ofNat 11 v) (BitVec.ofNat 3 a), eb - 3 + k)
  else do
    let v ← readBits src pos eb
    .ok (.raw (BitVec.ofNat 14 v), eb)

/-- The raw value of offset bits, for the slots that have no aligned part (30_encoding R94). -/
def OffBits.rawValue : OffBits → Nat
  | .raw v => v.toNat
  | .split v _ => v.toNat

/-- The MATCH row of a slot (30_encoding R92 to R94, spec/opcode_table.json). -/
def mkMatch (slot : Nat) (lh : BitVec 3) (f : Byte) (o : OffBits) : Instr :=
  if slot = 0 then .matchRep0 lh f
  else if slot = 1 then .matchRep1 lh f
  else if slot = 2 then .matchRep2 lh f
  else if slot = 3 then .matchOff1 lh f
  else if slot < 8 then .matchS4to7 (BitVec.ofNat 2 (slot - 4)) lh f (BitVec.ofNat 2 o.rawValue)
  else if slot < 10 then .matchS8to9 (BitVec.ofNat 1 (slot - 8)) lh f o
  else if slot < 12 then .matchS10to11 (BitVec.ofNat 1 (slot - 10)) lh f o
  else if slot < 16 then .matchS12to15 (BitVec.ofNat 2 (slot - 12)) lh f o
  else .matchS16to31 (BitVec.ofNat 4 (slot - 16)) lh f o

/-- The length footer of a MATCH, read only when LH = 7 (44_lzx_symbols R203). -/
def decodeFooter (c : DecodeCtx) (lh : Nat) (src : BitSource) (pos : Nat) : Except ErrCode (Nat × Nat) :=
  if lh = 7 then decodeSym (c.len.take 250) src pos else .ok (0, 0)

/-- A LIT, or a MATCH with its whole encoding: main code, length footer, offset bits (30_encoding R92, R93,
44_lzx_symbols R200, R202). -/
def decodeElement (c : DecodeCtx) (src : BitSource) : Except ErrCode (Instr × Nat) := do
  let (m, k) ← decodeSym (c.main.take 512) src 0
  if m < 256 then .ok (.lit (BitVec.ofNat 8 m), k)
  else do
    let q := m - 256
    let (f, kf) ← decodeFooter c (q % 8) src k
    let (o, ko) ← decodeOffset c (q / 8) src (k + kf)
    .ok (mkMatch (q / 8) (BitVec.ofNat 3 (q % 8)) (BitVec.ofNat 8 f) o, k + kf + ko)

/-- A length footer standing alone (44_lzx_symbols R220). -/
def decodeLenFooter (c : DecodeCtx) (src : BitSource) : Except ErrCode (Instr × Nat) := do
  let (f, k) ← decodeSym (c.len.take 250) src 0
  .ok (.lenFooter (BitVec.ofNat 8 f), k)

/-- An aligned symbol standing alone (44_lzx_symbols R219). -/
def decodeAlignSym (c : DecodeCtx) (src : BitSource) : Except ErrCode (Instr × Nat) := do
  let (a, k) ← decodeSym (c.align.take 8) src 0
  .ok (.alignSym (BitVec.ofNat 3 a), k)

/-- The element the context expects from the bit stream, and the bits it takes. -/
def decodeBits (c : DecodeCtx) (src : BitSource) : Except ErrCode (Instr × Nat) :=
  match c.expect with
  | .streamHdr => decodeStreamHdr src
  | .blockHdr => decodeBlockHdr src
  | .alignLens => decodeAlignLens src
  | .preLens => decodePreLens src
  | .preSym => decodePreSym c.pre src
  | .lenFooter => decodeLenFooter c src
  | .alignSym => decodeAlignSym c src
  | _ => decodeElement c src

/-- The three raw offsets of an UNCOMPRESSED header (30_encoding R89, 43_lzx_block_headers R175). -/
def decodeUncOffsets (src : ByteSource) : Except ErrCode (Instr × Nat) := do
  let a ← rawU32 src 0
  let b ← rawU32 src 4
  let d ← rawU32 src 8
  .ok (.uncBody (.offsets a b d), 12)

/-- One raw data byte (44_lzx_symbols R218). -/
def decodeUncData (src : ByteSource) : Except ErrCode (Instr × Nat) := do
  let b ← rawByte src 0
  .ok (.uncBody (.data b), 1)

/-- The pad byte of an odd UNCOMPRESSED block, or none (43_lzx_block_headers R184). -/
def decodeUncClose (padded : Bool) (src : ByteSource) : Except ErrCode (Instr × Nat) :=
  if padded then do
    let b ← rawByte src 0
    .ok (.uncBody (.close (some b)), 1)
  else .ok (.uncBody (.close none), 0)

/-- The preamble of a mono block, 7 bytes (30_encoding R97). -/
def decodeMonoPreamble (src : ByteSource) : Except ErrCode (Instr × Nat) := do
  let p ← rawByte src 0
  let d ← le16 src 1
  let a ← le16 src 3
  let b ← le16 src 5
  .ok (.adpcmMonoPreamble p d a b, 7)

/-- The preamble of a stereo block, 14 bytes (30_encoding R98). -/
def decodeStereoPreamble (src : ByteSource) : Except ErrCode (Instr × Nat) := do
  let pL ← rawByte src 0
  let pR ← rawByte src 1
  let dL ← le16 src 2
  let dR ← le16 src 4
  let aL ← le16 src 6
  let aR ← le16 src 8
  let bL ← le16 src 10
  let bR ← le16 src 12
  .ok (.adpcmStereoPreamble pL pR dL dR aL aR bL bR, 14)

/-- A body byte: bits 7:4, then bits 3:0 (46_msadpcm R259, R260). -/
def decodeAdpcmByte (stereo : Bool) (src : ByteSource) : Except ErrCode (Instr × Nat) := do
  let b ← rawByte src 0
  let h := b.extractLsb' 4 4
  let l := b.extractLsb' 0 4
  .ok (if stereo then .adpcmStereoByte h l else .adpcmMonoByte h l, 1)

/-- A nibble standing alone: bits 7:4 of a body byte (46_msadpcm R255). -/
def decodeNibble (src : ByteSource) : Except ErrCode (Instr × Nat) := do
  let b ← rawByte src 0
  .ok (.adpcmNibble (b.extractLsb' 4 4), 1)

/-- The element the context expects from bytes, and the bytes it takes. -/
def decodeBytes (c : DecodeCtx) (src : ByteSource) : Except ErrCode (Instr × Nat) :=
  match c.expect with
  | .uncOffsets => decodeUncOffsets src
  | .uncClose => decodeUncClose c.padded src
  | .adpcmPreamble => if c.stereo then decodeStereoPreamble src else decodeMonoPreamble src
  | .adpcmByte => decodeAdpcmByte c.stereo src
  | .adpcmNibble => decodeNibble src
  | _ => decodeUncData src

/-! ## Encoder -/

/-- What an instruction is encoded as: a CMD value, bits in stream order, or bytes in IN order. -/
inductive Encoded where
  /-- The u32 written to CMD. -/
  | command (v : Word)
  /-- Bits, first consumed first. -/
  | bits (l : List Bool)
  /-- Bytes, lowest offset first. -/
  | bytes (l : List Byte)
  deriving DecidableEq, Repr

/-- An n-bit field, most significant bit first (30_encoding R81). -/
def fieldBits (n v : Nat) : List Bool := (List.range n).map fun i => v.testBit (n - 1 - i)

/-- The code of a symbol in the table of `ls`, most significant bit first (30_encoding R82); none if it has no code. -/
def encodeSym (ls : List Nat) (s : Nat) : Option (List Bool) :=
  ((canon ls).find? fun c => c.sym == s).map fun c => fieldBits c.len c.code

/-- A 16-bit field, least significant byte first. -/
def bytesOf16 (h : Half) : List Byte := [h.extractLsb' 0 8, h.extractLsb' 8 8]

/-- A 32-bit field, least significant byte first. -/
def bytesOf32 (w : Word) : List Byte :=
  [w.extractLsb' 0 8, w.extractLsb' 8 8, w.extractLsb' 16 8, w.extractLsb' 24 8]

/-- The 27 bits of a block header (30_encoding R85). -/
def blockHdrBits (t : Nat) (blen : BitVec 24) : List Bool := fieldBits 3 t ++ fieldBits 24 blen.toNat

/-- The bits of an offset field of a slot with `eb` extra bits (30_encoding R94). -/
def encodeOffset (align : List Nat) (eb : Nat) : OffBits → Option (List Bool)
  | .raw v => some (fieldBits eb v.toNat)
  | .split v a => (encodeSym (align.take 8) a.toNat).map fun code => fieldBits (eb - 3) v.toNat ++ code

/-- The bits of a MATCH of a slot: main code, footer if LH = 7, offset bits (30_encoding R93). -/
def encodeMatch (c : DecodeCtx) (slot : Nat) (lh : BitVec 3) (f : Byte) (o : OffBits) : Option Encoded := do
  let m ← encodeSym (c.main.take 512) (256 + 8 * slot + lh.toNat)
  let ft ← if lh = 7 then encodeSym (c.len.take 250) f.toNat else some []
  let ob ← encodeOffset c.align (extraBits slot) o
  some (.bits (m ++ ft ++ ob))

/-- The encoding of an instruction under the tables of a context (30_encoding R80 to R99); none where the table it
needs has no code for it. -/
def encode (c : DecodeCtx) : Instr → Option Encoded
  | .reset => some (.command 1)
  | .lzxFrame => some (.command 2)
  | .adpcmBlock => some (.command 3)
  | .cmdReserved v => some (.command v)
  | .streamHdr => some (.bits (fieldBits 1 0))
  | .streamHdrE8 fs => some (.bits (fieldBits 1 1 ++ fieldBits 32 fs.toNat))
  | .blkVerbatim b => some (.bits (blockHdrBits 1 b))
  | .blkAligned b => some (.bits (blockHdrBits 2 b))
  | .blkUncompressed b => some (.bits (blockHdrBits 3 b))
  | .blkReserved0 b => some (.bits (blockHdrBits 0 b))
  | .blkReserved4to7 t b => some (.bits (blockHdrBits (4 + t.toNat) b))
  | .uncBody (.offsets a b d) => some (.bytes (bytesOf32 a ++ bytesOf32 b ++ bytesOf32 d))
  | .uncBody (.data b) => some (.bytes [b])
  | .uncBody (.close p) => some (.bytes p.toList)
  | .alignLengths ls => some (.bits (ls.flatMap fun l => fieldBits 3 l.toNat))
  | .pretreeLengths ls => some (.bits (ls.flatMap fun l => fieldBits 4 l.toNat))
  | .preDelta d => (encodeSym (c.pre.take 20) d.toNat).map .bits
  | .preDelta16 => (encodeSym (c.pre.take 20) 16).map .bits
  | .preZrun17 n => (encodeSym (c.pre.take 20) 17).map fun s => .bits (s ++ fieldBits 4 n.toNat)
  | .preZrun18 n => (encodeSym (c.pre.take 20) 18).map fun s => .bits (s ++ fieldBits 5 n.toNat)
  | .preRep19 b d => do
    let s ← encodeSym (c.pre.take 20) 19
    let e ← encodeSym (c.pre.take 20) d.toNat
    some (.bits (s ++ fieldBits 1 b.toNat ++ e))
  | .lit b => (encodeSym (c.main.take 512) b.toNat).map .bits
  | .matchRep0 lh f => encodeMatch c 0 lh f (.raw 0)
  | .matchRep1 lh f => encodeMatch c 1 lh f (.raw 0)
  | .matchRep2 lh f => encodeMatch c 2 lh f (.raw 0)
  | .matchOff1 lh f => encodeMatch c 3 lh f (.raw 0)
  | .matchS4to7 sl lh f v => encodeMatch c (4 + sl.toNat) lh f (.raw (v.setWidth 14))
  | .matchS8to9 sl lh f o => encodeMatch c (8 + sl.toNat) lh f o
  | .matchS10to11 sl lh f o => encodeMatch c (10 + sl.toNat) lh f o
  | .matchS12to15 sl lh f o => encodeMatch c (12 + sl.toNat) lh f o
  | .matchS16to31 sl lh f o => encodeMatch c (16 + sl.toNat) lh f o
  | .lenFooter f => (encodeSym (c.len.take 250) f.toNat).map .bits
  | .alignSym a => (encodeSym (c.align.take 8) a.toNat).map .bits
  | .adpcmMonoPreamble p d a b => some (.bytes (p :: (bytesOf16 d ++ bytesOf16 a ++ bytesOf16 b)))
  | .adpcmStereoPreamble pL pR dL dR aL aR bL bR =>
    some (.bytes (pL :: pR :: (bytesOf16 dL ++ bytesOf16 dR ++ bytesOf16 aL ++ bytesOf16 aR ++ bytesOf16 bL ++
      bytesOf16 bR)))
  | .adpcmMonoByte h l => some (.bytes [h ++ l])
  | .adpcmStereoByte h l => some (.bytes [h ++ l])
  | .adpcmNibble n => some (.bytes [n ++ (0 : BitVec 4)])

/-- Decode what the encoder wrote, in a context: the instruction, when the encoding is consumed exactly. -/
def decodeEncoded (c : DecodeCtx) : Encoded → Except ErrCode Instr
  | .command v => .ok (decodeCommand v)
  | .bits l =>
    match decodeBits c (fun i => l[i]?) with
    | .error e => .error e
    | .ok (i, k) => if k = l.length then .ok i else .error .inputOverrun
  | .bytes l =>
    match decodeBytes c (fun i => l[i]?) with
    | .error e => .error e
    | .ok (i, k) => if k = l.length then .ok i else .error .rawOverrun

/-! ## Words of spec/opcode_table.json

The table's rows are words of several spaces that are not told apart by their bits: a CMD value, a decoded symbol of
one of four tables, raw header bits, bytes. The number of bits tells which space a word is in (log 16). -/

/-- A word of the table, placed: a CMD value, or an element's place with its bits or bytes followed by zeros. -/
inductive TableWord where
  /-- A host command. -/
  | command (v : Word)
  /-- The low `n` bits of `w`, most significant first, at a place of the bit stream. -/
  | bits (expect : Expect) (n w : Nat)
  /-- The bytes of `w`, least significant first, at a place read by bytes. -/
  | bytes (expect : Expect) (stereo : Bool) (w : Nat)
  deriving DecidableEq, Repr

/-- The space of a table word by its width in bits, exact or in whole bytes (log 16). -/
def tableWord (nbits w : Nat) : Option TableWord :=
  match nbits with
  | 32 => some (.command (BitVec.ofNat 32 w))
  | 1 => some (.bits .streamHdr 1 w)
  | 33 => some (.bits .streamHdr 33 w)
  | 40 => some (.bits .streamHdr 33 w)
  | 27 => some (.bits .blockHdr 27 w)
  | 24 => some (.bits .alignLens 24 w)
  | 80 => some (.bits .preLens 80 w)
  | 5 => some (.bits .preSym 5 w)
  | 8 => if w < 20 then some (.bits .preSym 5 w) else some (.bits .lenFooter 8 w)
  | 9 => some (.bits .element 9 w)
  | 16 => some (.bits .element 9 w)
  | 3 => some (.bits .alignSym 3 w)
  | 96 => some (.bytes .uncOffsets false w)
  | 56 => some (.bytes .adpcmPreamble false w)
  | 112 => some (.bytes .adpcmPreamble true w)
  | 4 => some (.bytes .adpcmNibble false (w * 16))
  | _ => none

/-- Length arrays under which the code of every symbol the table names is the symbol's own number: 9 bits for MAIN,
8 for LEN, 3 for ALIGN, 5 for PRE (42_huffman R150; log 16). -/
def flatTables (e : Expect) (stereo : Bool) : DecodeCtx where
  expect := e
  main := List.replicate 512 9
  len := List.replicate 249 8 ++ [0]
  align := List.replicate 8 3
  pre := List.replicate 20 5
  aligned := false
  padded := false
  stereo := stereo

/-- The bits of a table word followed by zeros. -/
def wordBits (n w : Nat) (i : Nat) : Bool := decide (i < n) && w.testBit (n - 1 - i)

/-- The bytes of a table word, least significant first. -/
def wordByte (w : Nat) (i : Nat) : Byte := BitVec.ofNat 8 (w / 256 ^ i)

/-- Whether a table word has no bit above the width its space gives it. -/
def TableWord.inWidth : TableWord → Bool
  | .command _ => true
  | .bits _ n w => decide (w < 2 ^ n)
  | .bytes _ _ _ => true

/-- The instruction the decoder reads from a table word (see `tableWord`). -/
def decodeTableWord (nbits w : Nat) : Option Instr :=
  match tableWord nbits w with
  | none => none
  | some t =>
    if t.inWidth then
      match t with
      | .command v => some (decodeCommand v)
      | .bits e n w =>
        match decodeBits (flatTables e false) (fun i => some (wordBits n w i)) with
        | .ok (i, _) => some i
        | .error _ => none
      | .bytes e st w =>
        match decodeBytes (flatTables e st) (fun i => some (wordByte w i)) with
        | .ok (i, _) => some i
        | .error _ => none
    else none

end Sys2Proof
end

