-- ==== Sys2Proof/Machine/State.lean ====
section
/-! DEFINITION. The state of the block as plain data (10_state), the reasons a step can stop, and the state after
reset (70_reset_and_hazards R310, log 1). -/

namespace Sys2Proof.Machine

/-- The reasons a step can end in a fault of the machine itself. There is none: every fault the spec describes is
latched in ERRCODE and is a next state (60_exceptions R280), and a host access to an unmapped offset is ignored
(20_memory R66). An empty type cannot be raised, so it is safe (log 20). -/
inductive Fault : Type
  deriving DecidableEq, Repr

/-- The reasons a step can be refused. -/
inductive Refusal where
  /-- Raised by an arm of exec for an instruction that has no meaning yet; safe. No arm raises it now (log 20). -/
  | notModelled (mnemonic : String)
  deriving DecidableEq, Repr

/-- A sparse byte memory: cells in rising address order. -/
abbrev Memory := List Host.Cell

/-- LIFE (10_state R38). -/
inductive Life where
  /-- Commands are accepted. -/
  | ready
  /-- A fault is latched; only RESET is accepted. -/
  | faulted
  deriving DecidableEq, Repr

/-- MODE (10_state R34). -/
inductive Mode where
  /-- Reading bits. -/
  | bits
  /-- Reading raw bytes. -/
  | raw
  deriving DecidableEq, Repr

/-- E8_POLICY (00_scope R7, 45_lzx_frame R236). -/
inductive E8Policy where
  /-- Output the frame untranslated and set E8_SKIPPED; the decided default. -/
  | passThrough
  /-- Raise E8TranslationRequired. -/
  | fault
  deriving DecidableEq, Repr

/-- The length sections of a VERBATIM header (30_encoding R87). -/
inductive LenSection where
  /-- MAINLEN[0..255]. -/
  | mainA
  /-- MAINLEN[256..511]. -/
  | mainB
  /-- LENLEN[0..248]. -/
  | length
  deriving DecidableEq, Repr

/-- An ADPCM channel (46_msadpcm R254). -/
inductive Channel where
  /-- Channel 0: mono, or left. -/
  | left
  /-- Channel 1: right. -/
  | right
  deriving DecidableEq, Repr

/-- The persistent LZX state (10_state R21 to R33). -/
structure Lzx where
  /-- WIN; an unlisted byte is SENTINEL (R21). -/
  win : Memory
  /-- WPOS, 0..65536 (R22). -/
  wpos : Nat
  /-- R0 (R23). -/
  r0 : Word
  /-- R1 (R23). -/
  r1 : Word
  /-- R2 (R23). -/
  r2 : Word
  /-- MAINLEN[0..511], each 0..16 (R24). -/
  mainLen : List Nat
  /-- LENLEN[0..249], each 0..16 (R25). -/
  lenLen : List Nat
  /-- ALIGNLEN[0..7], each 0..7 (R26). -/
  alignLen : List Nat
  /-- PRELEN[0..19], each 0..15 (R27). -/
  preLen : List Nat
  /-- HDR_READ (R29). -/
  hdrRead : Bool
  /-- BTYPE (R30). -/
  btype : BitVec 3
  /-- BLEN (R31). -/
  blen : BitVec 24
  /-- BREM (R32). -/
  brem : BitVec 24
  /-- INTEL_FILESIZE (R33). -/
  intelFilesize : Word
  /-- INTEL_STARTED (R33). -/
  intelStarted : Bool
  /-- INTEL_CURPOS (R33). -/
  intelCurpos : Word
  /-- FRAMES_READ, 0..32768 (R33). -/
  framesRead : Nat
  /-- E8_SKIPPED (R33). -/
  e8Skipped : Bool
  deriving DecidableEq, Repr

/-- The bit-reader cursors (10_state R34). -/
structure Reader where
  /-- MODE. -/
  mode : Mode
  /-- BASE. -/
  base : Nat
  /-- BITPOS. -/
  bitpos : Nat
  /-- RAWPOS. -/
  rawpos : Nat
  deriving DecidableEq, Repr

/-- One ADPCM channel's state (10_state R36, R37). -/
structure AdpcmChannel where
  /-- PRED[c], 0..6. -/
  pred : Nat
  /-- DELTA[c], an s16. -/
  delta : Half
  /-- S1[c], an s16. -/
  s1 : Half
  /-- S2[c], an s16. -/
  s2 : Half
  deriving DecidableEq, Repr

/-- The ADPCM engine's channels (10_state R36). -/
structure Adpcm where
  /-- Channel 0. -/
  ch0 : AdpcmChannel
  /-- Channel 1. -/
  ch1 : AdpcmChannel
  deriving DecidableEq, Repr

/-- The argument registers (10_state R40). -/
structure Args where
  /-- IN_LEN. -/
  inLen : Word
  /-- FRAME_SIZE. -/
  frameSize : Word
  /-- ADPCM_CHANNELS. -/
  adpcmChannels : Word
  /-- ADPCM_BLOCK_BYTES. -/
  adpcmBlockBytes : Word
  deriving DecidableEq, Repr

/-- The locals of the command in progress: the MODEL's own, from the spec's pseudocode (log 3, 14). -/
structure Sequencer where
  /-- What is decoded next inside a command; none between commands. -/
  expect : Option Expect
  /-- `togo`: bytes the frame still owes (45_lzx_frame R230). -/
  togo : Nat
  /-- `run`: bytes the current run still owes (45_lzx_frame R233). -/
  run : Nat
  /-- The length section being decoded (43_lzx_block_headers R173). -/
  sect : LenSection
  /-- `x`: the position in the section (43_lzx_block_headers R177). -/
  x : Nat
  /-- `len`: the match length (44_lzx_symbols R203). -/
  mlen : Nat
  /-- `V`: the extra value of the offset bits (30_encoding R94). -/
  mext : Nat
  /-- `c`: the channel of the nibble being decoded (46_msadpcm R255). -/
  chan : Channel
  /-- `o`: the IN offset of the next ADPCM byte (46_msadpcm R259). -/
  apos : Nat
  /-- `k`: samples emitted so far (46_msadpcm R263). -/
  emitted : Nat
  deriving DecidableEq, Repr

/-- The width of a host access, 1, 2 or 4 bytes (20_memory R66). -/
inductive AccessSize where
  /-- One byte. -/
  | b1
  /-- Two bytes. -/
  | b2
  /-- Four bytes. -/
  | b4
  deriving DecidableEq, Repr

/-- A host access to the block (20_memory R66). -/
inductive HostAccess where
  /-- `MemRead(addr, n)`. -/
  | read (addr : Nat) (n : AccessSize)
  /-- `MemWrite(addr, n, v)`. -/
  | write (addr : Nat) (n : AccessSize) (v : Word)
  deriving DecidableEq, Repr

/-- The host side of the bus: the MODEL's own (log 2, 18). -/
structure Port where
  /-- Accesses the host has issued and the block has not performed, oldest first. -/
  pending : List HostAccess
  /-- What the last MemRead returned. -/
  rdata : Word
  deriving DecidableEq, Repr

/-- The state of the block (10_state section 8), with the model's own fields `seq`, `port`, `outEpoch`, `viewReads`. -/
structure State where
  /-- The persistent LZX state (R21 to R33). -/
  lzx : Lzx
  /-- The bit-reader cursors (R34). -/
  rdr : Reader
  /-- The ADPCM channel state (R36). -/
  adpcm : Adpcm
  /-- LIFE (R38). -/
  life : Life
  /-- ERRCODE (R39). -/
  errcode : BitVec 8
  /-- The argument registers (R40). -/
  args : Args
  /-- OUT_COUNT (R41). -/
  outCount : Word
  /-- IN; an unlisted byte was never written (R42, log 7). -/
  inBuf : Memory
  /-- OUT; an unlisted byte holds no specified value (R42, log 8). -/
  outBuf : Memory
  /-- E8_POLICY, never changed by a step (00_scope R7, log 12). -/
  e8Policy : E8Policy
  /-- The locals of the command in progress. -/
  seq : Sequencer
  /-- The host side of the bus. -/
  port : Port
  /-- How often OUT became unspecified (log 8). -/
  outEpoch : Nat
  /-- How many unspecified register reads were made (log 9). -/
  viewReads : Nat
  deriving DecidableEq, Repr

/-- The persistent LZX state that RESET establishes (70_reset_and_hazards R310). -/
def Lzx.reset : Lzx where
  win := []
  wpos := 0
  r0 := 1
  r1 := 1
  r2 := 1
  mainLen := List.replicate 512 0
  lenLen := List.replicate 250 0
  alignLen := List.replicate 8 0
  preLen := List.replicate 20 0
  hdrRead := false
  btype := 0
  blen := 0
  brem := 0
  intelFilesize := 0
  intelStarted := false
  intelCurpos := 0
  framesRead := 0
  e8Skipped := false

/-- The reader cursors before the first LZX_FRAME; DESIGN CHOICE, log 5. -/
def Reader.initial : Reader where
  mode := .bits
  base := 0
  bitpos := 0
  rawpos := 0

/-- A channel's state before the first ADPCM_BLOCK; DESIGN CHOICE, log 6. -/
def AdpcmChannel.initial : AdpcmChannel where
  pred := 0
  delta := 0
  s1 := 0
  s2 := 0

/-- No command in progress (log 3). -/
def Sequencer.initial : Sequencer where
  expect := none
  togo := 0
  run := 0
  sect := .mainA
  x := 0
  mlen := 0
  mext := 0
  chan := .left
  apos := 0
  emitted := 0

/-- The machine right after reset: a power-on followed by one RESET command, with nothing else done by the host
(70_reset_and_hazards R310, R311, R314; log 1, 4, 5, 6). -/
def State.reset : State where
  lzx := Lzx.reset
  rdr := Reader.initial
  adpcm := { ch0 := AdpcmChannel.initial, ch1 := AdpcmChannel.initial }
  life := .ready
  errcode := 0
  args := { inLen := 0, frameSize := 0, adpcmChannels := 0, adpcmBlockBytes := 0 }
  outCount := 0
  inBuf := []
  outBuf := []
  e8Policy := .passThrough
  seq := Sequencer.initial
  port := { pending := [], rdata := 0 }
  outEpoch := 0
  viewReads := 0

/-- The machine at power-on: FAULTED with NotReset; what the spec leaves unspecified there is as in `State.reset`
(70_reset_and_hazards R311; log 11). -/
def State.powerOn : State :=
  { State.reset with life := .faulted, errcode := 2 }

end Sys2Proof.Machine
end

