-- ==== Sys2Proof/Machine/Ops.lean ====
section
/-! DEFINITION. The shared operations: byte memories, the window, the two buffers, the bit reader, taking a fault and
the return from one, and the control of runs. -/

namespace Sys2Proof.Machine

/-! ## Byte memories -/

/-- The byte listed at an address. -/
def Memory.get : Memory → Nat → Option Byte
  | [], _ => none
  | (a, b) :: m, k => if a = k then some b else Memory.get m k

/-- List a byte at an address, in address order. -/
def Memory.put : Memory → Nat → Byte → Memory
  | [], k, v => [(k, v)]
  | (a, b) :: m, k, v =>
    if a = k then (k, v) :: m
    else if k < a then (k, v) :: (a, b) :: m
    else (a, b) :: Memory.put m k v

/-- Remove an address from the listing. -/
def Memory.erase (m : Memory) (k : Nat) : Memory := m.filter fun c => c.1 != k

/-- The canonical form of a memory: addresses strictly rising, and no cell equal to what an unlisted address reads as
(`dflt`; none where an unlisted address has no value of its own, as in IN and OUT). -/
abbrev Memory.wf (dflt : Option Byte) (m : Memory) : Prop :=
  m.Pairwise (fun c d => c.1 < d.1) ∧ ∀ c ∈ m, some c.2 ≠ dflt

/-- Every listed address is below `size`. -/
abbrev Memory.within (size : Nat) (m : Memory) : Prop := ∀ c ∈ m, c.1 < size

/-- List consecutive bytes from an address on. -/
def Memory.putList (m : Memory) (at_ : Nat) : List Byte → Memory
  | [] => m
  | b :: bs => Memory.putList (Memory.put m at_ b) (at_ + 1) bs

/-! ## The window -/

/-- SENTINEL (00_scope R6, 10_state R21). -/
def sentinel : Byte := 0xDC

/-- A window index taken mod 65536 (20_memory R65). -/
def winIndex (i : Int) : Nat := (i % 65536).toNat

/-- `Win(i)` (00_scope R11). -/
def winGet (w : Memory) (i : Int) : Byte := (Memory.get w (winIndex i)).getD sentinel

/-- `Win(i) <- v` (00_scope R11); a byte equal to SENTINEL is not listed. -/
def winSet (w : Memory) (i : Int) (v : Byte) : Memory :=
  if v = sentinel then Memory.erase w (winIndex i) else Memory.put w (winIndex i) v

/-! ## The buffers -/

/-- `InByte(o)`: a byte the host never wrote is a free value (20_memory R61, R63; log 7). -/
def inByte (s : State) (o : Nat) : Byte := (Memory.get s.inBuf o).getD (Config.unwrittenIn o)

/-- What the host reads at OUT offset `o`: an unspecified byte is a free value (20_memory R62; log 8). -/
def outByte (s : State) (o : Nat) : Byte := (Memory.get s.outBuf o).getD (Config.unspecifiedOut s.outEpoch o)

/-- `OutWrite(o, v)` (00_scope R11). -/
def outWrite (s : State) (o : Nat) (v : Byte) : State := { s with outBuf := Memory.put s.outBuf o v }

/-! ## Faults -/

/-- The fault codes of 60_exceptions R281. -/
def faultCode : ErrCode → BitVec 8
  | .badCommand => 0x01
  | .notReset => 0x02
  | .badFrameSize => 0x03
  | .badLength => 0x04
  | .badBlockType => 0x10
  | .inputOverrun => 0x11
  | .rawOverrun => 0x12
  | .huffmanOversubscribed => 0x13
  | .emptyTableLookup => 0x14
  | .unassignedCode => 0x15
  | .lengthRunOverrun => 0x16
  | .badPretreeRepeat => 0x17
  | .badMatchOffset => 0x18
  | .matchOverrun => 0x19
  | .runStraddlesWindow => 0x1A
  | .e8TranslationRequired => 0x1B
  | .adpcmBadChannels => 0x20
  | .adpcmBadBlockBytes => 0x21
  | .adpcmTruncatedBlock => 0x22
  | .adpcmBadPredictor => 0x23

/-- `TakeFault(F)`: latch the code, become FAULTED, OUT_COUNT 0, end the command; OUT is unspecified from here on
(60_exceptions R280, R282; log 8, 10). -/
def takeFault (e : ErrCode) (s : State) : State :=
  { s with
    errcode := faultCode e
    life := .faulted
    outCount := 0
    outBuf := []
    outEpoch := s.outEpoch + 1
    seq := { s.seq with expect := none } }

/-- The end of an element's meaning: its result, or the fault it raised, taken (00_scope R13). -/
def settle (s : State) (r : Except ErrCode State) : State :=
  match r with
  | .ok t => t
  | .error e => takeFault e s

/-- `Reset()`, the only return from a fault (70_reset_and_hazards R310, 60_exceptions R285). -/
def resetState (s : State) : State :=
  { s with lzx := Lzx.reset, life := .ready, errcode := 0, outCount := 0 }

/-! ## The bit reader -/

/-- The reader at the start of an LZX_FRAME command (41_bitstream R130). -/
def initReader (s : State) : State :=
  { s with
    rdr :=
      { mode := if s.lzx.btype = 3 ∧ s.lzx.brem ≠ 0 then .raw else .bits
        base := 0
        bitpos := 0
        rawpos := 0 } }

/-- `Bit(i)` with the check of 41_bitstream R133: none lies past the slack (R132, R133). -/
def streamBit (s : State) (i : Nat) : Option Bool :=
  let k := i / 16
  if s.args.inLen.toNat + 2 ≤ s.rdr.base + 2 * k + 1 then none
  else
    let lo := inByte s (s.rdr.base + 2 * k)
    let hi := inByte s (s.rdr.base + 2 * k + 1)
    let w : Half := hi ++ lo
    some (w.getLsbD (15 - i % 16))

/-- The bits from BITPOS on. -/
def bitSource (s : State) : BitSource := fun i => streamBit s (s.rdr.bitpos + i)

/-- The raw bytes from RAWPOS on; none at or past IN_LEN (41_bitstream R136). -/
def rawSource (s : State) : ByteSource := fun i =>
  if s.args.inLen.toNat ≤ s.rdr.rawpos + i then none else some (inByte s (s.rdr.rawpos + i))

/-- The bytes of an ADPCM block from the current offset on (46_msadpcm R253, R259). -/
def adpcmSource (s : State) : ByteSource := fun i => some (inByte s (s.seq.apos + i))

/-- Consume `n` bits (41_bitstream R134). -/
def advanceBits (s : State) (n : Nat) : State := { s with rdr.bitpos := s.rdr.bitpos + n }

/-- Consume `n` raw bytes (41_bitstream R136). -/
def advanceRaw (s : State) (n : Nat) : State := { s with rdr.rawpos := s.rdr.rawpos + n }

/-- `EnterRaw()` (41_bitstream R135). -/
def enterRaw (s : State) : State :=
  { s with
    rdr.rawpos :=
      s.rdr.base + 2 * ((s.rdr.bitpos + 15) / 16) + (if s.rdr.bitpos % 16 = 0 then 2 else 0)
    rdr.mode := .raw }

/-- `Restart()` (41_bitstream R138). -/
def restartBits (s : State) : State :=
  { s with rdr.base := s.rdr.rawpos, rdr.bitpos := 0, rdr.mode := .bits }

/-! ## Sequencing -/

/-- Name the element that is decoded next. -/
def expectNext (e : Expect) (s : State) : State := { s with seq.expect := some e }

/-- The end of a command: nothing is decoded next. -/
def endCommand (s : State) : State := { s with seq.expect := none }

end Sys2Proof.Machine
end

