-- ==== Sys2Proof/Machine/Flags.lean ====
section
/-! DEFINITION. The flags of the block (10_state R43): INTEL_STARTED, E8_SKIPPED and HDR_READ as the rules set them,
the Intel-E8 bookkeeping, and the STATUS register they are read in (40_host_commands R111). -/

namespace Sys2Proof.Machine

/-- HDR_READ is set by the stream header (43_lzx_block_headers R170). -/
def setHdrRead (s : State) : State := { s with lzx.hdrRead := true }

/-- INTEL_STARTED is set, and stays set until RESET (43_lzx_block_headers R175, R183). -/
def setIntelStarted (s : State) : State := { s with lzx.intelStarted := true }

/-- E8 detection after the main tree is built (43_lzx_block_headers R183). -/
def detectE8 (s : State) : State :=
  if s.lzx.mainLen.getD 0xE8 0 ≠ 0 then setIntelStarted s else s

/-- `E8Policy()` (45_lzx_frame R236). -/
def applyE8Policy (s : State) : Except ErrCode State :=
  match s.e8Policy with
  | .passThrough => .ok { s with lzx.e8Skipped := true }
  | .fault => .error .e8TranslationRequired

/-- `E8Bookkeeping(F)` (45_lzx_frame R235). -/
def e8Bookkeeping (f : Nat) (s : State) : Except ErrCode State :=
  let fr := s.lzx.framesRead
  let s := { s with lzx.framesRead := min (fr + 1) 32768 }
  if fr < 32768 ∧ s.lzx.intelFilesize ≠ 0 then
    let s := { s with lzx.intelCurpos := s.lzx.intelCurpos + BitVec.ofNat 32 f }
    if 6 < f ∧ s.lzx.intelStarted = true then applyE8Policy s else .ok s
  else .ok s

/-- One flag at one bit of a register. -/
def flagBit (b : Bool) (n : Nat) : Word := if b then BitVec.ofNat 32 (2 ^ n) else 0

/-- STATUS (40_host_commands R111): BUSY and the reserved bits read 0 (R121). -/
def statusWord (s : State) : Word :=
  flagBit (s.life == .ready) 0 ||| flagBit (s.life == .faulted) 1 ||| flagBit s.lzx.e8Skipped 2 |||
    flagBit s.lzx.hdrRead 3 ||| (s.lzx.btype.setWidth 32 <<< 4) ||| (s.errcode.setWidth 32 <<< 8) |||
    flagBit s.lzx.intelStarted 16

/-- The bits of STATUS that are unspecified while FAULTED: 2 to 6 and 16 (40_host_commands R111). -/
def statusUnspecified : Word := 0x0001007C

end Sys2Proof.Machine
end

