-- ==== Sys2Proof/Machine/Operands.lean ====
section
/-! DEFINITION. Operand forms: match lengths and offsets with the repeated-offset cache (44_lzx_symbols R203 to R212),
and the ADPCM tables and predictor (46_msadpcm R250 to R258). -/

namespace Sys2Proof.Machine

/-! ## Match operands -/

/-- The footer's length: 7 + f + 2 (44_lzx_symbols R203). -/
def latchFooter (f : Byte) (s : State) : State := { s with seq.mlen := 7 + f.toNat + 2 }

/-- `MatchLength(LH)` with the footer as read (44_lzx_symbols R203). -/
def latchLength (lh : BitVec 3) (f : Byte) (s : State) : State :=
  if lh = 7 then latchFooter f s else { s with seq.mlen := lh.toNat + 2 }

/-- The raw part of an extra value (30_encoding R94). -/
def latchRaw (v : Nat) (s : State) : State := { s with seq.mext := v }

/-- The aligned part of an extra value, below the part read before it: (v << 3) + a (30_encoding R94). -/
def latchAligned (a : BitVec 3) (s : State) : State := { s with seq.mext := s.seq.mext * 8 + a.toNat }

/-- The extra value V of offset bits (30_encoding R94). -/
def latchOffBits (o : OffBits) (s : State) : State :=
  match o with
  | .raw v => latchRaw v.toNat s
  | .split v a => latchAligned a (latchRaw v.toNat s)

/-- `Push(off)` (44_lzx_symbols R212). -/
def pushOffset (off : Nat) (s : State) : State :=
  { s with lzx.r2 := s.lzx.r1, lzx.r1 := s.lzx.r0, lzx.r0 := BitVec.ofNat 32 off }

/-- Slot 0: repeat R0, the cache unchanged (44_lzx_symbols R204). -/
def useR0 (s : State) : Nat × State := (s.lzx.r0.toNat, s)

/-- Slot 1: exchange R0 and R1 (44_lzx_symbols R205). -/
def useR1 (s : State) : Nat × State :=
  (s.lzx.r1.toNat, { s with lzx.r0 := s.lzx.r1, lzx.r1 := s.lzx.r0 })

/-- Slot 2: exchange R0 and R2 (44_lzx_symbols R206). -/
def useR2 (s : State) : Nat × State :=
  (s.lzx.r2.toNat, { s with lzx.r0 := s.lzx.r2, lzx.r2 := s.lzx.r0 })

/-- Slots 3 to 31: positionBase - 2 + V, pushed (44_lzx_symbols R207 to R211). -/
def useExplicit (slot : Nat) (s : State) : Nat × State :=
  (positionBase slot - 2 + s.seq.mext, pushOffset (positionBase slot - 2 + s.seq.mext) s)

/-! ## ADPCM operands -/

/-- COEF1 (46_msadpcm R250). -/
def coef1 (p : Nat) : Int := [256, 512, 0, 192, 240, 460, 392].getD p 0

/-- COEF2 (46_msadpcm R250). -/
def coef2 (p : Nat) : Int := [0, -256, 0, 64, 0, -208, -232].getD p 0

/-- ADAPT, indexed by the unsigned nibble (46_msadpcm R251). -/
def adapt (n : BitVec 4) : Int :=
  [230, 230, 230, 230, 307, 409, 512, 614, 768, 614, 512, 409, 307, 230, 230, 230].getD n.toNat 0

/-- `clamp(-32768, 32767, v)` (00_scope R9, 46_msadpcm R257). -/
def clamp16 (v : Int) : Int := min 32767 (max (-32768) v)

/-- `NewDelta(N, d)`: wrap, then floor (46_msadpcm R258, 92_eei_decisions D27). DESIGN CHOICE, log 27: for a DELTA so far
below 0 that the quotient leaves s16, R268 says 16 where R258's formula wraps; the formula is followed. -/
def newDelta (n : BitVec 4) (d : Half) : Half :=
  let nd := wrapS16 (truncDiv (adapt n * s16 d) 256)
  if s16 nd < 16 then 16 else nd

/-- The prediction of a channel (46_msadpcm R255, R256). -/
def predicted (c : AdpcmChannel) : Int := truncDiv (s16 c.s1 * coef1 c.pred + s16 c.s2 * coef2 c.pred) 256

/-- The sample a nibble gives: the signed nibble times DELTA added to the prediction, clamped (46_msadpcm R255, R257,
30_encoding R99). -/
def expandSample (c : AdpcmChannel) (n : BitVec 4) : Half :=
  BitVec.ofInt 16 (clamp16 (predicted c + n.toInt * s16 c.delta))

/-- The channel after a nibble (46_msadpcm R255). -/
def expandChannel (c : AdpcmChannel) (n : BitVec 4) : AdpcmChannel :=
  { c with delta := newDelta n c.delta, s2 := c.s1, s1 := expandSample c n }

/-- The state of a channel. -/
def getChannel (s : State) (c : Channel) : AdpcmChannel :=
  match c with
  | .left => s.adpcm.ch0
  | .right => s.adpcm.ch1

/-- Replace the state of a channel. -/
def setChannel (c : Channel) (a : AdpcmChannel) (s : State) : State :=
  match c with
  | .left => { s with adpcm.ch0 := a }
  | .right => { s with adpcm.ch1 := a }

/-- Name the channel of the next nibble. -/
def selectChannel (c : Channel) (s : State) : State := { s with seq.chan := c }

/-- `emit v`: the k-th sample goes to OUT[2k] and OUT[2k+1], low byte first (46_msadpcm R263). -/
def emitSample (v : Half) (s : State) : State :=
  { s with
    outBuf :=
      Memory.put (Memory.put s.outBuf (2 * s.seq.emitted) (v.extractLsb' 0 8)) (2 * s.seq.emitted + 1)
        (v.extractLsb' 8 8)
    seq.emitted := s.seq.emitted + 1 }

/-- `emit Expand(c, N)` for the selected channel (46_msadpcm R255). -/
def expandNibble (n : BitVec 4) (s : State) : State :=
  let c := getChannel s s.seq.chan
  emitSample (expandSample c n) (setChannel s.seq.chan (expandChannel c n) s)

end Sys2Proof.Machine
end

