-- ==== Sys2Proof/Machine/Frame.lean ====
section
/-! DEFINITION. The control of a frame: runs, the frame's output, the copy of a match, and the end of an element
(45_lzx_frame R230 to R236, 44_lzx_symbols R213 to R215). -/

namespace Sys2Proof.Machine

/-- `FrameOutput(F)`: the F window bytes just before WPOS, read circularly (45_lzx_frame R234). -/
def frameBytes (l : Lzx) (f : Nat) : List Byte :=
  (List.range f).map fun k => winGet l.win ((l.wpos : Int) - f + k)

/-- The end of a frame: bookkeeping, then OUT and OUT_COUNT (45_lzx_frame R230, R234, R235, 40_host_commands R113). -/
def finishFrame (s : State) : Except ErrCode State := do
  let f := s.args.frameSize.toNat
  let frame := frameBytes s.lzx f
  let t ← e8Bookkeeping f s
  .ok (endCommand { t with outBuf := Memory.putList t.outBuf 0 frame, outCount := s.args.frameSize })

/-- `Run()` up to its first element (45_lzx_frame R232, R233). -/
def beginRun (s : State) : Except ErrCode State :=
  let n := min s.lzx.brem.toNat s.seq.togo
  let w := s.lzx.wpos % 65536
  if 65536 < w + n then .error .runStraddlesWindow
  else
    .ok
      { s with
        lzx.brem := BitVec.ofNat 24 (s.lzx.brem.toNat - n)
        lzx.wpos := w
        seq.togo := s.seq.togo - n
        seq.run := n
        seq.expect :=
          if s.lzx.btype = 1 ∨ s.lzx.btype = 2 then some .element else some .uncData }

/-- The frame loop between runs: the frame is done, a block header is due (with the step of 43_lzx_block_headers R184
after an UNCOMPRESSED block), or a run begins (45_lzx_frame R230, R231). -/
def continueFrame (s : State) : Except ErrCode State :=
  if s.seq.togo = 0 then finishFrame s
  else if s.lzx.brem = 0 then
    .ok (expectNext (if s.lzx.btype = 3 then .uncClose else .blockHdr) s)
  else beginRun s

/-- The end of an element of a run: the run goes on, or the frame loop does (45_lzx_frame R233). -/
def continueRun (s : State) : Except ErrCode State :=
  if s.seq.run = 0 then continueFrame s else .ok s

/-- One byte at WPOS (44_lzx_symbols R201, R218). -/
def putWindowByte (b : Byte) (s : State) : State :=
  { s with
    lzx.win := winSet s.lzx.win s.lzx.wpos b
    lzx.wpos := s.lzx.wpos + 1
    seq.run := s.seq.run - 1 }

/-- The copy loop: `n` bytes from `off` back to `dst` on, byte by byte (44_lzx_symbols R215). -/
def copyBytes (win : Memory) (dst off : Nat) : Nat → Memory
  | 0 => win
  | n + 1 => copyBytes (winSet win dst (winGet win ((dst : Int) - off))) (dst + 1) off n

/-- `Copy(off, len)` (44_lzx_symbols R215). -/
def copyMatch (off len : Nat) (s : State) : State :=
  { s with
    lzx.win := copyBytes s.lzx.win s.lzx.wpos off len
    lzx.wpos := s.lzx.wpos + len
    seq.run := s.seq.run - len }

/-- A match with its offset and latched length: the checks in order, then the copy (44_lzx_symbols R202, R213, R214). -/
def checkedCopy (off : Nat) (s : State) : Except ErrCode State :=
  if off = 0 ∨ 65536 < off then .error .badMatchOffset
  else if s.seq.run < s.seq.mlen then .error .matchOverrun
  else continueRun (copyMatch off s.seq.mlen s)

end Sys2Proof.Machine
end

