-- ==== Sys2Proof/Machine/Headers.lean ====
section
/-! DEFINITION. The meanings of the stream header, the block headers, the UNCOMPRESSED body and the aligned lengths
(43_lzx_block_headers R170 to R176, R184, 44_lzx_symbols R218). -/

namespace Sys2Proof.Machine

/-- The result of an element as an outcome of the step: always a next state, a fault being taken (60_exceptions R280). -/
def element (s : State) (r : Except ErrCode State) : Host.Outcome State Fault Refusal := .next (settle s r)

/-- BTYPE, BLEN and BREM from the header's 27 bits (43_lzx_block_headers R171). -/
def loadBlock (t : BitVec 3) (blen : BitVec 24) (s : State) : State :=
  { s with lzx.btype := t, lzx.blen := blen, lzx.brem := blen }

/-- The start of `VerbatimTrees()`: MAIN section A is due (43_lzx_block_headers R173). -/
def beginTrees (s : State) : State := expectNext .preLens { s with seq.sect := .mainA }

/-- STREAM_HDR: no filesize follows; INTEL_FILESIZE is left as it is (43_lzx_block_headers R170). -/
def execStreamHdr (s : State) : Host.Outcome State Fault Refusal :=
  element s (continueFrame (setHdrRead s))

/-- STREAM_HDR_E8: the filesize is loaded (43_lzx_block_headers R170). -/
def execStreamHdrE8 (fs : Word) (s : State) : Host.Outcome State Fault Refusal :=
  element s (continueFrame (setHdrRead { s with lzx.intelFilesize := fs }))

/-- BLK_VERBATIM: type 1; its trees follow (43_lzx_block_headers R171 to R173). -/
def execBlkVerbatim (blen : BitVec 24) (s : State) : Host.Outcome State Fault Refusal :=
  element s (.ok (beginTrees (loadBlock 1 blen s)))

/-- BLK_ALIGNED: type 2; the aligned lengths follow (43_lzx_block_headers R171, R172, R174). -/
def execBlkAligned (blen : BitVec 24) (s : State) : Host.Outcome State Fault Refusal :=
  element s (.ok (expectNext .alignLens (loadBlock 2 blen s)))

/-- BLK_UNCOMPRESSED: type 3; INTEL_STARTED, EnterRaw, then the raw offsets follow (43_lzx_block_headers R171, R172,
R175). -/
def execBlkUncompressed (blen : BitVec 24) (s : State) : Host.Outcome State Fault Refusal :=
  element s (.ok (expectNext .uncOffsets (enterRaw (setIntelStarted (loadBlock 3 blen s)))))

/-- BLK_RESERVED0: BadBlockType once the 27 bits are consumed (43_lzx_block_headers R176). -/
def execBlkReserved0 (blen : BitVec 24) (s : State) : Host.Outcome State Fault Refusal :=
  element (loadBlock 0 blen s) (.error .badBlockType)

/-- BLK_RESERVED4_7: BadBlockType once the 27 bits are consumed (43_lzx_block_headers R176). -/
def execBlkReserved4to7 (t : BitVec 2) (blen : BitVec 24) (s : State) : Host.Outcome State Fault Refusal :=
  element (loadBlock (1#1 ++ t) blen s) (.error .badBlockType)

/-- The parts of UNC_BODY: load the cache and go on with the frame (43_lzx_block_headers R175); copy one data byte
(44_lzx_symbols R218); restart the bit stream for the next block header (43_lzx_block_headers R184). -/
def execUncBody (part : UncPart) (s : State) : Host.Outcome State Fault Refusal :=
  match part with
  | .offsets a b d => element s (continueFrame { s with lzx.r0 := a, lzx.r1 := b, lzx.r2 := d })
  | .data b => element s (continueRun (putWindowByte b s))
  | .close _ => element s (.ok (expectNext .blockHdr (restartBits s)))

/-- The start of `AlignedTrees()`: load ALIGNLEN and build ALIGN (43_lzx_block_headers R174). -/
def loadAlignLens (ls : List (BitVec 3)) (s : State) : Except ErrCode State := do
  let t := { s with lzx.alignLen := ls.map BitVec.toNat }
  let _ ← buildTable (t.lzx.alignLen.take 8)
  .ok (beginTrees t)

/-- ALIGN_LENGTHS (43_lzx_block_headers R174). -/
def execAlignLengths (ls : List (BitVec 3)) (s : State) : Host.Outcome State Fault Refusal :=
  element s (loadAlignLens ls s)

end Sys2Proof.Machine
end

