-- ==== Sys2Proof/Machine/AdpcmElements.lean ====
section
/-! DEFINITION. The meanings of the ADPCM preambles, body bytes and nibbles (46_msadpcm R253 to R263). -/

namespace Sys2Proof.Machine

/-- The end of an ADPCM block: OUT_COUNT is twice the samples emitted (46_msadpcm R263, 40_host_commands R115). -/
def finishAdpcm (s : State) : State :=
  endCommand { s with outCount := BitVec.ofNat 32 (2 * s.seq.emitted) }

/-- The body loop between bytes: go on at offset `o`, or end the block (46_msadpcm R259, R260). -/
def continueBlock (o : Nat) (s : State) : State :=
  let t := { s with seq.apos := o }
  if o < s.args.adpcmBlockBytes.toNat then expectNext .adpcmByte t else finishAdpcm t

/-- A channel as its preamble fields load it (46_msadpcm R253). -/
def preambleChannel (pred : Byte) (delta s1 s2 : Half) : AdpcmChannel :=
  { pred := pred.toNat, delta := delta, s1 := s1, s2 := s2 }

/-- The mono preamble (46_msadpcm R253). -/
def monoPreamble (pred : Byte) (delta s1 s2 : Half) (s : State) : Except ErrCode State :=
  if 6 < pred.toNat then .error .adpcmBadPredictor
  else
    .ok (continueBlock 7 (emitSample s1 (emitSample s2 (setChannel .left (preambleChannel pred delta s1 s2) s))))

/-- ADPCM_MONO_PREAMBLE (46_msadpcm R253). -/
def execAdpcmMonoPreamble (pred : Byte) (delta s1 s2 : Half) (s : State) : Host.Outcome State Fault Refusal :=
  element s (monoPreamble pred delta s1 s2 s)

/-- The stereo preamble with its channels as loaded (46_msadpcm R254). -/
def stereoPreamble (l r : AdpcmChannel) (s : State) : Except ErrCode State :=
  if 6 < l.pred ∨ 6 < r.pred then .error .adpcmBadPredictor
  else
    let t := setChannel .right r (setChannel .left l s)
    .ok (continueBlock 14 (emitSample r.s1 (emitSample l.s1 (emitSample r.s2 (emitSample l.s2 t)))))

/-- ADPCM_STEREO_PREAMBLE (46_msadpcm R254). -/
def execAdpcmStereoPreamble (predL predR : Byte) (deltaL deltaR s1L s1R s2L s2R : Half) (s : State) :
    Host.Outcome State Fault Refusal :=
  element s (stereoPreamble (preambleChannel predL deltaL s1L s2L) (preambleChannel predR deltaR s1R s2R) s)

/-- ADPCM_MONO_BYTE: both nibbles on channel 0, h first (46_msadpcm R259). -/
def execAdpcmMonoByte (h l : BitVec 4) (s : State) : Host.Outcome State Fault Refusal :=
  element s (.ok (continueBlock (s.seq.apos + 1) (expandNibble l (expandNibble h (selectChannel .left s)))))

/-- ADPCM_STEREO_BYTE: h on the left channel, then l on the right (46_msadpcm R260). -/
def execAdpcmStereoByte (h l : BitVec 4) (s : State) : Host.Outcome State Fault Refusal :=
  element s
    (.ok
      (continueBlock (s.seq.apos + 1)
        (expandNibble l (selectChannel .right (expandNibble h (selectChannel .left s))))))

/-- ADPCM_NIBBLE: `emit Expand(c, N)` on the selected channel (46_msadpcm R255; log 14). -/
def execAdpcmNibble (n : BitVec 4) (s : State) : Host.Outcome State Fault Refusal :=
  element s (.ok (expandNibble n s))

end Sys2Proof.Machine
end

