-- ==== Sys2Proof/Machine/Pretree.lean ====
section
/-! DEFINITION. The meanings of the pretree lengths and the pretree elements: code-length delta decoding
(43_lzx_block_headers R177 to R183). -/

namespace Sys2Proof.Machine

/-- `first` of a length section (30_encoding R87). -/
def sectionFirst : LenSection → Nat
  | .mainA => 0
  | .mainB => 256
  | .length => 0

/-- `last` of a length section (30_encoding R87). -/
def sectionLast : LenSection → Nat
  | .mainA => 256
  | .mainB => 512
  | .length => 249

/-- The array L a section rewrites. -/
def sectionArray (s : State) : List Nat :=
  match s.seq.sect with
  | .mainA => s.lzx.mainLen
  | .mainB => s.lzx.mainLen
  | .length => s.lzx.lenLen

/-- Replace the array L of the section. -/
def setSectionArray (ls : List Nat) (s : State) : State :=
  match s.seq.sect with
  | .mainA => { s with lzx.mainLen := ls }
  | .mainB => { s with lzx.mainLen := ls }
  | .length => { s with lzx.lenLen := ls }

/-- The end of a section: the next one is due, MAIN and LEN are built where their arrays are complete, and after the
last the frame goes on (43_lzx_block_headers R173, R183). -/
def endSection (s : State) : Except ErrCode State :=
  match s.seq.sect with
  | .mainA => .ok (expectNext .preLens { s with seq.sect := .mainB })
  | .mainB => do
    let _ ← buildTable (s.lzx.mainLen.take 512)
    .ok (expectNext .preLens (detectE8 { s with seq.sect := .length }))
  | .length => do
    let _ ← buildTable (s.lzx.lenLen.take 250)
    continueFrame s

/-- Move to position `x` of the section, ending it at `last` (43_lzx_block_headers R177). -/
def advanceTo (x : Nat) (s : State) : Except ErrCode State :=
  let t := { s with seq.x := x }
  if x < sectionLast s.seq.sect then .ok (expectNext .preSym t) else endSection t

/-- `L[x..x+n-1] <- v` (43_lzx_block_headers R177, R181). -/
def fillLens (ls : List Nat) (x v : Nat) : Nat → List Nat
  | 0 => ls
  | n + 1 => fillLens (ls.set x v) (x + 1) v n

/-- `(L[x] - d) mod 17` (43_lzx_block_headers R178). -/
def deltaLen (old d : Nat) : Nat := (((old : Int) - d) % 17).toNat

/-- A delta for one position (43_lzx_block_headers R178). -/
def deltaOne (d : Nat) (s : State) : Except ErrCode State :=
  let x := s.seq.x
  advanceTo (x + 1) (setSectionArray ((sectionArray s).set x (deltaLen ((sectionArray s).getD x 0) d)) s)

/-- A run of `n` positions of value `v`, with the check of 43_lzx_block_headers R182. -/
def fillRun (n v : Nat) (s : State) : Except ErrCode State :=
  let x := s.seq.x
  if sectionLast s.seq.sect < x + n then .error .lengthRunOverrun
  else advanceTo (x + n) (setSectionArray (fillLens (sectionArray s) x v n) s)

/-- Load PRELEN, build PRE, and start the section at its first position (43_lzx_block_headers R177). -/
def loadPreLens (ls : List (BitVec 4)) (s : State) : Except ErrCode State := do
  let t := { s with lzx.preLen := ls.map BitVec.toNat }
  let _ ← buildTable (t.lzx.preLen.take 20)
  .ok (expectNext .preSym { t with seq.x := sectionFirst s.seq.sect })

/-- PRETREE_LENGTHS (43_lzx_block_headers R177). -/
def execPretreeLengths (ls : List (BitVec 4)) (s : State) : Host.Outcome State Fault Refusal :=
  element s (loadPreLens ls s)

/-- PRE_DELTA (43_lzx_block_headers R178). -/
def execPreDelta (d : BitVec 4) (s : State) : Host.Outcome State Fault Refusal :=
  element s (deltaOne d.toNat s)

/-- PRE_DELTA16 (43_lzx_block_headers R178). -/
def execPreDelta16 (s : State) : Host.Outcome State Fault Refusal :=
  element s (deltaOne 16 s)

/-- PRE_ZRUN17 (43_lzx_block_headers R179, R182). -/
def execPreZrun17 (n : BitVec 4) (s : State) : Host.Outcome State Fault Refusal :=
  element s (fillRun (4 + n.toNat) 0 s)

/-- PRE_ZRUN18 (43_lzx_block_headers R180, R182). -/
def execPreZrun18 (n : BitVec 5) (s : State) : Host.Outcome State Fault Refusal :=
  element s (fillRun (20 + n.toNat) 0 s)

/-- `RepeatRun` with its second symbol as read: the delta applies to the first position's old length
(43_lzx_block_headers R181). -/
def repeatRun (b : BitVec 1) (d : BitVec 5) (s : State) : Except ErrCode State :=
  if 16 < d.toNat then .error .badPretreeRepeat
  else fillRun (4 + b.toNat) (deltaLen ((sectionArray s).getD s.seq.x 0) d.toNat) s

/-- PRE_REP19 (43_lzx_block_headers R181, R182). -/
def execPreRep19 (b : BitVec 1) (d : BitVec 5) (s : State) : Host.Outcome State Fault Refusal :=
  element s (repeatRun b d s)

end Sys2Proof.Machine
end

