-- ==== Sys2Proof/Machine/Symbols.lean ====
section
/-! DEFINITION. The meanings of literals, matches by position slot, length footers and aligned symbols
(44_lzx_symbols R200 to R220). -/

namespace Sys2Proof.Machine

/-- LIT (44_lzx_symbols R201). -/
def execLit (b : Byte) (s : State) : Host.Outcome State Fault Refusal :=
  element s (continueRun (putWindowByte b s))

/-- `Match(q)` for a repeated offset: the length, the offset by `use`, the checks, the copy (44_lzx_symbols R202). -/
def repMatch (use : State → Nat × State) (lh : BitVec 3) (f : Byte) (s : State) : Except ErrCode State :=
  let r := use (latchLength lh f s)
  checkedCopy r.1 r.2

/-- `Match(q)` for an explicit offset of slot 3 or above, whose extra value is `o` (44_lzx_symbols R202, R207 to
R211). -/
def slotMatch (slot : Nat) (lh : BitVec 3) (f : Byte) (o : OffBits) (s : State) : Except ErrCode State :=
  let r := useExplicit slot (latchOffBits o (latchLength lh f s))
  checkedCopy r.1 r.2

/-- MATCH_REP0 (44_lzx_symbols R202 to R204). -/
def execMatchRep0 (lh : BitVec 3) (f : Byte) (s : State) : Host.Outcome State Fault Refusal :=
  element s (repMatch useR0 lh f s)

/-- MATCH_REP1 (44_lzx_symbols R202, R203, R205). -/
def execMatchRep1 (lh : BitVec 3) (f : Byte) (s : State) : Host.Outcome State Fault Refusal :=
  element s (repMatch useR1 lh f s)

/-- MATCH_REP2 (44_lzx_symbols R202, R203, R206). -/
def execMatchRep2 (lh : BitVec 3) (f : Byte) (s : State) : Host.Outcome State Fault Refusal :=
  element s (repMatch useR2 lh f s)

/-- MATCH_OFF1: slot 3 has no extra bits (44_lzx_symbols R207). -/
def execMatchOff1 (lh : BitVec 3) (f : Byte) (s : State) : Host.Outcome State Fault Refusal :=
  element s (slotMatch 3 lh f (.raw 0) s)

/-- MATCH_S4_7 (44_lzx_symbols R208, R209). -/
def execMatchS4to7 (sl : BitVec 2) (lh : BitVec 3) (f : Byte) (v : BitVec 2) (s : State) :
    Host.Outcome State Fault Refusal :=
  element s (slotMatch (4 + sl.toNat) lh f (.raw (v.setWidth 14)) s)

/-- MATCH_S8_9 (44_lzx_symbols R208, R210). -/
def execMatchS8to9 (sl : BitVec 1) (lh : BitVec 3) (f : Byte) (o : OffBits) (s : State) :
    Host.Outcome State Fault Refusal :=
  element s (slotMatch (8 + sl.toNat) lh f o s)

/-- MATCH_S10_11 (44_lzx_symbols R208, R211). -/
def execMatchS10to11 (sl : BitVec 1) (lh : BitVec 3) (f : Byte) (o : OffBits) (s : State) :
    Host.Outcome State Fault Refusal :=
  element s (slotMatch (10 + sl.toNat) lh f o s)

/-- MATCH_S12_15 (44_lzx_symbols R208, R211). -/
def execMatchS12to15 (sl : BitVec 2) (lh : BitVec 3) (f : Byte) (o : OffBits) (s : State) :
    Host.Outcome State Fault Refusal :=
  element s (slotMatch (12 + sl.toNat) lh f o s)

/-- MATCH_S16_31 (44_lzx_symbols R208, R211). -/
def execMatchS16to31 (sl : BitVec 4) (lh : BitVec 3) (f : Byte) (o : OffBits) (s : State) :
    Host.Outcome State Fault Refusal :=
  element s (slotMatch (16 + sl.toNat) lh f o s)

/-- LEN_FOOTER: the match length becomes 9 + f (44_lzx_symbols R203, R220; log 14). -/
def execLenFooter (f : Byte) (s : State) : Host.Outcome State Fault Refusal :=
  element s (.ok (latchFooter f s))

/-- ALIGN_SYM: the low 3 bits of the extra value (44_lzx_symbols R210, R211, R219; log 14). -/
def execAlignSym (a : BitVec 3) (s : State) : Host.Outcome State Fault Refusal :=
  element s (.ok (latchAligned a s))

end Sys2Proof.Machine
end

