-- ==== Sys2Proof/Machine/Engine.lean ====
section
/-! DEFINITION. The engines' inner machine: fetching the next element of a command, running it, and running a command
to its end (40_host_commands R120, 45_lzx_frame R230, R239; log 3, 13). -/

namespace Sys2Proof.Machine

/-- What decoding depends on in a state. -/
def decodeCtx (s : State) (e : Expect) : DecodeCtx where
  expect := e
  main := s.lzx.mainLen
  len := s.lzx.lenLen
  align := s.lzx.alignLen
  pre := s.lzx.preLen
  aligned := s.lzx.btype == 2
  padded := s.lzx.blen.getLsbD 0
  stereo := s.args.adpcmChannels == 2

/-- Whether an element's bytes are read at the ADPCM offset instead of RAWPOS. -/
def isAdpcm : Expect → Bool
  | .adpcmPreamble => true
  | .adpcmByte => true
  | .adpcmNibble => true
  | _ => false

/-- Fetch the element expected next: the instruction, and the state with the input it takes consumed; or the fault its
decoding raises (41_bitstream R133, R136, 42_huffman R153 to R156). ADPCM offsets are moved by the meanings. -/
def fetchElement (e : Expect) (s : State) : Except ErrCode (Instr × State) :=
  if e.isBits then
    match decodeBits (decodeCtx s e) (bitSource s) with
    | .error err => .error err
    | .ok (i, k) => .ok (i, advanceBits s k)
  else if isAdpcm e then
    match decodeBytes (decodeCtx s e) (adpcmSource s) with
    | .error err => .error err
    | .ok (i, _) => .ok (i, s)
  else
    match decodeBytes (decodeCtx s e) (rawSource s) with
    | .error err => .error err
    | .ok (i, k) => .ok (i, advanceRaw s k)

/-- The meaning of an element inside a command: the same definitions exec calls. No stream holds a host command, so
those rows change nothing here. -/
def runElement (i : Instr) (s : State) : Host.Outcome State Fault Refusal :=
  match i with
  | .reset => .next s
  | .lzxFrame => .next s
  | .adpcmBlock => .next s
  | .cmdReserved _ => .next s
  | .streamHdr => execStreamHdr s
  | .streamHdrE8 fs => execStreamHdrE8 fs s
  | .blkVerbatim b => execBlkVerbatim b s
  | .blkAligned b => execBlkAligned b s
  | .blkUncompressed b => execBlkUncompressed b s
  | .blkReserved0 b => execBlkReserved0 b s
  | .blkReserved4to7 t b => execBlkReserved4to7 t b s
  | .uncBody p => execUncBody p s
  | .alignLengths ls => execAlignLengths ls s
  | .pretreeLengths ls => execPretreeLengths ls s
  | .preDelta d => execPreDelta d s
  | .preDelta16 => execPreDelta16 s
  | .preZrun17 n => execPreZrun17 n s
  | .preZrun18 n => execPreZrun18 n s
  | .preRep19 b d => execPreRep19 b d s
  | .lit b => execLit b s
  | .matchRep0 lh f => execMatchRep0 lh f s
  | .matchRep1 lh f => execMatchRep1 lh f s
  | .matchRep2 lh f => execMatchRep2 lh f s
  | .matchOff1 lh f => execMatchOff1 lh f s
  | .matchS4to7 sl lh f v => execMatchS4to7 sl lh f v s
  | .matchS8to9 sl lh f o => execMatchS8to9 sl lh f o s
  | .matchS10to11 sl lh f o => execMatchS10to11 sl lh f o s
  | .matchS12to15 sl lh f o => execMatchS12to15 sl lh f o s
  | .matchS16to31 sl lh f o => execMatchS16to31 sl lh f o s
  | .lenFooter f => execLenFooter f s
  | .alignSym a => execAlignSym a s
  | .adpcmMonoPreamble p d a b => execAdpcmMonoPreamble p d a b s
  | .adpcmStereoPreamble pL pR dL dR aL aR bL bR => execAdpcmStereoPreamble pL pR dL dR aL aR bL bR s
  | .adpcmMonoByte h l => execAdpcmMonoByte h l s
  | .adpcmStereoByte h l => execAdpcmStereoByte h l s
  | .adpcmNibble n => execAdpcmNibble n s

/-- One element of the command in progress: fetch and run it, a fault of the fetch being taken. -/
def engineStep (e : Expect) (s : State) : Host.Outcome State Fault Refusal :=
  match fetchElement e s with
  | .error err => .next (takeFault err s)
  | .ok (i, t) => runElement i t

/-- Run the command in progress to its end, at most `fuel` elements (log 13). -/
def runEngine : Nat → State → Host.Outcome State Fault Refusal
  | 0, s => .next s
  | fuel + 1, s =>
    match s.seq.expect with
    | none => .next s
    | some e =>
      match engineStep e s with
      | .next t => runEngine fuel t
      | .fault r => .fault r
      | .refused r => .refused r

/-- More elements than one command can hold: each takes a bit or a byte of input, but for the close of a block, which
follows a header of 27 bits (41_bitstream R141, 45_lzx_frame R239, 70_reset_and_hazards R331; log 13). -/
def workBound (s : State) : Nat := 16 * (s.args.inLen.toNat + 2) + s.args.adpcmBlockBytes.toNat + 16

end Sys2Proof.Machine
end

