-- ==== Sys2Proof/Machine/Commands.lean ====
section
/-! DEFINITION. The meanings of the host commands (40_host_commands R112 to R116). Each is one atomic transaction
(R120). -/

namespace Sys2Proof.Machine

/-- RESET: accepted in any state, and the only way out of FAULTED (40_host_commands R112, 70_reset_and_hazards R310,
60_exceptions R285). -/
def execReset (s : State) : Host.Outcome State Fault Refusal := .next (resetState s)

/-- LZX_FRAME up to its first element: the argument checks, the reader, and the frame loop's first turn
(40_host_commands R114, 41_bitstream R130, 45_lzx_frame R230). -/
def startLzx (s : State) : Except ErrCode State :=
  if s.args.frameSize = 0 ∨ 65535 < s.args.frameSize.toNat then .error .badFrameSize
  else if Config.inCapacity - 2 < s.args.inLen.toNat then .error .badLength
  else
    let t := initReader { s with seq.togo := s.args.frameSize.toNat, seq.run := 0 }
    if t.lzx.hdrRead then continueFrame t else .ok (expectNext .streamHdr t)

/-- ADPCM_BLOCK up to its preamble: the argument checks in order (46_msadpcm R252). -/
def startAdpcm (s : State) : Except ErrCode State :=
  let ch := s.args.adpcmChannels
  let b := s.args.adpcmBlockBytes.toNat
  if ch ≠ 1 ∧ ch ≠ 2 then .error .adpcmBadChannels
  else if b < 7 * ch.toNat ∨ Config.adpcmMaxBlockBytes < b then .error .adpcmBadBlockBytes
  else if Config.inCapacity - 2 < s.args.inLen.toNat then .error .badLength
  else if s.args.inLen.toNat < b then .error .adpcmTruncatedBlock
  else .ok (expectNext .adpcmPreamble { s with seq.apos := 0, seq.emitted := 0 })

/-- Run a command whose start is given, to its end: OUT_COUNT <- 0 first, and a fault of the start is taken. -/
def runCommand (start : State → Except ErrCode State) (s : State) : Host.Outcome State Fault Refusal :=
  let s0 := { s with outCount := 0 }
  match start s0 with
  | .error e => .next (takeFault e s0)
  | .ok t => runEngine (workBound s) t

/-- LZX_FRAME: ignored while FAULTED, else the whole frame (40_host_commands R112, R113, 60_exceptions R283). -/
def execLzxFrame (s : State) : Host.Outcome State Fault Refusal :=
  match s.life with
  | .faulted => .next s
  | .ready => runCommand startLzx s

/-- ADPCM_BLOCK: ignored while FAULTED, else the whole block (40_host_commands R112, R115, 60_exceptions R283). -/
def execAdpcmBlock (s : State) : Host.Outcome State Fault Refusal :=
  match s.life with
  | .faulted => .next s
  | .ready => runCommand startAdpcm s

/-- CMD_RESERVED: BadCommand while READY, ignored while FAULTED (40_host_commands R116, 60_exceptions R283). -/
def execCmdReserved (_v : Word) (s : State) : Host.Outcome State Fault Refusal :=
  match s.life with
  | .faulted => .next s
  | .ready => .next (takeFault .badCommand s)

end Sys2Proof.Machine
end

