-- ==== Sys2Proof/Machine/Dispatch.lean ====
section
/-! DEFINITION. Which meaning each instruction has: one arm per row of spec/opcode_table.json. -/

namespace Sys2Proof.Machine

def exec (i : Instr) (s : State) : Host.Outcome State Fault Refusal :=
  match i with
  | .reset => Sys2Proof.Machine.execReset s
  | .lzxFrame => Sys2Proof.Machine.execLzxFrame s
  | .adpcmBlock => Sys2Proof.Machine.execAdpcmBlock s
  | .cmdReserved v => Sys2Proof.Machine.execCmdReserved v s
  | .streamHdr => Sys2Proof.Machine.execStreamHdr s
  | .streamHdrE8 fs => Sys2Proof.Machine.execStreamHdrE8 fs s
  | .blkVerbatim b => Sys2Proof.Machine.execBlkVerbatim b s
  | .blkAligned b => Sys2Proof.Machine.execBlkAligned b s
  | .blkUncompressed b => Sys2Proof.Machine.execBlkUncompressed b s
  | .blkReserved0 b => Sys2Proof.Machine.execBlkReserved0 b s
  | .blkReserved4to7 t b => Sys2Proof.Machine.execBlkReserved4to7 t b s
  | .uncBody p => Sys2Proof.Machine.execUncBody p s
  | .alignLengths ls => Sys2Proof.Machine.execAlignLengths ls s
  | .pretreeLengths ls => Sys2Proof.Machine.execPretreeLengths ls s
  | .preDelta d => Sys2Proof.Machine.execPreDelta d s
  | .preDelta16 => Sys2Proof.Machine.execPreDelta16 s
  | .preZrun17 n => Sys2Proof.Machine.execPreZrun17 n s
  | .preZrun18 n => Sys2Proof.Machine.execPreZrun18 n s
  | .preRep19 b d => Sys2Proof.Machine.execPreRep19 b d s
  | .lit b => Sys2Proof.Machine.execLit b s
  | .matchRep0 lh f => Sys2Proof.Machine.execMatchRep0 lh f s
  | .matchRep1 lh f => Sys2Proof.Machine.execMatchRep1 lh f s
  | .matchRep2 lh f => Sys2Proof.Machine.execMatchRep2 lh f s
  | .matchOff1 lh f => Sys2Proof.Machine.execMatchOff1 lh f s
  | .matchS4to7 sl lh f v => Sys2Proof.Machine.execMatchS4to7 sl lh f v s
  | .matchS8to9 sl lh f o => Sys2Proof.Machine.execMatchS8to9 sl lh f o s
  | .matchS10to11 sl lh f o => Sys2Proof.Machine.execMatchS10to11 sl lh f o s
  | .matchS12to15 sl lh f o => Sys2Proof.Machine.execMatchS12to15 sl lh f o s
  | .matchS16to31 sl lh f o => Sys2Proof.Machine.execMatchS16to31 sl lh f o s
  | .lenFooter f => Sys2Proof.Machine.execLenFooter f s
  | .alignSym a => Sys2Proof.Machine.execAlignSym a s
  | .adpcmMonoPreamble p d a b => Sys2Proof.Machine.execAdpcmMonoPreamble p d a b s
  | .adpcmStereoPreamble pL pR dL dR aL aR bL bR => Sys2Proof.Machine.execAdpcmStereoPreamble pL pR dL dR aL aR bL bR s
  | .adpcmMonoByte h l => Sys2Proof.Machine.execAdpcmMonoByte h l s
  | .adpcmStereoByte h l => Sys2Proof.Machine.execAdpcmStereoByte h l s
  | .adpcmNibble n => Sys2Proof.Machine.execAdpcmNibble n s

end Sys2Proof.Machine
end

