-- ==== Sys2Proof/Machine/HostBus.lean ====
section
/-! DEFINITION. Host accesses: the register file and the two buffers (20_memory R60, R66, 40_host_commands R110, R111,
R117, R118), and fetching what a step does (log 2, 18). -/

namespace Sys2Proof.Machine

/-- The bytes of an access. -/
def AccessSize.bytes : AccessSize → Nat
  | .b1 => 1
  | .b2 => 2
  | .b4 => 4

/-- Where an access falls (20_memory R60, R66): a register by its offset, IN or OUT by the offset inside it, or
nowhere, and then it is ignored. -/
inductive Target where
  /-- A 4-byte aligned access of a register. -/
  | reg (off : Nat)
  /-- An access wholly inside IN. -/
  | inBuf (o : Nat)
  /-- An access wholly inside OUT. -/
  | outBuf (o : Nat)
  /-- A narrow or misaligned register access, an unmapped offset, or two regions. -/
  | ignored
  deriving DecidableEq, Repr

/-- The target of an access (20_memory R66). -/
def target (addr : Nat) (n : AccessSize) : Target :=
  if addr < 0x40 then if n = .b4 ∧ addr % 4 = 0 then .reg addr else .ignored
  else if 0x10000 ≤ addr ∧ addr + n.bytes ≤ 0x10000 + Config.inCapacity then .inBuf (addr - 0x10000)
  else if 0x30000 ≤ addr ∧ addr + n.bytes ≤ 0x30000 + Config.outCapacity then .outBuf (addr - 0x30000)
  else .ignored

/-- `n` bytes of a buffer, the first the least significant (20_memory R66). -/
def joinBytes (f : Nat → Byte) (o : Nat) : Nat → Nat
  | 0 => 0
  | n + 1 => (f o).toNat + 256 * joinBytes f (o + 1) n

/-- The bytes of a written value, the least significant first (20_memory R66). -/
def splitBytes (v : Word) (n : Nat) : List Byte := (List.range n).map fun i => v.extractLsb' (8 * i) 8

/-- A register whose value is specified, by offset (40_host_commands R110). -/
def readRegister (s : State) (off : Nat) : Word :=
  if off = 0x04 then statusWord s
  else if off = 0x08 then s.args.inLen
  else if off = 0x0C then s.args.frameSize
  else if off = 0x10 then s.args.adpcmChannels
  else if off = 0x14 then s.args.adpcmBlockBytes
  else if off = 0x18 then s.outCount
  else if off = 0x1C then s.lzx.r0
  else if off = 0x20 then s.lzx.r1
  else if off = 0x24 then s.lzx.r2
  else if off = 0x28 then BitVec.ofNat 32 s.lzx.wpos
  else if off = 0x2C then s.lzx.brem.setWidth 32
  else if off = 0x30 then s.lzx.intelFilesize
  else if off = 0x34 then s.lzx.intelCurpos
  else if off = 0x38 then BitVec.ofNat 32 s.lzx.framesRead
  else 0

/-- The bits of a register that are unspecified while FAULTED (40_host_commands R110, R111; log 9, 23). -/
def unspecifiedBits (off : Nat) : Word :=
  if off = 0x04 then statusUnspecified
  else if off = 0x1C then 0xFFFFFFFF
  else if off = 0x20 then 0xFFFFFFFF
  else if off = 0x24 then 0xFFFFFFFF
  else if off = 0x28 then 0x0001FFFF
  else if off = 0x2C then 0x00FFFFFF
  else if off = 0x30 then 0xFFFFFFFF
  else if off = 0x34 then 0xFFFFFFFF
  else if off = 0x38 then 0x0000FFFF
  else 0

/-- A host read of a register. While FAULTED the unspecified bits are a free value, a new one for each read
(40_host_commands R110, R111, 60_exceptions R282; log 9). -/
def hostReadRegister (off : Nat) (s : State) : State :=
  match s.life with
  | .ready => { s with port.rdata := readRegister s off }
  | .faulted =>
    if unspecifiedBits off = 0 then { s with port.rdata := readRegister s off }
    else
      { s with
        port.rdata :=
          (readRegister s off &&& ~~~ unspecifiedBits off) |||
            (Config.unspecifiedView s.viewReads off &&& unspecifiedBits off)
        viewReads := s.viewReads + 1 }

/-- A host write of a register other than CMD: the argument registers keep every bit; the others are read-only
(40_host_commands R110, R117, R118). -/
def hostWriteRegister (off : Nat) (v : Word) (s : State) : State :=
  if off = 0x08 then { s with args.inLen := v }
  else if off = 0x0C then { s with args.frameSize := v }
  else if off = 0x10 then { s with args.adpcmChannels := v }
  else if off = 0x14 then { s with args.adpcmBlockBytes := v }
  else s

/-- `MemRead(addr, n)`: the value goes to `rdata`; an ignored read returns 0 (20_memory R66). -/
def memRead (addr : Nat) (n : AccessSize) (s : State) : State :=
  match target addr n with
  | .reg off => hostReadRegister off s
  | .inBuf o => { s with port.rdata := BitVec.ofNat 32 (joinBytes (inByte s) o n.bytes) }
  | .outBuf o => { s with port.rdata := BitVec.ofNat 32 (joinBytes (outByte s) o n.bytes) }
  | .ignored => { s with port.rdata := 0 }

/-- `MemWrite(addr, n, v)` but for a write of CMD; an ignored write changes nothing (20_memory R66). -/
def memWrite (addr : Nat) (n : AccessSize) (v : Word) (s : State) : State :=
  match target addr n with
  | .reg off => hostWriteRegister off v s
  | .inBuf o => { s with inBuf := Memory.putList s.inBuf o (splitBytes v n.bytes) }
  | .outBuf o => { s with outBuf := Memory.putList s.outBuf o (splitBytes v n.bytes) }
  | .ignored => s

/-- A host access that starts no command. -/
def hostAccess (a : HostAccess) (s : State) : State :=
  match a with
  | .read addr n => memRead addr n s
  | .write addr n v => memWrite addr n v s

/-- What a step finds to do. -/
inductive Fetched where
  /-- An instruction, and the state with its input consumed. -/
  | instr (i : Instr) (s : State)
  /-- A fault raised by decoding. -/
  | raised (e : ErrCode) (s : State)
  /-- A host access that starts no command. -/
  | access (a : HostAccess) (s : State)
  /-- Nothing: the block is idle and the host has issued nothing. -/
  | quiet
  deriving DecidableEq, Repr

/-- Fetch: inside a command the next element; between commands the oldest host access, a 4-byte write of CMD being a
command (40_host_commands R112; log 2). -/
def fetch (s : State) : Fetched :=
  match s.seq.expect with
  | some e =>
    match fetchElement e s with
    | .error err => .raised err s
    | .ok (i, t) => .instr i t
  | none =>
    match s.port.pending with
    | [] => .quiet
    | a :: rest =>
      let t := { s with port.pending := rest }
      match a with
      | .write 0 .b4 v => .instr (decodeCommand v) t
      | a => .access a t

/-! ## Placing a table word (log 16) -/

/-- Byte `j` of a chunk whose bit stream is the bits of `w` and then zeros (20_memory R64, 41_bitstream R132). -/
def chunkByte (n w j : Nat) : Byte :=
  let first := 16 * (j / 2) + (if j % 2 = 0 then 8 else 0)
  BitVec.ofNat 8 ((List.range 8).foldl (fun acc i => 2 * acc + (wordBits n w (first + i)).toNat) 0)

/-- Lay bytes out at the start of IN, IN_LEN being their number. -/
def placeBytes (bs : List Byte) (s : State) : State :=
  { s with inBuf := Memory.putList s.inBuf 0 bs, args.inLen := BitVec.ofNat 32 bs.length }

/-- The place in a command where an element of this kind is decoded next, under the tables of `flatTables`, with a run
of 300 bytes in progress. -/
def placeElement (e : Expect) (stereo : Bool) (s : State) : State :=
  let c := flatTables e stereo
  { s with
    lzx.mainLen := c.main
    lzx.lenLen := c.len
    lzx.alignLen := c.align
    lzx.preLen := c.pre
    rdr := { mode := if e.isBits then .bits else .raw, base := 0, bitpos := 0, rawpos := 0 }
    args.adpcmChannels := if stereo then 2 else 1
    seq.expect := some e
    seq.run := 300
    seq.apos := 0
    seq.emitted := 0 }

/-- Place a word of spec/opcode_table.json where `fetch` takes its next instruction: a command at the head of the
host's accesses, an element in IN at its place inside a command (log 16). -/
def placeWord (s : State) (nbits w : Nat) : State :=
  match tableWord nbits w with
  | none => s
  | some (.command v) =>
    { s with seq.expect := none, port.pending := .write 0 .b4 v :: s.port.pending }
  | some (.bits e n w) => placeBytes ((List.range 16).map (chunkByte n w)) (placeElement e false s)
  | some (.bytes e st w) => placeBytes ((List.range 16).map (wordByte w)) (placeElement e st s)

end Sys2Proof.Machine
end

