-- ==== Sys2Proof/Machine/Step.lean ====
section
/-! DEFINITION. One step of the block (40_host_commands R112, R120; log 2, 3). -/

namespace Sys2Proof.Machine

/-- One step: run the fetched instruction, take the fault its decoding raised, perform a host access, or stay idle. -/
def step (s : State) : Host.Outcome State Fault Refusal :=
  match fetch s with
  | .instr i t => exec i t
  | .raised e t => .next (takeFault e t)
  | .access a t => .next (hostAccess a t)
  | .quiet => .next s

/-- The state with a word of spec/opcode_table.json stored where `step` fetches its next instruction (log 16). -/
def State.withFetchWord (s : State) (nbits w : Nat) : State := placeWord s nbits w

end Sys2Proof.Machine
end

