-- ==== Sys2Proof/Safety.lean ====
section
/-! DEFINITION. The terms the claims use: the invariants of a legal state, runs of steps, what a fault leaves, where an
encoding is read, and a reference for the arithmetic of an ADPCM block over the integers. -/

namespace Sys2Proof.Machine

/-- The memories are canonical and the window and IN list no address outside their ranges (10_state R21, R42). -/
def MemoryOk (s : State) : Prop :=
  Memory.wf (some sentinel) s.lzx.win ∧ Memory.within Config.windowSize s.lzx.win ∧ Memory.wf none s.inBuf ∧
    Memory.within Config.inCapacity s.inBuf ∧ Memory.wf none s.outBuf

/-- The length arrays have their sizes and ranges, and LENLEN[249] is 0 (10_state R24 to R27, 42_huffman R158). -/
def TablesOk (l : Lzx) : Prop :=
  (l.mainLen.length = 512 ∧ ∀ x ∈ l.mainLen, x ≤ 16) ∧ (l.lenLen.length = 250 ∧ ∀ x ∈ l.lenLen, x ≤ 16) ∧
    l.lenLen.getD 249 0 = 0 ∧ (l.alignLen.length = 8 ∧ ∀ x ∈ l.alignLen, x ≤ 7) ∧
    (l.preLen.length = 20 ∧ ∀ x ∈ l.preLen, x ≤ 15)

/-- The position of a length section is inside the section while an element of it is due (43_lzx_block_headers R177). -/
def SectionOk (s : State) : Prop := s.seq.expect = some .preSym → s.seq.x < sectionLast s.seq.sect

/-- Whether a run is in progress. -/
def inRun (s : State) : Prop := s.seq.expect = some .element ∨ s.seq.expect = some .uncData

/-- WPOS and FRAMES_READ are in range, and a run in progress has a byte to go and stays inside the window
(10_state R22, R33, 45_lzx_frame R232). -/
def CursorsOk (s : State) : Prop :=
  s.lzx.wpos ≤ 65536 ∧ s.lzx.framesRead ≤ 32768 ∧ (inRun s → 1 ≤ s.seq.run ∧ s.lzx.wpos + s.seq.run ≤ 65536)

/-- LIFE, ERRCODE and OUT_COUNT agree, and no command is in progress while FAULTED (10_state R38, R39, R41). -/
def LifeOk (s : State) : Prop :=
  (s.life = .ready → s.errcode = 0) ∧
    (s.life = .faulted → s.outCount = 0 ∧ s.seq.expect = none ∧ ∃ e, s.errcode = faultCode e)

/-- `k` steps of the machine, all answering a next state, lead from one state to another. -/
def StepsTo : Nat → State → State → Prop
  | 0, s, t => s = t
  | k + 1, s, t => ∃ u, step s = .next u ∧ StepsTo k u t

/-! ## Faults -/

/-- `t` is `s` after the fault `e`: what 60_exceptions R280 and R282 fix. OUT, the LZX state and the ADPCM state are
unspecified there, so nothing is said of them. -/
def FaultTaken (e : ErrCode) (s t : State) : Prop :=
  t.life = .faulted ∧ t.errcode = faultCode e ∧ t.outCount = 0 ∧ t.seq.expect = none ∧ t.inBuf = s.inBuf ∧
    t.args = s.args ∧ t.port = s.port ∧ t.e8Policy = s.e8Policy

/-- `exec` takes the fault `e`. -/
def Raises (i : Instr) (s : State) (e : ErrCode) : Prop := ∃ t, exec i s = .next t ∧ FaultTaken e s t

/-! ## Length arrays -/

/-- K(L), the Kraft sum scaled to 2^16, over the array itself (42_huffman R151). -/
def kraftSum (ls : List Nat) : Nat := (ls.map fun l => if l = 0 then 0 else 2 ^ (16 - l)).sum

/-- A length array a table can be built from: lengths 0 to 16, not OVERSUBSCRIBED (42_huffman R151, R158). -/
def Buildable (ls : List Nat) : Prop := (∀ x ∈ ls, x ≤ 16) ∧ kraftSum ls ≤ 65536

/-- The part of the scale 0..2^16 that the codes before symbol `sym` of length `len` take: those of the shorter lengths,
and those of its own length and a lower symbol (42_huffman R150). -/
def shareBefore (ls : List Nat) (len sym : Nat) : Nat :=
  ((List.range ls.length).map fun s =>
    if ls.getD s 0 ≠ 0 ∧ (ls.getD s 0 < len ∨ ls.getD s 0 = len ∧ s < sym) then 2 ^ (16 - ls.getD s 0) else 0).sum

/-- The next bits of a source are the code of a symbol, most significant bit first (42_huffman R150). -/
def CodeAt (src : BitSource) (pos : Nat) (c : HuffCode) : Prop :=
  ∀ i, i < c.len → src (pos + i) = some (c.code.testBit (c.len - 1 - i))

/-- The state once a pretree element has written `v` at `n` positions from `x` on and moved past them
(43_lzx_block_headers R177). -/
def runWritten (n v : Nat) (s : State) : State :=
  { setSectionArray
      ((List.range (sectionArray s).length).map fun j =>
        if s.seq.x ≤ j ∧ j < s.seq.x + n then v else (sectionArray s).getD j 0) s with
    seq.x := s.seq.x + n }

/-- `(old - d) mod 17`, the remainder being non-negative (43_lzx_block_headers R178). -/
def lengthMinus (old d : Nat) : Nat := (((old : Int) - (d : Int)) % 17).toNat

/-! ## Matches -/

/-- The match length (44_lzx_symbols R203). -/
def matchLength (lh : BitVec 3) (f : Byte) : Nat := if lh = 7 then 7 + f.toNat + 2 else lh.toNat + 2

/-- The extra value V of offset bits (30_encoding R94). -/
def offsetValue : OffBits → Nat
  | .raw v => v.toNat
  | .split v a => v.toNat * 8 + a.toNat

/-- A match of an explicit slot after its copy: the offset is pushed (44_lzx_symbols R207 to R212, R215). -/
def explicitCopied (slot : Nat) (lh : BitVec 3) (f : Byte) (v : Nat) (s : State) : State :=
  copyMatch (positionBase slot - 2 + v) (matchLength lh f)
    { s with
      lzx.r0 := BitVec.ofNat 32 (positionBase slot - 2 + v)
      lzx.r1 := s.lzx.r0
      lzx.r2 := s.lzx.r1
      seq.mlen := matchLength lh f
      seq.mext := v }

/-- A match whose copy leaves `u` completes: inside its run the state is `u`, at the run's end the frame loop takes its
next turn from `u` (44_lzx_symbols R202, 45_lzx_frame R233). -/
def MatchCompletes (i : Instr) (len : Nat) (s u : State) : Prop :=
  (len < s.seq.run → exec i s = .next u) ∧ (len = s.seq.run → exec i s = .next (settle s (continueFrame u)))

/-! ## Encodings -/

/-- The offset bits of a slot of 8 or above have the form the block's type gives them (30_encoding R94). -/
def offsetInBlock (aligned : Bool) : OffBits → Prop
  | .raw _ => aligned = false
  | .split _ _ => aligned = true

/-- The place where an instruction's encoding is read (30_encoding R80 to R99); a command is read at CMD. -/
def readIn (c : DecodeCtx) : Instr → Prop
  | .reset => True
  | .lzxFrame => True
  | .adpcmBlock => True
  | .cmdReserved _ => True
  | .streamHdr => c.expect = .streamHdr
  | .streamHdrE8 _ => c.expect = .streamHdr
  | .blkVerbatim _ => c.expect = .blockHdr
  | .blkAligned _ => c.expect = .blockHdr
  | .blkUncompressed _ => c.expect = .blockHdr
  | .blkReserved0 _ => c.expect = .blockHdr
  | .blkReserved4to7 _ _ => c.expect = .blockHdr
  | .uncBody (.offsets _ _ _) => c.expect = .uncOffsets
  | .uncBody (.data _) => c.expect = .uncData
  | .uncBody (.close p) => c.expect = .uncClose ∧ c.padded = p.isSome
  | .alignLengths _ => c.expect = .alignLens
  | .pretreeLengths _ => c.expect = .preLens
  | .preDelta _ => c.expect = .preSym
  | .preDelta16 => c.expect = .preSym
  | .preZrun17 _ => c.expect = .preSym
  | .preZrun18 _ => c.expect = .preSym
  | .preRep19 _ _ => c.expect = .preSym
  | .lit _ => c.expect = .element
  | .matchRep0 _ _ => c.expect = .element
  | .matchRep1 _ _ => c.expect = .element
  | .matchRep2 _ _ => c.expect = .element
  | .matchOff1 _ _ => c.expect = .element
  | .matchS4to7 _ _ _ _ => c.expect = .element
  | .matchS8to9 _ _ _ o => c.expect = .element ∧ offsetInBlock c.aligned o
  | .matchS10to11 _ _ _ o => c.expect = .element ∧ offsetInBlock c.aligned o
  | .matchS12to15 _ _ _ o => c.expect = .element ∧ offsetInBlock c.aligned o
  | .matchS16to31 _ _ _ o => c.expect = .element ∧ offsetInBlock c.aligned o
  | .lenFooter _ => c.expect = .lenFooter
  | .alignSym _ => c.expect = .alignSym
  | .adpcmMonoPreamble _ _ _ _ => c.expect = .adpcmPreamble ∧ c.stereo = false
  | .adpcmStereoPreamble _ _ _ _ _ _ _ _ => c.expect = .adpcmPreamble ∧ c.stereo = true
  | .adpcmMonoByte _ _ => c.expect = .adpcmByte ∧ c.stereo = false
  | .adpcmStereoByte _ _ => c.expect = .adpcmByte ∧ c.stereo = true
  | .adpcmNibble _ => c.expect = .adpcmNibble

/-- The instructions whose encoding holds no Huffman code. -/
def fixedLayout : Instr → Bool
  | .preDelta _ => false
  | .preDelta16 => false
  | .preZrun17 _ => false
  | .preZrun18 _ => false
  | .preRep19 _ _ => false
  | .lit _ => false
  | .matchRep0 _ _ => false
  | .matchRep1 _ _ => false
  | .matchRep2 _ _ => false
  | .matchOff1 _ _ => false
  | .matchS4to7 _ _ _ _ => false
  | .matchS8to9 _ _ _ _ => false
  | .matchS10to11 _ _ _ _ => false
  | .matchS12to15 _ _ _ _ => false
  | .matchS16to31 _ _ _ _ => false
  | .lenFooter _ => false
  | .alignSym _ => false
  | _ => true

/-! ## ADPCM reference -/

/-- `wrap_s16` over the integers (00_scope R9). -/
def wrapInt16 (v : Int) : Int := (v + 32768) % 65536 - 32768

/-- A channel whose registers are integers. -/
structure RefChannel where
  pred : Nat
  delta : Int
  s1 : Int
  s2 : Int
  deriving DecidableEq, Repr

/-- The signed reading of a nibble (30_encoding R99). -/
def signedNibble (n : Nat) : Int := if 8 ≤ n then (n : Int) - 16 else n

/-- The sample of `Expand(c, N)` over the integers (46_msadpcm R255 to R257). -/
def refSample (c : RefChannel) (n : Nat) : Int :=
  max (-32768) (min 32767 (Int.tdiv (c.s1 * coef1 c.pred + c.s2 * coef2 c.pred) 256 + signedNibble n * c.delta))

/-- `NewDelta(N, d)` over the integers (46_msadpcm R258; log 27). -/
def refDelta (n : Nat) (d : Int) : Int := max 16 (wrapInt16 (Int.tdiv (adapt (BitVec.ofNat 4 n) * d) 256))

/-- The channel after `Expand(c, N)`. -/
def refChannel (c : RefChannel) (n : Nat) : RefChannel :=
  { pred := c.pred, delta := refDelta n c.delta, s1 := refSample c n, s2 := c.s1 }

/-- The samples of a mono body (46_msadpcm R259). -/
def refMono : RefChannel → List Byte → List Int
  | _, [] => []
  | c, b :: bs =>
    let h := b.toNat / 16
    let l := b.toNat % 16
    refSample c h :: refSample (refChannel c h) l :: refMono (refChannel (refChannel c h) l) bs

/-- The samples of a stereo body (46_msadpcm R260). -/
def refStereo : RefChannel → RefChannel → List Byte → List Int
  | _, _, [] => []
  | cl, cr, b :: bs =>
    let h := b.toNat / 16
    let l := b.toNat % 16
    refSample cl h :: refSample cr l :: refStereo (refChannel cl h) (refChannel cr l) bs

/-- The s16 at offset `o` of a block, least significant byte first (20_memory R64). -/
def refS16 (f : Nat → Byte) (o : Nat) : Int := wrapInt16 ((f o).toNat + 256 * (f (o + 1)).toNat)

/-- Bytes `first` to `last - 1` of a block. -/
def refBody (f : Nat → Byte) (first last : Nat) : List Byte := (List.range (last - first)).map fun i => f (first + i)

/-- The samples of a block of `size` bytes, in the order they are emitted (46_msadpcm R253, R254, R259, R260). -/
def refBlock (stereo : Bool) (f : Nat → Byte) (size : Nat) : List Int :=
  if stereo then
    refS16 f 10 :: refS16 f 12 :: refS16 f 6 :: refS16 f 8 ::
      refStereo { pred := (f 0).toNat, delta := refS16 f 2, s1 := refS16 f 6, s2 := refS16 f 10 }
        { pred := (f 1).toNat, delta := refS16 f 4, s1 := refS16 f 8, s2 := refS16 f 12 } (refBody f 14 size)
  else
    refS16 f 5 :: refS16 f 3 ::
      refMono { pred := (f 0).toNat, delta := refS16 f 1, s1 := refS16 f 3, s2 := refS16 f 5 } (refBody f 7 size)

/-- From `s` to `t` the samples `vs` were emitted and OUT is otherwise as it was (46_msadpcm R263). -/
def Emits (vs : List Half) (s t : State) : Prop :=
  t.seq.emitted = s.seq.emitted + vs.length ∧
    ∀ o, outByte t o =
      if 2 * s.seq.emitted ≤ o ∧ o < 2 * (s.seq.emitted + vs.length) then
        (vs.getD (o / 2 - s.seq.emitted) 0).extractLsb' (8 * (o % 2)) 8
      else outByte s o

/-- From `s` to `t` an ADPCM element ended at offset `o`: the block goes on, or it ends and OUT_COUNT is twice the
samples emitted; nothing outside the ADPCM engine, OUT and OUT_COUNT changed (46_msadpcm R259, R260, R263). -/
def BlockContinues (o : Nat) (s t : State) : Prop :=
  t.seq.apos = o ∧
    (o < s.args.adpcmBlockBytes.toNat → t.seq.expect = some .adpcmByte ∧ t.outCount = s.outCount) ∧
    (s.args.adpcmBlockBytes.toNat ≤ o → t.seq.expect = none ∧ t.outCount = BitVec.ofNat 32 (2 * t.seq.emitted)) ∧
    t.lzx = s.lzx ∧ t.rdr = s.rdr ∧ t.life = s.life ∧ t.errcode = s.errcode ∧ t.args = s.args ∧ t.inBuf = s.inBuf ∧
    t.e8Policy = s.e8Policy ∧ t.port = s.port

end Sys2Proof.Machine
end

