-- ==== Sys2Proof/Certificates/Slice0/Obligations.lean ====
section
/-! DEFINITION. The statements for the provers. Each docstring names the rules of spec/ a statement formalises, and the log
entry where it speaks of the model's own choice. -/

open Sys2Proof Sys2Proof.Machine

/-! ## Reset, lifecycle and faults -/

/-- 70_reset_and_hazards R310: what RESET sets, what it leaves alone, and what the host then reads. -/
def Obligations.ResetEstablishesTheResetState : Prop :=
  ∀ s : State, ∃ t, exec .reset s = .next t ∧
    t =
      { s with
        lzx :=
          { win := [], wpos := 0, r0 := 1, r1 := 1, r2 := 1, mainLen := List.replicate 512 0,
            lenLen := List.replicate 250 0, alignLen := List.replicate 8 0, preLen := List.replicate 20 0,
            hdrRead := false, btype := 0, blen := 0, brem := 0, intelFilesize := 0, intelStarted := false,
            intelCurpos := 0, framesRead := 0, e8Skipped := false }
        life := .ready
        errcode := 0
        outCount := 0 } ∧
    (∀ i : Int, winGet t.lzx.win i = 0xDC) ∧
    (hostAccess (.read 0x04 .b4) t).port.rdata = 1 ∧
    (∀ off ∈ [0x1C, 0x20, 0x24], (hostAccess (.read off .b4) t).port.rdata = 1) ∧
    ∀ off ∈ [0x28, 0x2C, 0x30, 0x34, 0x38], (hostAccess (.read off .b4) t).port.rdata = 0

/-- 70_reset_and_hazards R313: one RESET after any history gives the state of a RESET after power-on but for the elements
R310 leaves alone (and the model's own fields), and a second RESET changes nothing. -/
def Obligations.ResetIsIdempotentAfterAnyHistory : Prop :=
  ∀ s : State, ∃ t p, exec .reset s = .next t ∧ exec .reset t = .next t ∧ exec .reset State.powerOn = .next p ∧
    t =
      { p with
        rdr := s.rdr, adpcm := s.adpcm, args := s.args, inBuf := s.inBuf, outBuf := s.outBuf,
        e8Policy := s.e8Policy, seq := s.seq, port := s.port, outEpoch := s.outEpoch, viewReads := s.viewReads }

/-- 70_reset_and_hazards R311: FAULTED with NotReset and OUT_COUNT 0 at power-on; every CMD write but RESET is ignored; RESET
leads to State.reset (the values the spec leaves unspecified at power-on are the model's, log 1 and 11). -/
def Obligations.PowerOnAcceptsOnlyReset : Prop :=
  State.powerOn.life = .faulted ∧ State.powerOn.errcode = 0x02 ∧ State.powerOn.outCount = 0 ∧
    ((hostAccess (.read 0x04 .b4) State.powerOn).port.rdata.extractLsb' 0 2 = 0b10 ∧
      (hostAccess (.read 0x04 .b4) State.powerOn).port.rdata.extractLsb' 8 8 = 0x02) ∧
    (∀ v : Word, v ≠ 1 → exec (decodeCommand v) State.powerOn = .next State.powerOn) ∧
    exec (decodeCommand 1) State.powerOn = .next State.reset

/-- 60_exceptions R283: while FAULTED every command but RESET is ignored, host writes still take effect, and RESET is
accepted. -/
def Obligations.FaultedBlockIgnoresEveryCommandButReset : Prop :=
  ∀ s : State, s.life = .faulted →
    (∀ v : Word, v ≠ 1 → exec (decodeCommand v) s = .next s) ∧
    (∀ v : Word,
      (hostAccess (.write 0x08 .b4 v) s).args.inLen = v ∧ (hostAccess (.write 0x0C .b4 v) s).args.frameSize = v ∧
        (hostAccess (.write 0x10 .b4 v) s).args.adpcmChannels = v ∧
        (hostAccess (.write 0x14 .b4 v) s).args.adpcmBlockBytes = v) ∧
    (∀ (o : Nat) (v : Word), o < 131072 →
      inByte (hostAccess (.write (0x10000 + o) .b1 v) s) o = v.setWidth 8 ∧
        outByte (hostAccess (.write (0x30000 + o) .b1 v) s) o = v.setWidth 8) ∧
    ∃ t, exec (decodeCommand 1) s = .next t ∧ t.life = .ready

/-- 30_encoding R80, 40_host_commands R116: the four kinds of CMD value; one other than 1, 2 and 3, 0 included, raises
BadCommand while READY and is ignored while FAULTED. -/
def Obligations.CommandCodesDecodeAndReservedOnesFault : Prop :=
  decodeCommand 1 = .reset ∧ decodeCommand 2 = .lzxFrame ∧ decodeCommand 3 = .adpcmBlock ∧
    faultCode .badCommand = 0x01 ∧
    (∀ (c : DecodeCtx) (v : Word), encode c (decodeCommand v) = some (.command v)) ∧
    ∀ (s : State) (v : Word), v ≠ 1 → v ≠ 2 → v ≠ 3 → decodeCommand v = .cmdReserved v ∧
      (s.life = .ready → Raises (.cmdReserved v) s .badCommand) ∧
      (s.life = .faulted → exec (.cmdReserved v) s = .next s)

/-- 60_exceptions R280, R281: fault entry latches the code, becomes FAULTED, zeroes OUT_COUNT, ends the command, and writes
neither IN nor the argument registers; STATUS shows it at the next access; every fault has its own nonzero code. OUT
becomes unspecified (R282, log 8). -/
def Obligations.FaultEntryLatchesTheCode : Prop :=
  (∀ (e : ErrCode) (s : State),
    takeFault e s =
      { s with
        errcode := faultCode e, life := .faulted, outCount := 0, outBuf := [], outEpoch := s.outEpoch + 1,
        seq := { s.seq with expect := none } } ∧
    (hostAccess (.read 0x04 .b4) (takeFault e s)).port.rdata.extractLsb' 0 2 = 0b10 ∧
    (hostAccess (.read 0x04 .b4) (takeFault e s)).port.rdata.extractLsb' 8 8 = faultCode e) ∧
  [.badCommand, .notReset, .badFrameSize, .badLength, .badBlockType, .inputOverrun, .rawOverrun, .huffmanOversubscribed,
      .emptyTableLookup, .unassignedCode, .lengthRunOverrun, .badPretreeRepeat, .badMatchOffset, .matchOverrun,
      .runStraddlesWindow, .e8TranslationRequired, .adpcmBadChannels, .adpcmBadBlockBytes, .adpcmTruncatedBlock,
      .adpcmBadPredictor].map faultCode =
    [0x01, 0x02, 0x03, 0x04, 0x10, 0x11, 0x12, 0x13, 0x14, 0x15, 0x16, 0x17, 0x18, 0x19, 0x1A, 0x1B, 0x20, 0x21, 0x22,
      0x23] ∧
  (∀ e : ErrCode, faultCode e ≠ 0) ∧ ∀ e f : ErrCode, faultCode e = faultCode f → e = f

/-! ## Host accesses -/

/-- 40_host_commands R111: the fields of STATUS; while FAULTED only fields 2 to 6 and 16 may differ from them. -/
def Obligations.StatusRegisterFields : Prop :=
  (∀ s : State,
    (statusWord s).getLsbD 0 = decide (s.life = .ready) ∧ (statusWord s).getLsbD 1 = decide (s.life = .faulted) ∧
      (statusWord s).getLsbD 2 = s.lzx.e8Skipped ∧ (statusWord s).getLsbD 3 = s.lzx.hdrRead ∧
      (statusWord s).extractLsb' 4 3 = s.lzx.btype ∧ (statusWord s).getLsbD 7 = false ∧
      (statusWord s).extractLsb' 8 8 = s.errcode ∧ (statusWord s).getLsbD 16 = s.lzx.intelStarted ∧
      (statusWord s).extractLsb' 17 15 = 0 ∧
      (s.life = .ready → (hostAccess (.read 0x04 .b4) s).port.rdata = statusWord s) ∧
      ∀ i, i < 32 → i ∉ [2, 3, 4, 5, 6, 16] →
        (hostAccess (.read 0x04 .b4) s).port.rdata.getLsbD i = (statusWord s).getLsbD i) ∧
  ∀ s : State, ∃ t, exec .reset s = .next t ∧ (hostAccess (.read 0x04 .b4) t).port.rdata = 0x00000001

/-- 40_host_commands R110: what each register reads as while READY; an argument register and OUT_COUNT also while FAULTED.
WPOS and FRAMES_READ are held as numbers and read as their low bits (log 25). -/
def Obligations.RegisterReadsShowTheState : Prop :=
  ∀ s : State,
    ((hostAccess (.read 0x00 .b4) s).port.rdata = 0 ∧ (hostAccess (.read 0x08 .b4) s).port.rdata = s.args.inLen ∧
      (hostAccess (.read 0x0C .b4) s).port.rdata = s.args.frameSize ∧
      (hostAccess (.read 0x10 .b4) s).port.rdata = s.args.adpcmChannels ∧
      (hostAccess (.read 0x14 .b4) s).port.rdata = s.args.adpcmBlockBytes ∧
      (hostAccess (.read 0x18 .b4) s).port.rdata = s.outCount ∧ (hostAccess (.read 0x3C .b4) s).port.rdata = 0) ∧
    (s.life = .ready →
      (hostAccess (.read 0x1C .b4) s).port.rdata = s.lzx.r0 ∧ (hostAccess (.read 0x20 .b4) s).port.rdata = s.lzx.r1 ∧
        (hostAccess (.read 0x24 .b4) s).port.rdata = s.lzx.r2 ∧
        (hostAccess (.read 0x28 .b4) s).port.rdata = BitVec.ofNat 32 s.lzx.wpos ∧
        (hostAccess (.read 0x2C .b4) s).port.rdata = s.lzx.brem.setWidth 32 ∧
        (hostAccess (.read 0x30 .b4) s).port.rdata = s.lzx.intelFilesize ∧
        (hostAccess (.read 0x34 .b4) s).port.rdata = s.lzx.intelCurpos ∧
        (hostAccess (.read 0x38 .b4) s).port.rdata = BitVec.ofNat 32 s.lzx.framesRead)

/-- 40_host_commands R117: a write of an argument register changes that register alone, every bit kept, and no command and
no RESET changes it afterwards. -/
def Obligations.ArgumentRegistersKeepWhatTheHostWrote : Prop :=
  (∀ (s : State) (v : Word),
    hostAccess (.write 0x08 .b4 v) s = { s with args.inLen := v } ∧
      hostAccess (.write 0x0C .b4 v) s = { s with args.frameSize := v } ∧
      hostAccess (.write 0x10 .b4 v) s = { s with args.adpcmChannels := v } ∧
      hostAccess (.write 0x14 .b4 v) s = { s with args.adpcmBlockBytes := v }) ∧
  ∀ (v : Word) (s t : State), exec (decodeCommand v) s = .next t → t.args = s.args

/-- 40_host_commands R118, 70_reset_and_hazards R328: register reads have no side effect (they leave the value read, and the
model's count of free reads, log 9 and 18); a write of a read-only register or of 0x3C, a narrow or misaligned register
access, and an access that touches an unmapped offset or two regions are ignored, such a read returning 0. -/
def Obligations.RegisterReadsAndIllPlacedAccessesHaveNoEffect : Prop :=
  ∀ s : State,
    (∀ (off : Nat) (n : AccessSize), off < 0x40 →
      ∃ r k, hostAccess (.read off n) s = { s with port := { s.port with rdata := r }, viewReads := k }) ∧
    (∀ (v : Word), ∀ off ∈ [0x04, 0x18, 0x1C, 0x20, 0x24, 0x28, 0x2C, 0x30, 0x34, 0x38, 0x3C],
      hostAccess (.write off .b4 v) s = s) ∧
    ∀ (addr : Nat) (n : AccessSize) (v : Word),
      (addr < 0x40 ∧ (n ≠ .b4 ∨ addr % 4 ≠ 0) ∨
        0x40 ≤ addr ∧ ¬ (0x10000 ≤ addr ∧ addr + n.bytes ≤ 0x30000) ∧ ¬ (0x30000 ≤ addr ∧ addr + n.bytes ≤ 0x50000)) →
      hostAccess (.write addr n v) s = s ∧
        hostAccess (.read addr n) s = { s with port := { s.port with rdata := 0 } }

/-- 20_memory R66: an access wholly in IN or OUT is performed at any alignment, little-endian; it changes the bytes it names
and nothing else, OUT_COUNT included, and the host reads back what it wrote. -/
def Obligations.BufferAccessesAreLittleEndianAtAnyAlignment : Prop :=
  ∀ (s : State) (o : Nat) (n : AccessSize) (v : Word), o + n.bytes ≤ 131072 →
    (∃ m, hostAccess (.write (0x10000 + o) n v) s = { s with inBuf := m } ∧
      ∀ p, inByte { s with inBuf := m } p =
        if o ≤ p ∧ p < o + n.bytes then v.extractLsb' (8 * (p - o)) 8 else inByte s p) ∧
    (∃ m, hostAccess (.write (0x30000 + o) n v) s = { s with outBuf := m } ∧
      ∀ p, outByte { s with outBuf := m } p =
        if o ≤ p ∧ p < o + n.bytes then v.extractLsb' (8 * (p - o)) 8 else outByte s p) ∧
    (∃ r, hostAccess (.read (0x10000 + o) n) s = { s with port := { s.port with rdata := r } } ∧
      ∀ k, k < 4 → r.extractLsb' (8 * k) 8 = if k < n.bytes then inByte s (o + k) else 0) ∧
    ∃ r, hostAccess (.read (0x30000 + o) n) s = { s with port := { s.port with rdata := r } } ∧
      ∀ k, k < 4 → r.extractLsb' (8 * k) 8 = if k < n.bytes then outByte s (o + k) else 0

/-- 20_memory R61, R75, 60_exceptions R280: no instruction writes IN, an argument register, the policy or the host's side. -/
def Obligations.EveryInstructionLeavesTheHostSideAlone : Prop :=
  ∀ (i : Instr) (s t : State), exec i s = .next t →
    t.inBuf = s.inBuf ∧ t.args = s.args ∧ t.e8Policy = s.e8Policy ∧ t.port = s.port ∧ t.viewReads = s.viewReads

/-! ## The bit reader -/

/-- 41_bitstream R132, R133: where bit i of the stream lies, and exactly when consuming it raises InputOverrun. -/
def Obligations.StreamBitsAndTheSlackBound : Prop :=
  ∀ (s : State) (i : Nat),
    (s.args.inLen.toNat + 2 ≤ s.rdr.base + 2 * (i / 16) + 1 →
      streamBit s i = none ∧ readBits (streamBit s) i 1 = .error .inputOverrun) ∧
    (s.rdr.base + 2 * (i / 16) + 1 < s.args.inLen.toNat + 2 →
      streamBit s i =
        some
          ((inByte s (s.rdr.base + 2 * (i / 16) + 1) ++ inByte s (s.rdr.base + 2 * (i / 16))).getLsbD (15 - i % 16)))

/-- 41_bitstream R134: n bits, the first the most significant; InputOverrun exactly when one of them is missing; no bits
give 0. (That BITPOS advances by n is said where a step runs the fetched instruction.) -/
def Obligations.ReadBitsIsMostSignificantFirst : Prop :=
  ∀ (src : BitSource) (pos n : Nat),
    ((∀ i, i < n → (src (pos + i)).isSome) →
      ∃ v, readBits src pos n = .ok v ∧ v < 2 ^ n ∧ ∀ i, i < n → src (pos + i) = some (v.testBit (n - 1 - i))) ∧
    (∀ i, i < n → src (pos + i) = none → readBits src pos n = .error .inputOverrun)

/-- 41_bitstream R135: EnterRaw skips 16 - (BITPOS mod 16) pad bits, 1 to 16, and changes MODE and RAWPOS only. -/
def Obligations.EnterRawSkipsOneToSixteenPadBits : Prop :=
  ∀ s : State,
    enterRaw s =
      { s with
        rdr.mode := .raw
        rdr.rawpos :=
          s.rdr.base + 2 * ((s.rdr.bitpos + 15) / 16) + (if s.rdr.bitpos % 16 = 0 then 2 else 0) } ∧
    8 * (enterRaw s).rdr.rawpos = 8 * s.rdr.base + s.rdr.bitpos + (16 - s.rdr.bitpos % 16)

/-! ## Huffman tables -/

/-- 42_huffman R151, R152: a build raises HuffmanOversubscribed exactly when the Kraft sum passes 2^16. -/
def Obligations.KraftSumDecidesTheBuild : Prop :=
  ∀ ls : List Nat,
    (65536 < kraftSum ls → buildTable ls = .error .huffmanOversubscribed) ∧
      (kraftSum ls ≤ 65536 → buildTable ls = .ok ())

/-- 42_huffman R150, R153: in an array that builds every symbol with a nonzero length has exactly one code, of that length.
On the scale of 2^16 the codes are contiguous from 0, in the order (length, symbol): each begins where the shares of those
before it end. They are prefix-free. -/
def Obligations.CanonicalCodesArePrefixFree : Prop :=
  ∀ ls : List Nat, Buildable ls →
    (∀ c ∈ canon ls,
      1 ≤ c.len ∧ c.code < 2 ^ c.len ∧ ls.getD c.sym 0 = c.len ∧
        c.code * 2 ^ (16 - c.len) = shareBefore ls c.len c.sym ∧
        ∀ d ∈ canon ls,
          (c.len ≤ d.len → d.code / 2 ^ (d.len - c.len) = c.code → c = d) ∧
            (c.len < d.len ∨ c.len = d.len ∧ c.sym < d.sym →
              c.code * 2 ^ (16 - c.len) < d.code * 2 ^ (16 - d.len))) ∧
    ∀ s, ls.getD s 0 ≠ 0 → ∃! c, c ∈ canon ls ∧ c.sym = s

/-- 42_huffman R153, R154: the code of a symbol decodes to that symbol and consumes exactly its length, in every table that
builds. -/
def Obligations.DecodingReturnsTheSymbolOfTheCode : Prop :=
  ∀ (ls : List Nat) (src : BitSource) (pos : Nat), Buildable ls → ∀ c ∈ canon ls, CodeAt src pos c →
    decodeSym ls src pos = .ok (c.sym, c.len)

/-- 42_huffman R154: a table whose one nonzero length is n decodes its symbol for every pattern and consumes n bits. -/
def Obligations.SingleSymbolTableDecodesEveryPattern : Prop :=
  ∀ (size s0 n : Nat) (src : BitSource) (pos : Nat), s0 < size → 1 ≤ n → n ≤ 16 →
    ((∀ i, i < n → (src (pos + i)).isSome) →
      decodeSym ((List.replicate size 0).set s0 n) src pos = .ok (s0, n)) ∧
    (∀ i, i < n → src (pos + i) = none →
      decodeSym ((List.replicate size 0).set s0 n) src pos = .error .inputOverrun)

/-- 42_huffman R155, R156: any decode from an EMPTY table, which builds, raises EmptyTableLookup, whatever bits there are; 16
bits that begin with no code of an INCOMPLETE table raise UnassignedCode; InputOverrun comes first when the bits run
out. -/
def Obligations.EmptyAndIncompleteTablesFaultOnlyWhenUsed : Prop :=
  ∀ (ls : List Nat) (src : BitSource) (pos : Nat),
    ((∀ x ∈ ls, x = 0) → buildTable ls = .ok () ∧ decodeSym ls src pos = .error .emptyTableLookup) ∧
    (classify ls = .incomplete → buildTable ls = .ok () ∧
      ∀ m, m ≤ 16 → (∀ i, i < m → (src (pos + i)).isSome) →
        (∀ c ∈ canon ls, c.len ≤ m → ¬ CodeAt src pos c) →
        (m = 16 → decodeSym ls src pos = .error .unassignedCode) ∧
          (m < 16 → src (pos + m) = none → decodeSym ls src pos = .error .inputOverrun))

/-! ## Headers -/

/-- 43_lzx_block_headers R170: the stream header sets HDR_READ and, with its field, INTEL_FILESIZE; a block header is due
next where BREM = 0 and no UNCOMPRESSED block precedes (as after RESET), else the frame loop takes its turn. -/
def Obligations.StreamHeaderLoadsTheFilesize : Prop :=
  ∀ (s : State) (fs : Word),
    exec .streamHdr s = .next (settle s (continueFrame { s with lzx.hdrRead := true })) ∧
    exec (.streamHdrE8 fs) s =
      .next (settle s (continueFrame { s with lzx.hdrRead := true, lzx.intelFilesize := fs })) ∧
    (1 ≤ s.seq.togo → s.lzx.brem = 0 → s.lzx.btype ≠ 3 →
      exec .streamHdr s = .next { s with lzx.hdrRead := true, seq.expect := some .blockHdr } ∧
        exec (.streamHdrE8 fs) s =
          .next { s with lzx.hdrRead := true, lzx.intelFilesize := fs, seq.expect := some .blockHdr })

/-- 43_lzx_block_headers R171, R172: BTYPE, BLEN and BREM, and what is due next, for the three block types. -/
def Obligations.BlockHeaderLoadsAndDispatches : Prop :=
  ∀ (s : State) (b : BitVec 24),
    exec (.blkVerbatim b) s =
      .next
        { s with
          lzx.btype := 1, lzx.blen := b, lzx.brem := b, seq.sect := .mainA, seq.expect := some .preLens } ∧
    exec (.blkAligned b) s =
      .next { s with lzx.btype := 2, lzx.blen := b, lzx.brem := b, seq.expect := some .alignLens } ∧
    exec (.blkUncompressed b) s =
      .next
        { s with
          lzx.btype := 3, lzx.blen := b, lzx.brem := b, lzx.intelStarted := true, rdr := (enterRaw s).rdr,
          seq.expect := some .uncOffsets }

/-- 43_lzx_block_headers R176: block types 0 and 4 to 7 raise BadBlockType, once the 27 bits are consumed: a header with
fewer bits left raises InputOverrun instead. -/
def Obligations.ReservedBlockTypesRaiseBadBlockType : Prop :=
  (∀ (s : State) (b : BitVec 24) (t : BitVec 2),
    Raises (.blkReserved0 b) s .badBlockType ∧ Raises (.blkReserved4to7 t b) s .badBlockType) ∧
  faultCode .badBlockType = 0x10 ∧
  (∀ (src : BitSource) (b : BitVec 24) (t : Nat), t < 8 →
    (∀ i, i < 27 → src i = some ((blockHdrBits t b).getD i false)) →
    decodeBlockHdr src =
      .ok
        (if t = 0 then .blkReserved0 b
          else if t = 1 then .blkVerbatim b
          else if t = 2 then .blkAligned b
          else if t = 3 then .blkUncompressed b
          else .blkReserved4to7 (BitVec.ofNat 2 (t - 4)) b, 27)) ∧
  ∀ (src : BitSource) (i : Nat), i < 27 → src i = none → decodeBlockHdr src = .error .inputOverrun

/-- 43_lzx_block_headers R175: the three raw offsets load the cache as they are, 0 or above the window included. A run of
data follows; a block of length 0 (R185) is closed at once; else the frame loop takes its turn. -/
def Obligations.UncompressedOffsetsLoadTheCache : Prop :=
  ∀ (s : State) (a b d : Word),
    exec (.uncBody (.offsets a b d)) s =
      .next (settle s (continueFrame { s with lzx.r0 := a, lzx.r1 := b, lzx.r2 := d })) ∧
    (s.lzx.btype = 3 → 1 ≤ s.seq.togo → s.lzx.brem = 0 →
      exec (.uncBody (.offsets a b d)) s =
        .next { s with lzx.r0 := a, lzx.r1 := b, lzx.r2 := d, seq.expect := some .uncClose }) ∧
    (s.lzx.btype = 3 → 1 ≤ s.seq.togo → s.lzx.brem ≠ 0 →
      s.lzx.wpos % 65536 + min s.lzx.brem.toNat s.seq.togo ≤ 65536 →
      exec (.uncBody (.offsets a b d)) s =
        .next
          { s with
            lzx.r0 := a, lzx.r1 := b, lzx.r2 := d, lzx.wpos := s.lzx.wpos % 65536,
            lzx.brem := BitVec.ofNat 24 (s.lzx.brem.toNat - min s.lzx.brem.toNat s.seq.togo),
            seq.togo := s.seq.togo - min s.lzx.brem.toNat s.seq.togo,
            seq.run := min s.lzx.brem.toNat s.seq.togo, seq.expect := some .uncData })

/-- 43_lzx_block_headers R184, 41_bitstream R138: after an UNCOMPRESSED block the bit stream restarts at the raw cursor and
a block header is due; the pad byte is consumed, its value ignored, exactly when BLEN is odd, and RawOverrun is raised
when it is missing. -/
def Obligations.BitStreamRestartsAfterAnUncompressedBlock : Prop :=
  (∀ (s : State) (p : Option Byte),
    exec (.uncBody (.close p)) s =
      .next
        { s with
          rdr.base := s.rdr.rawpos, rdr.bitpos := 0, rdr.mode := .bits, seq.expect := some .blockHdr }) ∧
  ∀ s : State, s.seq.expect = some .uncClose →
    (s.lzx.blen.toNat % 2 = 0 → fetch s = .instr (.uncBody (.close none)) s) ∧
    (s.lzx.blen.toNat % 2 = 1 → s.rdr.rawpos < s.args.inLen.toNat →
      fetch s =
        .instr (.uncBody (.close (some (inByte s s.rdr.rawpos)))) { s with rdr.rawpos := s.rdr.rawpos + 1 }) ∧
    (s.lzx.blen.toNat % 2 = 1 → s.args.inLen.toNat ≤ s.rdr.rawpos → fetch s = .raised .rawOverrun s)

/-- 43_lzx_block_headers R174, R177: the eight aligned lengths are loaded, ALIGN is built, and MAIN section A follows; the
twenty pretree lengths are loaded whole, PRE is built, and the section starts at its first position; an oversubscribed
array faults. -/
def Obligations.TransmittedLengthsAreLoadedAndBuilt : Prop :=
  ∀ s : State,
    (∀ ls : List (BitVec 3), ls.length = 8 →
      (kraftSum (ls.map BitVec.toNat) ≤ 65536 →
        exec (.alignLengths ls) s =
          .next
            { s with
              lzx.alignLen := ls.map BitVec.toNat, seq.sect := .mainA, seq.expect := some .preLens }) ∧
      (65536 < kraftSum (ls.map BitVec.toNat) → Raises (.alignLengths ls) s .huffmanOversubscribed)) ∧
    ∀ ls : List (BitVec 4), ls.length = 20 →
      (kraftSum (ls.map BitVec.toNat) ≤ 65536 →
        exec (.pretreeLengths ls) s =
          .next
            { s with
              lzx.preLen := ls.map BitVec.toNat, seq.x := sectionFirst s.seq.sect, seq.expect := some .preSym }) ∧
      (65536 < kraftSum (ls.map BitVec.toNat) → Raises (.pretreeLengths ls) s .huffmanOversubscribed)

/-- 43_lzx_block_headers R178: pretree symbols 0 to 16 replace one length by (old - z) mod 17, in 0..16, and move on; every
other length and every other element of the state is unchanged. At the section's last position the section ends. -/
def Obligations.PretreeDeltaRewritesOneLength : Prop :=
  (∀ old d : Nat, lengthMinus old d ≤ 16 ∧ (lengthMinus old d + d) % 17 = old % 17) ∧
  ∀ (i : Instr) (z : Nat), (i = .preDelta16 ∧ z = 16 ∨ ∃ d : BitVec 4, i = .preDelta d ∧ z = d.toNat) →
    ∀ s : State,
      (s.seq.x + 1 < sectionLast s.seq.sect →
        exec i s =
          .next
            { runWritten 1 (lengthMinus ((sectionArray s).getD s.seq.x 0) z) s with
              seq.x := s.seq.x + 1, seq.expect := some .preSym }) ∧
      (sectionLast s.seq.sect ≤ s.seq.x + 1 →
        exec i s =
          .next (settle s (endSection (runWritten 1 (lengthMinus ((sectionArray s).getD s.seq.x 0) z) s))))

/-- 43_lzx_block_headers R179, R180, R182: symbols 17 and 18 write runs of zeros; a run past the section's end raises
LengthRunOverrun, one that ends exactly there ends the section. -/
def Obligations.PretreeZeroRunsStayInTheirSection : Prop :=
  ∀ (i : Instr) (n : Nat),
    ((∃ m : BitVec 4, i = .preZrun17 m ∧ n = 4 + m.toNat) ∨ ∃ m : BitVec 5, i = .preZrun18 m ∧ n = 20 + m.toNat) →
    ∀ s : State,
      (s.seq.x + n < sectionLast s.seq.sect →
        exec i s = .next { runWritten n 0 s with seq.x := s.seq.x + n, seq.expect := some .preSym }) ∧
      (s.seq.x + n = sectionLast s.seq.sect → exec i s = .next (settle s (endSection (runWritten n 0 s)))) ∧
      (sectionLast s.seq.sect < s.seq.x + n → Raises i s .lengthRunOverrun)

/-- 43_lzx_block_headers R181, R182: symbol 19 writes 4 or 5 positions with one value computed from the first position's old
length; a second symbol above 16 raises BadPretreeRepeat before the run is checked. -/
def Obligations.PretreeRepeatUsesTheFirstOldLength : Prop :=
  ∀ (s : State) (b : BitVec 1) (d : BitVec 5) (n v : Nat), n = 4 + b.toNat →
    v = lengthMinus ((sectionArray s).getD s.seq.x 0) d.toNat →
    (16 < d.toNat → Raises (.preRep19 b d) s .badPretreeRepeat) ∧
    (d.toNat ≤ 16 → sectionLast s.seq.sect < s.seq.x + n → Raises (.preRep19 b d) s .lengthRunOverrun) ∧
    (d.toNat ≤ 16 → s.seq.x + n < sectionLast s.seq.sect →
      exec (.preRep19 b d) s =
        .next { runWritten n v s with seq.x := s.seq.x + n, seq.expect := some .preSym }) ∧
    (d.toNat ≤ 16 → s.seq.x + n = sectionLast s.seq.sect →
      exec (.preRep19 b d) s = .next (settle s (endSection (runWritten n v s))))

/-- 30_encoding R87, 43_lzx_block_headers R173, R183: the positions of the three length sections and the array each
rewrites; after MAIN section A comes section B; after B the main table is built, a nonzero
MAINLEN[0xE8] sets INTEL_STARTED, and the LENGTH section follows; after it the length table is built and the frame loop
takes its turn. -/
def Obligations.LengthSectionsFollowInOrder : Prop :=
  (sectionFirst .mainA = 0 ∧ sectionLast .mainA = 256 ∧ sectionFirst .mainB = 256 ∧ sectionLast .mainB = 512 ∧
    sectionFirst .length = 0 ∧ sectionLast .length = 249) ∧
  ∀ s : State,
    (s.seq.sect = .mainA ∨ s.seq.sect = .mainB →
      sectionArray s = s.lzx.mainLen ∧ ∀ ls, setSectionArray ls s = { s with lzx.mainLen := ls }) ∧
    (s.seq.sect = .length →
      sectionArray s = s.lzx.lenLen ∧ ∀ ls, setSectionArray ls s = { s with lzx.lenLen := ls }) ∧
    (s.seq.sect = .mainA → endSection s = .ok { s with seq.sect := .mainB, seq.expect := some .preLens }) ∧
    (s.seq.sect = .mainB →
      (65536 < kraftSum (s.lzx.mainLen.take 512) → endSection s = .error .huffmanOversubscribed) ∧
      (kraftSum (s.lzx.mainLen.take 512) ≤ 65536 →
        endSection s =
          .ok
            { s with
              lzx.intelStarted := s.lzx.intelStarted || decide (s.lzx.mainLen.getD 0xE8 0 ≠ 0),
              seq.sect := .length, seq.expect := some .preLens })) ∧
    (s.seq.sect = .length →
      (65536 < kraftSum (s.lzx.lenLen.take 250) → endSection s = .error .huffmanOversubscribed) ∧
      (kraftSum (s.lzx.lenLen.take 250) ≤ 65536 → endSection s = continueFrame s))

/-! ## Literals and matches -/

/-- 44_lzx_symbols R201, R218: a literal, and a raw data byte, writes one window byte and moves WPOS and run; the repeated
offsets and every other window byte are unchanged; after the last byte of the run the frame loop takes its turn. -/
def Obligations.LiteralsAndRawBytesWriteOneWindowByte : Prop :=
  ∀ (s : State) (b : Byte), ∃ w,
    (∀ i : Int, winGet w i = if winIndex i = s.lzx.wpos % 65536 then b else winGet s.lzx.win i) ∧
    ∀ i : Instr, i = .lit b ∨ i = .uncBody (.data b) →
      (2 ≤ s.seq.run →
        exec i s = .next { s with lzx.win := w, lzx.wpos := s.lzx.wpos + 1, seq.run := s.seq.run - 1 }) ∧
      (s.seq.run = 1 →
        exec i s =
          .next
            (settle s (continueFrame { s with lzx.win := w, lzx.wpos := s.lzx.wpos + 1, seq.run := 0 })))

/-- 44_lzx_symbols R203 to R206: slots 0, 1 and 2 copy from R0, R1 and R2; slot 0 leaves the cache, slot 1 exchanges R0 and
R1, slot 2 exchanges R0 and R2; nothing else changes but the window bytes the copy stores to (the latch `mlen` is the
model's, log 14). -/
def Obligations.RepeatedOffsetMatchesUseTheCache : Prop :=
  ∀ (s : State) (lh : BitVec 3) (f : Byte) (len : Nat), len = matchLength lh f →
    (1 ≤ s.lzx.r0.toNat → s.lzx.r0.toNat ≤ 65536 →
      MatchCompletes (.matchRep0 lh f) len s (copyMatch s.lzx.r0.toNat len { s with seq.mlen := len })) ∧
    (1 ≤ s.lzx.r1.toNat → s.lzx.r1.toNat ≤ 65536 →
      MatchCompletes (.matchRep1 lh f) len s
        (copyMatch s.lzx.r1.toNat len
          { s with lzx.r0 := s.lzx.r1, lzx.r1 := s.lzx.r0, seq.mlen := len })) ∧
    (1 ≤ s.lzx.r2.toNat → s.lzx.r2.toNat ≤ 65536 →
      MatchCompletes (.matchRep2 lh f) len s
        (copyMatch s.lzx.r2.toNat len
          { s with lzx.r0 := s.lzx.r2, lzx.r2 := s.lzx.r0, seq.mlen := len }))

/-- 44_lzx_symbols R207 to R212: slots 3 to 31 copy from positionBase - 2 + V and push that offset, in every form of the
offset bits (the latches `mlen` and `mext` are the model's, log 14). -/
def Obligations.ExplicitOffsetMatchesPushTheirOffset : Prop :=
  ∀ (s : State) (lh : BitVec 3) (f : Byte),
    MatchCompletes (.matchOff1 lh f) (matchLength lh f) s (explicitCopied 3 lh f 0 s) ∧
    (∀ (sl v : BitVec 2), Instr.wf (.matchS4to7 sl lh f v) = true →
      MatchCompletes (.matchS4to7 sl lh f v) (matchLength lh f) s (explicitCopied (4 + sl.toNat) lh f v.toNat s)) ∧
    (∀ (sl : BitVec 1) (o : OffBits), Instr.wf (.matchS8to9 sl lh f o) = true →
      MatchCompletes (.matchS8to9 sl lh f o) (matchLength lh f) s
        (explicitCopied (8 + sl.toNat) lh f (offsetValue o) s)) ∧
    (∀ (sl : BitVec 1) (o : OffBits), Instr.wf (.matchS10to11 sl lh f o) = true →
      MatchCompletes (.matchS10to11 sl lh f o) (matchLength lh f) s
        (explicitCopied (10 + sl.toNat) lh f (offsetValue o) s)) ∧
    (∀ (sl : BitVec 2) (o : OffBits), Instr.wf (.matchS12to15 sl lh f o) = true →
      MatchCompletes (.matchS12to15 sl lh f o) (matchLength lh f) s
        (explicitCopied (12 + sl.toNat) lh f (offsetValue o) s)) ∧
    ∀ (sl : BitVec 4) (o : OffBits), Instr.wf (.matchS16to31 sl lh f o) = true →
      MatchCompletes (.matchS16to31 sl lh f o) (matchLength lh f) s
        (explicitCopied (16 + sl.toNat) lh f (offsetValue o) s)

/-- 44_lzx_symbols R213, R214: every match checks its offset first, then its length; an offset read from the stream never
fails its check. -/
def Obligations.MatchChecksComeInOrder : Prop :=
  ∀ (s : State) (lh : BitVec 3) (f : Byte),
    (∀ (i : Instr) (off : Word),
      (i = .matchRep0 lh f ∧ off = s.lzx.r0 ∨ i = .matchRep1 lh f ∧ off = s.lzx.r1 ∨
        i = .matchRep2 lh f ∧ off = s.lzx.r2) →
      (off.toNat = 0 ∨ 65536 < off.toNat → Raises i s .badMatchOffset) ∧
      (1 ≤ off.toNat → off.toNat ≤ 65536 → s.seq.run < matchLength lh f → Raises i s .matchOverrun)) ∧
    ∀ i : Instr,
      (i = .matchOff1 lh f ∨ (∃ sl v, i = .matchS4to7 sl lh f v) ∨ (∃ sl o, i = .matchS8to9 sl lh f o) ∨
        (∃ sl o, i = .matchS10to11 sl lh f o) ∨ (∃ sl o, i = .matchS12to15 sl lh f o) ∨
        ∃ sl o, i = .matchS16to31 sl lh f o) →
      i.wf = true → s.seq.run < matchLength lh f → Raises i s .matchOverrun

/-- 44_lzx_symbols R215, 70_reset_and_hazards R326: the copy is byte-serial and its source is circular, so an offset below the
length repeats the last `off` bytes; WPOS and run move by the length; every other window byte is unchanged. -/
def Obligations.MatchCopyIsByteSerialAndCircular : Prop :=
  ∀ (s : State) (off len : Nat), 1 ≤ off → off ≤ 65536 → s.lzx.wpos + len ≤ 65536 →
    ∃ w, copyMatch off len s =
        { s with lzx.win := w, lzx.wpos := s.lzx.wpos + len, seq.run := s.seq.run - len } ∧
      (∀ k, k < len →
        winGet w ((s.lzx.wpos : Int) + k) = winGet s.lzx.win ((s.lzx.wpos : Int) - off + (k % off : Nat))) ∧
      ∀ i : Int, ¬ (s.lzx.wpos ≤ winIndex i ∧ winIndex i < s.lzx.wpos + len) → winGet w i = winGet s.lzx.win i

/-- 44_lzx_symbols R216, R217, R221: the two position-slot tables, and the explicit slots reach every offset from 1 to 65533
exactly once. -/
def Obligations.PositionSlotsReachEveryOffsetOnce : Prop :=
  (List.range 32).map extraBits =
      [0, 0, 0, 0, 1, 1, 2, 2, 3, 3, 4, 4, 5, 5, 6, 6, 7, 7, 8, 8, 9, 9, 10, 10, 11, 11, 12, 12, 13, 13, 14, 14] ∧
    (List.range 32).map positionBase =
      [0, 1, 2, 3, 4, 6, 8, 12, 16, 24, 32, 48, 64, 96, 128, 192, 256, 384, 512, 768, 1024, 1536, 2048, 3072, 4096,
        6144, 8192, 12288, 16384, 24576, 32768, 49152] ∧
    (∀ slot v, 3 ≤ slot → slot < 32 → v < 2 ^ extraBits slot →
      1 ≤ positionBase slot - 2 + v ∧ positionBase slot - 2 + v ≤ 65533) ∧
    ∀ off, 1 ≤ off → off ≤ 65533 →
      ∃! p : Nat × Nat, (3 ≤ p.1 ∧ p.1 < 32) ∧ p.2 < 2 ^ extraBits p.1 ∧ positionBase p.1 - 2 + p.2 = off

/-- The operand elements LEN_FOOTER and ALIGN_SYM standing alone: the match length 7 + f + 2 (44_lzx_symbols R203, R220) and
the low 3 bits of the extra value (R219). The latches that hold them are the model's (log 14). -/
def Obligations.FooterAndAlignedSymbolLatchTheirOperand : Prop :=
  ∀ (s : State) (f : Byte) (a : BitVec 3),
    exec (.lenFooter f) s = .next { s with seq.mlen := 7 + f.toNat + 2 } ∧
      exec (.alignSym a) s = .next { s with seq.mext := s.seq.mext * 8 + a.toNat }

/-! ## Frames -/

/-- 45_lzx_frame R231, R232, 43_lzx_block_headers R184: between runs the frame ends, or a header is due, or a run of
min(BREM, togo) bytes starts at WPOS mod 65536, faulting when it would pass the window's end. -/
def Obligations.FrameLoopTurns : Prop :=
  ∀ s : State,
    (s.seq.togo = 0 → continueFrame s = finishFrame s) ∧
    (s.seq.togo ≠ 0 → s.lzx.brem = 0 → s.lzx.btype ≠ 3 →
      continueFrame s = .ok { s with seq.expect := some .blockHdr }) ∧
    (s.seq.togo ≠ 0 → s.lzx.brem = 0 → s.lzx.btype = 3 →
      continueFrame s = .ok { s with seq.expect := some .uncClose }) ∧
    ∀ n, n = min s.lzx.brem.toNat s.seq.togo → s.seq.togo ≠ 0 → s.lzx.brem ≠ 0 →
      (65536 < s.lzx.wpos % 65536 + n → continueFrame s = .error .runStraddlesWindow) ∧
      (s.lzx.wpos % 65536 + n ≤ 65536 →
        continueFrame s =
          .ok
            { s with
              lzx.brem := BitVec.ofNat 24 (s.lzx.brem.toNat - n), lzx.wpos := s.lzx.wpos % 65536,
              seq.togo := s.seq.togo - n, seq.run := n,
              seq.expect :=
                if s.lzx.btype = 1 ∨ s.lzx.btype = 2 then some .element else some .uncData })

/-- 45_lzx_frame R234 to R236, 20_memory R62: at the end of a frame OUT holds the last F window bytes, OUT bytes from F on keep
their values, and the Intel-E8 books are kept; under E8_POLICY = Fault a frame the filter would scan faults instead. -/
def Obligations.FrameEndWritesOutAndKeepsTheE8Books : Prop :=
  ∀ (s : State) (f : Nat), f = s.args.frameSize.toNat →
    (s.e8Policy = .fault → s.lzx.framesRead < 32768 → s.lzx.intelFilesize ≠ 0 → 6 < f → s.lzx.intelStarted = true →
      finishFrame s = .error .e8TranslationRequired) ∧
    (¬ (s.e8Policy = .fault ∧ s.lzx.framesRead < 32768 ∧ s.lzx.intelFilesize ≠ 0 ∧ 6 < f ∧
        s.lzx.intelStarted = true) →
      ∃ o, finishFrame s =
          .ok
            { s with
              lzx.framesRead := min (s.lzx.framesRead + 1) 32768
              lzx.intelCurpos :=
                if s.lzx.framesRead < 32768 ∧ s.lzx.intelFilesize ≠ 0 then s.lzx.intelCurpos + BitVec.ofNat 32 f
                else s.lzx.intelCurpos
              lzx.e8Skipped :=
                if s.lzx.framesRead < 32768 ∧ s.lzx.intelFilesize ≠ 0 ∧ 6 < f ∧ s.lzx.intelStarted = true then true
                else s.lzx.e8Skipped
              outBuf := o
              outCount := s.args.frameSize
              seq.expect := none } ∧
        ∀ k, outByte { s with outBuf := o } k =
          if k < f then winGet s.lzx.win ((s.lzx.wpos : Int) - f + k) else outByte s k)

/-- 40_host_commands R114: LZX_FRAME checks FRAME_SIZE, then IN_LEN, before anything is read; with both in range neither
fault is raised at the start. -/
def Obligations.LzxArgumentChecksComeInOrder : Prop :=
  ∀ s : State, s.life = .ready →
    (s.args.frameSize.toNat = 0 ∨ 65535 < s.args.frameSize.toNat → Raises .lzxFrame s .badFrameSize) ∧
    (1 ≤ s.args.frameSize.toNat → s.args.frameSize.toNat ≤ 65535 → 131070 < s.args.inLen.toNat →
      Raises .lzxFrame s .badLength) ∧
    (1 ≤ s.args.frameSize.toNat → s.args.frameSize.toNat ≤ 65535 → s.args.inLen.toNat ≤ 131070 →
      ∀ e, startLzx s = .error e → e ≠ .badFrameSize ∧ e ≠ .badLength)

/-- 45_lzx_frame R232 to R235, 44_lzx_symbols R218: a frame that lies inside an UNCOMPRESSED block copies IN[0..F-1] to the
window and to OUT; nothing else changes but WPOS, BREM, OUT_COUNT and the Intel-E8 books. This is a whole LZX_FRAME that
completes. -/
def Obligations.LzxFrameCopiesAnUncompressedRun : Prop :=
  ∀ (s : State) (f : Nat), s.life = .ready → s.lzx.hdrRead = true → s.lzx.btype = 3 →
    f = s.args.frameSize.toNat → 1 ≤ f → f ≤ 65535 → f ≤ s.lzx.brem.toNat → f ≤ s.args.inLen.toNat →
    s.args.inLen.toNat ≤ 131070 → s.lzx.wpos % 65536 + f ≤ 65536 →
    ¬ (s.e8Policy = .fault ∧ s.lzx.framesRead < 32768 ∧ s.lzx.intelFilesize ≠ 0 ∧ 6 < f ∧
      s.lzx.intelStarted = true) →
    ∃ t, exec .lzxFrame s = .next t ∧ t.life = .ready ∧ t.errcode = s.errcode ∧ t.seq.expect = none ∧
      t.outCount = s.args.frameSize ∧
      (∀ k, outByte t k = if k < f then inByte s k else outByte s k) ∧
      (∀ i : Int, winGet t.lzx.win i =
        if s.lzx.wpos % 65536 ≤ winIndex i ∧ winIndex i < s.lzx.wpos % 65536 + f then
          inByte s (winIndex i - s.lzx.wpos % 65536)
        else winGet s.lzx.win i) ∧
      t.lzx =
        { s.lzx with
          win := t.lzx.win
          wpos := s.lzx.wpos % 65536 + f
          brem := BitVec.ofNat 24 (s.lzx.brem.toNat - f)
          framesRead := min (s.lzx.framesRead + 1) 32768
          intelCurpos :=
            if s.lzx.framesRead < 32768 ∧ s.lzx.intelFilesize ≠ 0 then s.lzx.intelCurpos + BitVec.ofNat 32 f
            else s.lzx.intelCurpos
          e8Skipped :=
            if s.lzx.framesRead < 32768 ∧ s.lzx.intelFilesize ≠ 0 ∧ 6 < f ∧ s.lzx.intelStarted = true then true
            else s.lzx.e8Skipped } ∧
      t.adpcm = s.adpcm ∧ t.args = s.args ∧ t.inBuf = s.inBuf ∧ t.port = s.port

/-- 45_lzx_frame R238, R239: every LZX_FRAME command accepted ends; when it succeeds it has produced exactly FRAME_SIZE bytes,
so that WPOS has moved by FRAME_SIZE around the window and OUT holds the last FRAME_SIZE window bytes; else a fault code is
latched. -/
def Obligations.LzxFrameEndsAndYieldsExactlyAFrame : Prop :=
  ∀ s : State, s.life = .ready →
    ∃ t, exec .lzxFrame s = .next t ∧ t.seq.expect = none ∧
      (t.life = .ready ∧ t.errcode = s.errcode ∧ t.outCount = s.args.frameSize ∧ 1 ≤ s.args.frameSize.toNat ∧
          s.args.frameSize.toNat ≤ 65535 ∧ t.lzx.wpos % 65536 = (s.lzx.wpos + s.args.frameSize.toNat) % 65536 ∧
          (∀ k, k < s.args.frameSize.toNat →
            outByte t k = winGet t.lzx.win ((t.lzx.wpos : Int) - s.args.frameSize.toNat + k)) ∨
        t.life = .faulted ∧ t.outCount = 0 ∧ ∃ e, t.errcode = faultCode e)

/-- 45_lzx_frame R243: an LZX_FRAME command depends on the persistent LZX state, IN[0..IN_LEN+1], IN_LEN and FRAME_SIZE (and
the fixed E8_POLICY) alone. -/
def Obligations.LzxFrameDependsOnlyOnItsInputs : Prop :=
  ∀ s u : State, s.life = .ready → u.life = .ready → s.lzx = u.lzx → s.e8Policy = u.e8Policy →
    s.args.inLen = u.args.inLen → s.args.frameSize = u.args.frameSize →
    (∀ o, o < s.args.inLen.toNat + 2 → inByte s o = inByte u o) →
    ∃ t v, exec .lzxFrame s = .next t ∧ exec .lzxFrame u = .next v ∧ t.lzx = v.lzx ∧ t.life = v.life ∧
      t.outCount = v.outCount ∧ (t.life = .faulted → t.errcode = v.errcode) ∧
      ∀ o, o < t.outCount.toNat → outByte t o = outByte v o

/-- 20_memory R75: LZX_FRAME leaves every piece of ADPCM state, ADPCM_BLOCK every piece of LZX state. (Where the command
faults the spec leaves that state open; that it is unchanged there too is the model's choice, log 10.) -/
def Obligations.EnginesDoNotTouchEachOther : Prop :=
  ∀ s t : State,
    (exec .lzxFrame s = .next t → t.adpcm = s.adpcm) ∧
      (exec .adpcmBlock s = .next t → t.lzx = s.lzx ∧ t.rdr = s.rdr)

/-! ## ADPCM -/

/-- 46_msadpcm R252: the four argument checks in order; with all passed the preamble is due. -/
def Obligations.AdpcmArgumentChecksComeInOrder : Prop :=
  ∀ (s : State) (ch b : Nat), s.life = .ready → ch = s.args.adpcmChannels.toNat →
    b = s.args.adpcmBlockBytes.toNat →
    (ch ≠ 1 → ch ≠ 2 → Raises .adpcmBlock s .adpcmBadChannels) ∧
    (ch = 1 ∨ ch = 2 →
      (b < 7 * ch ∨ 4096 < b → Raises .adpcmBlock s .adpcmBadBlockBytes) ∧
      (7 * ch ≤ b → b ≤ 4096 →
        (131070 < s.args.inLen.toNat → Raises .adpcmBlock s .badLength) ∧
        (s.args.inLen.toNat ≤ 131070 → s.args.inLen.toNat < b → Raises .adpcmBlock s .adpcmTruncatedBlock) ∧
        (s.args.inLen.toNat ≤ 131070 → b ≤ s.args.inLen.toNat →
          startAdpcm s =
            .ok { s with seq.apos := 0, seq.emitted := 0, seq.expect := some .adpcmPreamble })))

/-- 46_msadpcm R253, R254: a preamble loads its channels as read and emits S2 then S1 (stereo interleaved); a predictor above
6 faults. -/
def Obligations.AdpcmPreamblesLoadAndEmit : Prop :=
  ∀ s : State,
    (∀ (p : Byte) (d a b : Half),
      (6 < p.toNat → Raises (.adpcmMonoPreamble p d a b) s .adpcmBadPredictor) ∧
      (p.toNat ≤ 6 →
        ∃ t, exec (.adpcmMonoPreamble p d a b) s = .next t ∧
          t.adpcm = { ch0 := { pred := p.toNat, delta := d, s1 := a, s2 := b }, ch1 := s.adpcm.ch1 } ∧
          Emits [b, a] s t ∧ BlockContinues 7 s t)) ∧
    ∀ (pL pR : Byte) (dL dR aL aR bL bR : Half),
      (6 < pL.toNat ∨ 6 < pR.toNat →
        Raises (.adpcmStereoPreamble pL pR dL dR aL aR bL bR) s .adpcmBadPredictor) ∧
      (pL.toNat ≤ 6 → pR.toNat ≤ 6 →
        ∃ t, exec (.adpcmStereoPreamble pL pR dL dR aL aR bL bR) s = .next t ∧
          t.adpcm =
            { ch0 := { pred := pL.toNat, delta := dL, s1 := aL, s2 := bL },
              ch1 := { pred := pR.toNat, delta := dR, s1 := aR, s2 := bR } } ∧
          Emits [bL, bR, aL, aR] s t ∧ BlockContinues 14 s t)

/-- 46_msadpcm R255, R259, R260: a mono byte decodes its high and then its low nibble on channel 0; a stereo byte its high
nibble on the left and its low nibble on the right channel; a nibble standing alone decodes on the selected channel (the
selection is the model's, log 14). -/
def Obligations.AdpcmBytesDecodeTwoNibbles : Prop :=
  ∀ (s : State) (h l : BitVec 4),
    (∃ t, exec (.adpcmMonoByte h l) s = .next t ∧
      t.adpcm =
        { ch0 := expandChannel (expandChannel s.adpcm.ch0 h) l, ch1 := s.adpcm.ch1 } ∧
      Emits [expandSample s.adpcm.ch0 h, expandSample (expandChannel s.adpcm.ch0 h) l] s t ∧
      BlockContinues (s.seq.apos + 1) s t) ∧
    (∃ t, exec (.adpcmStereoByte h l) s = .next t ∧
      t.adpcm = { ch0 := expandChannel s.adpcm.ch0 h, ch1 := expandChannel s.adpcm.ch1 l } ∧
      Emits [expandSample s.adpcm.ch0 h, expandSample s.adpcm.ch1 l] s t ∧
      BlockContinues (s.seq.apos + 1) s t) ∧
    ∃ t, exec (.adpcmNibble h) s = .next t ∧
      Emits [expandSample (getChannel s s.seq.chan) h] s t ∧
      t =
        { setChannel s.seq.chan (expandChannel (getChannel s s.seq.chan) h) s with
          outBuf := t.outBuf, seq := { s.seq with emitted := s.seq.emitted + 1 } }

/-- 46_msadpcm R250, R251: the coefficient and adaptation tables. R255, R257, R258: the registers after a nibble, read as
integers, are those of the integer formulas: the clamped sum of prediction and signed nibble times delta, and the wrapped
and floored delta (that it wraps for a DELTA far below 0 too is the model's choice, log 27). -/
def Obligations.NibbleArithmeticIsExact : Prop :=
  (List.range 7).map coef1 = [256, 512, 0, 192, 240, 460, 392] ∧
  (List.range 7).map coef2 = [0, -256, 0, 64, 0, -208, -232] ∧
  (List.range 16).map (fun n => adapt (BitVec.ofNat 4 n)) =
    [230, 230, 230, 230, 307, 409, 512, 614, 768, 614, 512, 409, 307, 230, 230, 230] ∧
  ∀ (c : AdpcmChannel) (n : BitVec 4) (r : RefChannel),
    r = { pred := c.pred, delta := s16 c.delta, s1 := s16 c.s1, s2 := s16 c.s2 } →
    s16 (expandSample c n) = refSample r n.toNat ∧
      s16 (newDelta n c.delta) = refDelta n.toNat (s16 c.delta) ∧ 16 ≤ s16 (newDelta n c.delta) ∧
      expandChannel c n =
        { pred := c.pred, delta := newDelta n c.delta, s1 := expandSample c n, s2 := c.s1 }

/-- 46_msadpcm R253 to R263: an accepted ADPCM_BLOCK with legal predictors writes exactly the samples of the integer
reference (its tables are those of NibbleArithmeticIsExact; its deltas far below 0 are the model's choice, log 27), least
significant byte first, and OUT_COUNT is twice their number; OUT bytes beyond and all other state are unchanged. This is a whole ADPCM_BLOCK that completes. -/
def Obligations.AdpcmBlockRefinesTheIntegerReference : Prop :=
  ∀ (s : State) (stereo : Bool) (ch b : Nat) (samples : List Int), s.life = .ready →
    ch = s.args.adpcmChannels.toNat → ch = (if stereo then 2 else 1) → b = s.args.adpcmBlockBytes.toNat →
    7 * ch ≤ b → b ≤ 4096 → b ≤ s.args.inLen.toNat → s.args.inLen.toNat ≤ 131070 →
    (inByte s 0).toNat ≤ 6 → (stereo = true → (inByte s 1).toNat ≤ 6) → samples = refBlock stereo (inByte s) b →
    samples.length = 2 * ch + 2 * (b - 7 * ch) ∧
      ∃ t, exec .adpcmBlock s = .next t ∧ t.life = .ready ∧ t.errcode = s.errcode ∧ t.seq.expect = none ∧
        t.outCount = BitVec.ofNat 32 (2 * samples.length) ∧
        (∀ k, k < samples.length →
          outByte t (2 * k) = BitVec.ofInt 8 (samples.getD k 0) ∧
            outByte t (2 * k + 1) = BitVec.ofInt 8 (samples.getD k 0 / 256)) ∧
        (∀ o, 2 * samples.length ≤ o → outByte t o = outByte s o) ∧
        t.lzx = s.lzx ∧ t.rdr = s.rdr ∧ t.args = s.args ∧ t.inBuf = s.inBuf ∧ t.port = s.port

/-- 46_msadpcm R262: two ADPCM_BLOCK commands with the same arguments and the same IN[0..B-1] give the same OUT, whatever came
before; a command that faults gives the same code. -/
def Obligations.AdpcmBlockForgetsEarlierBlocks : Prop :=
  ∀ s u : State, s.life = .ready → u.life = .ready → s.args.adpcmChannels = u.args.adpcmChannels →
    s.args.adpcmBlockBytes = u.args.adpcmBlockBytes → s.args.inLen = u.args.inLen →
    (∀ o, o < s.args.adpcmBlockBytes.toNat → inByte s o = inByte u o) →
    ∃ t v, exec .adpcmBlock s = .next t ∧ exec .adpcmBlock u = .next v ∧ t.life = v.life ∧ t.outCount = v.outCount ∧
      (t.life = .faulted → t.errcode = v.errcode) ∧ ∀ o, o < t.outCount.toNat → outByte t o = outByte v o

/-! ## Steps -/

/-- A step runs the decoded instruction. Between commands a 4-byte write of CMD at the head of the host's accesses runs its
command and another access is performed; inside a command the element that decodes at the reader's cursor runs with the
cursor past it, and a decoding fault is taken (40_host_commands R112, 41_bitstream R134, R136; log 2, 3). Every step
answers a next state (log 20). -/
def Obligations.StepRunsTheFetchedInstruction : Prop :=
  (∀ (s : State) (v : Word) (rest : List HostAccess), s.seq.expect = none →
    s.port.pending = .write 0 .b4 v :: rest →
    step s = exec (decodeCommand v) { s with port.pending := rest }) ∧
  (∀ (s : State) (a : HostAccess) (rest : List HostAccess), s.seq.expect = none → s.port.pending = a :: rest →
    (∀ v, a ≠ .write 0 .b4 v) → step s = .next (hostAccess a { s with port.pending := rest })) ∧
  (∀ s : State, s.seq.expect = none → s.port.pending = [] → step s = .next s) ∧
  (∀ (s : State) (e : Expect) (i : Instr) (k : Nat), s.seq.expect = some e →
    (e.isBits = true → decodeBits (decodeCtx s e) (bitSource s) = .ok (i, k) →
      step s = exec i { s with rdr.bitpos := s.rdr.bitpos + k }) ∧
    (e.isBits = false → isAdpcm e = false → decodeBytes (decodeCtx s e) (rawSource s) = .ok (i, k) →
      step s = exec i { s with rdr.rawpos := s.rdr.rawpos + k }) ∧
    (e.isBits = false → isAdpcm e = true → decodeBytes (decodeCtx s e) (adpcmSource s) = .ok (i, k) →
      step s = exec i s)) ∧
  (∀ (s : State) (e : Expect) (err : ErrCode), s.seq.expect = some e → fetchElement e s = .error err →
    step s = .next (takeFault err s)) ∧
  ∀ s : State, ∃ t, step s = .next t

/-- An atomic command is its elements run one after another: exec of an accepted command whose checks pass is reached from the
command's start by steps of the machine (40_host_commands R120; log 3). -/
def Obligations.CommandsRunAsTheirElements : Prop :=
  ∀ s u : State, s.life = .ready →
    (startLzx { s with outCount := 0 } = .ok u → ∃ k t, exec .lzxFrame s = .next t ∧ StepsTo k u t) ∧
      (startAdpcm { s with outCount := 0 } = .ok u → ∃ k t, exec .adpcmBlock s = .next t ∧ StepsTo k u t)

/-- Every instruction that is fetched under legal tables is well formed (30_encoding R80 to R99, 44_lzx_symbols R220). -/
def Obligations.FetchedInstructionsAreWellFormed : Prop :=
  ∀ (s t : State) (i : Instr), TablesOk s.lzx → fetch s = .instr i t → i.wf = true

/-! ## Encodings -/

/-- Decode and encode agree for every instruction (30_encoding R80 to R99): at its place in the stream, under tables that
build, a well-formed instruction is decoded from its encoding, which is consumed exactly; an instruction with no Huffman
code in it always has an encoding. -/
def Obligations.DecodingUndoesEncoding : Prop :=
  (∀ (c : DecodeCtx) (i : Instr) (w : Encoded), Buildable (c.main.take 512) → Buildable (c.len.take 250) →
    Buildable (c.align.take 8) → Buildable (c.pre.take 20) → readIn c i → i.wf = true → encode c i = some w →
    decodeEncoded c w = .ok i) ∧
  ∀ (c : DecodeCtx) (i : Instr), fixedLayout i = true → (encode c i).isSome = true

/-- A few words written out from spec/opcode_table.json and 30_encoding decode to the instruction they stand for (the widths
that select a space, and the flat tables, are the model's, log 16). Last, the slot-10 MATCH of program P3 under P3's tables,
in an ALIGNED block: main code 111, length footer 0, the raw high bit 1, then the aligned code 011 (R93, R94). -/
def Obligations.WrittenWordsDecode : Prop :=
  decodeTableWord 32 1 = some .reset ∧ decodeTableWord 32 2 = some .lzxFrame ∧
    decodeTableWord 32 3 = some .adpcmBlock ∧ decodeTableWord 32 0 = some (.cmdReserved 0) ∧
    decodeTableWord 1 0 = some .streamHdr ∧ decodeTableWord 33 0x100012345 = some (.streamHdrE8 0x00012345) ∧
    decodeTableWord 27 0b001000000000000000000001100 = some (.blkVerbatim 12) ∧
    decodeTableWord 27 0b011000000000000000000000101 = some (.blkUncompressed 5) ∧
    decodeTableWord 27 0b101000000000000000000000001 = some (.blkReserved4to7 1 1) ∧
    decodeTableWord 24 0b011011011011011011011011 = some (.alignLengths [3, 3, 3, 3, 3, 3, 3, 3]) ∧
    decodeTableWord 96 0x000000030000000200000001 = some (.uncBody (.offsets 1 2 3)) ∧
    decodeTableWord 56 0x00000000001000 = some (.adpcmMonoPreamble 0 16 0 0) ∧
    decodeTableWord 4 0xF = some (.adpcmNibble 15) ∧
    decodeBits
        { flatTables .element false with
          main :=
            (List.range 512).map fun m =>
              if m = 88 ∨ m = 289 then 2 else if m = 264 ∨ m = 274 ∨ m = 320 ∨ m = 343 then 3 else 0
          len := 1 :: 1 :: List.replicate 248 0
          aligned := true }
        (fun i => [true, true, true, false, true, false, true, true][i]?) =
      .ok (.matchS10to11 0 7 0 (.split 1 3), 8)

/-! ## Invariants -/

/-- Every step keeps the memories canonical and inside their ranges (10_state R21, R42; a model invariant). -/
def Obligations.EveryStepKeepsTheMemoriesCanonical : Prop :=
  ∀ s t : State, MemoryOk s → step s = .next t → MemoryOk t

/-- Every step keeps the length arrays inside their ranges, with LENLEN[249] = 0, and a length section inside itself
(10_state R24 to R27, 42_huffman R158, 43_lzx_block_headers R177, R182). -/
def Obligations.EveryStepKeepsTheLengthArraysInRange : Prop :=
  ∀ s t : State, TablesOk s.lzx → SectionOk s → step s = .next t → TablesOk t.lzx ∧ SectionOk t

/-- Every step keeps WPOS in 0..65536 and FRAMES_READ in 0..32768, and a run in progress inside the window (10_state R22, R33,
44_lzx_symbols R201, 45_lzx_frame R232). -/
def Obligations.EveryStepKeepsTheCursorsInRange : Prop :=
  ∀ s t : State, CursorsOk s → step s = .next t → CursorsOk t

/-- Every step keeps LIFE, ERRCODE and OUT_COUNT in agreement (10_state R38, R39, R41, 60_exceptions R280, R283). -/
def Obligations.EveryStepKeepsTheLifecycleConsistent : Prop :=
  ∀ s t : State, LifeOk s → step s = .next t → LifeOk t

/-- The invariants hold at reset and at power-on (the values the spec leaves open there are the model's, log 1 and 11). -/
def Obligations.ResetAndPowerOnMeetTheInvariants : Prop :=
  ∀ s : State, s = State.reset ∨ s = State.powerOn →
    MemoryOk s ∧ TablesOk s.lzx ∧ SectionOk s ∧ CursorsOk s ∧ LifeOk s
end

