-- ==== Sys2Proof/Laws/Memory.lean ====
section
/-! SUPPORT. Laws of the byte memories and the window: read after write, and every operation keeps the canonical form
and the address range. -/

namespace Sys2Proof.Machine

@[simp] theorem Memory.get_nil (k : Nat) : Memory.get [] k = none := rfl

theorem Memory.get_put_same (m : Memory) (k : Nat) (v : Byte) : Memory.get (Memory.put m k v) k = some v := by
  induction m with
  | nil => simp [Memory.put, Memory.get]
  | cons c m ih =>
    obtain ⟨a, b⟩ := c
    unfold Memory.put
    split
    · simp [Memory.get]
    · split
      · simp [Memory.get]
      · rename_i h _
        simp [Memory.get, h, ih]

theorem Memory.get_put_other (m : Memory) (k j : Nat) (v : Byte) (h : j ≠ k) :
    Memory.get (Memory.put m k v) j = Memory.get m j := by
  induction m with
  | nil => simp [Memory.put, Memory.get, Ne.symm h]
  | cons c m ih =>
    obtain ⟨a, b⟩ := c
    unfold Memory.put
    split
    · rename_i hak
      subst hak
      simp [Memory.get, Ne.symm h]
    · split
      · simp [Memory.get, Ne.symm h]
      · simp [Memory.get, ih]

theorem Memory.get_put (m : Memory) (k j : Nat) (v : Byte) :
    Memory.get (Memory.put m k v) j = if j = k then some v else Memory.get m j := by
  split
  · rename_i h
    rw [h, Memory.get_put_same]
  · rename_i h
    exact Memory.get_put_other m k j v h

theorem Memory.get_erase (m : Memory) (k j : Nat) :
    Memory.get (Memory.erase m k) j = if j = k then none else Memory.get m j := by
  induction m with
  | nil => simp [Memory.erase, Memory.get]
  | cons c m ih =>
    obtain ⟨a, b⟩ := c
    simp only [Memory.erase, List.filter_cons] at ih ⊢
    by_cases hak : a = k
    · subst hak
      simp only [bne_self_eq_false, Bool.false_eq_true, if_false, ih, Memory.get]
      split
      · rfl
      · rename_i hj
        simp [Ne.symm hj]
    · simp only [bne_iff_ne, ne_eq, hak, not_false_eq_true, if_true, Memory.get, ih]
      by_cases haj : a = j
      · subst haj
        simp [hak]
      · simp [haj]

theorem Memory.mem_put {m : Memory} {k : Nat} {v : Byte} {c : Host.Cell} (h : c ∈ Memory.put m k v) :
    c = (k, v) ∨ c ∈ m := by
  induction m with
  | nil => simpa [Memory.put] using h
  | cons d m ih =>
    obtain ⟨a, b⟩ := d
    unfold Memory.put at h
    split at h
    · rcases List.mem_cons.mp h with h | h
      · exact .inl h
      · exact .inr (List.mem_cons_of_mem _ h)
    · split at h
      · rcases List.mem_cons.mp h with h | h
        · exact .inl h
        · exact .inr h
      · rcases List.mem_cons.mp h with h | h
        · exact .inr (h ▸ List.mem_cons_self ..)
        · exact (ih h).imp id (List.mem_cons_of_mem _)

theorem Memory.sorted_put {m : Memory} (k : Nat) (v : Byte) (h : m.Pairwise (fun c d => c.1 < d.1)) :
    (Memory.put m k v).Pairwise (fun c d => c.1 < d.1) := by
  induction m with
  | nil => simp [Memory.put]
  | cons c m ih =>
    obtain ⟨a, b⟩ := c
    obtain ⟨hc, hm⟩ := List.pairwise_cons.mp h
    unfold Memory.put
    split
    · rename_i hak
      subst hak
      exact List.pairwise_cons.mpr ⟨fun d hd => hc d hd, hm⟩
    · split
      · rename_i hlt
        refine List.pairwise_cons.mpr ⟨fun d hd => ?_, h⟩
        rcases List.mem_cons.mp hd with hd | hd
        · rw [hd]; exact hlt
        · exact Nat.lt_trans hlt (hc d hd)
      · rename_i hne hge
        refine List.pairwise_cons.mpr ⟨fun d hd => ?_, ih hm⟩
        rcases Memory.mem_put hd with hd | hd
        · rw [hd]; exact Nat.lt_of_le_of_ne (Nat.le_of_not_lt hge) hne
        · exact hc d hd

theorem Memory.wf_nil (dflt : Option Byte) : Memory.wf dflt [] :=
  ⟨List.Pairwise.nil, fun _ h => nomatch h⟩

theorem Memory.wf_put {dflt : Option Byte} {m : Memory} (k : Nat) {v : Byte} (h : Memory.wf dflt m)
    (hv : some v ≠ dflt) : Memory.wf dflt (Memory.put m k v) :=
  ⟨Memory.sorted_put k v h.1, fun c hc => by
    rcases Memory.mem_put hc with hc | hc
    · rw [hc]; exact hv
    · exact h.2 c hc⟩

theorem Memory.wf_erase {dflt : Option Byte} {m : Memory} (k : Nat) (h : Memory.wf dflt m) :
    Memory.wf dflt (Memory.erase m k) :=
  ⟨h.1.filter _, fun c hc => h.2 c (List.mem_filter.mp hc).1⟩

theorem Memory.within_put {size : Nat} {m : Memory} {k : Nat} (v : Byte) (h : Memory.within size m) (hk : k < size) :
    Memory.within size (Memory.put m k v) := fun c hc => by
  rcases Memory.mem_put hc with hc | hc
  · rw [hc]; exact hk
  · exact h c hc

theorem Memory.within_erase {size : Nat} {m : Memory} (k : Nat) (h : Memory.within size m) :
    Memory.within size (Memory.erase m k) := fun c hc => h c (List.mem_filter.mp hc).1

theorem Memory.wf_putList {m : Memory} (k : Nat) (bs : List Byte) (h : Memory.wf none m) :
    Memory.wf none (Memory.putList m k bs) := by
  induction bs generalizing m k with
  | nil => exact h
  | cons b bs ih => exact ih (k + 1) (Memory.wf_put k h (by simp))

theorem Memory.within_putList {size : Nat} {m : Memory} (k : Nat) (bs : List Byte) (h : Memory.within size m)
    (hk : k + bs.length ≤ size) : Memory.within size (Memory.putList m k bs) := by
  induction bs generalizing m k with
  | nil => exact h
  | cons b bs ih =>
    simp only [List.length_cons] at hk
    exact ih (k + 1) (Memory.within_put b h (by omega)) (by omega)

theorem Memory.get_putList (m : Memory) (k j : Nat) (bs : List Byte) :
    Memory.get (Memory.putList m k bs) j =
      if k ≤ j ∧ j < k + bs.length then bs[j - k]? else Memory.get m j := by
  induction bs generalizing m k with
  | nil =>
    simp only [Memory.putList, List.length_nil]
    rw [if_neg (by omega)]
  | cons b bs ih =>
    simp only [Memory.putList, ih, List.length_cons]
    by_cases hj : j = k
    · subst hj
      rw [if_neg (by omega), if_pos (by omega), Memory.get_put_same]
      simp
    · by_cases hr : k + 1 ≤ j ∧ j < k + 1 + bs.length
      · rw [if_pos hr, if_pos (by omega)]
        have : j - k = (j - (k + 1)) + 1 := by omega
        rw [this, List.getElem?_cons_succ]
      · rw [if_neg hr, if_neg (by omega), Memory.get_put_other _ _ _ _ hj]

/-! ## The window -/

theorem winIndex_lt (i : Int) : winIndex i < 65536 := by
  unfold winIndex
  omega

theorem winIndex_nat {i : Nat} (h : i < 65536) : winIndex i = i := by
  unfold winIndex
  omega

theorem winGet_congr (w : Memory) {i j : Int} (h : winIndex i = winIndex j) : winGet w i = winGet w j := by
  rw [winGet, winGet, h]

theorem winGet_winSet_same (w : Memory) (i : Int) (v : Byte) : winGet (winSet w i v) i = v := by
  unfold winGet winSet
  split
  · rename_i h
    rw [Memory.get_erase, if_pos rfl, h]
    rfl
  · rw [Memory.get_put_same]
    rfl

theorem winGet_winSet_other (w : Memory) {i j : Int} (v : Byte) (h : winIndex j ≠ winIndex i) :
    winGet (winSet w i v) j = winGet w j := by
  unfold winGet winSet
  split
  · rw [Memory.get_erase, if_neg h]
  · rw [Memory.get_put_other _ _ _ _ h]

theorem wf_winSet {w : Memory} (i : Int) (v : Byte) (h : Memory.wf (some sentinel) w) :
    Memory.wf (some sentinel) (winSet w i v) := by
  unfold winSet
  split
  · exact Memory.wf_erase _ h
  · rename_i hv
    exact Memory.wf_put _ h (by simpa using hv)

theorem within_winSet {w : Memory} (i : Int) (v : Byte) (h : Memory.within Config.windowSize w) :
    Memory.within Config.windowSize (winSet w i v) := by
  unfold winSet
  split
  · exact Memory.within_erase _ h
  · exact Memory.within_put _ h (winIndex_lt i)

theorem wf_copyBytes {w : Memory} (dst off n : Nat) (h : Memory.wf (some sentinel) w) :
    Memory.wf (some sentinel) (copyBytes w dst off n) := by
  induction n generalizing w dst with
  | zero => exact h
  | succ n ih => exact ih (dst + 1) (wf_winSet _ _ h)

theorem within_copyBytes {w : Memory} (dst off n : Nat) (h : Memory.within Config.windowSize w) :
    Memory.within Config.windowSize (copyBytes w dst off n) := by
  induction n generalizing w dst with
  | zero => exact h
  | succ n ih => exact ih (dst + 1) (within_winSet _ _ h)

/-- A copy leaves every window byte outside its destination alone. -/
theorem winGet_copyBytes_other (w : Memory) (dst off n : Nat) (j : Int)
    (h : ∀ k < n, winIndex j ≠ winIndex ((dst + k : Nat) : Int)) :
    winGet (copyBytes w dst off n) j = winGet w j := by
  induction n generalizing w dst with
  | zero => rfl
  | succ n ih =>
    rw [copyBytes, ih]
    · exact winGet_winSet_other _ _ (by simpa using h 0 (by omega))
    · intro k hk
      have := h (k + 1) (by omega)
      rwa [show dst + (k + 1) = dst + 1 + k by omega] at this

end Sys2Proof.Machine
end

