-- ==== Sys2Proof/Laws/State.lean ====
section
/-! SUPPORT. What each record update of the state leaves in each field: one lemma per field per update. -/

namespace Sys2Proof.Machine

variable (s : State)

/-! ### takeFault -/

@[simp] theorem takeFault_lzx (e : ErrCode) : (takeFault e s).lzx = s.lzx := rfl
@[simp] theorem takeFault_rdr (e : ErrCode) : (takeFault e s).rdr = s.rdr := rfl
@[simp] theorem takeFault_adpcm (e : ErrCode) : (takeFault e s).adpcm = s.adpcm := rfl
@[simp] theorem takeFault_life (e : ErrCode) : (takeFault e s).life = .faulted := rfl
@[simp] theorem takeFault_errcode (e : ErrCode) : (takeFault e s).errcode = faultCode e := rfl
@[simp] theorem takeFault_args (e : ErrCode) : (takeFault e s).args = s.args := rfl
@[simp] theorem takeFault_outCount (e : ErrCode) : (takeFault e s).outCount = 0 := rfl
@[simp] theorem takeFault_inBuf (e : ErrCode) : (takeFault e s).inBuf = s.inBuf := rfl
@[simp] theorem takeFault_outBuf (e : ErrCode) : (takeFault e s).outBuf = [] := rfl
@[simp] theorem takeFault_e8Policy (e : ErrCode) : (takeFault e s).e8Policy = s.e8Policy := rfl
@[simp] theorem takeFault_seq_expect (e : ErrCode) : (takeFault e s).seq.expect = none := rfl
@[simp] theorem takeFault_seq_togo (e : ErrCode) : (takeFault e s).seq.togo = s.seq.togo := rfl
@[simp] theorem takeFault_seq_run (e : ErrCode) : (takeFault e s).seq.run = s.seq.run := rfl
@[simp] theorem takeFault_seq_sect (e : ErrCode) : (takeFault e s).seq.sect = s.seq.sect := rfl
@[simp] theorem takeFault_seq_x (e : ErrCode) : (takeFault e s).seq.x = s.seq.x := rfl
@[simp] theorem takeFault_seq_mlen (e : ErrCode) : (takeFault e s).seq.mlen = s.seq.mlen := rfl
@[simp] theorem takeFault_seq_mext (e : ErrCode) : (takeFault e s).seq.mext = s.seq.mext := rfl
@[simp] theorem takeFault_seq_chan (e : ErrCode) : (takeFault e s).seq.chan = s.seq.chan := rfl
@[simp] theorem takeFault_seq_apos (e : ErrCode) : (takeFault e s).seq.apos = s.seq.apos := rfl
@[simp] theorem takeFault_seq_emitted (e : ErrCode) : (takeFault e s).seq.emitted = s.seq.emitted := rfl
@[simp] theorem takeFault_port (e : ErrCode) : (takeFault e s).port = s.port := rfl
@[simp] theorem takeFault_outEpoch (e : ErrCode) : (takeFault e s).outEpoch = s.outEpoch + 1 := rfl
@[simp] theorem takeFault_viewReads (e : ErrCode) : (takeFault e s).viewReads = s.viewReads := rfl

/-! ### resetState -/

@[simp] theorem resetState_lzx : (resetState s).lzx = Lzx.reset := rfl
@[simp] theorem resetState_rdr : (resetState s).rdr = s.rdr := rfl
@[simp] theorem resetState_adpcm : (resetState s).adpcm = s.adpcm := rfl
@[simp] theorem resetState_life : (resetState s).life = .ready := rfl
@[simp] theorem resetState_errcode : (resetState s).errcode = 0 := rfl
@[simp] theorem resetState_args : (resetState s).args = s.args := rfl
@[simp] theorem resetState_outCount : (resetState s).outCount = 0 := rfl
@[simp] theorem resetState_inBuf : (resetState s).inBuf = s.inBuf := rfl
@[simp] theorem resetState_outBuf : (resetState s).outBuf = s.outBuf := rfl
@[simp] theorem resetState_e8Policy : (resetState s).e8Policy = s.e8Policy := rfl
@[simp] theorem resetState_seq : (resetState s).seq = s.seq := rfl
@[simp] theorem resetState_port : (resetState s).port = s.port := rfl
@[simp] theorem resetState_outEpoch : (resetState s).outEpoch = s.outEpoch := rfl
@[simp] theorem resetState_viewReads : (resetState s).viewReads = s.viewReads := rfl

/-! ### advanceBits -/

@[simp] theorem advanceBits_lzx (n : Nat) : (advanceBits s n).lzx = s.lzx := rfl
@[simp] theorem advanceBits_rdr_mode (n : Nat) : (advanceBits s n).rdr.mode = s.rdr.mode := rfl
@[simp] theorem advanceBits_rdr_base (n : Nat) : (advanceBits s n).rdr.base = s.rdr.base := rfl
@[simp] theorem advanceBits_rdr_bitpos (n : Nat) : (advanceBits s n).rdr.bitpos = s.rdr.bitpos + n := rfl
@[simp] theorem advanceBits_rdr_rawpos (n : Nat) : (advanceBits s n).rdr.rawpos = s.rdr.rawpos := rfl
@[simp] theorem advanceBits_adpcm (n : Nat) : (advanceBits s n).adpcm = s.adpcm := rfl
@[simp] theorem advanceBits_life (n : Nat) : (advanceBits s n).life = s.life := rfl
@[simp] theorem advanceBits_errcode (n : Nat) : (advanceBits s n).errcode = s.errcode := rfl
@[simp] theorem advanceBits_args (n : Nat) : (advanceBits s n).args = s.args := rfl
@[simp] theorem advanceBits_outCount (n : Nat) : (advanceBits s n).outCount = s.outCount := rfl
@[simp] theorem advanceBits_inBuf (n : Nat) : (advanceBits s n).inBuf = s.inBuf := rfl
@[simp] theorem advanceBits_outBuf (n : Nat) : (advanceBits s n).outBuf = s.outBuf := rfl
@[simp] theorem advanceBits_e8Policy (n : Nat) : (advanceBits s n).e8Policy = s.e8Policy := rfl
@[simp] theorem advanceBits_seq (n : Nat) : (advanceBits s n).seq = s.seq := rfl
@[simp] theorem advanceBits_port (n : Nat) : (advanceBits s n).port = s.port := rfl
@[simp] theorem advanceBits_outEpoch (n : Nat) : (advanceBits s n).outEpoch = s.outEpoch := rfl
@[simp] theorem advanceBits_viewReads (n : Nat) : (advanceBits s n).viewReads = s.viewReads := rfl

/-! ### advanceRaw -/

@[simp] theorem advanceRaw_lzx (n : Nat) : (advanceRaw s n).lzx = s.lzx := rfl
@[simp] theorem advanceRaw_rdr_mode (n : Nat) : (advanceRaw s n).rdr.mode = s.rdr.mode := rfl
@[simp] theorem advanceRaw_rdr_base (n : Nat) : (advanceRaw s n).rdr.base = s.rdr.base := rfl
@[simp] theorem advanceRaw_rdr_bitpos (n : Nat) : (advanceRaw s n).rdr.bitpos = s.rdr.bitpos := rfl
@[simp] theorem advanceRaw_rdr_rawpos (n : Nat) : (advanceRaw s n).rdr.rawpos = s.rdr.rawpos + n := rfl
@[simp] theorem advanceRaw_adpcm (n : Nat) : (advanceRaw s n).adpcm = s.adpcm := rfl
@[simp] theorem advanceRaw_life (n : Nat) : (advanceRaw s n).life = s.life := rfl
@[simp] theorem advanceRaw_errcode (n : Nat) : (advanceRaw s n).errcode = s.errcode := rfl
@[simp] theorem advanceRaw_args (n : Nat) : (advanceRaw s n).args = s.args := rfl
@[simp] theorem advanceRaw_outCount (n : Nat) : (advanceRaw s n).outCount = s.outCount := rfl
@[simp] theorem advanceRaw_inBuf (n : Nat) : (advanceRaw s n).inBuf = s.inBuf := rfl
@[simp] theorem advanceRaw_outBuf (n : Nat) : (advanceRaw s n).outBuf = s.outBuf := rfl
@[simp] theorem advanceRaw_e8Policy (n : Nat) : (advanceRaw s n).e8Policy = s.e8Policy := rfl
@[simp] theorem advanceRaw_seq (n : Nat) : (advanceRaw s n).seq = s.seq := rfl
@[simp] theorem advanceRaw_port (n : Nat) : (advanceRaw s n).port = s.port := rfl
@[simp] theorem advanceRaw_outEpoch (n : Nat) : (advanceRaw s n).outEpoch = s.outEpoch := rfl
@[simp] theorem advanceRaw_viewReads (n : Nat) : (advanceRaw s n).viewReads = s.viewReads := rfl

/-! ### restartBits -/

@[simp] theorem restartBits_lzx : (restartBits s).lzx = s.lzx := rfl
@[simp] theorem restartBits_rdr_mode : (restartBits s).rdr.mode = .bits := rfl
@[simp] theorem restartBits_rdr_base : (restartBits s).rdr.base = s.rdr.rawpos := rfl
@[simp] theorem restartBits_rdr_bitpos : (restartBits s).rdr.bitpos = 0 := rfl
@[simp] theorem restartBits_rdr_rawpos : (restartBits s).rdr.rawpos = s.rdr.rawpos := rfl
@[simp] theorem restartBits_adpcm : (restartBits s).adpcm = s.adpcm := rfl
@[simp] theorem restartBits_life : (restartBits s).life = s.life := rfl
@[simp] theorem restartBits_errcode : (restartBits s).errcode = s.errcode := rfl
@[simp] theorem restartBits_args : (restartBits s).args = s.args := rfl
@[simp] theorem restartBits_outCount : (restartBits s).outCount = s.outCount := rfl
@[simp] theorem restartBits_inBuf : (restartBits s).inBuf = s.inBuf := rfl
@[simp] theorem restartBits_outBuf : (restartBits s).outBuf = s.outBuf := rfl
@[simp] theorem restartBits_e8Policy : (restartBits s).e8Policy = s.e8Policy := rfl
@[simp] theorem restartBits_seq : (restartBits s).seq = s.seq := rfl
@[simp] theorem restartBits_port : (restartBits s).port = s.port := rfl
@[simp] theorem restartBits_outEpoch : (restartBits s).outEpoch = s.outEpoch := rfl
@[simp] theorem restartBits_viewReads : (restartBits s).viewReads = s.viewReads := rfl

/-! ### enterRaw -/

@[simp] theorem enterRaw_lzx : (enterRaw s).lzx = s.lzx := rfl
@[simp] theorem enterRaw_rdr_mode : (enterRaw s).rdr.mode = .raw := rfl
@[simp] theorem enterRaw_rdr_base : (enterRaw s).rdr.base = s.rdr.base := rfl
@[simp] theorem enterRaw_rdr_bitpos : (enterRaw s).rdr.bitpos = s.rdr.bitpos := rfl
@[simp] theorem enterRaw_rdr_rawpos : (enterRaw s).rdr.rawpos =
    s.rdr.base + 2 * ((s.rdr.bitpos + 15) / 16) + (if s.rdr.bitpos % 16 = 0 then 2 else 0) :=
  rfl
@[simp] theorem enterRaw_adpcm : (enterRaw s).adpcm = s.adpcm := rfl
@[simp] theorem enterRaw_life : (enterRaw s).life = s.life := rfl
@[simp] theorem enterRaw_errcode : (enterRaw s).errcode = s.errcode := rfl
@[simp] theorem enterRaw_args : (enterRaw s).args = s.args := rfl
@[simp] theorem enterRaw_outCount : (enterRaw s).outCount = s.outCount := rfl
@[simp] theorem enterRaw_inBuf : (enterRaw s).inBuf = s.inBuf := rfl
@[simp] theorem enterRaw_outBuf : (enterRaw s).outBuf = s.outBuf := rfl
@[simp] theorem enterRaw_e8Policy : (enterRaw s).e8Policy = s.e8Policy := rfl
@[simp] theorem enterRaw_seq : (enterRaw s).seq = s.seq := rfl
@[simp] theorem enterRaw_port : (enterRaw s).port = s.port := rfl
@[simp] theorem enterRaw_outEpoch : (enterRaw s).outEpoch = s.outEpoch := rfl
@[simp] theorem enterRaw_viewReads : (enterRaw s).viewReads = s.viewReads := rfl

/-! ### initReader -/

@[simp] theorem initReader_lzx : (initReader s).lzx = s.lzx := rfl
@[simp] theorem initReader_rdr_base : (initReader s).rdr.base = 0 := rfl
@[simp] theorem initReader_rdr_bitpos : (initReader s).rdr.bitpos = 0 := rfl
@[simp] theorem initReader_rdr_rawpos : (initReader s).rdr.rawpos = 0 := rfl
@[simp] theorem initReader_adpcm : (initReader s).adpcm = s.adpcm := rfl
@[simp] theorem initReader_life : (initReader s).life = s.life := rfl
@[simp] theorem initReader_errcode : (initReader s).errcode = s.errcode := rfl
@[simp] theorem initReader_args : (initReader s).args = s.args := rfl
@[simp] theorem initReader_outCount : (initReader s).outCount = s.outCount := rfl
@[simp] theorem initReader_inBuf : (initReader s).inBuf = s.inBuf := rfl
@[simp] theorem initReader_outBuf : (initReader s).outBuf = s.outBuf := rfl
@[simp] theorem initReader_e8Policy : (initReader s).e8Policy = s.e8Policy := rfl
@[simp] theorem initReader_seq : (initReader s).seq = s.seq := rfl
@[simp] theorem initReader_port : (initReader s).port = s.port := rfl
@[simp] theorem initReader_outEpoch : (initReader s).outEpoch = s.outEpoch := rfl
@[simp] theorem initReader_viewReads : (initReader s).viewReads = s.viewReads := rfl

/-! ### expectNext -/

@[simp] theorem expectNext_lzx (e : Expect) : (expectNext e s).lzx = s.lzx := rfl
@[simp] theorem expectNext_rdr (e : Expect) : (expectNext e s).rdr = s.rdr := rfl
@[simp] theorem expectNext_adpcm (e : Expect) : (expectNext e s).adpcm = s.adpcm := rfl
@[simp] theorem expectNext_life (e : Expect) : (expectNext e s).life = s.life := rfl
@[simp] theorem expectNext_errcode (e : Expect) : (expectNext e s).errcode = s.errcode := rfl
@[simp] theorem expectNext_args (e : Expect) : (expectNext e s).args = s.args := rfl
@[simp] theorem expectNext_outCount (e : Expect) : (expectNext e s).outCount = s.outCount := rfl
@[simp] theorem expectNext_inBuf (e : Expect) : (expectNext e s).inBuf = s.inBuf := rfl
@[simp] theorem expectNext_outBuf (e : Expect) : (expectNext e s).outBuf = s.outBuf := rfl
@[simp] theorem expectNext_e8Policy (e : Expect) : (expectNext e s).e8Policy = s.e8Policy := rfl
@[simp] theorem expectNext_seq_expect (e : Expect) : (expectNext e s).seq.expect = some e := rfl
@[simp] theorem expectNext_seq_togo (e : Expect) : (expectNext e s).seq.togo = s.seq.togo := rfl
@[simp] theorem expectNext_seq_run (e : Expect) : (expectNext e s).seq.run = s.seq.run := rfl
@[simp] theorem expectNext_seq_sect (e : Expect) : (expectNext e s).seq.sect = s.seq.sect := rfl
@[simp] theorem expectNext_seq_x (e : Expect) : (expectNext e s).seq.x = s.seq.x := rfl
@[simp] theorem expectNext_seq_mlen (e : Expect) : (expectNext e s).seq.mlen = s.seq.mlen := rfl
@[simp] theorem expectNext_seq_mext (e : Expect) : (expectNext e s).seq.mext = s.seq.mext := rfl
@[simp] theorem expectNext_seq_chan (e : Expect) : (expectNext e s).seq.chan = s.seq.chan := rfl
@[simp] theorem expectNext_seq_apos (e : Expect) : (expectNext e s).seq.apos = s.seq.apos := rfl
@[simp] theorem expectNext_seq_emitted (e : Expect) : (expectNext e s).seq.emitted = s.seq.emitted := rfl
@[simp] theorem expectNext_port (e : Expect) : (expectNext e s).port = s.port := rfl
@[simp] theorem expectNext_outEpoch (e : Expect) : (expectNext e s).outEpoch = s.outEpoch := rfl
@[simp] theorem expectNext_viewReads (e : Expect) : (expectNext e s).viewReads = s.viewReads := rfl

/-! ### endCommand -/

@[simp] theorem endCommand_lzx : (endCommand s).lzx = s.lzx := rfl
@[simp] theorem endCommand_rdr : (endCommand s).rdr = s.rdr := rfl
@[simp] theorem endCommand_adpcm : (endCommand s).adpcm = s.adpcm := rfl
@[simp] theorem endCommand_life : (endCommand s).life = s.life := rfl
@[simp] theorem endCommand_errcode : (endCommand s).errcode = s.errcode := rfl
@[simp] theorem endCommand_args : (endCommand s).args = s.args := rfl
@[simp] theorem endCommand_outCount : (endCommand s).outCount = s.outCount := rfl
@[simp] theorem endCommand_inBuf : (endCommand s).inBuf = s.inBuf := rfl
@[simp] theorem endCommand_outBuf : (endCommand s).outBuf = s.outBuf := rfl
@[simp] theorem endCommand_e8Policy : (endCommand s).e8Policy = s.e8Policy := rfl
@[simp] theorem endCommand_seq_expect : (endCommand s).seq.expect = none := rfl
@[simp] theorem endCommand_seq_togo : (endCommand s).seq.togo = s.seq.togo := rfl
@[simp] theorem endCommand_seq_run : (endCommand s).seq.run = s.seq.run := rfl
@[simp] theorem endCommand_seq_sect : (endCommand s).seq.sect = s.seq.sect := rfl
@[simp] theorem endCommand_seq_x : (endCommand s).seq.x = s.seq.x := rfl
@[simp] theorem endCommand_seq_mlen : (endCommand s).seq.mlen = s.seq.mlen := rfl
@[simp] theorem endCommand_seq_mext : (endCommand s).seq.mext = s.seq.mext := rfl
@[simp] theorem endCommand_seq_chan : (endCommand s).seq.chan = s.seq.chan := rfl
@[simp] theorem endCommand_seq_apos : (endCommand s).seq.apos = s.seq.apos := rfl
@[simp] theorem endCommand_seq_emitted : (endCommand s).seq.emitted = s.seq.emitted := rfl
@[simp] theorem endCommand_port : (endCommand s).port = s.port := rfl
@[simp] theorem endCommand_outEpoch : (endCommand s).outEpoch = s.outEpoch := rfl
@[simp] theorem endCommand_viewReads : (endCommand s).viewReads = s.viewReads := rfl

/-! ### setHdrRead -/

@[simp] theorem setHdrRead_lzx_win : (setHdrRead s).lzx.win = s.lzx.win := rfl
@[simp] theorem setHdrRead_lzx_wpos : (setHdrRead s).lzx.wpos = s.lzx.wpos := rfl
@[simp] theorem setHdrRead_lzx_r0 : (setHdrRead s).lzx.r0 = s.lzx.r0 := rfl
@[simp] theorem setHdrRead_lzx_r1 : (setHdrRead s).lzx.r1 = s.lzx.r1 := rfl
@[simp] theorem setHdrRead_lzx_r2 : (setHdrRead s).lzx.r2 = s.lzx.r2 := rfl
@[simp] theorem setHdrRead_lzx_mainLen : (setHdrRead s).lzx.mainLen = s.lzx.mainLen := rfl
@[simp] theorem setHdrRead_lzx_lenLen : (setHdrRead s).lzx.lenLen = s.lzx.lenLen := rfl
@[simp] theorem setHdrRead_lzx_alignLen : (setHdrRead s).lzx.alignLen = s.lzx.alignLen := rfl
@[simp] theorem setHdrRead_lzx_preLen : (setHdrRead s).lzx.preLen = s.lzx.preLen := rfl
@[simp] theorem setHdrRead_lzx_hdrRead : (setHdrRead s).lzx.hdrRead = true := rfl
@[simp] theorem setHdrRead_lzx_btype : (setHdrRead s).lzx.btype = s.lzx.btype := rfl
@[simp] theorem setHdrRead_lzx_blen : (setHdrRead s).lzx.blen = s.lzx.blen := rfl
@[simp] theorem setHdrRead_lzx_brem : (setHdrRead s).lzx.brem = s.lzx.brem := rfl
@[simp] theorem setHdrRead_lzx_intelFilesize : (setHdrRead s).lzx.intelFilesize = s.lzx.intelFilesize := rfl
@[simp] theorem setHdrRead_lzx_intelStarted : (setHdrRead s).lzx.intelStarted = s.lzx.intelStarted := rfl
@[simp] theorem setHdrRead_lzx_intelCurpos : (setHdrRead s).lzx.intelCurpos = s.lzx.intelCurpos := rfl
@[simp] theorem setHdrRead_lzx_framesRead : (setHdrRead s).lzx.framesRead = s.lzx.framesRead := rfl
@[simp] theorem setHdrRead_lzx_e8Skipped : (setHdrRead s).lzx.e8Skipped = s.lzx.e8Skipped := rfl
@[simp] theorem setHdrRead_rdr : (setHdrRead s).rdr = s.rdr := rfl
@[simp] theorem setHdrRead_adpcm : (setHdrRead s).adpcm = s.adpcm := rfl
@[simp] theorem setHdrRead_life : (setHdrRead s).life = s.life := rfl
@[simp] theorem setHdrRead_errcode : (setHdrRead s).errcode = s.errcode := rfl
@[simp] theorem setHdrRead_args : (setHdrRead s).args = s.args := rfl
@[simp] theorem setHdrRead_outCount : (setHdrRead s).outCount = s.outCount := rfl
@[simp] theorem setHdrRead_inBuf : (setHdrRead s).inBuf = s.inBuf := rfl
@[simp] theorem setHdrRead_outBuf : (setHdrRead s).outBuf = s.outBuf := rfl
@[simp] theorem setHdrRead_e8Policy : (setHdrRead s).e8Policy = s.e8Policy := rfl
@[simp] theorem setHdrRead_seq : (setHdrRead s).seq = s.seq := rfl
@[simp] theorem setHdrRead_port : (setHdrRead s).port = s.port := rfl
@[simp] theorem setHdrRead_outEpoch : (setHdrRead s).outEpoch = s.outEpoch := rfl
@[simp] theorem setHdrRead_viewReads : (setHdrRead s).viewReads = s.viewReads := rfl

/-! ### setIntelStarted -/

@[simp] theorem setIntelStarted_lzx_win : (setIntelStarted s).lzx.win = s.lzx.win := rfl
@[simp] theorem setIntelStarted_lzx_wpos : (setIntelStarted s).lzx.wpos = s.lzx.wpos := rfl
@[simp] theorem setIntelStarted_lzx_r0 : (setIntelStarted s).lzx.r0 = s.lzx.r0 := rfl
@[simp] theorem setIntelStarted_lzx_r1 : (setIntelStarted s).lzx.r1 = s.lzx.r1 := rfl
@[simp] theorem setIntelStarted_lzx_r2 : (setIntelStarted s).lzx.r2 = s.lzx.r2 := rfl
@[simp] theorem setIntelStarted_lzx_mainLen : (setIntelStarted s).lzx.mainLen = s.lzx.mainLen := rfl
@[simp] theorem setIntelStarted_lzx_lenLen : (setIntelStarted s).lzx.lenLen = s.lzx.lenLen := rfl
@[simp] theorem setIntelStarted_lzx_alignLen : (setIntelStarted s).lzx.alignLen = s.lzx.alignLen := rfl
@[simp] theorem setIntelStarted_lzx_preLen : (setIntelStarted s).lzx.preLen = s.lzx.preLen := rfl
@[simp] theorem setIntelStarted_lzx_hdrRead : (setIntelStarted s).lzx.hdrRead = s.lzx.hdrRead := rfl
@[simp] theorem setIntelStarted_lzx_btype : (setIntelStarted s).lzx.btype = s.lzx.btype := rfl
@[simp] theorem setIntelStarted_lzx_blen : (setIntelStarted s).lzx.blen = s.lzx.blen := rfl
@[simp] theorem setIntelStarted_lzx_brem : (setIntelStarted s).lzx.brem = s.lzx.brem := rfl
@[simp] theorem setIntelStarted_lzx_intelFilesize : (setIntelStarted s).lzx.intelFilesize = s.lzx.intelFilesize := rfl
@[simp] theorem setIntelStarted_lzx_intelStarted : (setIntelStarted s).lzx.intelStarted = true := rfl
@[simp] theorem setIntelStarted_lzx_intelCurpos : (setIntelStarted s).lzx.intelCurpos = s.lzx.intelCurpos := rfl
@[simp] theorem setIntelStarted_lzx_framesRead : (setIntelStarted s).lzx.framesRead = s.lzx.framesRead := rfl
@[simp] theorem setIntelStarted_lzx_e8Skipped : (setIntelStarted s).lzx.e8Skipped = s.lzx.e8Skipped := rfl
@[simp] theorem setIntelStarted_rdr : (setIntelStarted s).rdr = s.rdr := rfl
@[simp] theorem setIntelStarted_adpcm : (setIntelStarted s).adpcm = s.adpcm := rfl
@[simp] theorem setIntelStarted_life : (setIntelStarted s).life = s.life := rfl
@[simp] theorem setIntelStarted_errcode : (setIntelStarted s).errcode = s.errcode := rfl
@[simp] theorem setIntelStarted_args : (setIntelStarted s).args = s.args := rfl
@[simp] theorem setIntelStarted_outCount : (setIntelStarted s).outCount = s.outCount := rfl
@[simp] theorem setIntelStarted_inBuf : (setIntelStarted s).inBuf = s.inBuf := rfl
@[simp] theorem setIntelStarted_outBuf : (setIntelStarted s).outBuf = s.outBuf := rfl
@[simp] theorem setIntelStarted_e8Policy : (setIntelStarted s).e8Policy = s.e8Policy := rfl
@[simp] theorem setIntelStarted_seq : (setIntelStarted s).seq = s.seq := rfl
@[simp] theorem setIntelStarted_port : (setIntelStarted s).port = s.port := rfl
@[simp] theorem setIntelStarted_outEpoch : (setIntelStarted s).outEpoch = s.outEpoch := rfl
@[simp] theorem setIntelStarted_viewReads : (setIntelStarted s).viewReads = s.viewReads := rfl

/-! ### loadBlock -/

@[simp] theorem loadBlock_lzx_win (t : BitVec 3) (b : BitVec 24) : (loadBlock t b s).lzx.win = s.lzx.win := rfl
@[simp] theorem loadBlock_lzx_wpos (t : BitVec 3) (b : BitVec 24) : (loadBlock t b s).lzx.wpos = s.lzx.wpos := rfl
@[simp] theorem loadBlock_lzx_r0 (t : BitVec 3) (b : BitVec 24) : (loadBlock t b s).lzx.r0 = s.lzx.r0 := rfl
@[simp] theorem loadBlock_lzx_r1 (t : BitVec 3) (b : BitVec 24) : (loadBlock t b s).lzx.r1 = s.lzx.r1 := rfl
@[simp] theorem loadBlock_lzx_r2 (t : BitVec 3) (b : BitVec 24) : (loadBlock t b s).lzx.r2 = s.lzx.r2 := rfl
@[simp] theorem loadBlock_lzx_mainLen (t : BitVec 3) (b : BitVec 24) : (loadBlock t b s).lzx.mainLen = s.lzx.mainLen := rfl
@[simp] theorem loadBlock_lzx_lenLen (t : BitVec 3) (b : BitVec 24) : (loadBlock t b s).lzx.lenLen = s.lzx.lenLen := rfl
@[simp] theorem loadBlock_lzx_alignLen (t : BitVec 3) (b : BitVec 24) : (loadBlock t b s).lzx.alignLen = s.lzx.alignLen := rfl
@[simp] theorem loadBlock_lzx_preLen (t : BitVec 3) (b : BitVec 24) : (loadBlock t b s).lzx.preLen = s.lzx.preLen := rfl
@[simp] theorem loadBlock_lzx_hdrRead (t : BitVec 3) (b : BitVec 24) : (loadBlock t b s).lzx.hdrRead = s.lzx.hdrRead := rfl
@[simp] theorem loadBlock_lzx_btype (t : BitVec 3) (b : BitVec 24) : (loadBlock t b s).lzx.btype = t := rfl
@[simp] theorem loadBlock_lzx_blen (t : BitVec 3) (b : BitVec 24) : (loadBlock t b s).lzx.blen = b := rfl
@[simp] theorem loadBlock_lzx_brem (t : BitVec 3) (b : BitVec 24) : (loadBlock t b s).lzx.brem = b := rfl
@[simp] theorem loadBlock_lzx_intelFilesize (t : BitVec 3) (b : BitVec 24) : (loadBlock t b s).lzx.intelFilesize = s.lzx.intelFilesize := rfl
@[simp] theorem loadBlock_lzx_intelStarted (t : BitVec 3) (b : BitVec 24) : (loadBlock t b s).lzx.intelStarted = s.lzx.intelStarted := rfl
@[simp] theorem loadBlock_lzx_intelCurpos (t : BitVec 3) (b : BitVec 24) : (loadBlock t b s).lzx.intelCurpos = s.lzx.intelCurpos := rfl
@[simp] theorem loadBlock_lzx_framesRead (t : BitVec 3) (b : BitVec 24) : (loadBlock t b s).lzx.framesRead = s.lzx.framesRead := rfl
@[simp] theorem loadBlock_lzx_e8Skipped (t : BitVec 3) (b : BitVec 24) : (loadBlock t b s).lzx.e8Skipped = s.lzx.e8Skipped := rfl
@[simp] theorem loadBlock_rdr (t : BitVec 3) (b : BitVec 24) : (loadBlock t b s).rdr = s.rdr := rfl
@[simp] theorem loadBlock_adpcm (t : BitVec 3) (b : BitVec 24) : (loadBlock t b s).adpcm = s.adpcm := rfl
@[simp] theorem loadBlock_life (t : BitVec 3) (b : BitVec 24) : (loadBlock t b s).life = s.life := rfl
@[simp] theorem loadBlock_errcode (t : BitVec 3) (b : BitVec 24) : (loadBlock t b s).errcode = s.errcode := rfl
@[simp] theorem loadBlock_args (t : BitVec 3) (b : BitVec 24) : (loadBlock t b s).args = s.args := rfl
@[simp] theorem loadBlock_outCount (t : BitVec 3) (b : BitVec 24) : (loadBlock t b s).outCount = s.outCount := rfl
@[simp] theorem loadBlock_inBuf (t : BitVec 3) (b : BitVec 24) : (loadBlock t b s).inBuf = s.inBuf := rfl
@[simp] theorem loadBlock_outBuf (t : BitVec 3) (b : BitVec 24) : (loadBlock t b s).outBuf = s.outBuf := rfl
@[simp] theorem loadBlock_e8Policy (t : BitVec 3) (b : BitVec 24) : (loadBlock t b s).e8Policy = s.e8Policy := rfl
@[simp] theorem loadBlock_seq (t : BitVec 3) (b : BitVec 24) : (loadBlock t b s).seq = s.seq := rfl
@[simp] theorem loadBlock_port (t : BitVec 3) (b : BitVec 24) : (loadBlock t b s).port = s.port := rfl
@[simp] theorem loadBlock_outEpoch (t : BitVec 3) (b : BitVec 24) : (loadBlock t b s).outEpoch = s.outEpoch := rfl
@[simp] theorem loadBlock_viewReads (t : BitVec 3) (b : BitVec 24) : (loadBlock t b s).viewReads = s.viewReads := rfl

/-! ### putWindowByte -/

@[simp] theorem putWindowByte_lzx_win (b : Byte) : (putWindowByte b s).lzx.win = winSet s.lzx.win s.lzx.wpos b := rfl
@[simp] theorem putWindowByte_lzx_wpos (b : Byte) : (putWindowByte b s).lzx.wpos = s.lzx.wpos + 1 := rfl
@[simp] theorem putWindowByte_lzx_r0 (b : Byte) : (putWindowByte b s).lzx.r0 = s.lzx.r0 := rfl
@[simp] theorem putWindowByte_lzx_r1 (b : Byte) : (putWindowByte b s).lzx.r1 = s.lzx.r1 := rfl
@[simp] theorem putWindowByte_lzx_r2 (b : Byte) : (putWindowByte b s).lzx.r2 = s.lzx.r2 := rfl
@[simp] theorem putWindowByte_lzx_mainLen (b : Byte) : (putWindowByte b s).lzx.mainLen = s.lzx.mainLen := rfl
@[simp] theorem putWindowByte_lzx_lenLen (b : Byte) : (putWindowByte b s).lzx.lenLen = s.lzx.lenLen := rfl
@[simp] theorem putWindowByte_lzx_alignLen (b : Byte) : (putWindowByte b s).lzx.alignLen = s.lzx.alignLen := rfl
@[simp] theorem putWindowByte_lzx_preLen (b : Byte) : (putWindowByte b s).lzx.preLen = s.lzx.preLen := rfl
@[simp] theorem putWindowByte_lzx_hdrRead (b : Byte) : (putWindowByte b s).lzx.hdrRead = s.lzx.hdrRead := rfl
@[simp] theorem putWindowByte_lzx_btype (b : Byte) : (putWindowByte b s).lzx.btype = s.lzx.btype := rfl
@[simp] theorem putWindowByte_lzx_blen (b : Byte) : (putWindowByte b s).lzx.blen = s.lzx.blen := rfl
@[simp] theorem putWindowByte_lzx_brem (b : Byte) : (putWindowByte b s).lzx.brem = s.lzx.brem := rfl
@[simp] theorem putWindowByte_lzx_intelFilesize (b : Byte) : (putWindowByte b s).lzx.intelFilesize = s.lzx.intelFilesize := rfl
@[simp] theorem putWindowByte_lzx_intelStarted (b : Byte) : (putWindowByte b s).lzx.intelStarted = s.lzx.intelStarted := rfl
@[simp] theorem putWindowByte_lzx_intelCurpos (b : Byte) : (putWindowByte b s).lzx.intelCurpos = s.lzx.intelCurpos := rfl
@[simp] theorem putWindowByte_lzx_framesRead (b : Byte) : (putWindowByte b s).lzx.framesRead = s.lzx.framesRead := rfl
@[simp] theorem putWindowByte_lzx_e8Skipped (b : Byte) : (putWindowByte b s).lzx.e8Skipped = s.lzx.e8Skipped := rfl
@[simp] theorem putWindowByte_rdr (b : Byte) : (putWindowByte b s).rdr = s.rdr := rfl
@[simp] theorem putWindowByte_adpcm (b : Byte) : (putWindowByte b s).adpcm = s.adpcm := rfl
@[simp] theorem putWindowByte_life (b : Byte) : (putWindowByte b s).life = s.life := rfl
@[simp] theorem putWindowByte_errcode (b : Byte) : (putWindowByte b s).errcode = s.errcode := rfl
@[simp] theorem putWindowByte_args (b : Byte) : (putWindowByte b s).args = s.args := rfl
@[simp] theorem putWindowByte_outCount (b : Byte) : (putWindowByte b s).outCount = s.outCount := rfl
@[simp] theorem putWindowByte_inBuf (b : Byte) : (putWindowByte b s).inBuf = s.inBuf := rfl
@[simp] theorem putWindowByte_outBuf (b : Byte) : (putWindowByte b s).outBuf = s.outBuf := rfl
@[simp] theorem putWindowByte_e8Policy (b : Byte) : (putWindowByte b s).e8Policy = s.e8Policy := rfl
@[simp] theorem putWindowByte_seq_expect (b : Byte) : (putWindowByte b s).seq.expect = s.seq.expect := rfl
@[simp] theorem putWindowByte_seq_togo (b : Byte) : (putWindowByte b s).seq.togo = s.seq.togo := rfl
@[simp] theorem putWindowByte_seq_run (b : Byte) : (putWindowByte b s).seq.run = s.seq.run - 1 := rfl
@[simp] theorem putWindowByte_seq_sect (b : Byte) : (putWindowByte b s).seq.sect = s.seq.sect := rfl
@[simp] theorem putWindowByte_seq_x (b : Byte) : (putWindowByte b s).seq.x = s.seq.x := rfl
@[simp] theorem putWindowByte_seq_mlen (b : Byte) : (putWindowByte b s).seq.mlen = s.seq.mlen := rfl
@[simp] theorem putWindowByte_seq_mext (b : Byte) : (putWindowByte b s).seq.mext = s.seq.mext := rfl
@[simp] theorem putWindowByte_seq_chan (b : Byte) : (putWindowByte b s).seq.chan = s.seq.chan := rfl
@[simp] theorem putWindowByte_seq_apos (b : Byte) : (putWindowByte b s).seq.apos = s.seq.apos := rfl
@[simp] theorem putWindowByte_seq_emitted (b : Byte) : (putWindowByte b s).seq.emitted = s.seq.emitted := rfl
@[simp] theorem putWindowByte_port (b : Byte) : (putWindowByte b s).port = s.port := rfl
@[simp] theorem putWindowByte_outEpoch (b : Byte) : (putWindowByte b s).outEpoch = s.outEpoch := rfl
@[simp] theorem putWindowByte_viewReads (b : Byte) : (putWindowByte b s).viewReads = s.viewReads := rfl

/-! ### copyMatch -/

@[simp] theorem copyMatch_lzx_win (off len : Nat) : (copyMatch off len s).lzx.win =
    copyBytes s.lzx.win s.lzx.wpos off len :=
  rfl
@[simp] theorem copyMatch_lzx_wpos (off len : Nat) : (copyMatch off len s).lzx.wpos = s.lzx.wpos + len := rfl
@[simp] theorem copyMatch_lzx_r0 (off len : Nat) : (copyMatch off len s).lzx.r0 = s.lzx.r0 := rfl
@[simp] theorem copyMatch_lzx_r1 (off len : Nat) : (copyMatch off len s).lzx.r1 = s.lzx.r1 := rfl
@[simp] theorem copyMatch_lzx_r2 (off len : Nat) : (copyMatch off len s).lzx.r2 = s.lzx.r2 := rfl
@[simp] theorem copyMatch_lzx_mainLen (off len : Nat) : (copyMatch off len s).lzx.mainLen = s.lzx.mainLen := rfl
@[simp] theorem copyMatch_lzx_lenLen (off len : Nat) : (copyMatch off len s).lzx.lenLen = s.lzx.lenLen := rfl
@[simp] theorem copyMatch_lzx_alignLen (off len : Nat) : (copyMatch off len s).lzx.alignLen = s.lzx.alignLen := rfl
@[simp] theorem copyMatch_lzx_preLen (off len : Nat) : (copyMatch off len s).lzx.preLen = s.lzx.preLen := rfl
@[simp] theorem copyMatch_lzx_hdrRead (off len : Nat) : (copyMatch off len s).lzx.hdrRead = s.lzx.hdrRead := rfl
@[simp] theorem copyMatch_lzx_btype (off len : Nat) : (copyMatch off len s).lzx.btype = s.lzx.btype := rfl
@[simp] theorem copyMatch_lzx_blen (off len : Nat) : (copyMatch off len s).lzx.blen = s.lzx.blen := rfl
@[simp] theorem copyMatch_lzx_brem (off len : Nat) : (copyMatch off len s).lzx.brem = s.lzx.brem := rfl
@[simp] theorem copyMatch_lzx_intelFilesize (off len : Nat) : (copyMatch off len s).lzx.intelFilesize = s.lzx.intelFilesize := rfl
@[simp] theorem copyMatch_lzx_intelStarted (off len : Nat) : (copyMatch off len s).lzx.intelStarted = s.lzx.intelStarted := rfl
@[simp] theorem copyMatch_lzx_intelCurpos (off len : Nat) : (copyMatch off len s).lzx.intelCurpos = s.lzx.intelCurpos := rfl
@[simp] theorem copyMatch_lzx_framesRead (off len : Nat) : (copyMatch off len s).lzx.framesRead = s.lzx.framesRead := rfl
@[simp] theorem copyMatch_lzx_e8Skipped (off len : Nat) : (copyMatch off len s).lzx.e8Skipped = s.lzx.e8Skipped := rfl
@[simp] theorem copyMatch_rdr (off len : Nat) : (copyMatch off len s).rdr = s.rdr := rfl
@[simp] theorem copyMatch_adpcm (off len : Nat) : (copyMatch off len s).adpcm = s.adpcm := rfl
@[simp] theorem copyMatch_life (off len : Nat) : (copyMatch off len s).life = s.life := rfl
@[simp] theorem copyMatch_errcode (off len : Nat) : (copyMatch off len s).errcode = s.errcode := rfl
@[simp] theorem copyMatch_args (off len : Nat) : (copyMatch off len s).args = s.args := rfl
@[simp] theorem copyMatch_outCount (off len : Nat) : (copyMatch off len s).outCount = s.outCount := rfl
@[simp] theorem copyMatch_inBuf (off len : Nat) : (copyMatch off len s).inBuf = s.inBuf := rfl
@[simp] theorem copyMatch_outBuf (off len : Nat) : (copyMatch off len s).outBuf = s.outBuf := rfl
@[simp] theorem copyMatch_e8Policy (off len : Nat) : (copyMatch off len s).e8Policy = s.e8Policy := rfl
@[simp] theorem copyMatch_seq_expect (off len : Nat) : (copyMatch off len s).seq.expect = s.seq.expect := rfl
@[simp] theorem copyMatch_seq_togo (off len : Nat) : (copyMatch off len s).seq.togo = s.seq.togo := rfl
@[simp] theorem copyMatch_seq_run (off len : Nat) : (copyMatch off len s).seq.run = s.seq.run - len := rfl
@[simp] theorem copyMatch_seq_sect (off len : Nat) : (copyMatch off len s).seq.sect = s.seq.sect := rfl
@[simp] theorem copyMatch_seq_x (off len : Nat) : (copyMatch off len s).seq.x = s.seq.x := rfl
@[simp] theorem copyMatch_seq_mlen (off len : Nat) : (copyMatch off len s).seq.mlen = s.seq.mlen := rfl
@[simp] theorem copyMatch_seq_mext (off len : Nat) : (copyMatch off len s).seq.mext = s.seq.mext := rfl
@[simp] theorem copyMatch_seq_chan (off len : Nat) : (copyMatch off len s).seq.chan = s.seq.chan := rfl
@[simp] theorem copyMatch_seq_apos (off len : Nat) : (copyMatch off len s).seq.apos = s.seq.apos := rfl
@[simp] theorem copyMatch_seq_emitted (off len : Nat) : (copyMatch off len s).seq.emitted = s.seq.emitted := rfl
@[simp] theorem copyMatch_port (off len : Nat) : (copyMatch off len s).port = s.port := rfl
@[simp] theorem copyMatch_outEpoch (off len : Nat) : (copyMatch off len s).outEpoch = s.outEpoch := rfl
@[simp] theorem copyMatch_viewReads (off len : Nat) : (copyMatch off len s).viewReads = s.viewReads := rfl

/-! ### latchFooter -/

@[simp] theorem latchFooter_lzx (f : Byte) : (latchFooter f s).lzx = s.lzx := rfl
@[simp] theorem latchFooter_rdr (f : Byte) : (latchFooter f s).rdr = s.rdr := rfl
@[simp] theorem latchFooter_adpcm (f : Byte) : (latchFooter f s).adpcm = s.adpcm := rfl
@[simp] theorem latchFooter_life (f : Byte) : (latchFooter f s).life = s.life := rfl
@[simp] theorem latchFooter_errcode (f : Byte) : (latchFooter f s).errcode = s.errcode := rfl
@[simp] theorem latchFooter_args (f : Byte) : (latchFooter f s).args = s.args := rfl
@[simp] theorem latchFooter_outCount (f : Byte) : (latchFooter f s).outCount = s.outCount := rfl
@[simp] theorem latchFooter_inBuf (f : Byte) : (latchFooter f s).inBuf = s.inBuf := rfl
@[simp] theorem latchFooter_outBuf (f : Byte) : (latchFooter f s).outBuf = s.outBuf := rfl
@[simp] theorem latchFooter_e8Policy (f : Byte) : (latchFooter f s).e8Policy = s.e8Policy := rfl
@[simp] theorem latchFooter_seq_expect (f : Byte) : (latchFooter f s).seq.expect = s.seq.expect := rfl
@[simp] theorem latchFooter_seq_togo (f : Byte) : (latchFooter f s).seq.togo = s.seq.togo := rfl
@[simp] theorem latchFooter_seq_run (f : Byte) : (latchFooter f s).seq.run = s.seq.run := rfl
@[simp] theorem latchFooter_seq_sect (f : Byte) : (latchFooter f s).seq.sect = s.seq.sect := rfl
@[simp] theorem latchFooter_seq_x (f : Byte) : (latchFooter f s).seq.x = s.seq.x := rfl
@[simp] theorem latchFooter_seq_mlen (f : Byte) : (latchFooter f s).seq.mlen = 7 + f.toNat + 2 := rfl
@[simp] theorem latchFooter_seq_mext (f : Byte) : (latchFooter f s).seq.mext = s.seq.mext := rfl
@[simp] theorem latchFooter_seq_chan (f : Byte) : (latchFooter f s).seq.chan = s.seq.chan := rfl
@[simp] theorem latchFooter_seq_apos (f : Byte) : (latchFooter f s).seq.apos = s.seq.apos := rfl
@[simp] theorem latchFooter_seq_emitted (f : Byte) : (latchFooter f s).seq.emitted = s.seq.emitted := rfl
@[simp] theorem latchFooter_port (f : Byte) : (latchFooter f s).port = s.port := rfl
@[simp] theorem latchFooter_outEpoch (f : Byte) : (latchFooter f s).outEpoch = s.outEpoch := rfl
@[simp] theorem latchFooter_viewReads (f : Byte) : (latchFooter f s).viewReads = s.viewReads := rfl

/-! ### latchRaw -/

@[simp] theorem latchRaw_lzx (v : Nat) : (latchRaw v s).lzx = s.lzx := rfl
@[simp] theorem latchRaw_rdr (v : Nat) : (latchRaw v s).rdr = s.rdr := rfl
@[simp] theorem latchRaw_adpcm (v : Nat) : (latchRaw v s).adpcm = s.adpcm := rfl
@[simp] theorem latchRaw_life (v : Nat) : (latchRaw v s).life = s.life := rfl
@[simp] theorem latchRaw_errcode (v : Nat) : (latchRaw v s).errcode = s.errcode := rfl
@[simp] theorem latchRaw_args (v : Nat) : (latchRaw v s).args = s.args := rfl
@[simp] theorem latchRaw_outCount (v : Nat) : (latchRaw v s).outCount = s.outCount := rfl
@[simp] theorem latchRaw_inBuf (v : Nat) : (latchRaw v s).inBuf = s.inBuf := rfl
@[simp] theorem latchRaw_outBuf (v : Nat) : (latchRaw v s).outBuf = s.outBuf := rfl
@[simp] theorem latchRaw_e8Policy (v : Nat) : (latchRaw v s).e8Policy = s.e8Policy := rfl
@[simp] theorem latchRaw_seq_expect (v : Nat) : (latchRaw v s).seq.expect = s.seq.expect := rfl
@[simp] theorem latchRaw_seq_togo (v : Nat) : (latchRaw v s).seq.togo = s.seq.togo := rfl
@[simp] theorem latchRaw_seq_run (v : Nat) : (latchRaw v s).seq.run = s.seq.run := rfl
@[simp] theorem latchRaw_seq_sect (v : Nat) : (latchRaw v s).seq.sect = s.seq.sect := rfl
@[simp] theorem latchRaw_seq_x (v : Nat) : (latchRaw v s).seq.x = s.seq.x := rfl
@[simp] theorem latchRaw_seq_mlen (v : Nat) : (latchRaw v s).seq.mlen = s.seq.mlen := rfl
@[simp] theorem latchRaw_seq_mext (v : Nat) : (latchRaw v s).seq.mext = v := rfl
@[simp] theorem latchRaw_seq_chan (v : Nat) : (latchRaw v s).seq.chan = s.seq.chan := rfl
@[simp] theorem latchRaw_seq_apos (v : Nat) : (latchRaw v s).seq.apos = s.seq.apos := rfl
@[simp] theorem latchRaw_seq_emitted (v : Nat) : (latchRaw v s).seq.emitted = s.seq.emitted := rfl
@[simp] theorem latchRaw_port (v : Nat) : (latchRaw v s).port = s.port := rfl
@[simp] theorem latchRaw_outEpoch (v : Nat) : (latchRaw v s).outEpoch = s.outEpoch := rfl
@[simp] theorem latchRaw_viewReads (v : Nat) : (latchRaw v s).viewReads = s.viewReads := rfl

/-! ### latchAligned -/

@[simp] theorem latchAligned_lzx (a : BitVec 3) : (latchAligned a s).lzx = s.lzx := rfl
@[simp] theorem latchAligned_rdr (a : BitVec 3) : (latchAligned a s).rdr = s.rdr := rfl
@[simp] theorem latchAligned_adpcm (a : BitVec 3) : (latchAligned a s).adpcm = s.adpcm := rfl
@[simp] theorem latchAligned_life (a : BitVec 3) : (latchAligned a s).life = s.life := rfl
@[simp] theorem latchAligned_errcode (a : BitVec 3) : (latchAligned a s).errcode = s.errcode := rfl
@[simp] theorem latchAligned_args (a : BitVec 3) : (latchAligned a s).args = s.args := rfl
@[simp] theorem latchAligned_outCount (a : BitVec 3) : (latchAligned a s).outCount = s.outCount := rfl
@[simp] theorem latchAligned_inBuf (a : BitVec 3) : (latchAligned a s).inBuf = s.inBuf := rfl
@[simp] theorem latchAligned_outBuf (a : BitVec 3) : (latchAligned a s).outBuf = s.outBuf := rfl
@[simp] theorem latchAligned_e8Policy (a : BitVec 3) : (latchAligned a s).e8Policy = s.e8Policy := rfl
@[simp] theorem latchAligned_seq_expect (a : BitVec 3) : (latchAligned a s).seq.expect = s.seq.expect := rfl
@[simp] theorem latchAligned_seq_togo (a : BitVec 3) : (latchAligned a s).seq.togo = s.seq.togo := rfl
@[simp] theorem latchAligned_seq_run (a : BitVec 3) : (latchAligned a s).seq.run = s.seq.run := rfl
@[simp] theorem latchAligned_seq_sect (a : BitVec 3) : (latchAligned a s).seq.sect = s.seq.sect := rfl
@[simp] theorem latchAligned_seq_x (a : BitVec 3) : (latchAligned a s).seq.x = s.seq.x := rfl
@[simp] theorem latchAligned_seq_mlen (a : BitVec 3) : (latchAligned a s).seq.mlen = s.seq.mlen := rfl
@[simp] theorem latchAligned_seq_mext (a : BitVec 3) : (latchAligned a s).seq.mext = s.seq.mext * 8 + a.toNat := rfl
@[simp] theorem latchAligned_seq_chan (a : BitVec 3) : (latchAligned a s).seq.chan = s.seq.chan := rfl
@[simp] theorem latchAligned_seq_apos (a : BitVec 3) : (latchAligned a s).seq.apos = s.seq.apos := rfl
@[simp] theorem latchAligned_seq_emitted (a : BitVec 3) : (latchAligned a s).seq.emitted = s.seq.emitted := rfl
@[simp] theorem latchAligned_port (a : BitVec 3) : (latchAligned a s).port = s.port := rfl
@[simp] theorem latchAligned_outEpoch (a : BitVec 3) : (latchAligned a s).outEpoch = s.outEpoch := rfl
@[simp] theorem latchAligned_viewReads (a : BitVec 3) : (latchAligned a s).viewReads = s.viewReads := rfl

/-! ### pushOffset -/

@[simp] theorem pushOffset_lzx_win (off : Nat) : (pushOffset off s).lzx.win = s.lzx.win := rfl
@[simp] theorem pushOffset_lzx_wpos (off : Nat) : (pushOffset off s).lzx.wpos = s.lzx.wpos := rfl
@[simp] theorem pushOffset_lzx_r0 (off : Nat) : (pushOffset off s).lzx.r0 = BitVec.ofNat 32 off := rfl
@[simp] theorem pushOffset_lzx_r1 (off : Nat) : (pushOffset off s).lzx.r1 = s.lzx.r0 := rfl
@[simp] theorem pushOffset_lzx_r2 (off : Nat) : (pushOffset off s).lzx.r2 = s.lzx.r1 := rfl
@[simp] theorem pushOffset_lzx_mainLen (off : Nat) : (pushOffset off s).lzx.mainLen = s.lzx.mainLen := rfl
@[simp] theorem pushOffset_lzx_lenLen (off : Nat) : (pushOffset off s).lzx.lenLen = s.lzx.lenLen := rfl
@[simp] theorem pushOffset_lzx_alignLen (off : Nat) : (pushOffset off s).lzx.alignLen = s.lzx.alignLen := rfl
@[simp] theorem pushOffset_lzx_preLen (off : Nat) : (pushOffset off s).lzx.preLen = s.lzx.preLen := rfl
@[simp] theorem pushOffset_lzx_hdrRead (off : Nat) : (pushOffset off s).lzx.hdrRead = s.lzx.hdrRead := rfl
@[simp] theorem pushOffset_lzx_btype (off : Nat) : (pushOffset off s).lzx.btype = s.lzx.btype := rfl
@[simp] theorem pushOffset_lzx_blen (off : Nat) : (pushOffset off s).lzx.blen = s.lzx.blen := rfl
@[simp] theorem pushOffset_lzx_brem (off : Nat) : (pushOffset off s).lzx.brem = s.lzx.brem := rfl
@[simp] theorem pushOffset_lzx_intelFilesize (off : Nat) : (pushOffset off s).lzx.intelFilesize = s.lzx.intelFilesize := rfl
@[simp] theorem pushOffset_lzx_intelStarted (off : Nat) : (pushOffset off s).lzx.intelStarted = s.lzx.intelStarted := rfl
@[simp] theorem pushOffset_lzx_intelCurpos (off : Nat) : (pushOffset off s).lzx.intelCurpos = s.lzx.intelCurpos := rfl
@[simp] theorem pushOffset_lzx_framesRead (off : Nat) : (pushOffset off s).lzx.framesRead = s.lzx.framesRead := rfl
@[simp] theorem pushOffset_lzx_e8Skipped (off : Nat) : (pushOffset off s).lzx.e8Skipped = s.lzx.e8Skipped := rfl
@[simp] theorem pushOffset_rdr (off : Nat) : (pushOffset off s).rdr = s.rdr := rfl
@[simp] theorem pushOffset_adpcm (off : Nat) : (pushOffset off s).adpcm = s.adpcm := rfl
@[simp] theorem pushOffset_life (off : Nat) : (pushOffset off s).life = s.life := rfl
@[simp] theorem pushOffset_errcode (off : Nat) : (pushOffset off s).errcode = s.errcode := rfl
@[simp] theorem pushOffset_args (off : Nat) : (pushOffset off s).args = s.args := rfl
@[simp] theorem pushOffset_outCount (off : Nat) : (pushOffset off s).outCount = s.outCount := rfl
@[simp] theorem pushOffset_inBuf (off : Nat) : (pushOffset off s).inBuf = s.inBuf := rfl
@[simp] theorem pushOffset_outBuf (off : Nat) : (pushOffset off s).outBuf = s.outBuf := rfl
@[simp] theorem pushOffset_e8Policy (off : Nat) : (pushOffset off s).e8Policy = s.e8Policy := rfl
@[simp] theorem pushOffset_seq (off : Nat) : (pushOffset off s).seq = s.seq := rfl
@[simp] theorem pushOffset_port (off : Nat) : (pushOffset off s).port = s.port := rfl
@[simp] theorem pushOffset_outEpoch (off : Nat) : (pushOffset off s).outEpoch = s.outEpoch := rfl
@[simp] theorem pushOffset_viewReads (off : Nat) : (pushOffset off s).viewReads = s.viewReads := rfl

/-! ### selectChannel -/

@[simp] theorem selectChannel_lzx (c : Channel) : (selectChannel c s).lzx = s.lzx := rfl
@[simp] theorem selectChannel_rdr (c : Channel) : (selectChannel c s).rdr = s.rdr := rfl
@[simp] theorem selectChannel_adpcm (c : Channel) : (selectChannel c s).adpcm = s.adpcm := rfl
@[simp] theorem selectChannel_life (c : Channel) : (selectChannel c s).life = s.life := rfl
@[simp] theorem selectChannel_errcode (c : Channel) : (selectChannel c s).errcode = s.errcode := rfl
@[simp] theorem selectChannel_args (c : Channel) : (selectChannel c s).args = s.args := rfl
@[simp] theorem selectChannel_outCount (c : Channel) : (selectChannel c s).outCount = s.outCount := rfl
@[simp] theorem selectChannel_inBuf (c : Channel) : (selectChannel c s).inBuf = s.inBuf := rfl
@[simp] theorem selectChannel_outBuf (c : Channel) : (selectChannel c s).outBuf = s.outBuf := rfl
@[simp] theorem selectChannel_e8Policy (c : Channel) : (selectChannel c s).e8Policy = s.e8Policy := rfl
@[simp] theorem selectChannel_seq_expect (c : Channel) : (selectChannel c s).seq.expect = s.seq.expect := rfl
@[simp] theorem selectChannel_seq_togo (c : Channel) : (selectChannel c s).seq.togo = s.seq.togo := rfl
@[simp] theorem selectChannel_seq_run (c : Channel) : (selectChannel c s).seq.run = s.seq.run := rfl
@[simp] theorem selectChannel_seq_sect (c : Channel) : (selectChannel c s).seq.sect = s.seq.sect := rfl
@[simp] theorem selectChannel_seq_x (c : Channel) : (selectChannel c s).seq.x = s.seq.x := rfl
@[simp] theorem selectChannel_seq_mlen (c : Channel) : (selectChannel c s).seq.mlen = s.seq.mlen := rfl
@[simp] theorem selectChannel_seq_mext (c : Channel) : (selectChannel c s).seq.mext = s.seq.mext := rfl
@[simp] theorem selectChannel_seq_chan (c : Channel) : (selectChannel c s).seq.chan = c := rfl
@[simp] theorem selectChannel_seq_apos (c : Channel) : (selectChannel c s).seq.apos = s.seq.apos := rfl
@[simp] theorem selectChannel_seq_emitted (c : Channel) : (selectChannel c s).seq.emitted = s.seq.emitted := rfl
@[simp] theorem selectChannel_port (c : Channel) : (selectChannel c s).port = s.port := rfl
@[simp] theorem selectChannel_outEpoch (c : Channel) : (selectChannel c s).outEpoch = s.outEpoch := rfl
@[simp] theorem selectChannel_viewReads (c : Channel) : (selectChannel c s).viewReads = s.viewReads := rfl

/-! ### emitSample -/

@[simp] theorem emitSample_lzx (v : Half) : (emitSample v s).lzx = s.lzx := rfl
@[simp] theorem emitSample_rdr (v : Half) : (emitSample v s).rdr = s.rdr := rfl
@[simp] theorem emitSample_adpcm (v : Half) : (emitSample v s).adpcm = s.adpcm := rfl
@[simp] theorem emitSample_life (v : Half) : (emitSample v s).life = s.life := rfl
@[simp] theorem emitSample_errcode (v : Half) : (emitSample v s).errcode = s.errcode := rfl
@[simp] theorem emitSample_args (v : Half) : (emitSample v s).args = s.args := rfl
@[simp] theorem emitSample_outCount (v : Half) : (emitSample v s).outCount = s.outCount := rfl
@[simp] theorem emitSample_inBuf (v : Half) : (emitSample v s).inBuf = s.inBuf := rfl
@[simp] theorem emitSample_e8Policy (v : Half) : (emitSample v s).e8Policy = s.e8Policy := rfl
@[simp] theorem emitSample_seq_expect (v : Half) : (emitSample v s).seq.expect = s.seq.expect := rfl
@[simp] theorem emitSample_seq_togo (v : Half) : (emitSample v s).seq.togo = s.seq.togo := rfl
@[simp] theorem emitSample_seq_run (v : Half) : (emitSample v s).seq.run = s.seq.run := rfl
@[simp] theorem emitSample_seq_sect (v : Half) : (emitSample v s).seq.sect = s.seq.sect := rfl
@[simp] theorem emitSample_seq_x (v : Half) : (emitSample v s).seq.x = s.seq.x := rfl
@[simp] theorem emitSample_seq_mlen (v : Half) : (emitSample v s).seq.mlen = s.seq.mlen := rfl
@[simp] theorem emitSample_seq_mext (v : Half) : (emitSample v s).seq.mext = s.seq.mext := rfl
@[simp] theorem emitSample_seq_chan (v : Half) : (emitSample v s).seq.chan = s.seq.chan := rfl
@[simp] theorem emitSample_seq_apos (v : Half) : (emitSample v s).seq.apos = s.seq.apos := rfl
@[simp] theorem emitSample_seq_emitted (v : Half) : (emitSample v s).seq.emitted = s.seq.emitted + 1 := rfl
@[simp] theorem emitSample_port (v : Half) : (emitSample v s).port = s.port := rfl
@[simp] theorem emitSample_outEpoch (v : Half) : (emitSample v s).outEpoch = s.outEpoch := rfl
@[simp] theorem emitSample_viewReads (v : Half) : (emitSample v s).viewReads = s.viewReads := rfl

/-! ### outWrite -/

@[simp] theorem outWrite_lzx (o : Nat) (v : Byte) : (outWrite s o v).lzx = s.lzx := rfl
@[simp] theorem outWrite_rdr (o : Nat) (v : Byte) : (outWrite s o v).rdr = s.rdr := rfl
@[simp] theorem outWrite_adpcm (o : Nat) (v : Byte) : (outWrite s o v).adpcm = s.adpcm := rfl
@[simp] theorem outWrite_life (o : Nat) (v : Byte) : (outWrite s o v).life = s.life := rfl
@[simp] theorem outWrite_errcode (o : Nat) (v : Byte) : (outWrite s o v).errcode = s.errcode := rfl
@[simp] theorem outWrite_args (o : Nat) (v : Byte) : (outWrite s o v).args = s.args := rfl
@[simp] theorem outWrite_outCount (o : Nat) (v : Byte) : (outWrite s o v).outCount = s.outCount := rfl
@[simp] theorem outWrite_inBuf (o : Nat) (v : Byte) : (outWrite s o v).inBuf = s.inBuf := rfl
@[simp] theorem outWrite_outBuf (o : Nat) (v : Byte) : (outWrite s o v).outBuf = Memory.put s.outBuf o v := rfl
@[simp] theorem outWrite_e8Policy (o : Nat) (v : Byte) : (outWrite s o v).e8Policy = s.e8Policy := rfl
@[simp] theorem outWrite_seq (o : Nat) (v : Byte) : (outWrite s o v).seq = s.seq := rfl
@[simp] theorem outWrite_port (o : Nat) (v : Byte) : (outWrite s o v).port = s.port := rfl
@[simp] theorem outWrite_outEpoch (o : Nat) (v : Byte) : (outWrite s o v).outEpoch = s.outEpoch := rfl
@[simp] theorem outWrite_viewReads (o : Nat) (v : Byte) : (outWrite s o v).viewReads = s.viewReads := rfl

/-! ### latchLength -/

@[simp] theorem latchLength_lzx (lh : BitVec 3) (f : Byte) : (latchLength lh f s).lzx = s.lzx := by
  unfold latchLength; split <;> rfl
@[simp] theorem latchLength_rdr (lh : BitVec 3) (f : Byte) : (latchLength lh f s).rdr = s.rdr := by
  unfold latchLength; split <;> rfl
@[simp] theorem latchLength_adpcm (lh : BitVec 3) (f : Byte) : (latchLength lh f s).adpcm = s.adpcm := by
  unfold latchLength; split <;> rfl
@[simp] theorem latchLength_life (lh : BitVec 3) (f : Byte) : (latchLength lh f s).life = s.life := by
  unfold latchLength; split <;> rfl
@[simp] theorem latchLength_errcode (lh : BitVec 3) (f : Byte) : (latchLength lh f s).errcode = s.errcode := by
  unfold latchLength; split <;> rfl
@[simp] theorem latchLength_args (lh : BitVec 3) (f : Byte) : (latchLength lh f s).args = s.args := by
  unfold latchLength; split <;> rfl
@[simp] theorem latchLength_outCount (lh : BitVec 3) (f : Byte) : (latchLength lh f s).outCount = s.outCount := by
  unfold latchLength; split <;> rfl
@[simp] theorem latchLength_inBuf (lh : BitVec 3) (f : Byte) : (latchLength lh f s).inBuf = s.inBuf := by
  unfold latchLength; split <;> rfl
@[simp] theorem latchLength_outBuf (lh : BitVec 3) (f : Byte) : (latchLength lh f s).outBuf = s.outBuf := by
  unfold latchLength; split <;> rfl
@[simp] theorem latchLength_e8Policy (lh : BitVec 3) (f : Byte) : (latchLength lh f s).e8Policy = s.e8Policy := by
  unfold latchLength; split <;> rfl
@[simp] theorem latchLength_port (lh : BitVec 3) (f : Byte) : (latchLength lh f s).port = s.port := by
  unfold latchLength; split <;> rfl
@[simp] theorem latchLength_outEpoch (lh : BitVec 3) (f : Byte) : (latchLength lh f s).outEpoch = s.outEpoch := by
  unfold latchLength; split <;> rfl
@[simp] theorem latchLength_viewReads (lh : BitVec 3) (f : Byte) : (latchLength lh f s).viewReads = s.viewReads := by
  unfold latchLength; split <;> rfl
@[simp] theorem latchLength_seq_expect (lh : BitVec 3) (f : Byte) : (latchLength lh f s).seq.expect = s.seq.expect := by
  unfold latchLength; split <;> rfl
@[simp] theorem latchLength_seq_togo (lh : BitVec 3) (f : Byte) : (latchLength lh f s).seq.togo = s.seq.togo := by
  unfold latchLength; split <;> rfl
@[simp] theorem latchLength_seq_run (lh : BitVec 3) (f : Byte) : (latchLength lh f s).seq.run = s.seq.run := by
  unfold latchLength; split <;> rfl
@[simp] theorem latchLength_seq_sect (lh : BitVec 3) (f : Byte) : (latchLength lh f s).seq.sect = s.seq.sect := by
  unfold latchLength; split <;> rfl
@[simp] theorem latchLength_seq_x (lh : BitVec 3) (f : Byte) : (latchLength lh f s).seq.x = s.seq.x := by
  unfold latchLength; split <;> rfl
@[simp] theorem latchLength_seq_mext (lh : BitVec 3) (f : Byte) : (latchLength lh f s).seq.mext = s.seq.mext := by
  unfold latchLength; split <;> rfl
@[simp] theorem latchLength_seq_chan (lh : BitVec 3) (f : Byte) : (latchLength lh f s).seq.chan = s.seq.chan := by
  unfold latchLength; split <;> rfl
@[simp] theorem latchLength_seq_apos (lh : BitVec 3) (f : Byte) : (latchLength lh f s).seq.apos = s.seq.apos := by
  unfold latchLength; split <;> rfl
@[simp] theorem latchLength_seq_emitted (lh : BitVec 3) (f : Byte) : (latchLength lh f s).seq.emitted = s.seq.emitted := by
  unfold latchLength; split <;> rfl

/-! ### latchOffBits -/

@[simp] theorem latchOffBits_lzx (o : OffBits) : (latchOffBits o s).lzx = s.lzx := by
  cases o <;> rfl
@[simp] theorem latchOffBits_rdr (o : OffBits) : (latchOffBits o s).rdr = s.rdr := by
  cases o <;> rfl
@[simp] theorem latchOffBits_adpcm (o : OffBits) : (latchOffBits o s).adpcm = s.adpcm := by
  cases o <;> rfl
@[simp] theorem latchOffBits_life (o : OffBits) : (latchOffBits o s).life = s.life := by
  cases o <;> rfl
@[simp] theorem latchOffBits_errcode (o : OffBits) : (latchOffBits o s).errcode = s.errcode := by
  cases o <;> rfl
@[simp] theorem latchOffBits_args (o : OffBits) : (latchOffBits o s).args = s.args := by
  cases o <;> rfl
@[simp] theorem latchOffBits_outCount (o : OffBits) : (latchOffBits o s).outCount = s.outCount := by
  cases o <;> rfl
@[simp] theorem latchOffBits_inBuf (o : OffBits) : (latchOffBits o s).inBuf = s.inBuf := by
  cases o <;> rfl
@[simp] theorem latchOffBits_outBuf (o : OffBits) : (latchOffBits o s).outBuf = s.outBuf := by
  cases o <;> rfl
@[simp] theorem latchOffBits_e8Policy (o : OffBits) : (latchOffBits o s).e8Policy = s.e8Policy := by
  cases o <;> rfl
@[simp] theorem latchOffBits_port (o : OffBits) : (latchOffBits o s).port = s.port := by
  cases o <;> rfl
@[simp] theorem latchOffBits_outEpoch (o : OffBits) : (latchOffBits o s).outEpoch = s.outEpoch := by
  cases o <;> rfl
@[simp] theorem latchOffBits_viewReads (o : OffBits) : (latchOffBits o s).viewReads = s.viewReads := by
  cases o <;> rfl
@[simp] theorem latchOffBits_seq_expect (o : OffBits) : (latchOffBits o s).seq.expect = s.seq.expect := by
  cases o <;> rfl
@[simp] theorem latchOffBits_seq_togo (o : OffBits) : (latchOffBits o s).seq.togo = s.seq.togo := by
  cases o <;> rfl
@[simp] theorem latchOffBits_seq_run (o : OffBits) : (latchOffBits o s).seq.run = s.seq.run := by
  cases o <;> rfl
@[simp] theorem latchOffBits_seq_sect (o : OffBits) : (latchOffBits o s).seq.sect = s.seq.sect := by
  cases o <;> rfl
@[simp] theorem latchOffBits_seq_x (o : OffBits) : (latchOffBits o s).seq.x = s.seq.x := by
  cases o <;> rfl
@[simp] theorem latchOffBits_seq_mlen (o : OffBits) : (latchOffBits o s).seq.mlen = s.seq.mlen := by
  cases o <;> rfl
@[simp] theorem latchOffBits_seq_chan (o : OffBits) : (latchOffBits o s).seq.chan = s.seq.chan := by
  cases o <;> rfl
@[simp] theorem latchOffBits_seq_apos (o : OffBits) : (latchOffBits o s).seq.apos = s.seq.apos := by
  cases o <;> rfl
@[simp] theorem latchOffBits_seq_emitted (o : OffBits) : (latchOffBits o s).seq.emitted = s.seq.emitted := by
  cases o <;> rfl

/-! ### setChannel -/

@[simp] theorem setChannel_lzx (c : Channel) (a : AdpcmChannel) : (setChannel c a s).lzx = s.lzx := by
  cases c <;> rfl
@[simp] theorem setChannel_rdr (c : Channel) (a : AdpcmChannel) : (setChannel c a s).rdr = s.rdr := by
  cases c <;> rfl
@[simp] theorem setChannel_life (c : Channel) (a : AdpcmChannel) : (setChannel c a s).life = s.life := by
  cases c <;> rfl
@[simp] theorem setChannel_errcode (c : Channel) (a : AdpcmChannel) : (setChannel c a s).errcode = s.errcode := by
  cases c <;> rfl
@[simp] theorem setChannel_args (c : Channel) (a : AdpcmChannel) : (setChannel c a s).args = s.args := by
  cases c <;> rfl
@[simp] theorem setChannel_outCount (c : Channel) (a : AdpcmChannel) : (setChannel c a s).outCount = s.outCount := by
  cases c <;> rfl
@[simp] theorem setChannel_inBuf (c : Channel) (a : AdpcmChannel) : (setChannel c a s).inBuf = s.inBuf := by
  cases c <;> rfl
@[simp] theorem setChannel_outBuf (c : Channel) (a : AdpcmChannel) : (setChannel c a s).outBuf = s.outBuf := by
  cases c <;> rfl
@[simp] theorem setChannel_e8Policy (c : Channel) (a : AdpcmChannel) : (setChannel c a s).e8Policy = s.e8Policy := by
  cases c <;> rfl
@[simp] theorem setChannel_seq (c : Channel) (a : AdpcmChannel) : (setChannel c a s).seq = s.seq := by
  cases c <;> rfl
@[simp] theorem setChannel_port (c : Channel) (a : AdpcmChannel) : (setChannel c a s).port = s.port := by
  cases c <;> rfl
@[simp] theorem setChannel_outEpoch (c : Channel) (a : AdpcmChannel) : (setChannel c a s).outEpoch = s.outEpoch := by
  cases c <;> rfl
@[simp] theorem setChannel_viewReads (c : Channel) (a : AdpcmChannel) : (setChannel c a s).viewReads = s.viewReads := by
  cases c <;> rfl

/-! ### detectE8 -/

@[simp] theorem detectE8_rdr : (detectE8 s).rdr = s.rdr := by
  unfold detectE8; split <;> rfl
@[simp] theorem detectE8_adpcm : (detectE8 s).adpcm = s.adpcm := by
  unfold detectE8; split <;> rfl
@[simp] theorem detectE8_life : (detectE8 s).life = s.life := by
  unfold detectE8; split <;> rfl
@[simp] theorem detectE8_errcode : (detectE8 s).errcode = s.errcode := by
  unfold detectE8; split <;> rfl
@[simp] theorem detectE8_args : (detectE8 s).args = s.args := by
  unfold detectE8; split <;> rfl
@[simp] theorem detectE8_outCount : (detectE8 s).outCount = s.outCount := by
  unfold detectE8; split <;> rfl
@[simp] theorem detectE8_inBuf : (detectE8 s).inBuf = s.inBuf := by
  unfold detectE8; split <;> rfl
@[simp] theorem detectE8_outBuf : (detectE8 s).outBuf = s.outBuf := by
  unfold detectE8; split <;> rfl
@[simp] theorem detectE8_e8Policy : (detectE8 s).e8Policy = s.e8Policy := by
  unfold detectE8; split <;> rfl
@[simp] theorem detectE8_seq : (detectE8 s).seq = s.seq := by
  unfold detectE8; split <;> rfl
@[simp] theorem detectE8_port : (detectE8 s).port = s.port := by
  unfold detectE8; split <;> rfl
@[simp] theorem detectE8_outEpoch : (detectE8 s).outEpoch = s.outEpoch := by
  unfold detectE8; split <;> rfl
@[simp] theorem detectE8_viewReads : (detectE8 s).viewReads = s.viewReads := by
  unfold detectE8; split <;> rfl
@[simp] theorem detectE8_lzx_win : (detectE8 s).lzx.win = s.lzx.win := by
  unfold detectE8; split <;> rfl
@[simp] theorem detectE8_lzx_wpos : (detectE8 s).lzx.wpos = s.lzx.wpos := by
  unfold detectE8; split <;> rfl
@[simp] theorem detectE8_lzx_r0 : (detectE8 s).lzx.r0 = s.lzx.r0 := by
  unfold detectE8; split <;> rfl
@[simp] theorem detectE8_lzx_r1 : (detectE8 s).lzx.r1 = s.lzx.r1 := by
  unfold detectE8; split <;> rfl
@[simp] theorem detectE8_lzx_r2 : (detectE8 s).lzx.r2 = s.lzx.r2 := by
  unfold detectE8; split <;> rfl
@[simp] theorem detectE8_lzx_mainLen : (detectE8 s).lzx.mainLen = s.lzx.mainLen := by
  unfold detectE8; split <;> rfl
@[simp] theorem detectE8_lzx_lenLen : (detectE8 s).lzx.lenLen = s.lzx.lenLen := by
  unfold detectE8; split <;> rfl
@[simp] theorem detectE8_lzx_alignLen : (detectE8 s).lzx.alignLen = s.lzx.alignLen := by
  unfold detectE8; split <;> rfl
@[simp] theorem detectE8_lzx_preLen : (detectE8 s).lzx.preLen = s.lzx.preLen := by
  unfold detectE8; split <;> rfl
@[simp] theorem detectE8_lzx_hdrRead : (detectE8 s).lzx.hdrRead = s.lzx.hdrRead := by
  unfold detectE8; split <;> rfl
@[simp] theorem detectE8_lzx_btype : (detectE8 s).lzx.btype = s.lzx.btype := by
  unfold detectE8; split <;> rfl
@[simp] theorem detectE8_lzx_blen : (detectE8 s).lzx.blen = s.lzx.blen := by
  unfold detectE8; split <;> rfl
@[simp] theorem detectE8_lzx_brem : (detectE8 s).lzx.brem = s.lzx.brem := by
  unfold detectE8; split <;> rfl
@[simp] theorem detectE8_lzx_intelFilesize : (detectE8 s).lzx.intelFilesize = s.lzx.intelFilesize := by
  unfold detectE8; split <;> rfl
@[simp] theorem detectE8_lzx_intelCurpos : (detectE8 s).lzx.intelCurpos = s.lzx.intelCurpos := by
  unfold detectE8; split <;> rfl
@[simp] theorem detectE8_lzx_framesRead : (detectE8 s).lzx.framesRead = s.lzx.framesRead := by
  unfold detectE8; split <;> rfl
@[simp] theorem detectE8_lzx_e8Skipped : (detectE8 s).lzx.e8Skipped = s.lzx.e8Skipped := by
  unfold detectE8; split <;> rfl

end Sys2Proof.Machine
end

