-- ==== Sys2Proof/Laws/Ops.lean ====
section
/-! SUPPORT. One lemma per shared operation that says everything it can do; later proofs cite these instead of
unfolding the operation. -/

namespace Sys2Proof.Machine

/-! ## Elements -/

theorem element_next (s : State) (r : Except ErrCode State) : element s r = .next (settle s r) := rfl

@[simp] theorem settle_ok (s t : State) : settle s (.ok t) = t := rfl

@[simp] theorem settle_error (s : State) (e : ErrCode) : settle s (.error e) = takeFault e s := rfl

/-- What an element leaves is its result, or the fault it raised, taken. -/
theorem settle_cases (s : State) (r : Except ErrCode State) :
    r = .ok (settle s r) ∨ ∃ e, r = .error e ∧ settle s r = takeFault e s := by
  cases r with
  | ok t => exact .inl rfl
  | error e => exact .inr ⟨e, rfl, rfl⟩

theorem buildTable_ok (ls : List Nat) (u : Unit) : buildTable ls = .ok u ↔ classify ls ≠ .oversubscribed := by
  unfold buildTable
  split <;> simp_all

theorem buildTable_error (ls : List Nat) (e : ErrCode) :
    buildTable ls = .error e ↔ classify ls = .oversubscribed ∧ e = .huffmanOversubscribed := by
  unfold buildTable
  split <;> simp_all [eq_comm]

/-! ## The frame loop -/

/-- Bookkeeping writes FRAMES_READ, INTEL_CURPOS and E8_SKIPPED only. -/
theorem e8Bookkeeping_cases {f : Nat} {s t : State} (h : e8Bookkeeping f s = .ok t) :
    t = { s with
          lzx.framesRead := min (s.lzx.framesRead + 1) 32768
          lzx.intelCurpos := t.lzx.intelCurpos
          lzx.e8Skipped := t.lzx.e8Skipped } ∧
      (t.lzx.intelCurpos =
        if s.lzx.framesRead < 32768 ∧ s.lzx.intelFilesize ≠ 0 then s.lzx.intelCurpos + BitVec.ofNat 32 f
        else s.lzx.intelCurpos) ∧
      (t.lzx.e8Skipped =
        if s.lzx.framesRead < 32768 ∧ s.lzx.intelFilesize ≠ 0 ∧ 6 < f ∧ s.lzx.intelStarted = true then true
        else s.lzx.e8Skipped) := by
  unfold e8Bookkeeping applyE8Policy at h
  simp only at h
  split at h
  · rename_i hc
    split at h
    · rename_i hf
      split at h
      · cases h
        exact ⟨rfl, (if_pos hc).symm, (if_pos ⟨hc.1, hc.2, hf.1, hf.2⟩).symm⟩
      · cases h
    · rename_i hf
      cases h
      exact ⟨rfl, (if_pos hc).symm, (if_neg (fun h => hf ⟨h.2.2.1, h.2.2.2⟩)).symm⟩
  · rename_i hc
    cases h
    refine ⟨rfl, by rw [if_neg hc], ?_⟩
    rw [if_neg]
    exact fun h => hc ⟨h.1, h.2.1⟩

/-- Bookkeeping raises E8TranslationRequired only, under E8_POLICY = Fault. -/
theorem e8Bookkeeping_error {f : Nat} {s : State} {e : ErrCode} (h : e8Bookkeeping f s = .error e) :
    e = .e8TranslationRequired ∧ s.e8Policy = .fault ∧ s.lzx.framesRead < 32768 ∧ s.lzx.intelFilesize ≠ 0 ∧ 6 < f ∧
      s.lzx.intelStarted = true := by
  unfold e8Bookkeeping applyE8Policy at h
  simp only at h
  split at h
  · rename_i hc
    split at h
    · rename_i hf
      split at h
      · cases h
      · rename_i hp
        cases h
        exact ⟨rfl, hp, hc.1, hc.2, hf.1, hf.2⟩
    · cases h
  · cases h

theorem finishFrame_cases {s t : State} (h : finishFrame s = .ok t) :
    ∃ u, e8Bookkeeping s.args.frameSize.toNat s = .ok u ∧
      t = endCommand { u with
            outBuf := Memory.putList u.outBuf 0 (frameBytes s.lzx s.args.frameSize.toNat)
            outCount := s.args.frameSize } := by
  unfold finishFrame at h
  cases hu : e8Bookkeeping s.args.frameSize.toNat s with
  | error e => simp [hu, bind, Except.bind] at h
  | ok u =>
    simp only [hu, bind, Except.bind, Except.ok.injEq] at h
    exact ⟨u, rfl, h.symm⟩

theorem beginRun_cases {s t : State} (h : beginRun s = .ok t) :
    s.lzx.wpos % 65536 + min s.lzx.brem.toNat s.seq.togo ≤ 65536 ∧
      t = { s with
            lzx.brem := BitVec.ofNat 24 (s.lzx.brem.toNat - min s.lzx.brem.toNat s.seq.togo)
            lzx.wpos := s.lzx.wpos % 65536
            seq.togo := s.seq.togo - min s.lzx.brem.toNat s.seq.togo
            seq.run := min s.lzx.brem.toNat s.seq.togo
            seq.expect := if s.lzx.btype = 1 ∨ s.lzx.btype = 2 then some .element else some .uncData } := by
  unfold beginRun at h
  simp only at h
  split at h
  · cases h
  · rename_i hw
    cases h
    exact ⟨by omega, rfl⟩

theorem beginRun_error {s : State} {e : ErrCode} (h : beginRun s = .error e) :
    e = .runStraddlesWindow ∧ 65536 < s.lzx.wpos % 65536 + min s.lzx.brem.toNat s.seq.togo := by
  unfold beginRun at h
  simp only at h
  split at h
  · rename_i hw
    cases h
    exact ⟨rfl, hw⟩
  · cases h

/-- Between runs the frame is done, a block header is due, or a run begins. -/
theorem continueFrame_cases {s t : State} (h : continueFrame s = .ok t) :
    (s.seq.togo = 0 ∧ finishFrame s = .ok t) ∨
      (s.seq.togo ≠ 0 ∧ s.lzx.brem = 0 ∧
        t = expectNext (if s.lzx.btype = 3 then .uncClose else .blockHdr) s) ∨
      (s.seq.togo ≠ 0 ∧ s.lzx.brem ≠ 0 ∧ beginRun s = .ok t) := by
  unfold continueFrame at h
  split at h
  · rename_i h0
    exact .inl ⟨h0, h⟩
  · rename_i h0
    split at h
    · rename_i h1
      cases h
      exact .inr (.inl ⟨h0, h1, rfl⟩)
    · rename_i h1
      exact .inr (.inr ⟨h0, h1, h⟩)

theorem continueRun_cases {s t : State} (h : continueRun s = .ok t) :
    (s.seq.run = 0 ∧ continueFrame s = .ok t) ∨ (s.seq.run ≠ 0 ∧ t = s) := by
  unfold continueRun at h
  split at h
  · rename_i h0
    exact .inl ⟨h0, h⟩
  · rename_i h0
    cases h
    exact .inr ⟨h0, rfl⟩

/-- A match that copies has passed both checks. -/
theorem checkedCopy_cases {off : Nat} {s t : State} (h : checkedCopy off s = .ok t) :
    off ≠ 0 ∧ off ≤ 65536 ∧ s.seq.mlen ≤ s.seq.run ∧ continueRun (copyMatch off s.seq.mlen s) = .ok t := by
  unfold checkedCopy at h
  split at h
  · cases h
  · rename_i h0
    split at h
    · cases h
    · rename_i h1
      exact ⟨fun hz => h0 (.inl hz), by omega, by omega, h⟩

/-! ## Length sections -/

theorem length_fillLens (ls : List Nat) (x v n : Nat) : (fillLens ls x v n).length = ls.length := by
  induction n generalizing ls x with
  | zero => rfl
  | succ n ih => rw [fillLens, ih, List.length_set]

theorem getD_fillLens (ls : List Nat) (x v n j : Nat) (hx : x + n ≤ ls.length) :
    (fillLens ls x v n).getD j 0 = if x ≤ j ∧ j < x + n then v else ls.getD j 0 := by
  induction n generalizing ls x with
  | zero =>
    rw [if_neg (by omega)]
    rfl
  | succ n ih =>
    rw [fillLens, ih _ _ (by rw [List.length_set]; omega)]
    by_cases hj : j = x
    · subst hj
      rw [if_neg (by omega), if_pos (by omega)]
      simp only [List.getD_eq_getElem?_getD]
      rw [List.getElem?_set_self (by omega)]
      rfl
    · by_cases hr : x + 1 ≤ j ∧ j < x + 1 + n
      · rw [if_pos hr, if_pos (by omega)]
      · rw [if_neg hr, if_neg (by omega)]
        simp only [List.getD_eq_getElem?_getD]
        rw [List.getElem?_set_ne (Ne.symm hj)]

theorem deltaLen_le (old d : Nat) : deltaLen old d ≤ 16 := by
  unfold deltaLen
  omega

theorem endSection_cases {s t : State} (h : endSection s = .ok t) :
    (s.seq.sect = .mainA ∧ t = expectNext .preLens { s with seq.sect := .mainB }) ∨
      (s.seq.sect = .mainB ∧ classify (s.lzx.mainLen.take 512) ≠ .oversubscribed ∧
        t = expectNext .preLens (detectE8 { s with seq.sect := .length })) ∨
      (s.seq.sect = .length ∧ classify (s.lzx.lenLen.take 250) ≠ .oversubscribed ∧ continueFrame s = .ok t) := by
  unfold endSection at h
  split at h
  · rename_i hs
    cases h
    exact .inl ⟨hs, rfl⟩
  · rename_i hs
    cases hb : buildTable (s.lzx.mainLen.take 512) with
    | error e => simp [hb, bind, Except.bind] at h
    | ok u =>
      simp only [hb, bind, Except.bind, Except.ok.injEq] at h
      exact .inr (.inl ⟨hs, (buildTable_ok _ u).mp hb, h.symm⟩)
  · rename_i hs
    cases hb : buildTable (s.lzx.lenLen.take 250) with
    | error e => simp [hb, bind, Except.bind] at h
    | ok u =>
      simp only [hb, bind, Except.bind] at h
      exact .inr (.inr ⟨hs, (buildTable_ok _ u).mp hb, h⟩)

theorem advanceTo_cases {x : Nat} {s t : State} (h : advanceTo x s = .ok t) :
    (x < sectionLast s.seq.sect ∧ t = expectNext .preSym { s with seq.x := x }) ∨
      (sectionLast s.seq.sect ≤ x ∧ endSection { s with seq.x := x } = .ok t) := by
  unfold advanceTo at h
  simp only at h
  split at h
  · rename_i hx
    cases h
    exact .inl ⟨hx, rfl⟩
  · rename_i hx
    exact .inr ⟨by omega, h⟩

theorem fillRun_cases {n v : Nat} {s t : State} (h : fillRun n v s = .ok t) :
    s.seq.x + n ≤ sectionLast s.seq.sect ∧
      advanceTo (s.seq.x + n) (setSectionArray (fillLens (sectionArray s) s.seq.x v n) s) = .ok t := by
  unfold fillRun at h
  simp only at h
  split at h
  · cases h
  · rename_i hx
    exact ⟨by omega, h⟩

theorem repeatRun_cases {b : BitVec 1} {d : BitVec 5} {s t : State} (h : repeatRun b d s = .ok t) :
    d.toNat ≤ 16 ∧ fillRun (4 + b.toNat) (deltaLen ((sectionArray s).getD s.seq.x 0) d.toNat) s = .ok t := by
  unfold repeatRun at h
  split at h
  · cases h
  · exact ⟨by omega, h⟩

theorem loadPreLens_cases {ls : List (BitVec 4)} {s t : State} (h : loadPreLens ls s = .ok t) :
    classify ((ls.map BitVec.toNat).take 20) ≠ .oversubscribed ∧
      t = expectNext .preSym
            { s with lzx.preLen := ls.map BitVec.toNat, seq.x := sectionFirst s.seq.sect } := by
  unfold loadPreLens at h
  simp only at h
  cases hb : buildTable ((ls.map BitVec.toNat).take 20) with
  | error e => simp [hb, bind, Except.bind] at h
  | ok u =>
    simp only [hb, bind, Except.bind, Except.ok.injEq] at h
    exact ⟨(buildTable_ok _ u).mp hb, h.symm⟩

theorem loadAlignLens_cases {ls : List (BitVec 3)} {s t : State} (h : loadAlignLens ls s = .ok t) :
    classify ((ls.map BitVec.toNat).take 8) ≠ .oversubscribed ∧
      t = beginTrees { s with lzx.alignLen := ls.map BitVec.toNat } := by
  unfold loadAlignLens at h
  simp only at h
  cases hb : buildTable ((ls.map BitVec.toNat).take 8) with
  | error e => simp [hb, bind, Except.bind] at h
  | ok u =>
    simp only [hb, bind, Except.bind, Except.ok.injEq] at h
    exact ⟨(buildTable_ok _ u).mp hb, h.symm⟩

/-! ## ADPCM -/

theorem monoPreamble_cases {p : Byte} {d a b : Half} {s t : State} (h : monoPreamble p d a b s = .ok t) :
    p.toNat ≤ 6 ∧
      t = continueBlock 7 (emitSample a (emitSample b (setChannel .left (preambleChannel p d a b) s))) := by
  unfold monoPreamble at h
  split at h
  · cases h
  · cases h
    exact ⟨by omega, rfl⟩

theorem stereoPreamble_cases {l r : AdpcmChannel} {s t : State} (h : stereoPreamble l r s = .ok t) :
    (l.pred ≤ 6 ∧ r.pred ≤ 6) ∧
      t = continueBlock 14 (emitSample r.s1 (emitSample l.s1 (emitSample r.s2 (emitSample l.s2
            (setChannel .right r (setChannel .left l s)))))) := by
  unfold stereoPreamble at h
  split at h
  · cases h
  · cases h
    exact ⟨by omega, rfl⟩

/-- Between bytes the block goes on or ends. -/
theorem continueBlock_cases (o : Nat) (s : State) :
    (o < s.args.adpcmBlockBytes.toNat ∧ continueBlock o s = expectNext .adpcmByte { s with seq.apos := o }) ∨
      (s.args.adpcmBlockBytes.toNat ≤ o ∧ continueBlock o s = finishAdpcm { s with seq.apos := o }) := by
  unfold continueBlock
  simp only
  split
  · rename_i h
    exact .inl ⟨h, rfl⟩
  · exact .inr ⟨by omega, rfl⟩

/-! ## Commands -/

theorem startLzx_cases {s t : State} (h : startLzx s = .ok t) :
    (1 ≤ s.args.frameSize.toNat ∧ s.args.frameSize.toNat ≤ 65535 ∧ s.args.inLen.toNat ≤ 131070) ∧
      ((s.lzx.hdrRead = true ∧
          continueFrame (initReader { s with seq.togo := s.args.frameSize.toNat, seq.run := 0 }) = .ok t) ∨
        (s.lzx.hdrRead = false ∧
          t = expectNext .streamHdr
                (initReader { s with seq.togo := s.args.frameSize.toNat, seq.run := 0 }))) := by
  unfold startLzx at h
  split at h
  · cases h
  · rename_i h0
    split at h
    · cases h
    · rename_i h1
      have hf : 1 ≤ s.args.frameSize.toNat := by
        rcases Nat.eq_zero_or_pos s.args.frameSize.toNat with hz | hz
        · exact absurd (.inl (BitVec.eq_of_toNat_eq (by simpa using hz))) h0
        · exact hz
      have hc : Config.inCapacity - 2 = 131070 := rfl
      refine ⟨⟨hf, by omega, by omega⟩, ?_⟩
      by_cases hr : s.lzx.hdrRead = true
      · exact .inl ⟨hr, (if_pos hr).symm.trans h⟩
      · exact .inr ⟨by simpa using hr, (Except.ok.inj ((if_neg hr).symm.trans h)).symm⟩

theorem startAdpcm_cases {s t : State} (h : startAdpcm s = .ok t) :
    ((s.args.adpcmChannels = 1 ∨ s.args.adpcmChannels = 2) ∧
        7 * s.args.adpcmChannels.toNat ≤ s.args.adpcmBlockBytes.toNat ∧ s.args.adpcmBlockBytes.toNat ≤ 4096 ∧
        s.args.inLen.toNat ≤ 131070 ∧ s.args.adpcmBlockBytes.toNat ≤ s.args.inLen.toNat) ∧
      t = expectNext .adpcmPreamble { s with seq.apos := 0, seq.emitted := 0 } := by
  unfold startAdpcm at h
  simp only at h
  split at h
  · cases h
  · rename_i h0
    split at h
    · cases h
    · rename_i h1
      split at h
      · cases h
      · rename_i h2
        split at h
        · cases h
        · rename_i h3
          cases h
          have hm : Config.adpcmMaxBlockBytes = 4096 := rfl
          have hc : Config.inCapacity - 2 = 131070 := rfl
          refine ⟨⟨?_, by omega, by omega, by omega, by omega⟩, rfl⟩
          by_contra hn
          exact h0 ⟨fun h => hn (.inl h), fun h => hn (.inr h)⟩

theorem runCommand_cases (start : State → Except ErrCode State) (s : State) :
    (∃ e, start { s with outCount := 0 } = .error e ∧
        runCommand start s = .next (takeFault e { s with outCount := 0 })) ∨
      ∃ t, start { s with outCount := 0 } = .ok t ∧ runCommand start s = runEngine (workBound s) t := by
  unfold runCommand
  simp only
  cases h : start { s with outCount := 0 } with
  | error e => exact .inl ⟨e, rfl, rfl⟩
  | ok t => exact .inr ⟨t, rfl, rfl⟩

/-! ## The inner machine -/

/-- Fetching an element moves one cursor of the reader, or nothing, and changes nothing else. -/
theorem fetchElement_cases {e : Expect} {s t : State} {i : Instr} (h : fetchElement e s = .ok (i, t)) :
    (e.isBits = true ∧ ∃ k, decodeBits (decodeCtx s e) (bitSource s) = .ok (i, k) ∧ t = advanceBits s k) ∨
      (e.isBits = false ∧ isAdpcm e = true ∧
        ∃ k, decodeBytes (decodeCtx s e) (adpcmSource s) = .ok (i, k) ∧ t = s) ∨
      (e.isBits = false ∧ isAdpcm e = false ∧
        ∃ k, decodeBytes (decodeCtx s e) (rawSource s) = .ok (i, k) ∧ t = advanceRaw s k) := by
  unfold fetchElement at h
  split at h
  · rename_i hb
    split at h
    · cases h
    · rename_i j k hd
      cases h
      exact .inl ⟨hb, k, hd, rfl⟩
  · rename_i hb
    split at h
    · rename_i ha
      split at h
      · cases h
      · rename_i j k hd
        cases h
        exact .inr (.inl ⟨by simpa using hb, ha, k, hd, rfl⟩)
    · rename_i ha
      split at h
      · cases h
      · rename_i j k hd
        cases h
        exact .inr (.inr ⟨by simpa using hb, by simpa using ha, k, hd, rfl⟩)

/-- The meaning of an element always answers a next state. -/
theorem runElement_next (i : Instr) (s : State) : ∃ t, runElement i s = .next t := by
  cases i with
  | uncBody p => cases p <;> exact ⟨_, rfl⟩
  | _ => exact ⟨_, rfl⟩

theorem engineStep_cases (e : Expect) (s : State) :
    (∃ err, fetchElement e s = .error err ∧ engineStep e s = .next (takeFault err s)) ∨
      ∃ i t, fetchElement e s = .ok (i, t) ∧ engineStep e s = runElement i t := by
  unfold engineStep
  cases h : fetchElement e s with
  | error err => exact .inl ⟨err, rfl, rfl⟩
  | ok p => exact .inr ⟨p.1, p.2, rfl, rfl⟩

theorem engineStep_next (e : Expect) (s : State) : ∃ t, engineStep e s = .next t := by
  rcases engineStep_cases e s with ⟨err, _, h⟩ | ⟨i, t, _, h⟩
  · exact ⟨_, h⟩
  · rw [h]
    exact runElement_next i t

theorem runEngine_idle (fuel : Nat) (s : State) (h : s.seq.expect = none) : runEngine fuel s = .next s := by
  cases fuel with
  | zero => rfl
  | succ n =>
    unfold runEngine
    rw [h]

theorem runEngine_step (fuel : Nat) (s t : State) (e : Expect) (h : s.seq.expect = some e)
    (hs : engineStep e s = .next t) : runEngine (fuel + 1) s = runEngine fuel t := by
  conv_lhs => unfold runEngine
  rw [h]
  simp only [hs]

/-- The command loop always answers a next state, and whatever every element keeps, the loop keeps. -/
theorem runEngine_keeps (P : State → Prop)
    (hP : ∀ e s t, s.seq.expect = some e → P s → engineStep e s = .next t → P t) (fuel : Nat) (s : State) (hs : P s) :
    ∃ t, runEngine fuel s = .next t ∧ P t := by
  induction fuel generalizing s with
  | zero => exact ⟨s, rfl, hs⟩
  | succ n ih =>
    cases he : s.seq.expect with
    | none => exact ⟨s, runEngine_idle _ s he, hs⟩
    | some e =>
      obtain ⟨t, ht⟩ := engineStep_next e s
      rw [runEngine_step n s t e he ht]
      exact ih t (hP e s t he hs ht)

end Sys2Proof.Machine
end

