-- ==== Sys2Proof/Machine/HostSide.lean ====
section
/-! DEFINITION. The host's side of the protocol (40_host_commands R122, R123, 45_lzx_frame R240, R241, 46_msadpcm R264,
R265, 60_exceptions R287). It is outside the block (00_scope R5): no step uses it (log 21). -/

namespace Sys2Proof.Machine

/-- A 2-byte field of the chunk header in the byte order `o` (45_lzx_frame R240). -/
def chunkField (o : Config.ByteOrder) (a b : Byte) : Nat :=
  match o with
  | .bigEndian => 256 * a.toNat + b.toNat
  | .littleEndian => a.toNat + 256 * b.toNat

/-- A parsed chunk header (45_lzx_frame R240). -/
structure ChunkHeader where
  /-- Bytes the header takes, 2 or 5. -/
  headerLen : Nat
  /-- The chunk's size; 0 ends the payload. -/
  chunkSize : Nat
  /-- The frame's size. -/
  frameSize : Nat
  deriving DecidableEq, Repr

/-- The chunk header of 2 or 5 bytes, with the byte order and the default frame size as arguments (45_lzx_frame R240);
none when the bytes end too early. -/
def parseChunk (o : Config.ByteOrder) (dflt : Nat) : List Byte → Option ChunkHeader
  | a :: b :: rest =>
    if a = 0xFF then
      match rest with
      | c :: d :: e :: _ => some { headerLen := 5, chunkSize := chunkField o d e, frameSize := chunkField o b c }
      | _ => none
    else some { headerLen := 2, chunkSize := chunkField o a b, frameSize := dflt }
  | _ => none

/-- The chunk header under the OPEN parameters (00_scope R7). -/
def parseChunkOpen (bs : List Byte) : Option ChunkHeader :=
  parseChunk Config.chunkOrder Config.defaultFrameSize bs

/-- The accesses that load bytes into IN from offset `o` on. -/
def loadIn (o : Nat) : List Byte → List HostAccess
  | [] => []
  | b :: bs => .write (0x10000 + o) .b1 (b.setWidth 32) :: loadIn (o + 1) bs

/-- The accesses of one chunk of an XNB payload (40_host_commands R122). -/
def chunkAccesses (chunk : List Byte) (frameSize : Nat) : List HostAccess :=
  loadIn 0 chunk ++
    [.write 0x08 .b4 (BitVec.ofNat 32 chunk.length), .write 0x0C .b4 (BitVec.ofNat 32 frameSize), .write 0x00 .b4 2]

/-- The accesses of one block of a wave-bank entry (40_host_commands R123). -/
def blockAccesses (channels : Nat) (block : List Byte) : List HostAccess :=
  [.write 0x10 .b4 (BitVec.ofNat 32 channels), .write 0x14 .b4 (BitVec.ofNat 32 block.length)] ++ loadIn 0 block ++
    [.write 0x08 .b4 (BitVec.ofNat 32 block.length), .write 0x00 .b4 3]

/-- The declared-size check over the OUT_COUNTs of a payload (45_lzx_frame R241). -/
def sizeMatches (declared : Nat) (counts : List Nat) : Bool := counts.sum == declared

/-- blockAlign of an XWB entry (46_msadpcm R264). -/
def blockAlign (align channels : Nat) : Nat := (align + 22) * channels

/-- The short block a trailing remainder is decoded as, if it is long enough (46_msadpcm R265). -/
def trailingBlock (remainder channels : Nat) : Option Nat :=
  if 7 * channels ≤ remainder then some remainder else none

/-- The source's error classes that a fault of the block maps to (60_exceptions R287). -/
inductive SourceError where
  /-- A malformed LZX stream. -/
  | decompression
  /-- A bad ADPCM field, or host misuse. -/
  | format
  deriving DecidableEq, Repr

/-- The class of a fault of a command; `adpcm` tells an ADPCM_BLOCK command (60_exceptions R281, R287). NotReset is
raised by no command. -/
def sourceError (adpcm : Bool) : ErrCode → Option SourceError
  | .notReset => none
  | .badCommand => some .format
  | .badLength => some (if adpcm then .format else .decompression)
  | .adpcmBadChannels => some .format
  | .adpcmBadBlockBytes => some .format
  | .adpcmTruncatedBlock => some .format
  | .adpcmBadPredictor => some .format
  | .badFrameSize => some .decompression
  | .badBlockType => some .decompression
  | .inputOverrun => some .decompression
  | .rawOverrun => some .decompression
  | .huffmanOversubscribed => some .decompression
  | .emptyTableLookup => some .decompression
  | .unassignedCode => some .decompression
  | .lengthRunOverrun => some .decompression
  | .badPretreeRepeat => some .decompression
  | .badMatchOffset => some .decompression
  | .matchOverrun => some .decompression
  | .runStraddlesWindow => some .decompression
  | .e8TranslationRequired => some .decompression

end Sys2Proof.Machine
end

