-- ==== Sys2Proof/Tests/Slice0.lean ====
section
/-! SUPPORT. The model's own tests: ill-formed terms that WellFormed refuses, words written out from 30_encoding and
spec/opcode_table.json, one-step checks whose expected values are the vectors of spec/95_test_vectors.md (named in each
comment), and a witness for the hypotheses of every statement that has some. -/

namespace Sys2Proof.Tests

set_option Elab.async false

open Sys2Proof Sys2Proof.Machine

/-! ## Helpers -/

/-- Bits written as digits. -/
def bits (l : List Nat) : List Bool := l.map (· == 1)

/-- A length array of `size` entries, zero but at the listed symbols. -/
def lens (size : Nat) (xs : List (Nat × Nat)) : List Nat :=
  (List.range size).map fun i => ((xs.find? fun p => p.1 == i).map (·.2)).getD 0

/-- A decoding context with few codes. -/
def ctx (e : Expect) (main len pre : List (Nat × Nat)) (aligned : Bool) : DecodeCtx where
  expect := e
  main := lens 512 main
  len := lens 250 len
  align := List.replicate 8 3
  pre := lens 20 pre
  aligned := aligned
  padded := false
  stereo := false

/-- Whether an encoding is read as the instruction, consumed exactly. -/
def readsAs (c : DecodeCtx) (w : Encoded) (i : Instr) : Bool :=
  match decodeEncoded c w with
  | .ok j => j == i
  | .error _ => false

/-- Whether `n` bits at `pos` read as `v`. -/
def readsTo (src : BitSource) (pos n v : Nat) : Bool :=
  match readBits src pos n with
  | .ok w => w == v
  | .error _ => false

/-- Main codes: the given symbol is `1`, symbol 65 is `0`. -/
def one (m : Nat) : List (Nat × Nat) := [(65, 1), (m, 1)]

/-- The state an instruction leaves. -/
def after (i : Instr) (s : State) : State :=
  match exec i s with
  | .next t => t
  | .fault _ => s
  | .refused _ => s

/-- A run of `run` bytes at WPOS `wpos`, WIN[0..] holding `w`, the cache as given, with a block going on. -/
def running (run wpos : Nat) (w : List Byte) (r0 r1 r2 : Word) : State :=
  { State.reset with
    lzx := { Lzx.reset with
      win := Memory.putList [] 0 w, wpos := wpos, r0 := r0, r1 := r1, r2 := r2, hdrRead := true, btype := 1,
      brem := 5 }
    seq := { Sequencer.initial with expect := some .element, run := run, togo := 0 } }

/-- The cache. -/
def cache (s : State) : Word × Word × Word := (s.lzx.r0, s.lzx.r1, s.lzx.r2)

/-- Window bytes from an index on. -/
def window (s : State) (i : Int) (n : Nat) : List Byte := (List.range n).map fun k => winGet s.lzx.win (i + k)

/-- A length section in progress over MAINLEN. -/
def section_ (sect : LenSection) (x : Nat) (ls : List (Nat × Nat)) : State :=
  { State.reset with
    lzx := { Lzx.reset with mainLen := lens 512 ls }
    seq := { Sequencer.initial with expect := some .preSym, sect := sect, x := x, togo := 3 } }

/-- IN holding bytes, with arguments. -/
def loaded (bs : List Byte) (frame ch block : Word) : State :=
  { State.reset with
    inBuf := Memory.putList [] 0 bs
    args := { inLen := BitVec.ofNat 32 bs.length, frameSize := frame, adpcmChannels := ch, adpcmBlockBytes := block } }

/-- The samples emitted so far, as integers. -/
def samples (s : State) (n : Nat) : List Int :=
  (List.range n).map fun k => s16 (outByte s (2 * k + 1) ++ outByte s (2 * k))

/-! ## WellFormed refuses ill-formed terms -/

theorem test_wf_refuses_defined_command : Instr.wf (.cmdReserved 1) = false := by decide
theorem test_wf_refuses_seven_aligned_lengths : Instr.wf (.alignLengths [1, 1, 1, 1, 1, 1, 1]) = false := by decide
theorem test_wf_refuses_short_pretree : Instr.wf (.pretreeLengths [1]) = false := by decide
theorem test_wf_refuses_pretree_symbol_20 : Instr.wf (.preRep19 0 20) = false := by decide
theorem test_wf_refuses_footer_without_lh7 : Instr.wf (.matchRep0 6 1) = false := by decide
theorem test_wf_refuses_footer_249 : Instr.wf (.matchRep1 7 249) = false := by decide
theorem test_wf_refuses_footer_rep2 : Instr.wf (.matchRep2 0 1) = false := by decide
theorem test_wf_refuses_footer_off1 : Instr.wf (.matchOff1 7 250) = false := by decide
theorem test_wf_refuses_wide_s4 : Instr.wf (.matchS4to7 0 0 0 2) = false := by decide
theorem test_wf_refuses_wide_s8 : Instr.wf (.matchS8to9 0 0 0 (.raw 8)) = false := by decide
theorem test_wf_refuses_wide_s10 : Instr.wf (.matchS10to11 0 0 0 (.split 2 0)) = false := by decide
theorem test_wf_refuses_wide_s12 : Instr.wf (.matchS12to15 1 0 0 (.raw 32)) = false := by decide
theorem test_wf_refuses_wide_s16 : Instr.wf (.matchS16to31 0 0 0 (.split 16 0)) = false := by decide
theorem test_wf_refuses_lone_footer_249 : Instr.wf (.lenFooter 249) = false := by decide

/-! ## Decoding: words written out from the encodings -/

theorem test_decode_reset : decodeTableWord 32 0x00000001 = some .reset := by decide
theorem test_decode_lzx_frame : decodeTableWord 32 0x00000002 = some .lzxFrame := by decide
theorem test_decode_adpcm_block : decodeTableWord 32 0x00000003 = some .adpcmBlock := by decide
theorem test_decode_cmd_reserved : decodeTableWord 32 0 = some (.cmdReserved 0) := by decide
/-- V-BH1. -/
theorem test_decode_stream_hdr : readsAs (ctx .streamHdr [] [] [] false) (.bits (bits [0])) .streamHdr = true := by
  decide
/-- V-BH2. -/
theorem test_decode_stream_hdr_e8 :
    readsAs (ctx .streamHdr [] [] [] false)
      (.bits (bits ([1] ++ [0, 0, 0, 0, 0, 0, 0, 0, 0, 0, 0, 0, 0, 0, 0, 1] ++
        [0, 0, 1, 0, 0, 0, 1, 1, 0, 1, 0, 0, 0, 1, 0, 1]))) (.streamHdrE8 0x00012345) = true := by
  decide +kernel
/-- V-BH3. -/
theorem test_decode_blk_verbatim : decodeTableWord 27 0b001000000000000000000001100 = some (.blkVerbatim 12) := by
  decide +kernel
theorem test_decode_blk_aligned : decodeTableWord 27 0b010000000000000000100000001 = some (.blkAligned 257) := by
  decide +kernel
/-- V-BH4. -/
theorem test_decode_blk_uncompressed :
    decodeTableWord 27 0b011000000000000000000000101 = some (.blkUncompressed 5) := by
  decide +kernel
/-- V-BH5. -/
theorem test_decode_blk_reserved0 : decodeTableWord 27 0b000000000000000000000000001 = some (.blkReserved0 1) := by
  decide +kernel
/-- V-BH5: type 5. -/
theorem test_decode_blk_reserved4to7 :
    decodeTableWord 27 0b101100000000000000000000000 = some (.blkReserved4to7 1 0x800000) := by
  decide +kernel
/-- V-BR7: a raw u32 is least significant byte first. -/
theorem test_decode_unc_offsets :
    readsAs (ctx .uncOffsets [] [] [] false)
      (.bytes [1, 0, 0, 0, 2, 0, 0, 0, 0x78, 0x56, 0x34, 0x12]) (.uncBody (.offsets 1 2 0x12345678)) = true := by
  decide +kernel
theorem test_decode_unc_data :
    readsAs (ctx .uncData [] [] [] false) (.bytes [0x48]) (.uncBody (.data 0x48)) = true := by
  decide +kernel
/-- R89: the pad byte is there when BLEN is odd. -/
theorem test_decode_unc_close :
    readsAs { ctx .uncClose [] [] [] false with padded := true } (.bytes [9]) (.uncBody (.close (some 9))) = true ∧
      readsAs (ctx .uncClose [] [] [] false) (.bytes []) (.uncBody (.close none)) = true := by
  decide +kernel
theorem test_decode_align_lengths :
    decodeTableWord 24 0b000001010011100101110111 = some (.alignLengths [0, 1, 2, 3, 4, 5, 6, 7]) := by
  decide +kernel
theorem test_decode_pretree_lengths :
    decodeTableWord 80 0x0123456789ABCDEF0123 =
      some (.pretreeLengths [0, 1, 2, 3, 4, 5, 6, 7, 8, 9, 10, 11, 12, 13, 14, 15, 0, 1, 2, 3]) := by
  decide +kernel
/-- PRE codes for lengths 3:1, 16:2, 17:3, 19:3 (R150): 3 is `0`, 16 is `10`, 17 is `110`, 19 is `111`. -/
theorem test_decode_pre_delta :
    readsAs (ctx .preSym [] [] [(3, 1), (16, 2), (17, 3), (19, 3)] false) (.bits (bits [0])) (.preDelta 3) = true := by
  decide +kernel
theorem test_decode_pre_delta16 :
    readsAs (ctx .preSym [] [] [(3, 1), (16, 2), (17, 3), (19, 3)] false) (.bits (bits [1, 0])) .preDelta16 = true := by
  decide +kernel
theorem test_decode_pre_zrun17 :
    readsAs (ctx .preSym [] [] [(3, 1), (16, 2), (17, 3), (19, 3)] false) (.bits (bits [1, 1, 0, 1, 0, 1, 0]))
      (.preZrun17 10) = true := by
  decide +kernel
theorem test_decode_pre_zrun18 :
    readsAs (ctx .preSym [] [] [(3, 1), (18, 1)] false) (.bits (bits [1, 1, 1, 1, 1, 1])) (.preZrun18 31) = true := by
  decide +kernel
theorem test_decode_pre_rep19 :
    readsAs (ctx .preSym [] [] [(3, 1), (16, 2), (17, 3), (19, 3)] false) (.bits (bits [1, 1, 1, 1, 0]))
      (.preRep19 1 3) = true := by
  decide +kernel
/-- P2: lengths 65, 66, 67: 2 and 256, 293: 3 give 65 the code `00`. -/
theorem test_decode_lit :
    readsAs (ctx .element [(65, 2), (66, 2), (67, 2), (256, 3), (293, 3)] [] [] false) (.bits (bits [0, 0]))
      (.lit 0x41) = true := by
  decide +kernel
/-- P2, V-M2: symbol 256 has the code `110`. -/
theorem test_decode_match_rep0 :
    readsAs (ctx .element [(65, 2), (66, 2), (67, 2), (256, 3), (293, 3)] [] [] false) (.bits (bits [1, 1, 0]))
      (.matchRep0 0 0) = true := by
  decide +kernel
theorem test_decode_match_rep1 :
    readsAs (ctx .element (one (256 + 8 + 6)) [] [] false) (.bits (bits [1])) (.matchRep1 6 0) = true := by
  decide +kernel
/-- LH = 7: the footer follows; LEN codes 0 and 248 are `0` and `1`. -/
theorem test_decode_match_rep2 :
    readsAs (ctx .element (one (256 + 16 + 7)) [(0, 1), (248, 1)] [] false) (.bits (bits [1, 1]))
      (.matchRep2 7 248) = true := by
  decide +kernel
/-- V-M5: slot 3 reads no extra bits, in an ALIGNED block too. -/
theorem test_decode_match_off1 :
    readsAs (ctx .element (one (256 + 24)) [] [] true) (.bits (bits [1])) (.matchOff1 0 0) = true := by
  decide +kernel
/-- P2, V-M1: symbol 293 has the code `111`, then one extra bit. -/
theorem test_decode_match_s4to7 :
    readsAs (ctx .element [(65, 2), (66, 2), (67, 2), (256, 3), (293, 3)] [] [] false) (.bits (bits [1, 1, 1, 1]))
      (.matchS4to7 0 5 0 1) = true := by
  decide +kernel
/-- V-M6: in an ALIGNED block slot 8 has an aligned code alone; all lengths 3 make it the 3 raw bits. -/
theorem test_decode_match_s8to9 :
    readsAs (ctx .element (one 320) [] [] true) (.bits (bits [1, 1, 0, 1])) (.matchS8to9 0 0 0 (.split 0 5)) = true := by
  decide +kernel
/-- V-M7: footer, one verbatim bit, then the aligned code. -/
theorem test_decode_match_s10to11 :
    readsAs (ctx .element (one 343) [(0, 1), (248, 1)] [] true) (.bits (bits [1, 0, 1, 0, 1, 1]))
      (.matchS10to11 0 7 0 (.split 1 3)) = true := by
  decide +kernel
/-- Slot 15 has 6 raw bits in a VERBATIM block. -/
theorem test_decode_match_s12to15 :
    readsAs (ctx .element (one (256 + 8 * 15 + 1)) [] [] false) (.bits (bits [1, 1, 0, 0, 0, 0, 1]))
      (.matchS12to15 3 1 0 (.raw 33)) = true := by
  decide +kernel
/-- V-M8: slot 31, 14 extra bits all 1. -/
theorem test_decode_match_s16to31 :
    readsAs (ctx .element (one (256 + 8 * 31)) [] [] false)
      (.bits (bits [1, 1, 1, 1, 1, 1, 1, 1, 1, 1, 1, 1, 1, 1, 1])) (.matchS16to31 15 0 0 (.raw 16383)) = true := by
  decide +kernel
theorem test_decode_len_footer :
    readsAs (ctx .lenFooter [] [(7, 1), (9, 2), (248, 2)] [] false) (.bits (bits [1, 1])) (.lenFooter 248) = true := by
  decide +kernel
theorem test_decode_align_sym :
    readsAs (ctx .alignSym [] [] [] true) (.bits (bits [1, 1, 0])) (.alignSym 6) = true := by
  decide +kernel
/-- A1's preamble. -/
theorem test_decode_adpcm_mono_preamble :
    readsAs (ctx .adpcmPreamble [] [] [] false) (.bytes [0x03, 0x10, 0x00, 0xFD, 0xFF, 0x34, 0x12])
      (.adpcmMonoPreamble 3 16 0xFFFD 0x1234) = true := by
  decide +kernel
/-- S1's preamble (R267). -/
theorem test_decode_adpcm_stereo_preamble :
    readsAs { ctx .adpcmPreamble [] [] [] false with stereo := true }
      (.bytes [0x00, 0x01, 0x10, 0x00, 0x14, 0x00, 0x0A, 0x00, 0x64, 0x00, 0x05, 0x00, 0x32, 0x00])
      (.adpcmStereoPreamble 0 1 16 20 10 100 5 50) = true := by
  decide +kernel
theorem test_decode_adpcm_mono_byte :
    readsAs (ctx .adpcmByte [] [] [] false) (.bytes [0x7F]) (.adpcmMonoByte 7 15) = true := by
  decide +kernel
theorem test_decode_adpcm_stereo_byte :
    readsAs { ctx .adpcmByte [] [] [] false with stereo := true } (.bytes [0x1F]) (.adpcmStereoByte 1 15) = true := by
  decide +kernel
theorem test_decode_adpcm_nibble : decodeTableWord 4 0xB = some (.adpcmNibble 11) := by
  decide +kernel

/-! ## Tables and the reader -/

/-- V-HF1. -/
theorem test_canon : canon [2, 1, 3, 3] = [⟨1, 1, 0⟩, ⟨0, 2, 2⟩, ⟨2, 3, 6⟩, ⟨3, 3, 7⟩] := by decide +kernel
/-- V-HF3, V-HF4, V-HF5, V-HF7. -/
theorem test_classes :
    classify [0, 1, 0] = .single 1 1 ∧ classify [1, 1, 1] = .oversubscribed ∧ classify [0, 0, 0] = .empty ∧
      classify [1, 2, 0] = .incomplete := by
  decide +kernel
/-- V-HF6: the deepest codes. -/
theorem test_deep_table :
    (canon [16, 16, 15, 14, 13, 12, 11, 10, 9, 8, 7, 6, 5, 4, 3, 2, 1]).find? (fun c => c.sym == 0) =
      some ⟨0, 16, 0xFFFE⟩ := by
  decide +kernel
/-- V-BR1. -/
theorem test_read_bits :
    [(0, 4, 0x1), (4, 8, 0x23), (12, 8, 0x45), (20, 12, 0x678)].all (fun q =>
      readsTo (streamBit (loaded [0x34, 0x12, 0x78, 0x56] 0 0 0)) q.1 q.2.1 q.2.2) = true := by
  decide +kernel
/-- V-BR5. -/
theorem test_enter_raw :
    [0, 1, 15, 16, 28, 31, 32].map
        (fun b => (enterRaw { State.reset with rdr := { Reader.initial with bitpos := b } }).rdr.rawpos) =
      [2, 2, 2, 4, 4, 4, 6] := by
  decide +kernel

/-! ## One step of each instruction -/

/-- R112: RESET leaves FAULTED, and STATUS reads 1. -/
theorem test_reset :
    (after .reset State.powerOn).life = .ready ∧ statusWord (after .reset State.powerOn) = 1 := by
  decide +kernel
/-- Program P1: one LZX_FRAME command from RESET gives "HELLO". -/
theorem test_lzx_frame_p1 :
    (let t := after .lzxFrame
        (loaded [0x00, 0x30, 0x50, 0x00, 1, 0, 0, 0, 2, 0, 0, 0, 3, 0, 0, 0, 0x48, 0x45, 0x4C, 0x4C, 0x4F] 5 0 0);
      (t.outBuf.map (·.2), t.outCount, cache t, t.lzx.wpos)) =
      ([0x48, 0x45, 0x4C, 0x4C, 0x4F], 5, (1, 2, 3), 5) := by
  decide +kernel
/-- R114: a frame of 0 bytes. -/
theorem test_lzx_frame_bad_size : (after .lzxFrame (loaded [1] 0 0 0)).errcode = 0x03 := by decide +kernel
/-- Vector A1 (R266). -/
theorem test_adpcm_block_a1 :
    (let t := after .adpcmBlock (loaded [0x00, 0x10, 0x00, 0x00, 0x00, 0x00, 0x00, 0x12, 0x7F] 0 1 9);
      (samples t 6, t.outCount)) = ([0, 0, 16, 48, 160, 122], 12) := by
  decide +kernel
/-- Vector S1 (R267). -/
theorem test_adpcm_block_s1 :
    samples (after .adpcmBlock (loaded [0x00, 0x01, 0x10, 0x00, 0x14, 0x00, 0x0A, 0x00, 0x64, 0x00, 0x05, 0x00, 0x32,
      0x00, 0x1F, 0x70] 0 2 16)) 8 = [5, 50, 10, 100, 26, 130, 138, 160] := by
  decide +kernel
/-- R116: a value of 0 is no no-op. -/
theorem test_cmd_reserved :
    (after (.cmdReserved 0) State.reset).errcode = 0x01 ∧
      (after (.cmdReserved 9) State.powerOn).errcode = 0x02 := by
  decide +kernel
/-- V-BH1, V-BH2: the headers as elements of a frame of 3 bytes. -/
theorem test_stream_hdr :
    (let s := { State.reset with seq := { Sequencer.initial with togo := 3 } };
      ((after .streamHdr s).lzx.hdrRead, (after .streamHdr s).seq.expect,
        (after (.streamHdrE8 0x00012345) s).lzx.intelFilesize)) = (true, some .blockHdr, 0x00012345) := by
  decide +kernel
/-- V-BH3. -/
theorem test_blk_verbatim :
    ((after (.blkVerbatim 12) State.reset).lzx.brem, (after (.blkVerbatim 12) State.reset).seq.expect) =
      (12, some .preLens) := by
  decide +kernel
theorem test_blk_aligned :
    ((after (.blkAligned 12) State.reset).lzx.btype, (after (.blkAligned 12) State.reset).seq.expect) =
      (2, some .alignLens) := by
  decide +kernel
/-- P1: BITPOS = 28 gives RAWPOS = 4. -/
theorem test_blk_uncompressed :
    (let t := after (.blkUncompressed 5) { State.reset with rdr := { Reader.initial with bitpos := 28 } };
      (t.rdr.rawpos, t.rdr.mode, t.lzx.intelStarted, t.lzx.blen)) = (4, .raw, true, 5) := by
  decide +kernel
/-- V-BH5. -/
theorem test_blk_reserved :
    (after (.blkReserved0 1) State.reset).errcode = 0x10 ∧ (after (.blkReserved4to7 1 1) State.reset).errcode = 0x10 := by
  decide +kernel
/-- V-BR8: the restart at an odd offset. -/
theorem test_unc_close :
    (after (.uncBody (.close none)) { State.reset with rdr := { Reader.initial with rawpos := 21 } }).rdr.base = 21 := by
  decide +kernel
/-- R175: R0 = 0 is accepted as it is. -/
theorem test_unc_offsets :
    cache (after (.uncBody (.offsets 0 70000 3)) (running 0 0 [] 1 1 1)) = (0, 70000, 3) := by
  decide +kernel
/-- V-HF4: three aligned lengths of 1 are oversubscribed; all 3 are complete. -/
theorem test_align_lengths :
    (after (.alignLengths [1, 1, 1, 0, 0, 0, 0, 0]) State.reset).errcode = 0x13 ∧
      (after (.alignLengths [3, 3, 3, 3, 3, 3, 3, 3]) State.reset).lzx.alignLen = List.replicate 8 3 := by
  decide +kernel
/-- The example of R152. -/
theorem test_pretree_lengths :
    (after (.pretreeLengths [1, 1, 1, 0, 0, 0, 0, 0, 0, 0, 0, 0, 0, 0, 0, 0, 0, 0, 0, 0]) State.reset).errcode = 0x13 := by
  decide +kernel
/-- PRE1, PRE2, PRE6. -/
theorem test_pre_delta :
    (after (.preDelta 15) (section_ .mainA 7 [])).lzx.mainLen.getD 7 99 = 2 ∧
      (after (.preDelta 3) (section_ .mainA 7 [(7, 5)])).lzx.mainLen.getD 7 99 = 2 ∧
      (after (.preDelta 1) (section_ .mainA 7 [])).lzx.mainLen.getD 7 99 = 16 := by
  decide +kernel
/-- PRE3. -/
theorem test_pre_delta16 : (after .preDelta16 (section_ .mainA 7 [(7, 2)])).lzx.mainLen.getD 7 99 = 3 := by
  decide +kernel
/-- PRE11, PRE12: a run may end exactly at the section's end. -/
theorem test_pre_zrun17 :
    (after (.preZrun17 0) (section_ .mainA 252 [])).seq.sect = .mainB ∧
      (after (.preZrun17 0) (section_ .mainA 255 [])).errcode = 0x16 := by
  decide +kernel
/-- PRE8. -/
theorem test_pre_zrun18 :
    (after (.preZrun18 31) (section_ .mainB 300 [(300, 4), (350, 5), (351, 6)])).lzx.mainLen =
      lens 512 [(351, 6)] := by
  decide +kernel
/-- PRE9, and F10: a second symbol 17. -/
theorem test_pre_rep19 :
    (((after (.preRep19 0 3) (section_ .mainA 2 [(2, 5), (3, 9), (4, 9), (5, 9), (6, 8)])).lzx.mainLen.drop 2).take 5 =
        [2, 2, 2, 2, 8]) ∧
      (after (.preRep19 0 17) (section_ .mainA 2 [])).errcode = 0x17 := by
  decide +kernel
/-- R201. -/
theorem test_lit :
    (let t := after (.lit 0x41) (running 3 5 [] 1 1 1);
      (window t 4 3, t.lzx.wpos, t.seq.run)) = ([0xDC, 0x41, 0xDC], 6, 2) := by
  decide +kernel
/-- V-M2: off = 3, len = 2. -/
theorem test_match_rep0 :
    (let t := after (.matchRep0 0 0) (running 9 3 [0x41, 0x42, 0x43] 3 1 1);
      (window t 3 3, cache t)) = ([0x41, 0x42, 0xDC], (3, 1, 1)) := by
  decide +kernel
/-- V-M12, V-M13. -/
theorem test_match_rep0_bad_offset :
    (after (.matchRep0 0 0) (running 9 3 [] 0 1 1)).errcode = 0x18 ∧
      (after (.matchRep0 0 0) (running 9 3 [] 65537 1 1)).errcode = 0x18 := by
  decide +kernel
/-- V-M3. -/
theorem test_match_rep1 : cache (after (.matchRep1 0 0) (running 9 50 [] 41 19 2)) = (19, 41, 2) := by decide +kernel
/-- V-M14: len = 3 in a run of 2. -/
theorem test_match_rep1_overrun : (after (.matchRep1 1 0) (running 2 50 [] 41 19 2)).errcode = 0x19 := by
  decide +kernel
/-- V-M4. -/
theorem test_match_rep2 : cache (after (.matchRep2 0 0) (running 9 50 [] 19 41 2)) = (2, 41, 19) := by decide +kernel
/-- V-M9: one byte repeated. -/
theorem test_match_off1 :
    (let t := after (.matchOff1 3 0) (running 9 1 [0x41] 5 6 7);
      (window t 0 7, cache t)) = ([0x41, 0x41, 0x41, 0x41, 0x41, 0x41, 0xDC], (1, 5, 6)) := by
  decide +kernel
/-- V-M1: off = 3, len = 7 after "ABC". -/
theorem test_match_s4to7 :
    (let t := after (.matchS4to7 0 5 0 1) (running 9 3 [0x41, 0x42, 0x43] 1 1 1);
      (window t 3 7, cache t)) = ([0x41, 0x42, 0x43, 0x41, 0x42, 0x43, 0x41], (3, 1, 1)) := by
  decide +kernel
/-- V-M10: off = 2 at WPOS = 1 reads WIN[65535] first. -/
theorem test_match_s4to7_wrap :
    window (after (.matchS4to7 0 0 0 0) (running 9 1 [0x41] 1 1 1)) 1 2 = [0xDC, 0x41] := by
  decide +kernel
/-- V-M6. -/
theorem test_match_s8to9 :
    cache (after (.matchS8to9 0 0 0 (.split 0 5)) (running 9 50 [] 1 2 3)) = (19, 1, 2) := by
  decide +kernel
/-- V-M7: off = 41, len = 9. -/
theorem test_match_s10to11 :
    (let t := after (.matchS10to11 0 7 0 (.split 1 3)) (running 19 50 [] 1 2 3);
      (cache t, t.lzx.wpos)) = ((41, 1, 2), 59) := by
  decide +kernel
/-- R221: slot 15 reaches 253. -/
theorem test_match_s12to15 :
    cache (after (.matchS12to15 3 0 0 (.raw 63)) (running 9 50 [] 1 2 3)) = (253, 1, 2) := by
  decide +kernel
/-- V-M8: 65533. -/
theorem test_match_s16to31 :
    cache (after (.matchS16to31 15 0 0 (.raw 16383)) (running 9 50 [] 1 2 3)) = (65533, 1, 2) := by
  decide +kernel
/-- R220: the longest match is 257 bytes. -/
theorem test_len_footer : (after (.lenFooter 248) State.reset).seq.mlen = 257 := by decide +kernel
/-- R94: V = (v << 3) + a. -/
theorem test_align_sym :
    (after (.alignSym 3) { State.reset with seq := { Sequencer.initial with mext := 1 } }).seq.mext = 11 := by
  decide +kernel
/-- R253: S2 is emitted before S1; predictor 7 faults. -/
theorem test_adpcm_mono_preamble :
    samples (after (.adpcmMonoPreamble 0 16 2 1) (loaded [] 0 1 9)) 2 = [1, 2] ∧
      (after (.adpcmMonoPreamble 7 16 2 1) (loaded [] 0 1 9)).errcode = 0x23 := by
  decide +kernel
/-- R267's preamble. -/
theorem test_adpcm_stereo_preamble :
    samples (after (.adpcmStereoPreamble 0 1 16 20 10 100 5 50) (loaded [] 0 2 16)) 4 = [5, 50, 10, 100] := by
  decide +kernel
/-- R266's first byte. -/
theorem test_adpcm_mono_byte :
    (let t := after (.adpcmMonoByte 1 2)
        { loaded [] 0 1 9 with adpcm := { ch0 := ⟨0, 16, 0, 0⟩, ch1 := AdpcmChannel.initial } };
      (samples t 2, t.adpcm.ch0.delta)) = ([16, 48], 16) := by
  decide +kernel
/-- R267's first byte. -/
theorem test_adpcm_stereo_byte :
    samples (after (.adpcmStereoByte 1 15)
      { loaded [] 0 2 16 with adpcm := { ch0 := ⟨0, 16, 10, 5⟩, ch1 := ⟨1, 20, 100, 50⟩ } }) 2 = [26, 130] := by
  decide +kernel
/-- Vector A5 (R258): the wrap of DELTA and the clamp of the sample. -/
theorem test_adpcm_nibble :
    (let t := after (.adpcmNibble 8)
        { State.reset with adpcm := { ch0 := ⟨0, 32767, 0, 0⟩, ch1 := AdpcmChannel.initial } };
      (s16 t.adpcm.ch0.delta, s16 t.adpcm.ch0.s1)) = (32765, -32768) := by
  decide +kernel
/-- The last DELTA below 0 on which R258 and R268 agree, and one on which R258's formula is followed (log 27). -/
theorem test_negative_delta : newDelta 8 (BitVec.ofInt 16 (-10922)) = 16 ∧ newDelta 8 (BitVec.ofInt 16 (-20000)) = 5536 := by
  decide +kernel
/-- Vector A6 (R256): -576 div 256 is -2. -/
theorem test_adpcm_prediction_truncates : predicted ⟨3, 16, 0xFFFD, 0⟩ = -2 := by decide +kernel

/-! ## Steps from reset -/

/-- The placed word is what the next step runs. -/
theorem test_fetch_word_runs :
    (match step (State.reset.withFetchWord 27 0b010000000000000000000000011) with
      | .next t => (t.lzx.btype, t.lzx.blen)
      | _ => (0, 0)) = (2, 3) := by
  decide +kernel
/-- A host writes FRAME_SIZE, then reads it back (R117). -/
theorem test_host_register_round_trip :
    (hostAccess (.read 0x0C .b4) (hostAccess (.write 0x0C .b4 0xDEADBEEF) State.reset)).port.rdata = 0xDEADBEEF := by
  decide +kernel
/-- R66: little-endian at any alignment, and a straddling access is ignored. -/
theorem test_host_buffer_bytes :
    (hostAccess (.read 0x10002 .b2) (hostAccess (.write 0x10001 .b4 0x44332211) State.reset)).port.rdata = 0x3322 ∧
      hostAccess (.write 0x2FFFE .b4 1) State.reset = State.reset := by
  decide +kernel

/-! ## Witnesses: each statement's hypotheses are met, at the ends of each clause's range -/

/-- A state with a frame going on. -/
def framing (togo wpos : Nat) (brem : BitVec 24) (btype : BitVec 3) : State :=
  { State.reset with
    lzx := { Lzx.reset with hdrRead := true, btype := btype, brem := brem, blen := brem, wpos := wpos }
    seq := { Sequencer.initial with expect := some .uncClose, togo := togo } }

/-- The end of a frame of `f` bytes that the E8 filter would scan, under a policy. -/
def scanned (f : Nat) (fr : Nat) (p : E8Policy) : State :=
  { loaded [] (BitVec.ofNat 32 f) 0 0 with
    e8Policy := p
    lzx := { Lzx.reset with intelFilesize := 1, intelStarted := true, framesRead := fr } }

/-- An UNCOMPRESSED block going on over a chunk. -/
def rawChunk (bs : List Byte) (f : Word) (wpos : Nat) (brem : BitVec 24) : State :=
  { loaded bs f 0 0 with
    lzx := { Lzx.reset with hdrRead := true, btype := 3, brem := brem, blen := brem, wpos := wpos } }

theorem witness_PowerOnAcceptsOnlyReset : (0 : Word) ≠ 1 ∧ (2 : Word) ≠ 1 := by decide
theorem witness_FaultedBlockIgnoresEveryCommandButReset :
    State.powerOn.life = .faulted ∧ (0 : Word) ≠ 1 ∧ 0 < 131072 ∧ 131071 < 131072 := by decide
theorem witness_CommandCodesDecodeAndReservedOnesFault :
    ((0 : Word) ≠ 1 ∧ (0 : Word) ≠ 2 ∧ (0 : Word) ≠ 3) ∧ ((4 : Word) ≠ 1 ∧ (4 : Word) ≠ 2 ∧ (4 : Word) ≠ 3) ∧
      State.reset.life = .ready ∧ State.powerOn.life = .faulted := by decide
theorem witness_StatusRegisterFields :
    State.reset.life = .ready ∧ ∀ i ∈ [0, 1, 7, 8, 15, 17, 31], i < 32 ∧ i ∉ [2, 3, 4, 5, 6, 16] := by decide
theorem witness_RegisterReadsShowTheState : State.reset.life = .ready := by decide
theorem witness_ArgumentRegistersKeepWhatTheHostWrote :
    ∃ t u, exec (decodeCommand 1) State.reset = .next t ∧ exec (decodeCommand 0) State.reset = .next u :=
  ⟨_, _, rfl, rfl⟩
/-- A straddle of the registers' end, the bytes just outside a buffer, and the first offset of every hole. -/
theorem witness_RegisterReadsAndIllPlacedAccessesHaveNoEffect :
    0 < 0x40 ∧ 0x3F < 0x40 ∧
      ∀ q ∈ [(0x00, AccessSize.b1), (0x3C, .b2), (0x3E, .b4), (0x40, .b1), (0xFFFF, .b2), (0x2FFFF, .b2),
          (0x4FFFF, .b2), (0x50000, .b1)],
        q.1 < 0x40 ∧ (q.2 ≠ .b4 ∨ q.1 % 4 ≠ 0) ∨
          0x40 ≤ q.1 ∧ ¬ (0x10000 ≤ q.1 ∧ q.1 + q.2.bytes ≤ 0x30000) ∧
            ¬ (0x30000 ≤ q.1 ∧ q.1 + q.2.bytes ≤ 0x50000) := by decide
theorem witness_BufferAccessesAreLittleEndianAtAnyAlignment :
    0 + AccessSize.b1.bytes ≤ 131072 ∧ 131068 + AccessSize.b4.bytes ≤ 131072 ∧ 131071 + AccessSize.b1.bytes ≤ 131072 := by
  decide
theorem witness_EveryInstructionLeavesTheHostSideAlone : ∃ t, exec (.lit 1) (running 3 5 [] 1 1 1) = .next t :=
  ⟨_, rfl⟩
/-- IN_LEN = 4: bit 47 is the last of the slack, bit 48 the first past it. -/
theorem witness_StreamBitsAndTheSlackBound :
    (let s := loaded [1, 2, 3, 4] 0 0 0;
      s.args.inLen.toNat + 2 ≤ s.rdr.base + 2 * (48 / 16) + 1 ∧
        s.rdr.base + 2 * (47 / 16) + 1 < s.args.inLen.toNat + 2) := by decide +kernel
theorem witness_ReadBitsIsMostSignificantFirst :
    (∀ i, i < 16 → (streamBit (loaded [1, 2] 0 0 0) (0 + i)).isSome) ∧
      (31 < 32 ∧ streamBit (loaded [1] 0 0 0) (0 + 31) = none) := by decide +kernel
theorem witness_KraftSumDecidesTheBuild :
    kraftSum [1, 1] = 65536 ∧ kraftSum [1, 1, 16] = 65537 ∧ kraftSum [] = 0 := by decide
theorem witness_CanonicalCodesArePrefixFree :
    ((∀ x ∈ [2, 1, 3, 3], x ≤ 16) ∧ kraftSum [2, 1, 3, 3] ≤ 65536) ∧ (⟨1, 1, 0⟩ : HuffCode) ∈ canon [2, 1, 3, 3] ∧
      (∃ d ∈ canon [2, 1, 3, 3], 1 ≤ d.len ∧ d.code / 2 ^ (d.len - 1) = 0) ∧
      ((⟨2, 3, 6⟩ : HuffCode) ∈ canon [2, 1, 3, 3] ∧ (⟨3, 3, 7⟩ : HuffCode) ∈ canon [2, 1, 3, 3] ∧ 1 < 3 ∧ 2 < 3) ∧
      [2, 1, 3, 3].getD 3 0 ≠ 0 := by decide +kernel
theorem witness_DecodingReturnsTheSymbolOfTheCode :
    Buildable [2, 1, 3, 3] ∧ (⟨2, 3, 6⟩ : HuffCode) ∈ canon [2, 1, 3, 3] ∧
      CodeAt (fun i => (bits [1, 1, 0])[i]?) 0 ⟨2, 3, 6⟩ := by
  unfold Buildable CodeAt
  decide +kernel
theorem witness_SingleSymbolTableDecodesEveryPattern :
    (2 < 3 ∧ 1 ≤ 16 ∧ 16 ≤ 16) ∧ (∀ i, i < 16 → (streamBit (loaded [1, 2] 0 0 0) (0 + i)).isSome) ∧
      streamBit (loaded [] 0 0 0) (1 + 15) = none := by decide +kernel
/-- The word 0xC000 in the table of V-HF7, and the same bits cut off after two. -/
theorem witness_EmptyAndIncompleteTablesFaultOnlyWhenUsed :
    (∀ x ∈ [0, 0, 0], x = 0) ∧ classify [1, 2, 0] = .incomplete ∧
      (∀ i, i < 16 → (streamBit (loaded [0x00, 0xC0] 0 0 0) (0 + i)).isSome) ∧
      (∀ c ∈ canon [1, 2, 0], c.len ≤ 16 → ¬ CodeAt (streamBit (loaded [0x00, 0xC0] 0 0 0)) 0 c) ∧
      (∀ i, i < 2 → ((bits [1, 1])[0 + i]?).isSome) ∧
      (∀ c ∈ canon [1, 2, 0], c.len ≤ 2 → ¬ CodeAt (fun i => (bits [1, 1])[i]?) 0 c) ∧
      (bits [1, 1])[0 + 2]? = none := by
  unfold CodeAt
  decide +kernel
theorem witness_StreamHeaderLoadsTheFilesize :
    (let s := framing 1 0 0 0; 1 ≤ s.seq.togo ∧ s.lzx.brem = 0 ∧ s.lzx.btype ≠ 3) := by decide
theorem witness_ReservedBlockTypesRaiseBadBlockType :
    (∀ t ∈ [0, 3, 4, 7], t < 8 ∧
      ∀ i, i < 27 → (fun i => (blockHdrBits t 5)[i]?) i = some ((blockHdrBits t 5).getD i false)) ∧
      (26 < 27 ∧ (bits [1, 1])[26]? = none) := by decide +kernel
/-- The run of the second state ends exactly at the window's end. -/
theorem witness_UncompressedOffsetsLoadTheCache :
    (let s := framing 1 0 0 3; s.lzx.btype = 3 ∧ 1 ≤ s.seq.togo ∧ s.lzx.brem = 0) ∧
      (let s := framing 6 65530 9 3;
        s.lzx.btype = 3 ∧ 1 ≤ s.seq.togo ∧ s.lzx.brem ≠ 0 ∧
          s.lzx.wpos % 65536 + min s.lzx.brem.toNat s.seq.togo = 65536) := by decide
theorem witness_BitStreamRestartsAfterAnUncompressedBlock :
    (framing 1 0 0 3).seq.expect = some .uncClose ∧ (framing 1 0 4 3).lzx.blen.toNat % 2 = 0 ∧
      (framing 1 0 5 3).lzx.blen.toNat % 2 = 1 ∧
      (let s := { framing 1 0 5 3 with args := { State.reset.args with inLen := 1 } };
        s.rdr.rawpos < s.args.inLen.toNat) ∧
      (framing 1 0 5 3).args.inLen.toNat ≤ (framing 1 0 5 3).rdr.rawpos := by decide
theorem witness_TransmittedLengthsAreLoadedAndBuilt :
    (let a : List (BitVec 3) := [3, 3, 3, 3, 3, 3, 3, 3]; a.length = 8 ∧ kraftSum (a.map BitVec.toNat) = 65536) ∧
      (let a : List (BitVec 3) := [3, 3, 3, 3, 3, 3, 3, 2]; a.length = 8 ∧ 65536 < kraftSum (a.map BitVec.toNat)) ∧
      (let p : List (BitVec 4) := List.replicate 16 4 ++ List.replicate 4 0;
        p.length = 20 ∧ kraftSum (p.map BitVec.toNat) = 65536) ∧
      (let p : List (BitVec 4) := List.replicate 17 4 ++ List.replicate 3 0;
        p.length = 20 ∧ 65536 < kraftSum (p.map BitVec.toNat)) := by decide +kernel
theorem witness_PretreeDeltaRewritesOneLength :
    ((.preDelta16 = Instr.preDelta16 ∧ 16 = 16) ∧ ∃ d : BitVec 4, Instr.preDelta 15 = .preDelta d ∧ 15 = d.toNat) ∧
      (section_ .mainA 254 []).seq.x + 1 < sectionLast .mainA ∧
      sectionLast .mainA ≤ (section_ .mainA 255 []).seq.x + 1 :=
  ⟨⟨⟨rfl, rfl⟩, 15, rfl, rfl⟩, by decide, by decide⟩
theorem witness_PretreeZeroRunsStayInTheirSection :
    (∃ m : BitVec 4, Instr.preZrun17 0 = .preZrun17 m ∧ 4 = 4 + m.toNat) ∧
      (∃ m : BitVec 5, Instr.preZrun18 31 = .preZrun18 m ∧ 51 = 20 + m.toNat) ∧
      (section_ .mainA 251 []).seq.x + 4 < sectionLast .mainA ∧
      (section_ .mainA 252 []).seq.x + 4 = sectionLast .mainA ∧
      sectionLast .mainA < (section_ .mainA 253 []).seq.x + 4 ∧
      (section_ .length 198 []).seq.x + 51 = sectionLast .length :=
  ⟨⟨0, rfl, rfl⟩, ⟨31, rfl, rfl⟩, by decide, by decide, by decide, by decide⟩
theorem witness_PretreeRepeatUsesTheFirstOldLength :
    (4 = 4 + (0 : BitVec 1).toNat ∧ 5 = 4 + (1 : BitVec 1).toNat) ∧ 16 < (17 : BitVec 5).toNat ∧
      (16 : BitVec 5).toNat ≤ 16 ∧ sectionLast .mainA < (section_ .mainA 253 []).seq.x + 4 ∧
      (section_ .mainA 251 []).seq.x + 4 < sectionLast .mainA ∧
      (section_ .mainA 252 []).seq.x + 4 = sectionLast .mainA := by decide
theorem witness_LengthSectionsFollowInOrder :
    ((section_ .mainA 0 []).seq.sect = .mainA ∧ (section_ .mainB 0 []).seq.sect = .mainB ∧
        (section_ .length 0 []).seq.sect = .length) ∧
      65536 < kraftSum ((section_ .mainB 0 [(0, 1), (1, 1), (511, 16)]).lzx.mainLen.take 512) ∧
      kraftSum ((section_ .mainB 0 [(0, 1), (511, 1)]).lzx.mainLen.take 512) = 65536 ∧
      65536 < kraftSum ((List.replicate 250 1).take 250) ∧
      kraftSum ((section_ .length 0 []).lzx.lenLen.take 250) ≤ 65536 := by decide +kernel
theorem witness_LiteralsAndRawBytesWriteOneWindowByte :
    2 ≤ (running 2 0 [] 1 1 1).seq.run ∧ (running 1 0 [] 1 1 1).seq.run = 1 := by decide
/-- Offsets 1 and 65536; the lengths 2 and 257 inside and at the end of a run. -/
theorem witness_RepeatedOffsetMatchesUseTheCache :
    (let s := running 3 0 [] 1 65536 3;
      2 = matchLength 0 0 ∧ 1 ≤ s.lzx.r0.toNat ∧ s.lzx.r1.toNat ≤ 65536 ∧ s.lzx.r1.toNat = 65536 ∧ 2 < s.seq.run) ∧
      257 = matchLength 7 248 ∧ 257 = (running 257 0 [] 1 1 1).seq.run := by decide
theorem witness_ExplicitOffsetMatchesPushTheirOffset :
    Instr.wf (.matchS4to7 3 0 0 3) = true ∧ Instr.wf (.matchS8to9 1 7 248 (.split 0 7)) = true ∧
      Instr.wf (.matchS10to11 1 0 0 (.raw 15)) = true ∧ Instr.wf (.matchS12to15 3 0 0 (.split 7 7)) = true ∧
      Instr.wf (.matchS16to31 15 0 0 (.raw 16383)) = true ∧ Instr.wf (.matchS16to31 15 0 0 (.split 2047 7)) = true ∧
      matchLength 0 0 < (running 3 0 [] 1 1 1).seq.run ∧ matchLength 0 0 = (running 2 0 [] 1 1 1).seq.run := by decide
theorem witness_MatchChecksComeInOrder :
    (let s := running 1 0 [] 0 65537 65536;
      s.lzx.r0.toNat = 0 ∧ 65536 < s.lzx.r1.toNat ∧ 1 ≤ s.lzx.r2.toNat ∧ s.lzx.r2.toNat ≤ 65536 ∧
        s.seq.run < matchLength 0 0) ∧
      Instr.wf (.matchOff1 0 0) = true ∧ Instr.wf (.matchS16to31 15 0 0 (.raw 16383)) = true := by decide
theorem witness_MatchCopyIsByteSerialAndCircular :
    1 ≤ 65536 ∧ (running 9 65534 [] 1 1 1).lzx.wpos + 2 ≤ 65536 ∧ 0 < 2 ∧ ¬ (65534 ≤ winIndex 65533) := by decide
theorem witness_PositionSlotsReachEveryOffsetOnce :
    (3 ≤ 31 ∧ 31 < 32 ∧ 16383 < 2 ^ extraBits 31) ∧ 1 ≤ 65533 := by decide
theorem witness_FrameLoopTurns :
    (framing 0 0 0 0).seq.togo = 0 ∧
      (let s := framing 1 0 0 1; s.seq.togo ≠ 0 ∧ s.lzx.brem = 0 ∧ s.lzx.btype ≠ 3) ∧
      (let s := framing 1 0 0 3; s.seq.togo ≠ 0 ∧ s.lzx.brem = 0 ∧ s.lzx.btype = 3) ∧
      (let s := framing 7 65530 9 1; s.lzx.brem ≠ 0 ∧ 65536 < s.lzx.wpos % 65536 + min s.lzx.brem.toNat s.seq.togo) ∧
      (let s := framing 6 65530 9 1;
        s.lzx.brem ≠ 0 ∧ s.lzx.wpos % 65536 + min s.lzx.brem.toNat s.seq.togo = 65536) := by decide
/-- F = 7 and FRAMES_READ = 32767 are scanned, F = 6 and 32768 are not. -/
theorem witness_FrameEndWritesOutAndKeepsTheE8Books :
    (let s := scanned 7 32767 .fault;
      s.e8Policy = .fault ∧ s.lzx.framesRead < 32768 ∧ s.lzx.intelFilesize ≠ 0 ∧ 6 < s.args.frameSize.toNat ∧
        s.lzx.intelStarted = true) ∧
      ∀ s ∈ [scanned 6 0 .fault, scanned 7 32768 .fault, scanned 7 0 .passThrough],
        ¬ (s.e8Policy = .fault ∧ s.lzx.framesRead < 32768 ∧ s.lzx.intelFilesize ≠ 0 ∧ 6 < s.args.frameSize.toNat ∧
          s.lzx.intelStarted = true) := by decide +kernel
theorem witness_LzxArgumentChecksComeInOrder :
    State.reset.life = .ready ∧ State.reset.args.frameSize.toNat = 0 ∧ 65535 < (65536 : Word).toNat ∧
      1 ≤ (65535 : Word).toNat ∧ (65535 : Word).toNat ≤ 65535 ∧ 131070 < (131071 : Word).toNat ∧
      ∃ e, startLzx { framing 1 65536 1 1 with
        lzx := { (framing 1 65536 1 1).lzx with wpos := 65535, brem := 2 },
        args := { State.reset.args with frameSize := 2 } } = .error e :=
  ⟨by decide, by decide, by decide, by decide, by decide, by decide, _, rfl⟩
theorem witness_LzxFrameCopiesAnUncompressedRun :
    (let s := rawChunk [1, 2, 3] 3 65533 3;
      s.life = .ready ∧ s.lzx.hdrRead = true ∧ s.lzx.btype = 3 ∧ 1 ≤ s.args.frameSize.toNat ∧
        s.args.frameSize.toNat ≤ 65535 ∧ s.args.frameSize.toNat ≤ s.lzx.brem.toNat ∧
        s.args.frameSize.toNat ≤ s.args.inLen.toNat ∧ s.args.inLen.toNat ≤ 131070 ∧
        s.lzx.wpos % 65536 + s.args.frameSize.toNat = 65536 ∧ ¬ s.e8Policy = .fault) ∧
      (let s := rawChunk [1, 2, 3, 4, 5, 6, 7] 7 0 7;
        let u := { s with e8Policy := .fault, lzx := { s.lzx with intelFilesize := 1, framesRead := 32768 } };
        u.life = .ready ∧ u.args.frameSize.toNat = 7 ∧ ¬ u.lzx.framesRead < 32768) := by decide +kernel
/-- Both outcomes of an LZX_FRAME command: a frame, and a fault. -/
theorem witness_LzxFrameEndsAndYieldsExactlyAFrame :
    (rawChunk [1, 2, 3] 3 0 3).life = .ready ∧ (after .lzxFrame (rawChunk [1, 2, 3] 3 0 3)).life = .ready ∧
      (after .lzxFrame (rawChunk [1, 2] 3 0 3)).life = .faulted := by decide +kernel
/-- Two states that differ in the ADPCM state, the other arguments and a byte past the slack. -/
theorem witness_LzxFrameDependsOnlyOnItsInputs :
    (let s := rawChunk [1, 2] 2 0 2;
      let u := { s with
        inBuf := Memory.putList [] 0 [1, 2, 0, 0, 9], args := { s.args with adpcmChannels := 7 },
        adpcm := { ch0 := ⟨1, 2, 3, 4⟩, ch1 := AdpcmChannel.initial } };
      let v := { s with inBuf := Memory.putList [] 0 [1, 2, 0, 0, 8] };
      u ≠ v ∧ u.life = .ready ∧ v.life = .ready ∧ u.lzx = v.lzx ∧ u.args.inLen = v.args.inLen ∧
        u.args.frameSize = v.args.frameSize ∧ ∀ o, o < u.args.inLen.toNat + 2 → inByte u o = inByte v o) := by
  decide +kernel
theorem witness_EnginesDoNotTouchEachOther :
    ∃ t u, exec .lzxFrame State.reset = .next t ∧ exec .adpcmBlock State.reset = .next u := ⟨_, _, rfl, rfl⟩
theorem witness_AdpcmArgumentChecksComeInOrder :
    (State.reset.life = .ready ∧ State.reset.args.adpcmChannels.toNat ≠ 1 ∧
        State.reset.args.adpcmChannels.toNat ≠ 2) ∧
      (let s := loaded [] 0 1 6; s.args.adpcmChannels.toNat = 1 ∧ s.args.adpcmBlockBytes.toNat < 7) ∧
      (let s := loaded [] 0 2 4097; s.args.adpcmChannels.toNat = 2 ∧ 4096 < s.args.adpcmBlockBytes.toNat) ∧
      (let s := loaded [1] 0 2 14; 14 ≤ s.args.adpcmBlockBytes.toNat ∧ s.args.inLen.toNat < 14) ∧
      (let s := loaded [1, 2, 3, 4, 5, 6, 7] 0 1 7; s.args.adpcmBlockBytes.toNat ≤ s.args.inLen.toNat) ∧
      131070 < (131071 : Word).toNat := by decide +kernel
theorem witness_AdpcmPreamblesLoadAndEmit : 6 < (7 : Byte).toNat ∧ (6 : Byte).toNat ≤ 6 := by decide
theorem witness_NibbleArithmeticIsExact :
    ∃ r : RefChannel, r =
      { pred := (⟨3, 16, 0xFFFD, 0⟩ : AdpcmChannel).pred, delta := s16 16, s1 := s16 0xFFFD, s2 := s16 0 } := ⟨_, rfl⟩
theorem witness_AdpcmBlockRefinesTheIntegerReference :
    (let s := loaded [0x06, 0x10, 0x00, 0x00, 0x00, 0x00, 0x00, 0x12, 0x7F] 0 1 9;
      s.life = .ready ∧ s.args.adpcmChannels.toNat = (if false then 2 else 1) ∧
        7 * 1 ≤ s.args.adpcmBlockBytes.toNat ∧ s.args.adpcmBlockBytes.toNat ≤ 4096 ∧
        s.args.adpcmBlockBytes.toNat ≤ s.args.inLen.toNat ∧ s.args.inLen.toNat ≤ 131070 ∧
        (inByte s 0).toNat ≤ 6) ∧
      (let s := loaded [0, 6, 0, 0, 0, 0, 0, 0, 0, 0, 0, 0, 0, 0] 0 2 14;
        s.args.adpcmChannels.toNat = (if true then 2 else 1) ∧ 7 * 2 ≤ s.args.adpcmBlockBytes.toNat ∧
          s.args.adpcmBlockBytes.toNat ≤ s.args.inLen.toNat ∧ (inByte s 0).toNat ≤ 6 ∧ (inByte s 1).toNat ≤ 6) := by
  decide +kernel
/-- The two states differ in their channels, and one is left by an earlier block. -/
theorem witness_AdpcmBlockForgetsEarlierBlocks :
    (let s := loaded [0x00, 0x10, 0x00, 0x00, 0x00, 0x00, 0x00, 0x12, 0x7F] 0 1 9;
      let u := after .adpcmBlock s;
      s ≠ u ∧ s.life = .ready ∧ u.life = .ready ∧ s.args = u.args ∧
        ∀ o, o < s.args.adpcmBlockBytes.toNat → inByte s o = inByte u o) := by decide +kernel
/-- Every clause: a command, another access, silence, an element by bits, by raw bytes and by ADPCM bytes, and a decoding
fault. -/
theorem witness_StepRunsTheFetchedInstruction :
    (let s := { State.reset with port := { pending := [.write 0 .b4 1], rdata := 0 } };
        s.seq.expect = none ∧ s.port.pending = .write 0 .b4 1 :: []) ∧
      (∀ v, HostAccess.read 4 .b4 ≠ .write 0 .b4 v) ∧ State.reset.port.pending = [] ∧
      (∃ i k, decodeBits (decodeCtx (loaded [0, 0] 0 0 0) .streamHdr) (bitSource (loaded [0, 0] 0 0 0)) = .ok (i, k)) ∧
      (∃ i k, decodeBytes (decodeCtx (loaded [7] 0 0 0) .uncData) (rawSource (loaded [7] 0 0 0)) = .ok (i, k)) ∧
      (∃ i k, decodeBytes (decodeCtx (loaded [7] 0 1 9) .adpcmByte) (adpcmSource (loaded [7] 0 1 9)) = .ok (i, k)) ∧
      fetchElement .uncData State.reset = .error .rawOverrun :=
  ⟨by decide, fun _ h => (by cases h), rfl, ⟨_, _, rfl⟩, ⟨_, _, rfl⟩, ⟨_, _, rfl⟩, rfl⟩
theorem witness_CommandsRunAsTheirElements :
    (∃ u, startLzx { loaded [1] 1 0 0 with outCount := 0 } = .ok u) ∧
      ∃ u, startAdpcm { loaded [1, 2, 3, 4, 5, 6, 7] 0 1 7 with outCount := 0 } = .ok u := ⟨⟨_, rfl⟩, ⟨_, rfl⟩⟩
theorem witness_DecodingUndoesEncoding :
    (let c := ctx .element (one 343) [(0, 1), (248, 1)] [(0, 1)] true;
      (∀ l ∈ [c.main.take 512, c.len.take 250, c.align.take 8, c.pre.take 20],
        (∀ x ∈ l, x ≤ 16) ∧ kraftSum l ≤ 65536) ∧
      c.expect = .element ∧ c.aligned = true ∧ Instr.wf (.matchS10to11 0 7 0 (.split 1 3)) = true ∧
      encode c (.matchS10to11 0 7 0 (.split 1 3)) = some (.bits (bits [1, 0, 1, 0, 1, 1]))) ∧
      fixedLayout .streamHdr = true := by decide +kernel
/-- A raw run in progress that ends at the window's end. -/
def rawRunning : State :=
  { rawChunk [7, 8] 2 65534 2 with seq := { Sequencer.initial with expect := some .uncData, run := 2 } }

/-- A length section in progress at its last position meets the invariants of the arrays. -/
theorem witness_EveryStepKeepsTheLengthArraysInRange :
    (TablesOk (section_ .mainA 255 []).lzx ∧ SectionOk (section_ .mainA 255 [])) ∧
      TablesOk rawRunning.lzx ∧ SectionOk rawRunning ∧ ∃ t, step rawRunning = .next t :=
  ⟨⟨by unfold TablesOk; decide +kernel, by unfold SectionOk; decide +kernel⟩, by unfold TablesOk; decide +kernel,
    by unfold SectionOk; decide +kernel, _, rfl⟩
theorem witness_EveryStepKeepsTheMemoriesCanonical : MemoryOk rawRunning ∧ ∃ t, step rawRunning = .next t :=
  ⟨by unfold MemoryOk; decide +kernel, _, rfl⟩
theorem witness_EveryStepKeepsTheCursorsInRange : CursorsOk rawRunning ∧ ∃ t, step rawRunning = .next t :=
  ⟨⟨by decide +kernel, by decide +kernel, fun _ => by decide +kernel⟩, _, rfl⟩
/-- A FAULTED state meets the lifecycle invariant. -/
theorem witness_EveryStepKeepsTheLifecycleConsistent : LifeOk State.powerOn ∧ ∃ t, step State.powerOn = .next t :=
  ⟨⟨fun h => (by cases h), fun _ => ⟨rfl, rfl, .notReset, rfl⟩⟩, _, rfl⟩
/-- An element fetched under legal tables. -/
theorem witness_FetchedInstructionsAreWellFormed :
    TablesOk State.reset.lzx ∧ ∃ t,
      fetch { loaded [7] 0 0 0 with seq := { Sequencer.initial with expect := some .uncData } } =
        .instr (.uncBody (.data 7)) t :=
  ⟨by unfold TablesOk; decide +kernel, _, rfl⟩

end Sys2Proof.Tests
end

section
/-! SUPPORT. Where each instruction is decoded: every decoder answers only instructions of its own place in the stream
grammar (30_encoding sections 2 to 6), and no stream holds a host command. -/

namespace Sys2Proof

/-- The instructions that are decoded at a place of the stream grammar, with the number of lengths an array row
carries; a host command is decoded at none of them. -/
def Instr.dueAt (e : Expect) : Instr → Prop
  | .reset => False
  | .lzxFrame => False
  | .adpcmBlock => False
  | .cmdReserved _ => False
  | .streamHdr => e = .streamHdr
  | .streamHdrE8 _ => e = .streamHdr
  | .blkVerbatim _ => e = .blockHdr
  | .blkAligned _ => e = .blockHdr
  | .blkUncompressed _ => e = .blockHdr
  | .blkReserved0 _ => e = .blockHdr
  | .blkReserved4to7 _ _ => e = .blockHdr
  | .uncBody (.offsets _ _ _) => e = .uncOffsets
  | .uncBody (.data _) => e = .uncData
  | .uncBody (.close _) => e = .uncClose
  | .alignLengths ls => e = .alignLens ∧ ls.length = 8
  | .pretreeLengths ls => e = .preLens ∧ ls.length = 20
  | .preDelta _ => e = .preSym
  | .preDelta16 => e = .preSym
  | .preZrun17 _ => e = .preSym
  | .preZrun18 _ => e = .preSym
  | .preRep19 _ _ => e = .preSym
  | .lit _ => e = .element
  | .matchRep0 _ _ => e = .element
  | .matchRep1 _ _ => e = .element
  | .matchRep2 _ _ => e = .element
  | .matchOff1 _ _ => e = .element
  | .matchS4to7 _ _ _ _ => e = .element
  | .matchS8to9 _ _ _ _ => e = .element
  | .matchS10to11 _ _ _ _ => e = .element
  | .matchS12to15 _ _ _ _ => e = .element
  | .matchS16to31 _ _ _ _ => e = .element
  | .lenFooter _ => e = .lenFooter
  | .alignSym _ => e = .alignSym
  | .adpcmMonoPreamble _ _ _ _ => e = .adpcmPreamble
  | .adpcmStereoPreamble _ _ _ _ _ _ _ _ => e = .adpcmPreamble
  | .adpcmMonoByte _ _ => e = .adpcmByte
  | .adpcmStereoByte _ _ => e = .adpcmByte
  | .adpcmNibble _ => e = .adpcmNibble

/-- A decoder's `do` block succeeds only if each of its parts does. -/
theorem exceptBind_eq_ok {ε α β : Type} {x : Except ε α} {f : α → Except ε β} {b : β} (h : x >>= f = .ok b) :
    ∃ a, x = .ok a ∧ f a = .ok b := by
  cases x with
  | error e => cases h
  | ok a => exact ⟨a, rfl, h⟩

theorem readFields_length {src : BitSource} {w pos n : Nat} {ls : List (BitVec w)}
    (h : readFields src w pos n = .ok ls) : ls.length = n := by
  induction n generalizing pos ls with
  | zero =>
    cases h
    rfl
  | succ n ih =>
    obtain ⟨v, _, h⟩ := exceptBind_eq_ok h
    obtain ⟨rest, hrest, h⟩ := exceptBind_eq_ok h
    cases h
    rw [List.length_cons, ih hrest]

/-! ## The decoders of bits -/

section
variable {c : DecodeCtx} {src : BitSource} {i : Instr} {k : Nat}

theorem decodeStreamHdr_dueAt (h : decodeStreamHdr src = .ok (i, k)) : i.dueAt .streamHdr := by
  obtain ⟨e8, _, h⟩ := exceptBind_eq_ok h
  split at h
  · cases h
    rfl
  · obtain ⟨hi, _, h⟩ := exceptBind_eq_ok h
    obtain ⟨lo, _, h⟩ := exceptBind_eq_ok h
    cases h
    rfl

theorem decodeBlockHdr_dueAt (h : decodeBlockHdr src = .ok (i, k)) : i.dueAt .blockHdr := by
  obtain ⟨t, _, h⟩ := exceptBind_eq_ok h
  obtain ⟨hi, _, h⟩ := exceptBind_eq_ok h
  obtain ⟨lo, _, h⟩ := exceptBind_eq_ok h
  cases h
  split_ifs <;> rfl

theorem decodeAlignLens_dueAt (h : decodeAlignLens src = .ok (i, k)) : i.dueAt .alignLens := by
  obtain ⟨ls, hls, h⟩ := exceptBind_eq_ok h
  cases h
  exact ⟨rfl, readFields_length hls⟩

theorem decodePreLens_dueAt (h : decodePreLens src = .ok (i, k)) : i.dueAt .preLens := by
  obtain ⟨ls, hls, h⟩ := exceptBind_eq_ok h
  cases h
  exact ⟨rfl, readFields_length hls⟩

theorem decodePreSym_dueAt {pre : List Nat} (h : decodePreSym pre src = .ok (i, k)) : i.dueAt .preSym := by
  obtain ⟨⟨z, n⟩, _, h⟩ := exceptBind_eq_ok h
  dsimp only at h
  split_ifs at h
  · cases h
    rfl
  · cases h
    rfl
  · obtain ⟨r, _, h⟩ := exceptBind_eq_ok h
    cases h
    rfl
  · obtain ⟨r, _, h⟩ := exceptBind_eq_ok h
    cases h
    rfl
  · obtain ⟨b, _, h⟩ := exceptBind_eq_ok h
    obtain ⟨d, _, h⟩ := exceptBind_eq_ok h
    cases h
    rfl

theorem mkMatch_dueAt (slot : Nat) (lh : BitVec 3) (f : Byte) (o : OffBits) : (mkMatch slot lh f o).dueAt .element := by
  unfold mkMatch
  split_ifs <;> rfl

theorem decodeElement_dueAt (h : decodeElement c src = .ok (i, k)) : i.dueAt .element := by
  obtain ⟨⟨m, n⟩, _, h⟩ := exceptBind_eq_ok h
  dsimp only at h
  split at h
  · cases h
    rfl
  · obtain ⟨f, _, h⟩ := exceptBind_eq_ok h
    obtain ⟨o, _, h⟩ := exceptBind_eq_ok h
    cases h
    exact mkMatch_dueAt ..

theorem decodeLenFooter_dueAt (h : decodeLenFooter c src = .ok (i, k)) : i.dueAt .lenFooter := by
  obtain ⟨f, _, h⟩ := exceptBind_eq_ok h
  cases h
  rfl

theorem decodeAlignSym_dueAt (h : decodeAlignSym c src = .ok (i, k)) : i.dueAt .alignSym := by
  obtain ⟨a, _, h⟩ := exceptBind_eq_ok h
  cases h
  rfl

theorem decodeBits_dueAt (hb : c.expect.isBits = true) (h : decodeBits c src = .ok (i, k)) : i.dueAt c.expect := by
  unfold decodeBits at h
  cases he : c.expect <;> rw [he] at h hb
  case streamHdr => exact decodeStreamHdr_dueAt h
  case blockHdr => exact decodeBlockHdr_dueAt h
  case alignLens => exact decodeAlignLens_dueAt h
  case preLens => exact decodePreLens_dueAt h
  case preSym => exact decodePreSym_dueAt h
  case element => exact decodeElement_dueAt h
  case lenFooter => exact decodeLenFooter_dueAt h
  case alignSym => exact decodeAlignSym_dueAt h
  all_goals cases hb

end

/-! ## The decoders of bytes -/

section
variable {c : DecodeCtx} {src : ByteSource} {i : Instr} {k : Nat}

theorem decodeUncOffsets_dueAt (h : decodeUncOffsets src = .ok (i, k)) : i.dueAt .uncOffsets := by
  obtain ⟨r0, _, h⟩ := exceptBind_eq_ok h
  obtain ⟨r1, _, h⟩ := exceptBind_eq_ok h
  obtain ⟨r2, _, h⟩ := exceptBind_eq_ok h
  cases h
  rfl

theorem decodeUncData_dueAt (h : decodeUncData src = .ok (i, k)) : i.dueAt .uncData := by
  obtain ⟨b, _, h⟩ := exceptBind_eq_ok h
  cases h
  rfl

theorem decodeUncClose_dueAt {padded : Bool} (h : decodeUncClose padded src = .ok (i, k)) : i.dueAt .uncClose := by
  unfold decodeUncClose at h
  split at h
  · obtain ⟨b, _, h⟩ := exceptBind_eq_ok h
    cases h
    rfl
  · cases h
    rfl

theorem decodeMonoPreamble_dueAt (h : decodeMonoPreamble src = .ok (i, k)) : i.dueAt .adpcmPreamble := by
  obtain ⟨p, _, h⟩ := exceptBind_eq_ok h
  obtain ⟨d, _, h⟩ := exceptBind_eq_ok h
  obtain ⟨a, _, h⟩ := exceptBind_eq_ok h
  obtain ⟨b, _, h⟩ := exceptBind_eq_ok h
  cases h
  rfl

theorem decodeStereoPreamble_dueAt (h : decodeStereoPreamble src = .ok (i, k)) : i.dueAt .adpcmPreamble := by
  obtain ⟨pL, _, h⟩ := exceptBind_eq_ok h
  obtain ⟨pR, _, h⟩ := exceptBind_eq_ok h
  obtain ⟨dL, _, h⟩ := exceptBind_eq_ok h
  obtain ⟨dR, _, h⟩ := exceptBind_eq_ok h
  obtain ⟨aL, _, h⟩ := exceptBind_eq_ok h
  obtain ⟨aR, _, h⟩ := exceptBind_eq_ok h
  obtain ⟨bL, _, h⟩ := exceptBind_eq_ok h
  obtain ⟨bR, _, h⟩ := exceptBind_eq_ok h
  cases h
  rfl

theorem decodeAdpcmByte_dueAt {stereo : Bool} (h : decodeAdpcmByte stereo src = .ok (i, k)) : i.dueAt .adpcmByte := by
  obtain ⟨b, _, h⟩ := exceptBind_eq_ok h
  cases h
  cases stereo <;> rfl

theorem decodeNibble_dueAt (h : decodeNibble src = .ok (i, k)) : i.dueAt .adpcmNibble := by
  obtain ⟨b, _, h⟩ := exceptBind_eq_ok h
  cases h
  rfl

theorem decodeBytes_dueAt (hb : c.expect.isBits = false) (h : decodeBytes c src = .ok (i, k)) : i.dueAt c.expect := by
  unfold decodeBytes at h
  cases he : c.expect <;> rw [he] at h hb
  case uncOffsets => exact decodeUncOffsets_dueAt h
  case uncData => exact decodeUncData_dueAt h
  case uncClose => exact decodeUncClose_dueAt h
  case adpcmPreamble =>
    dsimp only at h
    split at h
    · exact decodeStereoPreamble_dueAt h
    · exact decodeMonoPreamble_dueAt h
  case adpcmByte => exact decodeAdpcmByte_dueAt h
  case adpcmNibble => exact decodeNibble_dueAt h
  all_goals cases hb

end

namespace Machine

/-- Fetching answers an instruction of the place it is asked for, and moves the reader's cursors only. -/
theorem fetchElement_dueAt {e : Expect} {s t : State} {i : Instr} (h : fetchElement e s = .ok (i, t)) :
    i.dueAt e ∧ ∃ r, t = { s with rdr := r } := by
  obtain ⟨hb, k, hd, rfl⟩ | ⟨hb, _, k, hd, rfl⟩ | ⟨hb, _, k, hd, rfl⟩ := fetchElement_cases h
  · exact ⟨decodeBits_dueAt (c := decodeCtx s e) hb hd, _, rfl⟩
  · exact ⟨decodeBytes_dueAt (c := decodeCtx t e) hb hd, _, rfl⟩
  · exact ⟨decodeBytes_dueAt (c := decodeCtx s e) hb hd, _, rfl⟩

end Machine

end Sys2Proof
end

section
/-! SUPPORT. Everything one step of the block can do, said once: the turns of the frame loop and of a length section as
explicit next states, what an element of a command leaves (`ElementStep`), what a host access leaves, and the induction
that carries an invariant over a step from these (`KeptByStep.step_kept`). -/

namespace Sys2Proof.Machine

/-! ## Turns of the frame loop and of a length section -/

/-- A turn of the frame loop ends the frame, waits for a block header, or begins a run of at least one byte inside the
window (45_lzx_frame R230 to R235). -/
theorem continueFrame_ok_cases {s t : State} (h : continueFrame s = .ok t) :
    (∃ n curpos skipped bs, n ≤ 32768 ∧
        t = endCommand { s with
              lzx.framesRead := n
              lzx.intelCurpos := curpos
              lzx.e8Skipped := skipped
              outBuf := Memory.putList s.outBuf 0 bs
              outCount := s.args.frameSize }) ∨
      (∃ e, (e = .uncClose ∨ e = .blockHdr) ∧ t = expectNext e s) ∨
      ∃ e n brem togo, (e = .element ∨ e = .uncData) ∧ 1 ≤ n ∧ s.lzx.wpos % 65536 + n ≤ 65536 ∧
        t = expectNext e { s with
              lzx.brem := brem
              lzx.wpos := s.lzx.wpos % 65536
              seq.togo := togo
              seq.run := n } := by
  obtain ⟨_, hf⟩ | ⟨_, _, rfl⟩ | ⟨htogo, hbrem, hr⟩ := continueFrame_cases h
  · obtain ⟨u, hu, rfl⟩ := finishFrame_cases hf
    obtain ⟨hu, _, _⟩ := e8Bookkeeping_cases hu
    rw [hu]
    exact .inl ⟨_, _, _, _, Nat.min_le_right .., rfl⟩
  · refine .inr (.inl ⟨_, ?_, rfl⟩)
    split
    · exact .inl rfl
    · exact .inr rfl
  · obtain ⟨hw, rfl⟩ := beginRun_cases hr
    have hpos : s.lzx.brem.toNat ≠ 0 := fun h0 => hbrem (BitVec.eq_of_toNat_eq (by simpa using h0))
    have hn : 1 ≤ min s.lzx.brem.toNat s.seq.togo := by omega
    split
    · exact .inr (.inr ⟨.element, _, _, _, .inl rfl, hn, hw, rfl⟩)
    · exact .inr (.inr ⟨.uncData, _, _, _, .inr rfl, hn, hw, rfl⟩)

/-- Detecting E8 writes INTEL_STARTED only (43_lzx_block_headers R183). -/
theorem detectE8_eq (s : State) : ∃ started, detectE8 s = { s with lzx.intelStarted := started } := by
  unfold detectE8
  split
  · exact ⟨true, rfl⟩
  · exact ⟨s.lzx.intelStarted, rfl⟩

/-- A move inside a length section stays inside it, goes on to the next section, or, after the last, takes a turn of the
frame loop (43_lzx_block_headers R173, R177, R183). -/
theorem advanceTo_ok_cases {x : Nat} {s t : State} (h : advanceTo x s = .ok t) :
    (x < sectionLast s.seq.sect ∧ t = expectNext .preSym { s with seq.x := x }) ∨
      (∃ sect started, t = expectNext .preLens
          { s with lzx.intelStarted := started, seq.sect := sect, seq.x := x }) ∨
      continueFrame { s with seq.x := x } = .ok t := by
  obtain ⟨hx, rfl⟩ | ⟨_, h⟩ := advanceTo_cases h
  · exact .inl ⟨hx, rfl⟩
  · obtain ⟨_, rfl⟩ | ⟨_, _, rfl⟩ | ⟨_, _, h⟩ := endSection_cases h
    · exact .inr (.inl ⟨_, s.lzx.intelStarted, rfl⟩)
    · obtain ⟨started, hd⟩ := detectE8_eq { s with seq.x := x, seq.sect := .length }
      rw [hd]
      exact .inr (.inl ⟨_, started, rfl⟩)
    · exact .inr (.inr h)

/-! ## Elements -/

/-- The work of an ADPCM element before its end: channels are loaded or selected and samples are emitted, in any order
(46_msadpcm R253 to R263). -/
inductive AdpcmWork (s : State) : State → Prop where
  /-- Nothing done yet. -/
  | start : AdpcmWork s s
  /-- A channel is loaded. -/
  | load {u : State} (c : Channel) (a : AdpcmChannel) : AdpcmWork s u → AdpcmWork s (setChannel c a u)
  /-- A channel is selected. -/
  | select {u : State} (c : Channel) : AdpcmWork s u → AdpcmWork s (selectChannel c u)
  /-- A sample is emitted. -/
  | emit {u : State} (v : Half) : AdpcmWork s u → AdpcmWork s (emitSample v u)

theorem AdpcmWork.expand {s u : State} (n : BitVec 4) (h : AdpcmWork s u) : AdpcmWork s (expandNibble n u) :=
  .emit _ (.load _ _ h)

/-- What ADPCM work leaves: it writes the channels, OUT by single bytes, and its two locals. -/
theorem AdpcmWork.frame {s u : State} (h : AdpcmWork s u) :
    (Memory.wf none s.outBuf → Memory.wf none u.outBuf) ∧
      u = { s with
            adpcm := u.adpcm
            outBuf := u.outBuf
            seq.chan := u.seq.chan
            seq.emitted := u.seq.emitted } := by
  induction h with
  | start => exact ⟨id, rfl⟩
  | load c a _ ih =>
    obtain ⟨hwf, hu⟩ := ih
    rw [hu]
    cases c <;> exact ⟨hwf, rfl⟩
  | select c _ ih =>
    obtain ⟨hwf, hu⟩ := ih
    rw [hu]
    exact ⟨hwf, rfl⟩
  | emit v _ ih =>
    obtain ⟨hwf, hu⟩ := ih
    rw [hu]
    exact ⟨fun h => Memory.wf_put _ (Memory.wf_put _ (hwf h) nofun) nofun, rfl⟩

/-- Everything the element due at a place of the stream grammar can leave, from the state its input is consumed in. -/
inductive ElementStep (s : State) : Expect → State → Prop where
  /-- A fault. -/
  | fault {e : Expect} (err : ErrCode) : ElementStep s e (takeFault err s)
  /-- A block header of a reserved type faults with its fields loaded (43_lzx_block_headers R176). -/
  | reserved (ty : BitVec 3) (blen : BitVec 24) :
      ElementStep s .blockHdr (takeFault .badBlockType (loadBlock ty blen s))
  /-- The stream header (43_lzx_block_headers R170). -/
  | streamHdr {t : State} (fs : Word) (h : continueFrame (setHdrRead { s with lzx.intelFilesize := fs }) = .ok t) :
      ElementStep s .streamHdr t
  /-- A VERBATIM block header (43_lzx_block_headers R173). -/
  | verbatim (blen : BitVec 24) : ElementStep s .blockHdr (beginTrees (loadBlock 1 blen s))
  /-- An ALIGNED block header (43_lzx_block_headers R174). -/
  | aligned (blen : BitVec 24) : ElementStep s .blockHdr (expectNext .alignLens (loadBlock 2 blen s))
  /-- An UNCOMPRESSED block header (43_lzx_block_headers R175). -/
  | uncompressed (blen : BitVec 24) :
      ElementStep s .blockHdr (expectNext .uncOffsets (enterRaw (setIntelStarted (loadBlock 3 blen s))))
  /-- The raw offsets of an UNCOMPRESSED header (43_lzx_block_headers R175). -/
  | uncOffsets {t : State} (r0 r1 r2 : Word)
      (h : continueFrame { s with lzx.r0 := r0, lzx.r1 := r1, lzx.r2 := r2 } = .ok t) : ElementStep s .uncOffsets t
  /-- The close of an UNCOMPRESSED block (43_lzx_block_headers R184). -/
  | uncClose : ElementStep s .uncClose (expectNext .blockHdr (restartBits s))
  /-- The aligned lengths (43_lzx_block_headers R174). -/
  | alignLens (ls : List (BitVec 3)) (hls : ls.length = 8) :
      ElementStep s .alignLens (beginTrees { s with lzx.alignLen := ls.map BitVec.toNat })
  /-- The pretree lengths (43_lzx_block_headers R177). -/
  | preLens (ls : List (BitVec 4)) (hls : ls.length = 20) :
      ElementStep s .preLens
        (expectNext .preSym { s with lzx.preLen := ls.map BitVec.toNat, seq.x := sectionFirst s.seq.sect })
  /-- A pretree element writes one position, or a run that ends inside its section (43_lzx_block_headers R178 to
  R182). -/
  | preSym {t : State} (n v : Nat) (hn : n = 1 ∨ s.seq.x + n ≤ sectionLast s.seq.sect) (hv : v ≤ 16)
      (h : advanceTo (s.seq.x + n) (setSectionArray (fillLens (sectionArray s) s.seq.x v n) s) = .ok t) :
      ElementStep s .preSym t
  /-- One byte of a run (44_lzx_symbols R201, R218). -/
  | byte {e : Expect} {t : State} (b : Byte) (he : e = .element ∨ e = .uncData)
      (h : continueRun (putWindowByte b s) = .ok t) : ElementStep s e t
  /-- A match inside its run, its operands latched and the offset cache moved (44_lzx_symbols R202 to R215). -/
  | copy {t : State} (off mlen mext : Nat) (r0 r1 r2 : Word) (hlen : mlen ≤ s.seq.run)
      (h : continueRun (copyMatch off mlen
          { s with lzx.r0 := r0, lzx.r1 := r1, lzx.r2 := r2, seq.mlen := mlen, seq.mext := mext }) = .ok t) :
      ElementStep s .element t
  /-- A length footer or an aligned symbol standing alone (44_lzx_symbols R219, R220). -/
  | latch {e : Expect} (mlen mext : Nat) (he : e = .lenFooter ∨ e = .alignSym) :
      ElementStep s e { s with seq.mlen := mlen, seq.mext := mext }
  /-- An ADPCM preamble or body byte (46_msadpcm R253, R254, R259, R260). -/
  | adpcm {e : Expect} {u : State} (o : Nat) (he : e = .adpcmPreamble ∨ e = .adpcmByte) (h : AdpcmWork s u) :
      ElementStep s e (continueBlock o u)
  /-- A nibble standing alone (46_msadpcm R255). -/
  | nibble {u : State} (h : AdpcmWork s u) : ElementStep s .adpcmNibble u

/-- An element whose result is described step by step is described whole, a fault being taken. -/
theorem ElementStep.of_element {s t : State} {e : Expect} {r : Except ErrCode State}
    (hr : ∀ u, r = .ok u → ElementStep s e u) (h : element s r = .next t) : ElementStep s e t := by
  rw [element_next] at h
  cases h
  obtain hok | ⟨err, _, ht⟩ := settle_cases s r
  · exact hr _ hok
  · rw [ht]
    exact .fault err

theorem latchLength_eq (lh : BitVec 3) (f : Byte) (s : State) :
    latchLength lh f s = { s with seq.mlen := matchLength lh f } := by
  unfold latchLength matchLength
  split <;> rfl

theorem latchOffBits_eq (o : OffBits) (s : State) : latchOffBits o s = { s with seq.mext := offsetValue o } := by
  cases o <;> rfl

/-- A match that passes its checks, whatever its operands were. -/
theorem ElementStep.of_checkedCopy {s t : State} (off mlen mext : Nat) (r0 r1 r2 : Word)
    (h : checkedCopy off
        { s with lzx.r0 := r0, lzx.r1 := r1, lzx.r2 := r2, seq.mlen := mlen, seq.mext := mext } = .ok t) :
    ElementStep s .element t := by
  obtain ⟨_, _, hlen, h⟩ := checkedCopy_cases h
  exact .copy off mlen mext r0 r1 r2 hlen h

theorem ElementStep.of_slotMatch {s t : State} {slot : Nat} {lh : BitVec 3} {f : Byte} {o : OffBits}
    (h : slotMatch slot lh f o s = .ok t) : ElementStep s .element t := by
  unfold slotMatch at h
  rw [latchLength_eq, latchOffBits_eq] at h
  exact .of_checkedCopy _ (matchLength lh f) (offsetValue o) _ s.lzx.r0 s.lzx.r1 h

/-- A repeated match: `use` reads its offset from the cache and may exchange the cache's entries. -/
theorem ElementStep.of_repMatch {s t : State} {use : State → Nat × State} {lh : BitVec 3} {f : Byte}
    (huse : ∀ u, ∃ r0 r1 r2, (use u).2 = { u with lzx.r0 := r0, lzx.r1 := r1, lzx.r2 := r2 })
    (h : repMatch use lh f s = .ok t) : ElementStep s .element t := by
  obtain ⟨r0, r1, r2, hu⟩ := huse (latchLength lh f s)
  change checkedCopy (use (latchLength lh f s)).1 (use (latchLength lh f s)).2 = .ok t at h
  rw [hu, latchLength_eq] at h
  exact .of_checkedCopy _ (matchLength lh f) s.seq.mext r0 r1 r2 h

theorem ElementStep.of_fillRun {s t : State} {n v : Nat} (hv : v ≤ 16) (h : fillRun n v s = .ok t) :
    ElementStep s .preSym t := by
  obtain ⟨hn, h⟩ := fillRun_cases h
  exact .preSym n v (.inr hn) hv h

theorem ElementStep.of_deltaOne {s t : State} {d : Nat} (h : deltaOne d s = .ok t) : ElementStep s .preSym t :=
  .preSym 1 (deltaLen ((sectionArray s).getD s.seq.x 0) d) (.inl rfl) (deltaLen_le _ _) h

theorem ElementStep.of_repeatRun {s t : State} {b : BitVec 1} {d : BitVec 5} (h : repeatRun b d s = .ok t) :
    ElementStep s .preSym t :=
  .of_fillRun (deltaLen_le _ _) (repeatRun_cases h).2

theorem ElementStep.of_loadAlignLens {s t : State} {ls : List (BitVec 3)} (hls : ls.length = 8)
    (h : loadAlignLens ls s = .ok t) : ElementStep s .alignLens t := by
  obtain ⟨_, rfl⟩ := loadAlignLens_cases h
  exact .alignLens ls hls

theorem ElementStep.of_loadPreLens {s t : State} {ls : List (BitVec 4)} (hls : ls.length = 20)
    (h : loadPreLens ls s = .ok t) : ElementStep s .preLens t := by
  obtain ⟨_, rfl⟩ := loadPreLens_cases h
  exact .preLens ls hls

theorem ElementStep.of_monoPreamble {s t : State} {p : Byte} {d a b : Half}
    (h : monoPreamble p d a b s = .ok t) : ElementStep s .adpcmPreamble t := by
  obtain ⟨_, rfl⟩ := monoPreamble_cases h
  exact .adpcm 7 (.inl rfl) (.emit _ (.emit _ (.load _ _ .start)))

theorem ElementStep.of_stereoPreamble {s t : State} {l r : AdpcmChannel}
    (h : stereoPreamble l r s = .ok t) : ElementStep s .adpcmPreamble t := by
  obtain ⟨_, rfl⟩ := stereoPreamble_cases h
  exact .adpcm 14 (.inl rfl) (.emit _ (.emit _ (.emit _ (.emit _ (.load _ _ (.load _ _ .start))))))

/-- The inversion of the element meanings: run at its own place, an instruction does what `ElementStep` says of that
place. -/
theorem runElement_elementStep {e : Expect} {i : Instr} {s t : State} (hd : i.dueAt e)
    (h : runElement i s = .next t) : ElementStep s e t := by
  cases i with
  | reset => exact hd.elim
  | lzxFrame => exact hd.elim
  | adpcmBlock => exact hd.elim
  | cmdReserved v => exact hd.elim
  | streamHdr =>
    cases hd
    exact .of_element (fun _ h => .streamHdr s.lzx.intelFilesize h) h
  | streamHdrE8 fs =>
    cases hd
    exact .of_element (fun _ h => .streamHdr fs h) h
  | blkVerbatim blen =>
    cases hd
    cases h
    exact .verbatim blen
  | blkAligned blen =>
    cases hd
    cases h
    exact .aligned blen
  | blkUncompressed blen =>
    cases hd
    cases h
    exact .uncompressed blen
  | blkReserved0 blen =>
    cases hd
    cases h
    exact .reserved 0 blen
  | blkReserved4to7 ty blen =>
    cases hd
    cases h
    exact .reserved (1#1 ++ ty) blen
  | uncBody part =>
    cases part with
    | offsets r0 r1 r2 =>
      cases hd
      exact .of_element (fun _ h => .uncOffsets r0 r1 r2 h) h
    | data b => exact .of_element (fun _ h => .byte b (.inr hd) h) h
    | close pad =>
      cases hd
      cases h
      exact .uncClose
  | alignLengths ls =>
    obtain ⟨rfl, hls⟩ := hd
    exact .of_element (fun _ h => .of_loadAlignLens hls h) h
  | pretreeLengths ls =>
    obtain ⟨rfl, hls⟩ := hd
    exact .of_element (fun _ h => .of_loadPreLens hls h) h
  | preDelta d =>
    cases hd
    exact .of_element (fun _ h => .of_deltaOne h) h
  | preDelta16 =>
    cases hd
    exact .of_element (fun _ h => .of_deltaOne h) h
  | preZrun17 n =>
    cases hd
    exact .of_element (fun _ h => .of_fillRun (Nat.zero_le _) h) h
  | preZrun18 n =>
    cases hd
    exact .of_element (fun _ h => .of_fillRun (Nat.zero_le _) h) h
  | preRep19 b d =>
    cases hd
    exact .of_element (fun _ h => .of_repeatRun h) h
  | lit b => exact .of_element (fun _ h => .byte b (.inl hd) h) h
  | matchRep0 lh f =>
    cases hd
    exact .of_element (fun _ h => .of_repMatch (fun _ => ⟨_, _, _, rfl⟩) h) h
  | matchRep1 lh f =>
    cases hd
    exact .of_element (fun _ h => .of_repMatch (fun _ => ⟨_, _, _, rfl⟩) h) h
  | matchRep2 lh f =>
    cases hd
    exact .of_element (fun _ h => .of_repMatch (fun _ => ⟨_, _, _, rfl⟩) h) h
  | matchOff1 lh f =>
    cases hd
    exact .of_element (fun _ h => .of_slotMatch h) h
  | matchS4to7 sl lh f v =>
    cases hd
    exact .of_element (fun _ h => .of_slotMatch h) h
  | matchS8to9 sl lh f o =>
    cases hd
    exact .of_element (fun _ h => .of_slotMatch h) h
  | matchS10to11 sl lh f o =>
    cases hd
    exact .of_element (fun _ h => .of_slotMatch h) h
  | matchS12to15 sl lh f o =>
    cases hd
    exact .of_element (fun _ h => .of_slotMatch h) h
  | matchS16to31 sl lh f o =>
    cases hd
    exact .of_element (fun _ h => .of_slotMatch h) h
  | lenFooter f =>
    cases h
    exact .latch (7 + f.toNat + 2) s.seq.mext (.inl hd)
  | alignSym a =>
    cases h
    exact .latch s.seq.mlen (s.seq.mext * 8 + a.toNat) (.inr hd)
  | adpcmMonoPreamble p d a b =>
    cases hd
    exact .of_element (fun _ h => .of_monoPreamble h) h
  | adpcmStereoPreamble pL pR dL dR aL aR bL bR =>
    cases hd
    exact .of_element (fun _ h => .of_stereoPreamble h) h
  | adpcmMonoByte x y =>
    cases h
    exact .adpcm _ (.inr hd) (.expand _ (.expand _ (.select _ .start)))
  | adpcmStereoByte x y =>
    cases h
    exact .adpcm _ (.inr hd) (.expand _ (.select _ (.expand _ (.select _ .start))))
  | adpcmNibble n =>
    cases hd
    cases h
    exact .nibble (.expand _ .start)

/-- The inversion of a step inside a command: decoding faults, or the element that is due runs with its input
consumed. -/
theorem engineStep_elementStep {e : Expect} {s t : State} (h : engineStep e s = .next t) :
    (∃ err, t = takeFault err s) ∨ ∃ r, ElementStep { s with rdr := r } e t := by
  obtain ⟨err, _, hs⟩ | ⟨i, u, hf, hs⟩ := engineStep_cases e s
  · rw [hs] at h
    cases h
    exact .inl ⟨err, rfl⟩
  · obtain ⟨hd, r, rfl⟩ := fetchElement_dueAt hf
    rw [hs] at h
    exact .inr ⟨r, runElement_elementStep hd h⟩

/-! ## Host accesses -/

theorem splitBytes_length (v : Word) (n : Nat) : (splitBytes v n).length = n := by
  simp [splitBytes]

/-- A target inside IN holds the whole access (20_memory R66). -/
theorem target_inBuf {addr o : Nat} {n : AccessSize} (h : target addr n = .inBuf o) :
    o + n.bytes ≤ Config.inCapacity := by
  unfold target at h
  split_ifs at h with _ _ hin
  obtain rfl := Target.inBuf.inj h
  omega

theorem hostReadRegister_eq (off : Nat) (s : State) :
    ∃ p v, hostReadRegister off s = { s with port := p, viewReads := v } := by
  unfold hostReadRegister
  split
  · exact ⟨_, _, rfl⟩
  · split <;> exact ⟨_, _, rfl⟩

theorem hostWriteRegister_eq (off : Nat) (v : Word) (s : State) :
    ∃ g, hostWriteRegister off v s = { s with args := g } := by
  unfold hostWriteRegister
  split_ifs <;> exact ⟨_, rfl⟩

/-- A read changes the bus and the count of view reads only. -/
theorem memRead_eq (addr : Nat) (n : AccessSize) (s : State) :
    ∃ p v, memRead addr n s = { s with port := p, viewReads := v } := by
  unfold memRead
  split
  · exact hostReadRegister_eq _ s
  all_goals exact ⟨_, _, rfl⟩

/-- A write reaches the argument registers, bytes of IN, or bytes of OUT. -/
theorem memWrite_cases (addr : Nat) (n : AccessSize) (v : Word) (s : State) :
    (∃ g, memWrite addr n v s = { s with args := g }) ∨
      (∃ o bs, o + bs.length ≤ Config.inCapacity ∧
        memWrite addr n v s = { s with inBuf := Memory.putList s.inBuf o bs }) ∨
      ∃ o bs, memWrite addr n v s = { s with outBuf := Memory.putList s.outBuf o bs } := by
  unfold memWrite
  split
  · exact .inl (hostWriteRegister_eq _ v s)
  · rename_i o ht
    refine .inr (.inl ⟨o, _, ?_, rfl⟩)
    rw [splitBytes_length]
    exact target_inBuf ht
  · exact .inr (.inr ⟨_, _, rfl⟩)
  · exact .inl ⟨_, rfl⟩

/-! ## One step -/

/-- Outside a command's own rows, an instruction means what it means inside a command. -/
theorem exec_eq_runElement {e : Expect} {i : Instr} (s : State) (hd : i.dueAt e) : exec i s = runElement i s := by
  cases i with
  | reset => exact hd.elim
  | lzxFrame => exact hd.elim
  | adpcmBlock => exact hd.elim
  | cmdReserved v => exact hd.elim
  | _ => rfl

/-- Inside a command a step is the element that is due (log 3). -/
theorem step_of_expect {s : State} {e : Expect} (he : s.seq.expect = some e) : step s = engineStep e s := by
  unfold step fetch engineStep
  simp only [he]
  cases hf : fetchElement e s with
  | error err => rfl
  | ok p =>
    obtain ⟨hd, _⟩ := fetchElement_dueAt (i := p.1) (t := p.2) hf
    exact exec_eq_runElement p.2 hd

/-- Between commands the oldest host access is fetched, if there is one: a command, or an access that starts none
(40_host_commands R112; log 2). -/
theorem fetch_idle_cases {s : State} (he : s.seq.expect = none) :
    fetch s = .quiet ∨
      (∃ v rest, fetch s = .instr (decodeCommand v) { s with port.pending := rest }) ∨
      ∃ a rest, fetch s = .access a { s with port.pending := rest } := by
  unfold fetch
  rw [he]
  cases s.port.pending with
  | nil => exact .inl rfl
  | cons a rest =>
    dsimp only
    split
    · exact .inr (.inl ⟨_, rest, rfl⟩)
    · exact .inr (.inr ⟨_, rest, rfl⟩)

theorem step_idle_cases {s : State} (he : s.seq.expect = none) :
    step s = .next s ∨
      (∃ v rest, step s = exec (decodeCommand v) { s with port.pending := rest }) ∨
      ∃ a rest, step s = .next (hostAccess a { s with port.pending := rest }) := by
  unfold step
  obtain hf | ⟨v, rest, hf⟩ | ⟨a, rest, hf⟩ := fetch_idle_cases he <;> rw [hf]
  · exact .inl rfl
  · exact .inr (.inl ⟨v, rest, rfl⟩)
  · exact .inr (.inr ⟨a, rest, rfl⟩)

theorem decodeCommand_cases (v : Word) :
    decodeCommand v = .reset ∨ decodeCommand v = .lzxFrame ∨ decodeCommand v = .adpcmBlock ∨
      decodeCommand v = .cmdReserved v := by
  unfold decodeCommand
  split_ifs <;> simp

/-! ## The induction over a step -/

/-- What a predicate has to survive to survive every step: one field for each thing a step is made of. -/
structure KeptByStep (P : State → Prop) : Prop where
  /-- The reader, the bus, the argument registers and the count of view reads are free. -/
  bus (s : State) (r : Reader) (p : Port) (g : Args) (v : Nat) :
    P s → P { s with rdr := r, port := p, args := g, viewReads := v }
  /-- A host write inside IN. -/
  inWrite (s : State) (o : Nat) (bs : List Byte) :
    o + bs.length ≤ Config.inCapacity → P s → P { s with inBuf := Memory.putList s.inBuf o bs }
  /-- A host write to OUT. -/
  outWrite (s : State) (o : Nat) (bs : List Byte) : P s → P { s with outBuf := Memory.putList s.outBuf o bs }
  /-- A fault. -/
  fault (s : State) (err : ErrCode) : P s → P (takeFault err s)
  /-- RESET. -/
  reset (s : State) : P s → P (resetState s)
  /-- OUT_COUNT <- 0 at the start of a command. -/
  clear (s : State) : P s → P { s with outCount := 0 }
  /-- The start of LZX_FRAME in a READY block. -/
  startLzx (s t : State) : s.life = .ready → P s → startLzx s = .ok t → P t
  /-- The start of ADPCM_BLOCK in a READY block. -/
  startAdpcm (s t : State) : s.life = .ready → P s → startAdpcm s = .ok t → P t
  /-- An element at the place it is due at. -/
  element (s t : State) (e : Expect) : s.seq.expect = some e → P s → ElementStep s e t → P t

namespace KeptByStep

variable {P : State → Prop} (k : KeptByStep P)
include k

theorem engineStep_kept {s t : State} {e : Expect} (he : s.seq.expect = some e) (hs : P s)
    (h : engineStep e s = .next t) : P t := by
  obtain ⟨err, rfl⟩ | ⟨r, hr⟩ := engineStep_elementStep h
  · exact k.fault s err hs
  · exact k.element { s with rdr := r } t e he (k.bus s r s.port s.args s.viewReads hs) hr

theorem runCommand_kept {start : State → Except ErrCode State}
    (hstart : ∀ s t, s.life = .ready → P s → start s = .ok t → P t) {s t : State} (hl : s.life = .ready)
    (hs : P s) (h : runCommand start s = .next t) : P t := by
  obtain ⟨err, _, hr⟩ | ⟨u, hu, hr⟩ := runCommand_cases start s
  · rw [hr] at h
    cases h
    exact k.fault _ err (k.clear s hs)
  · have hP : P u := hstart { s with outCount := 0 } u hl (k.clear s hs) hu
    obtain ⟨t', ht', hPt⟩ := runEngine_keeps P (fun e s t he hs h => k.engineStep_kept he hs h) (workBound s) u hP
    rw [hr, ht'] at h
    cases h
    exact hPt

theorem command_kept {s t : State} {v : Word} (hs : P s) (h : exec (decodeCommand v) s = .next t) : P t := by
  obtain hc | hc | hc | hc := decodeCommand_cases v <;> rw [hc] at h
  · cases h
    exact k.reset s hs
  · change execLzxFrame s = _ at h
    unfold execLzxFrame at h
    split at h
    · cases h
      exact hs
    · rename_i hl
      exact k.runCommand_kept k.startLzx hl hs h
  · change execAdpcmBlock s = _ at h
    unfold execAdpcmBlock at h
    split at h
    · cases h
      exact hs
    · rename_i hl
      exact k.runCommand_kept k.startAdpcm hl hs h
  · change execCmdReserved v s = _ at h
    unfold execCmdReserved at h
    split at h
    · cases h
      exact hs
    · cases h
      exact k.fault s .badCommand hs

theorem hostAccess_kept {s : State} (a : HostAccess) (hs : P s) : P (hostAccess a s) := by
  cases a with
  | read addr n =>
    change P (memRead addr n s)
    obtain ⟨p, v, h⟩ := memRead_eq addr n s
    rw [h]
    exact k.bus s s.rdr p s.args v hs
  | write addr n v =>
    change P (memWrite addr n v s)
    obtain ⟨g, h⟩ | ⟨o, bs, hb, h⟩ | ⟨o, bs, h⟩ := memWrite_cases addr n v s <;> rw [h]
    · exact k.bus s s.rdr s.port g s.viewReads hs
    · exact k.inWrite s o bs hb hs
    · exact k.outWrite s o bs hs

/-- What survives everything a step is made of survives the step. -/
theorem step_kept {s t : State} (hs : P s) (h : step s = .next t) : P t := by
  cases he : s.seq.expect with
  | some e =>
    rw [step_of_expect he] at h
    exact k.engineStep_kept he hs h
  | none =>
    have hpending : ∀ rest, P { s with port.pending := rest } := fun rest =>
      k.bus s s.rdr { s.port with pending := rest } s.args s.viewReads hs
    obtain hq | ⟨v, rest, hc⟩ | ⟨a, rest, ha⟩ := step_idle_cases he
    · rw [hq] at h
      cases h
      exact hs
    · rw [hc] at h
      exact k.command_kept (hpending rest) h
    · rw [ha] at h
      cases h
      exact k.hostAccess_kept a (hpending rest)

end KeptByStep

end Sys2Proof.Machine
end

section
/-! SUPPORT. The invariants of a legal state (10_state): each survives everything a step is made of, and so every
step. -/

namespace Sys2Proof.Machine

/-! ## Shared shapes -/

/-- Writing a section's array touches MAINLEN and LENLEN only. -/
theorem setSectionArray_eq (ls : List Nat) (s : State) :
    ∃ m l, setSectionArray ls s = { s with lzx.mainLen := m, lzx.lenLen := l } := by
  unfold setSectionArray
  split
  · exact ⟨ls, s.lzx.lenLen, rfl⟩
  · exact ⟨ls, s.lzx.lenLen, rfl⟩
  · exact ⟨s.lzx.mainLen, ls, rfl⟩

/-- Between bytes of an ADPCM block the next byte is due, or the command is over. -/
theorem continueBlock_eq (o : Nat) (s : State) :
    ∃ e c, (e = some .adpcmByte ∨ e = none) ∧
      continueBlock o s = { s with outCount := c, seq.apos := o, seq.expect := e } := by
  obtain ⟨_, h⟩ | ⟨_, h⟩ := continueBlock_cases o s
  · exact ⟨_, s.outCount, .inl rfl, h⟩
  · exact ⟨_, _, .inr rfl, h⟩

/-! ## LIFE, ERRCODE and OUT_COUNT -/

/-- The LIFE and ERRCODE of two states are the same. -/
def SameLife (s t : State) : Prop := t.life = s.life ∧ t.errcode = s.errcode

theorem lifeOk_takeFault (err : ErrCode) (s : State) : LifeOk (takeFault err s) :=
  ⟨nofun, fun _ => ⟨rfl, rfl, err, rfl⟩⟩

/-- Where no fault is taken, a READY state is followed by one. -/
theorem SameLife.lifeOk {s t : State} (h : SameLife s t) (hs : LifeOk s) (hl : s.life = .ready) : LifeOk t := by
  obtain ⟨hlife, herr⟩ := h
  rw [hl] at hlife
  exact ⟨fun _ => herr.trans (hs.1 hl), fun hf => nomatch hlife.symm.trans hf⟩

theorem continueFrame_sameLife {s t : State} (h : continueFrame s = .ok t) : SameLife s t := by
  obtain ⟨_, _, _, _, _, rfl⟩ | ⟨_, _, rfl⟩ | ⟨_, _, _, _, _, _, _, rfl⟩ := continueFrame_ok_cases h <;>
    exact ⟨rfl, rfl⟩

theorem continueRun_sameLife {s t : State} (h : continueRun s = .ok t) : SameLife s t := by
  obtain ⟨_, h⟩ | ⟨_, rfl⟩ := continueRun_cases h
  · exact (continueFrame_sameLife h :)
  · exact ⟨rfl, rfl⟩

theorem advanceTo_sameLife {x : Nat} {s t : State} (h : advanceTo x s = .ok t) : SameLife s t := by
  obtain ⟨_, rfl⟩ | ⟨_, _, rfl⟩ | h := advanceTo_ok_cases h
  · exact ⟨rfl, rfl⟩
  · exact ⟨rfl, rfl⟩
  · exact (continueFrame_sameLife h :)

/-- An element takes a fault or leaves LIFE and ERRCODE alone. -/
theorem ElementStep.sameLife {s t : State} {e : Expect} (h : ElementStep s e t) :
    (∃ err u, t = takeFault err u) ∨ SameLife s t := by
  cases h with
  | fault err => exact .inl ⟨err, _, rfl⟩
  | reserved ty blen => exact .inl ⟨.badBlockType, _, rfl⟩
  | streamHdr fs h => exact .inr (continueFrame_sameLife h :)
  | verbatim blen => exact .inr ⟨rfl, rfl⟩
  | aligned blen => exact .inr ⟨rfl, rfl⟩
  | uncompressed blen => exact .inr ⟨rfl, rfl⟩
  | uncOffsets r0 r1 r2 h => exact .inr (continueFrame_sameLife h :)
  | uncClose => exact .inr ⟨rfl, rfl⟩
  | alignLens ls hls => exact .inr ⟨rfl, rfl⟩
  | preLens ls hls => exact .inr ⟨rfl, rfl⟩
  | preSym n v hn hv h =>
    obtain ⟨m, l, hset⟩ := setSectionArray_eq (fillLens (sectionArray s) s.seq.x v n) s
    rw [hset] at h
    exact .inr (advanceTo_sameLife h :)
  | byte b he h => exact .inr (continueRun_sameLife h :)
  | copy off mlen mext r0 r1 r2 hlen h => exact .inr (continueRun_sameLife h :)
  | latch mlen mext hplace => exact .inr ⟨rfl, rfl⟩
  | adpcm o hplace hu =>
    obtain ⟨_, _, _, hb⟩ := continueBlock_eq o _
    rw [hb, hu.frame.2]
    exact .inr ⟨rfl, rfl⟩
  | nibble hu =>
    rw [hu.frame.2]
    exact .inr ⟨rfl, rfl⟩

theorem startLzx_sameLife {s t : State} (h : startLzx s = .ok t) : SameLife s t := by
  obtain ⟨_, ⟨_, h⟩ | ⟨_, rfl⟩⟩ := startLzx_cases h
  · exact (continueFrame_sameLife h :)
  · exact ⟨rfl, rfl⟩

/-- An element is due only in a READY block. -/
theorem LifeOk.ready_of_expect {s : State} {e : Expect} (hs : LifeOk s) (he : s.seq.expect = some e) :
    s.life = .ready := by
  cases hl : s.life with
  | ready => rfl
  | faulted =>
    obtain ⟨_, hidle, _⟩ := hs.2 hl
    cases he.symm.trans hidle

theorem lifeOk_keptByStep : KeptByStep LifeOk where
  bus _ _ _ _ _ hs := hs
  inWrite _ _ _ _ hs := hs
  outWrite _ _ _ hs := hs
  fault s err _ := lifeOk_takeFault err s
  reset _ _ := ⟨fun _ => rfl, nofun⟩
  clear _ := fun ⟨hready, hfaulted⟩ => ⟨hready, fun hl => ⟨rfl, (hfaulted hl).2⟩⟩
  startLzx _ _ hl hs h := (startLzx_sameLife h).lifeOk hs hl
  startAdpcm s t hl hs h := by
    obtain ⟨_, rfl⟩ := startAdpcm_cases h
    exact SameLife.lifeOk (s := s) ⟨rfl, rfl⟩ hs hl
  element s t e he hs h := by
    obtain ⟨err, u, rfl⟩ | hlife := h.sameLife
    · exact lifeOk_takeFault err u
    · exact hlife.lifeOk hs (hs.ready_of_expect he)

/-! ## The memories -/

theorem Memory.within_nil (size : Nat) : Memory.within size [] := fun _ h => nomatch h

theorem continueFrame_memoryOk {s t : State} (h : continueFrame s = .ok t) (hs : MemoryOk s) : MemoryOk t := by
  obtain ⟨_, _, _, _, _, rfl⟩ | ⟨_, _, rfl⟩ | ⟨_, _, _, _, _, _, _, rfl⟩ := continueFrame_ok_cases h
  · obtain ⟨hwin, hwinIn, hin, hinIn, hout⟩ := hs
    exact ⟨hwin, hwinIn, hin, hinIn, Memory.wf_putList 0 _ hout⟩
  · exact hs
  · exact hs

theorem continueRun_memoryOk {s t : State} (h : continueRun s = .ok t) (hs : MemoryOk s) : MemoryOk t := by
  obtain ⟨_, h⟩ | ⟨_, rfl⟩ := continueRun_cases h
  · exact continueFrame_memoryOk h hs
  · exact hs

theorem advanceTo_memoryOk {x : Nat} {s t : State} (h : advanceTo x s = .ok t) (hs : MemoryOk s) : MemoryOk t := by
  obtain ⟨_, rfl⟩ | ⟨_, _, rfl⟩ | h := advanceTo_ok_cases h
  · exact hs
  · exact hs
  · exact continueFrame_memoryOk h hs

theorem putWindowByte_memoryOk {s : State} (b : Byte) (hs : MemoryOk s) : MemoryOk (putWindowByte b s) := by
  obtain ⟨hwin, hwinIn, hrest⟩ := hs
  exact ⟨wf_winSet _ b hwin, within_winSet _ b hwinIn, hrest⟩

theorem copyMatch_memoryOk {s : State} (off len : Nat) (hs : MemoryOk s) : MemoryOk (copyMatch off len s) := by
  obtain ⟨hwin, hwinIn, hrest⟩ := hs
  exact ⟨wf_copyBytes _ off len hwin, within_copyBytes _ off len hwinIn, hrest⟩

theorem AdpcmWork.memoryOk {s u : State} (h : AdpcmWork s u) (hs : MemoryOk s) : MemoryOk u := by
  obtain ⟨hwf, hu⟩ := h.frame
  obtain ⟨hwin, hwinIn, hin, hinIn, hout⟩ := hs
  rw [hu]
  exact ⟨hwin, hwinIn, hin, hinIn, hwf hout⟩

theorem takeFault_memoryOk {s : State} (err : ErrCode) (hs : MemoryOk s) : MemoryOk (takeFault err s) := by
  obtain ⟨hwin, hwinIn, hin, hinIn, _⟩ := hs
  exact ⟨hwin, hwinIn, hin, hinIn, Memory.wf_nil none⟩

theorem ElementStep.memoryOk {s t : State} {e : Expect} (hs : MemoryOk s) (h : ElementStep s e t) : MemoryOk t := by
  cases h with
  | fault err => exact takeFault_memoryOk err hs
  | reserved ty blen => exact takeFault_memoryOk (s := loadBlock ty blen s) .badBlockType hs
  | streamHdr fs h => exact continueFrame_memoryOk h hs
  | verbatim blen => exact hs
  | aligned blen => exact hs
  | uncompressed blen => exact hs
  | uncOffsets r0 r1 r2 h => exact continueFrame_memoryOk h hs
  | uncClose => exact hs
  | alignLens ls hls => exact hs
  | preLens ls hls => exact hs
  | preSym n v hn hv h =>
    obtain ⟨m, l, hset⟩ := setSectionArray_eq (fillLens (sectionArray s) s.seq.x v n) s
    rw [hset] at h
    exact advanceTo_memoryOk h hs
  | byte b he h => exact continueRun_memoryOk h (putWindowByte_memoryOk b hs)
  | copy off mlen mext r0 r1 r2 hlen h => exact continueRun_memoryOk h (copyMatch_memoryOk off mlen hs)
  | latch mlen mext hplace => exact hs
  | adpcm o hplace hu =>
    obtain ⟨_, _, _, hb⟩ := continueBlock_eq o _
    rw [hb]
    exact hu.memoryOk hs
  | nibble hu => exact hu.memoryOk hs

theorem startLzx_memoryOk {s t : State} (h : startLzx s = .ok t) (hs : MemoryOk s) : MemoryOk t := by
  obtain ⟨_, ⟨_, h⟩ | ⟨_, rfl⟩⟩ := startLzx_cases h
  · exact continueFrame_memoryOk h hs
  · exact hs

theorem memoryOk_keptByStep : KeptByStep MemoryOk where
  bus _ _ _ _ _ hs := hs
  inWrite _ o bs hb hs := by
    obtain ⟨hwin, hwinIn, hin, hinIn, hout⟩ := hs
    exact ⟨hwin, hwinIn, Memory.wf_putList o bs hin, Memory.within_putList o bs hinIn hb, hout⟩
  outWrite _ o bs hs := by
    obtain ⟨hwin, hwinIn, hin, hinIn, hout⟩ := hs
    exact ⟨hwin, hwinIn, hin, hinIn, Memory.wf_putList o bs hout⟩
  fault _ err hs := takeFault_memoryOk err hs
  reset _ hs := by
    obtain ⟨_, _, hrest⟩ := hs
    exact ⟨Memory.wf_nil _, Memory.within_nil _, hrest⟩
  clear _ hs := hs
  startLzx _ _ _ hs h := startLzx_memoryOk h hs
  startAdpcm s t _ hs h := by
    obtain ⟨_, rfl⟩ := startAdpcm_cases h
    exact hs
  element _ _ _ _ hs h := h.memoryOk hs

/-! ## The cursors and runs -/

theorem cursorsOk_of_not_inRun {s : State} (hw : s.lzx.wpos ≤ 65536) (hf : s.lzx.framesRead ≤ 32768)
    (hrun : ¬ inRun s) : CursorsOk s :=
  ⟨hw, hf, fun h => absurd h hrun⟩

/-- The frame loop needs no run in progress to leave the cursors in range: a run it begins is inside the window. -/
theorem continueFrame_cursorsOk {s t : State} (h : continueFrame s = .ok t) (hw : s.lzx.wpos ≤ 65536)
    (hf : s.lzx.framesRead ≤ 32768) : CursorsOk t := by
  obtain ⟨_, _, _, _, hn, rfl⟩ | ⟨_, he, rfl⟩ | ⟨_, n, _, _, _, hn, hend, rfl⟩ := continueFrame_ok_cases h
  · exact cursorsOk_of_not_inRun hw hn (by simp [inRun])
  · exact cursorsOk_of_not_inRun hw hf (by obtain rfl | rfl := he <;> simp [inRun])
  · exact ⟨(Nat.le_add_right _ n).trans hend, hf, fun _ => ⟨hn, hend⟩⟩

/-- The end of an element of a run: what is left of the run is inside the window. -/
theorem continueRun_cursorsOk {s t : State} (h : continueRun s = .ok t) (hw : s.lzx.wpos + s.seq.run ≤ 65536)
    (hf : s.lzx.framesRead ≤ 32768) : CursorsOk t := by
  obtain ⟨_, h⟩ | ⟨hrun, rfl⟩ := continueRun_cases h
  · exact continueFrame_cursorsOk h (by omega) hf
  · exact ⟨by omega, hf, fun _ => ⟨by omega, hw⟩⟩

theorem advanceTo_cursorsOk {x : Nat} {s t : State} (h : advanceTo x s = .ok t) (hw : s.lzx.wpos ≤ 65536)
    (hf : s.lzx.framesRead ≤ 32768) : CursorsOk t := by
  obtain ⟨_, rfl⟩ | ⟨_, _, rfl⟩ | h := advanceTo_ok_cases h
  · exact cursorsOk_of_not_inRun hw hf (by simp [inRun])
  · exact cursorsOk_of_not_inRun hw hf (by simp [inRun])
  · exact continueFrame_cursorsOk h hw hf

theorem ElementStep.cursorsOk {s t : State} {e : Expect} (he : s.seq.expect = some e) (hs : CursorsOk s)
    (h : ElementStep s e t) : CursorsOk t := by
  obtain ⟨hw, hf, hrun⟩ := hs
  cases h with
  | fault err => exact cursorsOk_of_not_inRun hw hf (by simp [inRun])
  | reserved ty blen => exact cursorsOk_of_not_inRun hw hf (by simp [inRun])
  | streamHdr fs h => exact continueFrame_cursorsOk h hw hf
  | verbatim blen => exact cursorsOk_of_not_inRun hw hf (by simp [inRun, beginTrees])
  | aligned blen => exact cursorsOk_of_not_inRun hw hf (by simp [inRun])
  | uncompressed blen => exact cursorsOk_of_not_inRun hw hf (by simp [inRun])
  | uncOffsets r0 r1 r2 h => exact continueFrame_cursorsOk h hw hf
  | uncClose => exact cursorsOk_of_not_inRun hw hf (by simp [inRun])
  | alignLens ls hls => exact cursorsOk_of_not_inRun hw hf (by simp [inRun, beginTrees])
  | preLens ls hls => exact cursorsOk_of_not_inRun hw hf (by simp [inRun])
  | preSym n v hn hv h =>
    obtain ⟨m, l, hset⟩ := setSectionArray_eq (fillLens (sectionArray s) s.seq.x v n) s
    rw [hset] at h
    exact advanceTo_cursorsOk h hw hf
  | byte b hplace h =>
    have hin : inRun s := by
      obtain rfl | rfl := hplace
      · exact .inl he
      · exact .inr he
    obtain ⟨hrun1, hend⟩ := hrun hin
    have hleft : s.lzx.wpos + 1 + (s.seq.run - 1) ≤ 65536 := by omega
    exact continueRun_cursorsOk h hleft hf
  | copy off mlen mext r0 r1 r2 hlen h =>
    obtain ⟨_, hend⟩ := hrun (.inl he)
    have hleft : s.lzx.wpos + mlen + (s.seq.run - mlen) ≤ 65536 := by omega
    exact continueRun_cursorsOk h hleft hf
  | latch mlen mext hplace => exact ⟨hw, hf, hrun⟩
  | adpcm o hplace hu =>
    obtain ⟨next, _, hnext, hb⟩ := continueBlock_eq o _
    rw [hb, hu.frame.2]
    exact cursorsOk_of_not_inRun hw hf (by obtain rfl | rfl := hnext <;> simp [inRun])
  | nibble hu =>
    rw [hu.frame.2]
    exact ⟨hw, hf, hrun⟩

theorem startLzx_cursorsOk {s t : State} (h : startLzx s = .ok t) (hw : s.lzx.wpos ≤ 65536)
    (hf : s.lzx.framesRead ≤ 32768) : CursorsOk t := by
  obtain ⟨_, ⟨_, h⟩ | ⟨_, rfl⟩⟩ := startLzx_cases h
  · exact continueFrame_cursorsOk h hw hf
  · exact cursorsOk_of_not_inRun hw hf (by simp [inRun])

theorem cursorsOk_keptByStep : KeptByStep CursorsOk where
  bus _ _ _ _ _ hs := hs
  inWrite _ _ _ _ hs := hs
  outWrite _ _ _ hs := hs
  fault _ _ := fun ⟨hw, hf, _⟩ => cursorsOk_of_not_inRun hw hf (by simp [inRun])
  reset s hs := by
    obtain ⟨_, _, hrun⟩ := hs
    refine ⟨Nat.zero_le _, Nat.zero_le _, fun hin => ?_⟩
    obtain ⟨hrun1, hend⟩ := hrun hin
    have hleft : 0 + s.seq.run ≤ 65536 := by omega
    exact ⟨hrun1, hleft⟩
  clear _ hs := hs
  startLzx _ _ _ := fun ⟨hw, hf, _⟩ h => startLzx_cursorsOk h hw hf
  startAdpcm s t _ hs h := by
    obtain ⟨_, rfl⟩ := startAdpcm_cases h
    obtain ⟨hw, hf, _⟩ := hs
    exact cursorsOk_of_not_inRun hw hf (by simp [inRun])
  element _ _ _ he hs h := h.cursorsOk he hs

/-! ## The length arrays and the section in progress -/

/-- The arrays in range and a section in progress inside itself. -/
def LengthsOk (s : State) : Prop := TablesOk s.lzx ∧ SectionOk s

theorem lengthsOk_of_expect {s : State} (hs : TablesOk s.lzx) (he : s.seq.expect ≠ some .preSym) : LengthsOk s :=
  ⟨hs, fun h => absurd h he⟩

theorem sectionFirst_lt_sectionLast (sect : LenSection) : sectionFirst sect < sectionLast sect := by
  cases sect <;> decide

theorem mem_fillLens {ls : List Nat} {x v n y : Nat} (h : y ∈ fillLens ls x v n) : y ∈ ls ∨ y = v := by
  induction n generalizing ls x with
  | zero => exact .inl h
  | succ n ih =>
    obtain h | h := ih h
    · exact List.mem_or_eq_of_mem_set h
    · exact .inr h

/-- A run of a legal value keeps an array's size and range. -/
theorem fillLens_inRange {ls : List Nat} {size v : Nat} (x n : Nat) (hls : ls.length = size ∧ ∀ y ∈ ls, y ≤ 16)
    (hv : v ≤ 16) : (fillLens ls x v n).length = size ∧ ∀ y ∈ fillLens ls x v n, y ≤ 16 := by
  obtain ⟨hsize, hrange⟩ := hls
  refine ⟨(length_fillLens ls x v n).trans hsize, fun y hy => ?_⟩
  obtain hy | rfl := mem_fillLens hy
  · exact hrange y hy
  · exact hv

/-- A run inside its section keeps the arrays in range; LENLEN[249] is outside every section (43_lzx_block_headers
R182, 42_huffman R158). -/
theorem tablesOk_setSectionArray {s : State} {n v : Nat} (hs : TablesOk s.lzx)
    (hn : s.seq.x + n ≤ sectionLast s.seq.sect) (hv : v ≤ 16) :
    TablesOk (setSectionArray (fillLens (sectionArray s) s.seq.x v n) s).lzx := by
  obtain ⟨hmain, hlen, hlast, hrest⟩ := hs
  unfold setSectionArray sectionArray
  cases hsect : s.seq.sect with
  | mainA => exact ⟨fillLens_inRange _ n hmain hv, hlen, hlast, hrest⟩
  | mainB => exact ⟨fillLens_inRange _ n hmain hv, hlen, hlast, hrest⟩
  | length =>
    rw [hsect] at hn
    have hend : s.seq.x + n ≤ 249 := hn
    refine ⟨hmain, fillLens_inRange _ n hlen hv, ?_, hrest⟩
    change (fillLens s.lzx.lenLen s.seq.x v n).getD 249 0 = 0
    rw [getD_fillLens _ _ _ _ _ (by omega), if_neg (by omega)]
    exact hlast

theorem continueFrame_lengthsOk {s t : State} (h : continueFrame s = .ok t) (hs : TablesOk s.lzx) : LengthsOk t := by
  obtain ⟨_, _, _, _, _, rfl⟩ | ⟨_, he, rfl⟩ | ⟨_, _, _, _, he, _, _, rfl⟩ := continueFrame_ok_cases h
  · exact lengthsOk_of_expect hs nofun
  · exact lengthsOk_of_expect hs (by obtain rfl | rfl := he <;> nofun)
  · exact lengthsOk_of_expect hs (by obtain rfl | rfl := he <;> nofun)

/-- The end of an element of a run; a run that goes on still expects what it did. -/
theorem continueRun_lengthsOk {s t : State} (h : continueRun s = .ok t) (hs : LengthsOk s) : LengthsOk t := by
  obtain ⟨_, h⟩ | ⟨_, rfl⟩ := continueRun_cases h
  · exact continueFrame_lengthsOk h hs.1
  · exact hs

theorem advanceTo_lengthsOk {x : Nat} {s t : State} (h : advanceTo x s = .ok t) (hs : TablesOk s.lzx) :
    LengthsOk t := by
  obtain ⟨hx, rfl⟩ | ⟨_, _, rfl⟩ | h := advanceTo_ok_cases h
  · exact ⟨hs, fun _ => hx⟩
  · exact lengthsOk_of_expect hs nofun
  · exact continueFrame_lengthsOk h hs

/-- The lengths a header field can hold. -/
theorem map_toNat_le {w size : Nat} {ls : List (BitVec w)} (hls : ls.length = size) :
    (ls.map BitVec.toNat).length = size ∧ ∀ x ∈ ls.map BitVec.toNat, x ≤ 2 ^ w - 1 := by
  refine ⟨(List.length_map _).trans hls, fun x hx => ?_⟩
  obtain ⟨l, _, rfl⟩ := List.mem_map.mp hx
  exact Nat.le_sub_one_of_lt l.isLt

theorem ElementStep.lengthsOk {s t : State} {e : Expect} (he : s.seq.expect = some e) (hs : LengthsOk s)
    (h : ElementStep s e t) : LengthsOk t := by
  obtain ⟨htab, hsect⟩ := hs
  cases h with
  | fault err => exact lengthsOk_of_expect htab nofun
  | reserved ty blen => exact lengthsOk_of_expect htab nofun
  | streamHdr fs h => exact continueFrame_lengthsOk h htab
  | verbatim blen => exact lengthsOk_of_expect htab nofun
  | aligned blen => exact lengthsOk_of_expect htab nofun
  | uncompressed blen => exact lengthsOk_of_expect htab nofun
  | uncOffsets r0 r1 r2 h => exact continueFrame_lengthsOk h htab
  | uncClose => exact lengthsOk_of_expect htab nofun
  | alignLens ls hls =>
    obtain ⟨hmain, hlen, hlast, _, hpre⟩ := htab
    exact lengthsOk_of_expect ⟨hmain, hlen, hlast, map_toNat_le hls, hpre⟩ nofun
  | preLens ls hls =>
    obtain ⟨hmain, hlen, hlast, halign, _⟩ := htab
    exact ⟨⟨hmain, hlen, hlast, halign, map_toNat_le hls⟩, fun _ => sectionFirst_lt_sectionLast _⟩
  | preSym n v hn hv h =>
    have hx : s.seq.x < sectionLast s.seq.sect := hsect he
    have hend : s.seq.x + n ≤ sectionLast s.seq.sect := by
      obtain rfl | hn := hn
      · exact hx
      · exact hn
    exact advanceTo_lengthsOk h (tablesOk_setSectionArray htab hend hv)
  | byte b hplace h => exact continueRun_lengthsOk h ⟨htab, hsect⟩
  | copy off mlen mext r0 r1 r2 hlen h => exact continueRun_lengthsOk h ⟨htab, hsect⟩
  | latch mlen mext hplace => exact ⟨htab, hsect⟩
  | adpcm o hplace hu =>
    obtain ⟨next, _, hnext, hb⟩ := continueBlock_eq o _
    rw [hb, hu.frame.2]
    exact lengthsOk_of_expect htab (by obtain rfl | rfl := hnext <;> nofun)
  | nibble hu =>
    rw [hu.frame.2]
    exact ⟨htab, hsect⟩

theorem startLzx_lengthsOk {s t : State} (h : startLzx s = .ok t) (hs : TablesOk s.lzx) : LengthsOk t := by
  obtain ⟨_, ⟨_, h⟩ | ⟨_, rfl⟩⟩ := startLzx_cases h
  · exact continueFrame_lengthsOk h hs
  · exact lengthsOk_of_expect hs nofun

theorem replicate_zero_inRange (n bound : Nat) :
    (List.replicate n 0).length = n ∧ ∀ x ∈ List.replicate n 0, x ≤ bound :=
  ⟨List.length_replicate, fun _ hx => List.eq_of_mem_replicate hx ▸ Nat.zero_le bound⟩

/-- RESET leaves arrays of zeros of the declared sizes (70_reset_and_hazards R310). -/
theorem tablesOk_lzxReset : TablesOk Lzx.reset :=
  ⟨replicate_zero_inRange 512 16, replicate_zero_inRange 250 16, rfl, replicate_zero_inRange 8 7,
    replicate_zero_inRange 20 15⟩

theorem lengthsOk_keptByStep : KeptByStep LengthsOk where
  bus _ _ _ _ _ hs := hs
  inWrite _ _ _ _ hs := hs
  outWrite _ _ _ hs := hs
  fault _ _ hs := lengthsOk_of_expect hs.1 nofun
  reset _ hs := ⟨tablesOk_lzxReset, hs.2⟩
  clear _ hs := hs
  startLzx _ _ _ hs h := startLzx_lengthsOk h hs.1
  startAdpcm s t _ hs h := by
    obtain ⟨_, rfl⟩ := startAdpcm_cases h
    exact lengthsOk_of_expect hs.1 nofun
  element _ _ _ he hs h := h.lengthsOk he hs

/-! ## The obligations -/

/-- Settles O56: canonical memories survive everything a step is made of. -/
theorem everyStepKeepsTheMemoriesCanonical : Obligations.EveryStepKeepsTheMemoriesCanonical :=
  fun _ _ hs h => memoryOk_keptByStep.step_kept hs h

/-- Settles O57: the arrays and the section survive together, the section's bound being what keeps LENLEN[249] at 0. -/
theorem everyStepKeepsTheLengthArraysInRange : Obligations.EveryStepKeepsTheLengthArraysInRange :=
  fun _ _ htab hsect h => lengthsOk_keptByStep.step_kept ⟨htab, hsect⟩ h

/-- Settles O58: the cursors survive, a run in progress being what bounds WPOS inside a run. -/
theorem everyStepKeepsTheCursorsInRange : Obligations.EveryStepKeepsTheCursorsInRange :=
  fun _ _ hs h => cursorsOk_keptByStep.step_kept hs h

/-- Settles O59: an element is due only while READY, and only a fault or RESET writes LIFE and ERRCODE. -/
theorem everyStepKeepsTheLifecycleConsistent : Obligations.EveryStepKeepsTheLifecycleConsistent :=
  fun _ _ hs h => lifeOk_keptByStep.step_kept hs h

end Sys2Proof.Machine
end

section
/-! SUPPORT. Host accesses to the two buffers, byte by byte (20_memory R66): where an access lands, the bytes a write
leaves and the bytes a read joins. -/

namespace Sys2Proof.Machine

theorem AccessSize.bytes_pos (n : AccessSize) : 1 ≤ n.bytes := by
  cases n <;> decide

theorem AccessSize.bytes_le (n : AccessSize) : n.bytes ≤ 4 := by
  cases n <;> decide

/-! ## Where an access lands -/

theorem target_of_inBuf {o : Nat} {n : AccessSize} (h : o + n.bytes ≤ 131072) : target (0x10000 + o) n = .inBuf o := by
  have hcap : Config.inCapacity = 131072 := rfl
  unfold target
  rw [if_neg (by omega), if_pos (by omega), Nat.add_sub_cancel_left]

/-- An access inside OUT starts past the last one that fits IN. -/
theorem target_of_outBuf {o : Nat} {n : AccessSize} (h : o + n.bytes ≤ 131072) :
    target (0x30000 + o) n = .outBuf o := by
  have hin : Config.inCapacity = 131072 := rfl
  have hout : Config.outCapacity = 131072 := rfl
  have hpos := n.bytes_pos
  unfold target
  rw [if_neg (by omega), if_neg (by omega), if_pos (by omega), Nat.add_sub_cancel_left]

theorem memWrite_inBuf (s : State) {o : Nat} {n : AccessSize} (v : Word) (h : o + n.bytes ≤ 131072) :
    memWrite (0x10000 + o) n v s = { s with inBuf := Memory.putList s.inBuf o (splitBytes v n.bytes) } := by
  rw [memWrite, target_of_inBuf h]

theorem memWrite_outBuf (s : State) {o : Nat} {n : AccessSize} (v : Word) (h : o + n.bytes ≤ 131072) :
    memWrite (0x30000 + o) n v s = { s with outBuf := Memory.putList s.outBuf o (splitBytes v n.bytes) } := by
  rw [memWrite, target_of_outBuf h]

theorem memRead_inBuf (s : State) {o : Nat} {n : AccessSize} (h : o + n.bytes ≤ 131072) :
    memRead (0x10000 + o) n s =
      { s with port.rdata := BitVec.ofNat 32 (joinBytes (inByte s) o n.bytes) } := by
  rw [memRead, target_of_inBuf h]

theorem memRead_outBuf (s : State) {o : Nat} {n : AccessSize} (h : o + n.bytes ≤ 131072) :
    memRead (0x30000 + o) n s =
      { s with port.rdata := BitVec.ofNat 32 (joinBytes (outByte s) o n.bytes) } := by
  rw [memRead, target_of_outBuf h]

/-! ## The bytes of a written value -/

theorem getElem?_splitBytes (v : Word) {n k : Nat} (hk : k < n) :
    (splitBytes v n)[k]? = some (v.extractLsb' (8 * k) 8) := by
  simp [splitBytes, hk]

/-- A write of `n` bytes lists byte `k` of the value at offset `o + k` and leaves every other offset as it was. -/
theorem Memory.getD_putList_splitBytes (m : Memory) (o p : Nat) (v : Word) (n : Nat) (d : Byte) :
    (Memory.get (Memory.putList m o (splitBytes v n)) p).getD d =
      if o ≤ p ∧ p < o + n then v.extractLsb' (8 * (p - o)) 8 else (Memory.get m p).getD d := by
  rw [Memory.get_putList, splitBytes_length]
  split
  · rw [getElem?_splitBytes v (by omega), Option.getD_some]
  · rfl

/-! ## The bytes of a value read -/

theorem joinBytes_lt (f : Nat → Byte) (o n : Nat) : joinBytes f o n < 256 ^ n := by
  induction n generalizing o with
  | zero => exact Nat.one_pos
  | succ n ih =>
    have hbyte : (f o).toNat < 256 := (f o).isLt
    have hrest := ih (o + 1)
    rw [joinBytes, Nat.pow_succ]
    omega

/-- Digit `k` of the joined bytes to the base 256 is byte `k`, and 0 above the last one. -/
theorem joinBytes_digit (f : Nat → Byte) (o n k : Nat) :
    joinBytes f o n / 256 ^ k % 256 = if k < n then (f (o + k)).toNat else 0 := by
  induction n generalizing o k with
  | zero => simp [joinBytes]
  | succ n ih =>
    have hbyte : (f o).toNat < 256 := (f o).isLt
    rw [joinBytes]
    cases k with
    | zero =>
      rw [if_pos n.succ_pos, Nat.pow_zero, Nat.div_one, Nat.add_mul_mod_self_left, Nat.mod_eq_of_lt hbyte,
        Nat.add_zero]
    | succ k =>
      have hdrop : ((f o).toNat + 256 * joinBytes f (o + 1) n) / 256 = joinBytes f (o + 1) n := by omega
      rw [Nat.pow_succ', ← Nat.div_div_eq_div_mul, hdrop, ih, Nat.add_right_comm o 1 k, Nat.add_assoc o k 1]
      simp only [Nat.add_lt_add_iff_right]

theorem extractLsb'_byte_toNat (w : Word) (k : Nat) : (w.extractLsb' (8 * k) 8).toNat = w.toNat / 256 ^ k % 256 := by
  rw [BitVec.extractLsb'_toNat, Nat.shiftRight_eq_div_pow, Nat.pow_mul]

/-- The word a read of `n` bytes returns holds byte `k` of the buffer at bits 8k+7:8k, and zeros above. -/
theorem extractLsb'_joinBytes (f : Nat → Byte) (o : Nat) (n : AccessSize) (k : Nat) :
    (BitVec.ofNat 32 (joinBytes f o n.bytes)).extractLsb' (8 * k) 8 = if k < n.bytes then f (o + k) else 0 := by
  have hlt : joinBytes f o n.bytes < 2 ^ 32 :=
    Nat.lt_of_lt_of_le (joinBytes_lt f o n.bytes) (Nat.pow_le_pow_right (n := 256) (by decide) n.bytes_le)
  apply BitVec.eq_of_toNat_eq
  rw [extractLsb'_byte_toNat, BitVec.toNat_ofNat, Nat.mod_eq_of_lt hlt, joinBytes_digit]
  split <;> rfl

/-- Settles O11: each of the four accesses lands in its buffer, and the bytes are those of the split or joined value. -/
theorem bufferAccessesAreLittleEndianAtAnyAlignment : Obligations.BufferAccessesAreLittleEndianAtAnyAlignment := by
  intro s o n v h
  refine ⟨⟨_, memWrite_inBuf s v h, fun p => ?_⟩, ⟨_, memWrite_outBuf s v h, fun p => ?_⟩,
    ⟨_, memRead_inBuf s h, fun k _ => ?_⟩, ⟨_, memRead_outBuf s h, fun k _ => ?_⟩⟩
  · exact Memory.getD_putList_splitBytes ..
  · exact Memory.getD_putList_splitBytes ..
  · exact extractLsb'_joinBytes ..
  · exact extractLsb'_joinBytes ..

end Sys2Proof.Machine
end

section
/-! SUPPORT. The two engines and what each leaves alone (20_memory R61, R75, 40_host_commands R119): an element keeps the
host's side of the block and the other engine's state, and the element due after it is its own engine's; so does a command
from its start to its end. -/

namespace Sys2Proof.Machine

/-- What no instruction writes: IN, the argument registers, E8_POLICY, the host port and the count of free reads. -/
def SameHostSide (s t : State) : Prop :=
  t.inBuf = s.inBuf ∧ t.args = s.args ∧ t.e8Policy = s.e8Policy ∧ t.port = s.port ∧ t.viewReads = s.viewReads

theorem SameHostSide.refl (s : State) : SameHostSide s s := ⟨rfl, rfl, rfl, rfl, rfl⟩

theorem SameHostSide.trans {s t u : State} (h : SameHostSide s t) (h' : SameHostSide t u) : SameHostSide s u := by
  obtain ⟨hin, hargs, hpolicy, hport, hviews⟩ := h
  obtain ⟨hin', hargs', hpolicy', hport', hviews'⟩ := h'
  exact ⟨hin'.trans hin, hargs'.trans hargs, hpolicy'.trans hpolicy, hport'.trans hport, hviews'.trans hviews⟩

/-- The state of the other engine is the same: the ADPCM engine (`adpcm`) leaves the LZX state and the reader's cursors,
the LZX engine the ADPCM channels. -/
def SameOtherEngine : (adpcm : Bool) → State → State → Prop
  | true, s, t => t.lzx = s.lzx ∧ t.rdr = s.rdr
  | false, s, t => t.adpcm = s.adpcm

theorem SameOtherEngine.of_eq (adpcm : Bool) {s t : State} (hlzx : t.lzx = s.lzx) (hrdr : t.rdr = s.rdr)
    (hadpcm : t.adpcm = s.adpcm) : SameOtherEngine adpcm s t := by
  cases adpcm with
  | true => exact ⟨hlzx, hrdr⟩
  | false => exact hadpcm

theorem SameOtherEngine.trans {adpcm : Bool} {s t u : State} (h : SameOtherEngine adpcm s t)
    (h' : SameOtherEngine adpcm t u) : SameOtherEngine adpcm s u := by
  cases adpcm with
  | true =>
    obtain ⟨hlzx, hrdr⟩ := h
    obtain ⟨hlzx', hrdr'⟩ := h'
    exact ⟨hlzx'.trans hlzx, hrdr'.trans hrdr⟩
  | false => exact Eq.trans h' h

/-- The element due next, if any, is one of this engine's. -/
def DueIn (adpcm : Bool) (due : Option Expect) : Prop := ∀ e, due = some e → isAdpcm e = adpcm

theorem dueIn_none (adpcm : Bool) : DueIn adpcm none := nofun

theorem dueIn_some {adpcm : Bool} {e : Expect} (h : isAdpcm e = adpcm) : DueIn adpcm (some e) := by
  intro e' he
  cases he
  exact h

/-- What an engine's work leaves: the host's side and the other engine are the same, and what is due next stays this
engine's. -/
def EngineFrame (adpcm : Bool) (s t : State) : Prop :=
  SameHostSide s t ∧ SameOtherEngine adpcm s t ∧ (DueIn adpcm s.seq.expect → DueIn adpcm t.seq.expect)

theorem EngineFrame.refl (adpcm : Bool) (s : State) : EngineFrame adpcm s s :=
  ⟨.refl s, .of_eq adpcm rfl rfl rfl, id⟩

theorem EngineFrame.sameHostSide {adpcm : Bool} {s t : State} (h : EngineFrame adpcm s t) : SameHostSide s t := h.1

theorem EngineFrame.sameOtherEngine {adpcm : Bool} {s t : State} (h : EngineFrame adpcm s t) :
    SameOtherEngine adpcm s t := h.2.1

theorem EngineFrame.dueIn {adpcm : Bool} {s t : State} (h : EngineFrame adpcm s t)
    (hs : DueIn adpcm s.seq.expect) : DueIn adpcm t.seq.expect := h.2.2 hs

theorem EngineFrame.trans {adpcm : Bool} {s t u : State} (h : EngineFrame adpcm s t) (h' : EngineFrame adpcm t u) :
    EngineFrame adpcm s u := by
  obtain ⟨hhost, hother, hdue⟩ := h
  obtain ⟨hhost', hother', hdue'⟩ := h'
  exact ⟨hhost.trans hhost', hother.trans hother', hdue' ∘ hdue⟩

/-- A fault writes neither engine's state (log 10), and ends the command. -/
theorem takeFault_engineFrame (adpcm : Bool) (err : ErrCode) (s : State) : EngineFrame adpcm s (takeFault err s) :=
  ⟨.refl s, .of_eq adpcm rfl rfl rfl, fun _ => dueIn_none adpcm⟩

/-! ## Turns of the frame loop and of a length section -/

theorem continueFrame_dueIn {s t : State} (h : continueFrame s = .ok t) : DueIn false t.seq.expect := by
  obtain ⟨_, _, _, _, _, rfl⟩ | ⟨_, he, rfl⟩ | ⟨_, _, _, _, he, _, _, rfl⟩ := continueFrame_ok_cases h
  · exact dueIn_none false
  · obtain rfl | rfl := he <;> exact dueIn_some rfl
  · obtain rfl | rfl := he <;> exact dueIn_some rfl

theorem continueFrame_engineFrame {s t : State} (h : continueFrame s = .ok t) : EngineFrame false s t := by
  have hdue := continueFrame_dueIn h
  obtain ⟨_, _, _, _, _, rfl⟩ | ⟨_, _, rfl⟩ | ⟨_, _, _, _, _, _, _, rfl⟩ := continueFrame_ok_cases h <;>
    exact ⟨.refl s, rfl, fun _ => hdue⟩

theorem continueRun_engineFrame {s t : State} (h : continueRun s = .ok t) : EngineFrame false s t := by
  obtain ⟨_, h⟩ | ⟨_, rfl⟩ := continueRun_cases h
  · exact continueFrame_engineFrame h
  · exact .refl false t

theorem advanceTo_engineFrame {x : Nat} {s t : State} (h : advanceTo x s = .ok t) : EngineFrame false s t := by
  obtain ⟨_, rfl⟩ | ⟨_, _, rfl⟩ | h := advanceTo_ok_cases h
  · exact ⟨.refl s, rfl, fun _ => dueIn_some rfl⟩
  · exact ⟨.refl s, rfl, fun _ => dueIn_some rfl⟩
  · exact (continueFrame_engineFrame h :)

/-! ## Elements -/

theorem AdpcmWork.engineFrame {s u : State} (h : AdpcmWork s u) : EngineFrame true s u := by
  rw [h.frame.2]
  exact ⟨.refl s, ⟨rfl, rfl⟩, id⟩

theorem continueBlock_engineFrame (o : Nat) (s : State) : EngineFrame true s (continueBlock o s) := by
  obtain ⟨_, _, he, hb⟩ := continueBlock_eq o s
  rw [hb]
  refine ⟨.refl s, ⟨rfl, rfl⟩, fun _ => ?_⟩
  obtain rfl | rfl := he
  · exact dueIn_some rfl
  · exact dueIn_none true

/-- An element keeps the frame of the engine that its place in the stream grammar belongs to. -/
theorem ElementStep.engineFrame {s t : State} {e : Expect} (h : ElementStep s e t) :
    EngineFrame (isAdpcm e) s t := by
  cases h with
  | fault err => exact takeFault_engineFrame _ err s
  | reserved ty blen => exact (takeFault_engineFrame false .badBlockType (loadBlock ty blen s) :)
  | streamHdr fs h => exact (continueFrame_engineFrame h :)
  | verbatim blen => exact ⟨.refl s, rfl, fun _ => dueIn_some rfl⟩
  | aligned blen => exact ⟨.refl s, rfl, fun _ => dueIn_some rfl⟩
  | uncompressed blen => exact ⟨.refl s, rfl, fun _ => dueIn_some rfl⟩
  | uncOffsets r0 r1 r2 h => exact (continueFrame_engineFrame h :)
  | uncClose => exact ⟨.refl s, rfl, fun _ => dueIn_some rfl⟩
  | alignLens ls hls => exact ⟨.refl s, rfl, fun _ => dueIn_some rfl⟩
  | preLens ls hls => exact ⟨.refl s, rfl, fun _ => dueIn_some rfl⟩
  | preSym n v hn hv h =>
    obtain ⟨m, l, hset⟩ := setSectionArray_eq (fillLens (sectionArray s) s.seq.x v n) s
    rw [hset] at h
    exact (advanceTo_engineFrame h :)
  | byte b hplace h => obtain rfl | rfl := hplace <;> exact (continueRun_engineFrame h :)
  | copy off mlen mext r0 r1 r2 hlen h => exact (continueRun_engineFrame h :)
  | latch mlen mext hplace => obtain rfl | rfl := hplace <;> exact ⟨.refl s, rfl, id⟩
  | adpcm o hplace hu =>
    obtain rfl | rfl := hplace <;> exact hu.engineFrame.trans (continueBlock_engineFrame o _)
  | nibble hu => exact hu.engineFrame

/-! ## Commands -/

/-- The ADPCM engine reads no bits. -/
theorem isAdpcm_eq_false_of_isBits {e : Expect} (h : e.isBits = true) : isAdpcm e = false := by
  cases e with
  | adpcmPreamble => cases h
  | adpcmByte => cases h
  | adpcmNibble => cases h
  | _ => rfl

/-- Fetching moves the reader's cursors only, and not at all where the ADPCM engine reads. -/
theorem fetchElement_engineFrame {e : Expect} {s t : State} {i : Instr} (h : fetchElement e s = .ok (i, t)) :
    EngineFrame (isAdpcm e) s t := by
  obtain ⟨hb, k, _, rfl⟩ | ⟨_, _, _, _, rfl⟩ | ⟨_, ha, k, _, rfl⟩ := fetchElement_cases h
  · rw [isAdpcm_eq_false_of_isBits hb]
    exact ⟨.refl s, rfl, id⟩
  · exact .refl _ t
  · rw [ha]
    exact ⟨.refl s, rfl, id⟩

theorem engineStep_engineFrame {e : Expect} {s t : State} (h : engineStep e s = .next t) :
    EngineFrame (isAdpcm e) s t := by
  obtain ⟨err, _, hs⟩ | ⟨i, u, hf, hs⟩ := engineStep_cases e s
  · rw [hs] at h
    cases h
    exact takeFault_engineFrame _ err s
  · rw [hs] at h
    obtain ⟨hd, _⟩ := fetchElement_dueAt hf
    exact (fetchElement_engineFrame hf).trans (runElement_elementStep hd h).engineFrame

/-- A command whose start makes an element of one engine due stays inside that engine to its end. -/
theorem runCommand_engineFrame {adpcm : Bool} {start : State → Except ErrCode State}
    (hstart : ∀ s u, start s = .ok u → EngineFrame adpcm s u ∧ DueIn adpcm u.seq.expect) {s t : State}
    (h : runCommand start s = .next t) : EngineFrame adpcm s t := by
  have hclear : EngineFrame adpcm s { s with outCount := 0 } := ⟨.refl s, .of_eq adpcm rfl rfl rfl, id⟩
  obtain ⟨err, _, hr⟩ | ⟨u, hu, hr⟩ := runCommand_cases start s
  · rw [hr] at h
    cases h
    exact hclear.trans (takeFault_engineFrame adpcm err _)
  · obtain ⟨hframe, hdue⟩ := hstart _ u hu
    have hkeeps : ∀ e v w, v.seq.expect = some e → EngineFrame adpcm u v → engineStep e v = .next w →
        EngineFrame adpcm u w := by
      intro e v w he hv hstep
      obtain rfl : isAdpcm e = adpcm := hv.dueIn hdue e he
      exact hv.trans (engineStep_engineFrame hstep)
    obtain ⟨t', ht', hrun⟩ := runEngine_keeps (EngineFrame adpcm u) hkeeps (workBound s) u (.refl adpcm u)
    rw [hr, ht'] at h
    cases h
    exact (hclear.trans hframe).trans hrun

theorem startLzx_engineFrame {s t : State} (h : startLzx s = .ok t) :
    EngineFrame false s t ∧ DueIn false t.seq.expect := by
  obtain ⟨_, ⟨_, h⟩ | ⟨_, rfl⟩⟩ := startLzx_cases h
  · exact ⟨(continueFrame_engineFrame h :), continueFrame_dueIn h⟩
  · exact ⟨⟨.refl s, rfl, fun _ => dueIn_some rfl⟩, dueIn_some rfl⟩

theorem startAdpcm_engineFrame {s t : State} (h : startAdpcm s = .ok t) :
    EngineFrame true s t ∧ DueIn true t.seq.expect := by
  obtain ⟨_, rfl⟩ := startAdpcm_cases h
  exact ⟨⟨.refl s, ⟨rfl, rfl⟩, fun _ => dueIn_some rfl⟩, dueIn_some rfl⟩

theorem execLzxFrame_engineFrame {s t : State} (h : execLzxFrame s = .next t) : EngineFrame false s t := by
  unfold execLzxFrame at h
  split at h
  · cases h
    exact .refl false s
  · exact runCommand_engineFrame (fun _ _ => startLzx_engineFrame) h

theorem execAdpcmBlock_engineFrame {s t : State} (h : execAdpcmBlock s = .next t) : EngineFrame true s t := by
  unfold execAdpcmBlock at h
  split at h
  · cases h
    exact .refl true s
  · exact runCommand_engineFrame (fun _ _ => startAdpcm_engineFrame) h

/-! ## Every instruction -/

theorem execCmdReserved_sameHostSide (v : Word) {s t : State} (h : execCmdReserved v s = .next t) :
    SameHostSide s t := by
  unfold execCmdReserved at h
  split at h
  · cases h
    exact .refl s
  · cases h
    exact (takeFault_engineFrame true .badCommand s).sameHostSide

/-- An array row keeps the host's side whatever the number of its lengths. -/
theorem element_sameHostSide {s t : State} {r : Except ErrCode State} (hr : ∀ u, r = .ok u → SameHostSide s u)
    (h : element s r = .next t) : SameHostSide s t := by
  rw [element_next] at h
  cases h
  obtain hok | ⟨err, _, ht⟩ := settle_cases s r
  · exact hr _ hok
  · rw [ht]
    exact (takeFault_engineFrame true err s).sameHostSide

theorem loadAlignLens_sameHostSide {ls : List (BitVec 3)} {s t : State} (h : loadAlignLens ls s = .ok t) :
    SameHostSide s t := by
  obtain ⟨_, rfl⟩ := loadAlignLens_cases h
  exact .refl s

theorem loadPreLens_sameHostSide {ls : List (BitVec 4)} {s t : State} (h : loadPreLens ls s = .ok t) :
    SameHostSide s t := by
  obtain ⟨_, rfl⟩ := loadPreLens_cases h
  exact .refl s

theorem exec_sameHostSide_of_dueAt {i : Instr} {s t : State} (h : exec i s = .next t)
    (hdue : ∃ e, i.dueAt e) : SameHostSide s t := by
  obtain ⟨e, hd⟩ := hdue
  rw [exec_eq_runElement s hd] at h
  exact (runElement_elementStep hd h).engineFrame.sameHostSide

/-- Every instruction is a host command, an array of lengths, or due at a place of the stream grammar. -/
theorem exec_sameHostSide {i : Instr} {s t : State} (h : exec i s = .next t) : SameHostSide s t := by
  cases i with
  | reset =>
    cases h
    exact .refl s
  | lzxFrame => exact (execLzxFrame_engineFrame h).sameHostSide
  | adpcmBlock => exact (execAdpcmBlock_engineFrame h).sameHostSide
  | cmdReserved v => exact execCmdReserved_sameHostSide v h
  | alignLengths ls => exact element_sameHostSide (fun _ => loadAlignLens_sameHostSide) h
  | pretreeLengths ls => exact element_sameHostSide (fun _ => loadPreLens_sameHostSide) h
  | uncBody part => cases part <;> exact exec_sameHostSide_of_dueAt h ⟨_, rfl⟩
  | _ => exact exec_sameHostSide_of_dueAt h ⟨_, rfl⟩

/-! ## The obligations -/

/-- Settles O12: commands and elements alike stay inside an engine's frame, and RESET and a reserved command write
neither IN nor the host's side. -/
theorem everyInstructionLeavesTheHostSideAlone : Obligations.EveryInstructionLeavesTheHostSideAlone :=
  fun _ _ _ h => exec_sameHostSide h

/-- Settles O44: each command stays inside its own engine's frame from its start to its end. -/
theorem enginesDoNotTouchEachOther : Obligations.EnginesDoNotTouchEachOther :=
  fun _ _ => ⟨fun h => (execLzxFrame_engineFrame h).sameOtherEngine,
    fun h => (execAdpcmBlock_engineFrame h).sameOtherEngine⟩

end Sys2Proof.Machine
end

section
/-! SUPPORT. Canonical Huffman tables (42_huffman): what a length array uses, its Kraft sum and class, how the codes lie
one after another, and that the decode loop stops at the one code its bits begin with. -/

namespace Sys2Proof.Machine

/-! ## The symbols with a code -/

theorem mem_usedSyms {ls : List Nat} {s n : Nat} : (s, n) ∈ usedSyms ls ↔ ls[s]? = some n ∧ n ≠ 0 := by
  simp only [usedSyms, List.mem_filterMap, Prod.exists, List.mk_mem_zipIdx_iff_getElem?]
  constructor
  · rintro ⟨n', s', hs, h⟩
    split_ifs at h with hn
    cases h
    exact ⟨hs, hn⟩
  · rintro ⟨hs, hn⟩
    exact ⟨n, s, hs, by simp [hn]⟩

/-- The symbols stand in rising order. -/
theorem usedSyms_pairwise (ls : List Nat) : (usedSyms ls).Pairwise fun p q => p.1 < q.1 := by
  have hidx : ls.zipIdx.Pairwise fun p q => p.2 < q.2 := by
    rw [← List.pairwise_map (f := Prod.snd) (R := (· < ·)), List.zipIdx_map_snd]
    exact List.pairwise_lt_range'
  refine hidx.filterMap _ fun p q hpq p' hp q' hq => ?_
  split_ifs at hp hq
  cases hp
  cases hq
  exact hpq

theorem mem_canonOrder {ls : List Nat} {p : Nat × Nat} :
    p ∈ canonOrder ls ↔ p ∈ usedSyms ls ∧ 1 ≤ p.2 ∧ p.2 ≤ 16 := by
  simp only [canonOrder, List.mem_flatMap, List.mem_range, List.mem_filter, beq_iff_eq]
  constructor
  · rintro ⟨k, hk, hp, hl⟩
    exact ⟨hp, by omega, by omega⟩
  · rintro ⟨hp, h1, h16⟩
    exact ⟨p.2 - 1, by omega, hp, by omega⟩

/-- `order` of 42_huffman R150: by length, then by symbol. -/
theorem canonOrder_pairwise (ls : List Nat) :
    (canonOrder ls).Pairwise fun p q => p.2 < q.2 ∨ p.2 = q.2 ∧ p.1 < q.1 := by
  refine List.pairwise_flatMap.mpr ⟨fun k _ => ?_, ?_⟩
  · refine List.Pairwise.imp_of_mem (fun {p q} hp hq hpq => ?_) ((usedSyms_pairwise ls).filter _)
    simp only [List.mem_filter, beq_iff_eq] at hp hq
    exact .inr ⟨hp.2.trans hq.2.symm, hpq⟩
  · refine List.pairwise_lt_range.imp fun {k m} hkm p hp q hq => .inl ?_
    simp only [List.mem_filter, beq_iff_eq] at hp hq
    omega

theorem canonOrder_perm_usedSyms {ls : List Nat} (h : ∀ x ∈ ls, x ≤ 16) : (canonOrder ls).Perm (usedSyms ls) := by
  refine (List.perm_ext_iff_of_nodup ?_ ?_).mpr fun p => ?_
  · exact (canonOrder_pairwise ls).imp fun {p q} hpq heq => by subst heq; omega
  · exact (usedSyms_pairwise ls).imp fun {p q} hpq heq => by subst heq; omega
  · refine mem_canonOrder.trans (and_iff_left_of_imp fun hp => ?_)
    obtain ⟨hs, hn⟩ := mem_usedSyms.mp hp
    exact ⟨by omega, h _ (List.mem_of_getElem? hs)⟩

/-! ## The Kraft sum and the class -/

theorem kraft_eq_kraftSum (ls : List Nat) : kraft ls = kraftSum ls := by
  have hused : ∀ ps : List (Nat × Nat),
      ((ps.filterMap fun p => if p.1 = 0 then none else some (p.2, p.1)).map fun p => 2 ^ (16 - p.2)).sum =
        (ps.map ((fun l => if l = 0 then 0 else 2 ^ (16 - l)) ∘ Prod.fst)).sum := by
    intro ps
    induction ps with
    | nil => rfl
    | cons p ps ih =>
      rw [List.filterMap_cons]
      by_cases hp : p.1 = 0 <;> simp [hp, ih]
  rw [kraft, usedSyms, hused, ← List.map_map, List.zipIdx_map_fst, kraftSum]

/-- 42_huffman R151: the class is OVERSUBSCRIBED exactly when the Kraft sum passes 2^16. -/
theorem classify_oversubscribed_iff (ls : List Nat) : classify ls = .oversubscribed ↔ 65536 < kraftSum ls := by
  rw [← kraft_eq_kraftSum]
  unfold classify
  cases hu : usedSyms ls with
  | nil => simp [kraft, hu]
  | cons p ps =>
    dsimp only
    split_ifs with hk
    · simpa using hk
    all_goals
      refine iff_of_false (fun h => ?_) hk
      split at h <;> cases h

theorem classify_empty {ls : List Nat} (h : classify ls = .empty) : usedSyms ls = [] := by
  unfold classify at h
  split at h
  · assumption
  · split_ifs at h
    all_goals split at h <;> cases h

theorem classify_single {ls : List Nat} {s n : Nat} (h : classify ls = .single s n) : usedSyms ls = [(s, n)] := by
  unfold classify at h
  split at h
  · cases h
  · split_ifs at h
    all_goals
      split at h
      · cases h
        assumption
      · cases h

/-- 42_huffman R152. -/
theorem buildTable_of_kraftSum_le {ls : List Nat} (h : kraftSum ls ≤ 65536) : buildTable ls = .ok () :=
  (buildTable_ok ls ()).mpr fun ho => absurd ((classify_oversubscribed_iff ls).mp ho) (by omega)

/-- 42_huffman R152. -/
theorem buildTable_of_lt_kraftSum {ls : List Nat} (h : 65536 < kraftSum ls) :
    buildTable ls = .error .huffmanOversubscribed :=
  (buildTable_error ls _).mpr ⟨(classify_oversubscribed_iff ls).mpr h, rfl⟩

/-! ## How the codes lie -/

/-- `d` lies behind every code that `c` is the start of, and is no shorter than `c`. -/
def CodeBefore (c d : HuffCode) : Prop := c.len ≤ d.len ∧ (c.code + 1) * 2 ^ (d.len - c.len) ≤ d.code

theorem assignCodes_map (code prev : Nat) (l : List (Nat × Nat)) :
    (assignCodes code prev l).map (fun c => (c.sym, c.len)) = l := by
  induction l generalizing code prev with
  | nil => rfl
  | cons p l ih => simp [assignCodes, ih]

theorem mem_assignCodes {code prev : Nat} {l : List (Nat × Nat)} {c : HuffCode} (h : c ∈ assignCodes code prev l) :
    (c.sym, c.len) ∈ l := by
  rw [← assignCodes_map code prev l]
  exact List.mem_map_of_mem h

/-- Widening a code by `b - a` bits and then by `c - b` is widening it by `c - a`. -/
theorem mul_two_pow_sub {a b c : Nat} (n : Nat) (hab : a ≤ b) (hbc : b ≤ c) :
    n * 2 ^ (b - a) * 2 ^ (c - b) = n * 2 ^ (c - a) := by
  rw [mul_assoc, ← pow_add]
  congr 2
  omega

/-- Every code given out lies at or behind the assignment loop's current one. -/
theorem le_code_of_mem_assignCodes {code prev : Nat} {l : List (Nat × Nat)} (hs : (l.map Prod.snd).Pairwise (· ≤ ·))
    (hprev : ∀ p ∈ l, prev ≤ p.2) {c : HuffCode} (hc : c ∈ assignCodes code prev l) :
    code * 2 ^ (c.len - prev) ≤ c.code := by
  induction l generalizing code prev with
  | nil => cases hc
  | cons p l ih =>
    rw [List.map_cons, List.pairwise_cons] at hs
    obtain rfl | hc := List.mem_cons.mp hc
    · exact le_rfl
    · have hp : p.2 ≤ c.len := hs.1 _ (List.mem_map_of_mem (mem_assignCodes hc))
      calc code * 2 ^ (c.len - prev)
          = code * 2 ^ (p.2 - prev) * 2 ^ (c.len - p.2) := (mul_two_pow_sub _ (hprev p (.head _)) hp).symm
        _ ≤ (code * 2 ^ (p.2 - prev) + 1) * 2 ^ (c.len - p.2) := Nat.mul_le_mul_right _ (Nat.le_succ _)
        _ ≤ c.code := ih hs.2 (fun q hq => hs.1 _ (List.mem_map_of_mem hq)) hc

theorem assignCodes_pairwise {code prev : Nat} {l : List (Nat × Nat)} (hs : (l.map Prod.snd).Pairwise (· ≤ ·)) :
    (assignCodes code prev l).Pairwise CodeBefore := by
  induction l generalizing code prev with
  | nil => exact .nil
  | cons p l ih =>
    rw [List.map_cons, List.pairwise_cons] at hs
    have hle : ∀ q ∈ l, p.2 ≤ q.2 := fun q hq => hs.1 _ (List.mem_map_of_mem hq)
    exact List.pairwise_cons.mpr
      ⟨fun d hd => ⟨hle _ (mem_assignCodes hd), le_code_of_mem_assignCodes hs.2 hle hd⟩, ih hs.2⟩

/-- On the scale of 2^16 the codes given out end where the shares of their lengths, one after another, end. -/
theorem code_succ_le_of_mem_assignCodes {code prev : Nat} {l : List (Nat × Nat)}
    (hs : (l.map Prod.snd).Pairwise (· ≤ ·)) (hl : ∀ p ∈ l, prev ≤ p.2 ∧ p.2 ≤ 16) {c : HuffCode}
    (hc : c ∈ assignCodes code prev l) :
    (c.code + 1) * 2 ^ (16 - c.len) ≤ code * 2 ^ (16 - prev) + (l.map fun p => 2 ^ (16 - p.2)).sum := by
  induction l generalizing code prev with
  | nil => cases hc
  | cons p l ih =>
    obtain ⟨hp, hp16⟩ := hl p (.head _)
    rw [List.map_cons, List.pairwise_cons] at hs
    have hstep : (code * 2 ^ (p.2 - prev) + 1) * 2 ^ (16 - p.2) = code * 2 ^ (16 - prev) + 2 ^ (16 - p.2) := by
      rw [Nat.add_mul, mul_two_pow_sub _ hp hp16, Nat.one_mul]
    rw [List.map_cons, List.sum_cons, ← Nat.add_assoc, ← hstep]
    obtain rfl | hc := List.mem_cons.mp hc
    · exact Nat.le_add_right _ _
    · exact ih hs.2 (fun q hq => ⟨hs.1 _ (List.mem_map_of_mem hq), (hl q (.tail _ hq)).2⟩) hc

section
variable {ls : List Nat} {c d : HuffCode}

theorem mem_usedSyms_of_mem_canon (hc : c ∈ canon ls) : (c.sym, c.len) ∈ usedSyms ls :=
  (mem_canonOrder.mp (mem_assignCodes hc)).1

theorem len_of_mem_canon (hc : c ∈ canon ls) : 1 ≤ c.len ∧ c.len ≤ 16 := (mem_canonOrder.mp (mem_assignCodes hc)).2

theorem canonOrder_len_pairwise (ls : List Nat) : ((canonOrder ls).map Prod.snd).Pairwise (· ≤ ·) :=
  List.pairwise_map.mpr ((canonOrder_pairwise ls).imp fun {_ _} h => by omega)

theorem canon_pairwise (ls : List Nat) : (canon ls).Pairwise CodeBefore :=
  assignCodes_pairwise (canonOrder_len_pairwise ls)

/-- In an array that builds every code fits its length (42_huffman R150). -/
theorem code_lt_of_mem_canon (hb : Buildable ls) (hc : c ∈ canon ls) : c.code < 2 ^ c.len := by
  obtain ⟨hlen, hkraft⟩ := hb
  have hsum : ((canonOrder ls).map fun p => 2 ^ (16 - p.2)).sum = kraftSum ls := by
    rw [← kraft_eq_kraftSum]
    exact ((canonOrder_perm_usedSyms hlen).map _).sum_eq
  have hend := code_succ_le_of_mem_assignCodes (canonOrder_len_pairwise ls)
    (fun p hp => ⟨Nat.zero_le _, (mem_canonOrder.mp hp).2.2⟩) hc
  rw [Nat.zero_mul, Nat.zero_add, hsum] at hend
  have hscale : 2 ^ c.len * 2 ^ (16 - c.len) = 65536 := by
    rw [← pow_add, Nat.add_sub_cancel' (len_of_mem_canon hc).2]
    norm_num
  exact Nat.lt_of_succ_le (Nat.le_of_mul_le_mul_right (hscale ▸ hend.trans hkraft) (Nat.two_pow_pos _))

/-- Of two codes of a table one lies before the other. -/
theorem codeBefore_trichotomy (hc : c ∈ canon ls) (hd : d ∈ canon ls) : c = d ∨ CodeBefore c d ∨ CodeBefore d c := by
  obtain ⟨i, hi, rfl⟩ := List.getElem_of_mem hc
  obtain ⟨j, hj, rfl⟩ := List.getElem_of_mem hd
  have hlt := List.pairwise_iff_getElem.mp (canon_pairwise ls)
  obtain hij | rfl | hij := lt_trichotomy i j
  · exact .inr (.inl (hlt i j hi hj hij))
  · exact .inl rfl
  · exact .inr (.inr (hlt j i hj hi hij))

/-- A code that starts a code is that code (42_huffman R150). -/
theorem eq_of_code_start (hc : c ∈ canon ls) (hd : d ∈ canon ls) (hlen : d.len ≤ c.len)
    (hcode : d.code = c.code / 2 ^ (c.len - d.len)) : d = c := by
  obtain rfl | ⟨_, hdc⟩ | ⟨hle, hcd⟩ := codeBefore_trichotomy hd hc
  · rfl
  · have hlt := Nat.lt_mul_div_succ c.code (Nat.two_pow_pos (c.len - d.len))
    rw [← hcode, Nat.mul_comm] at hlt
    omega
  · rw [le_antisymm hle hlen, Nat.sub_self, pow_zero] at hcd hcode
    omega

/-! ## The decode loop -/

theorem walkCode_mem {src : BitSource} {tbl : List HuffCode} {pos fuel l v s k : Nat}
    (h : walkCode src tbl pos fuel l v = .ok (s, k)) : ∃ c ∈ tbl, c.sym = s ∧ c.len = k := by
  induction fuel generalizing l v with
  | zero => cases h
  | succ fuel ih =>
    rw [walkCode] at h
    split at h
    · cases h
    · split at h
      · rename_i c hf
        cases h
        have hp := List.find?_some hf
        simp only [Bool.and_eq_true, beq_iff_eq] at hp
        exact ⟨c, List.mem_of_find?_eq_some hf, rfl, hp.1⟩
      · exact ih h

/-- A decoded symbol has a code in its array, and as many bits are consumed as its length says. -/
theorem decodeSym_mem_usedSyms {src : BitSource} {pos s k : Nat} (h : decodeSym ls src pos = .ok (s, k)) :
    (s, k) ∈ usedSyms ls := by
  have hwalk : walkCode src (canon ls) pos 16 0 0 = .ok (s, k) → (s, k) ∈ usedSyms ls := fun h => by
    obtain ⟨c, hc, rfl, rfl⟩ := walkCode_mem h
    exact mem_usedSyms_of_mem_canon hc
  unfold decodeSym at h
  split at h
  case h_1 => cases h
  case h_2 hcl =>
    obtain ⟨_, _, h⟩ := exceptBind_eq_ok h
    cases h
    simp [classify_single hcl]
  all_goals exact hwalk h

/-- Reading one bit more of a code. -/
theorem code_div_step (code len l : Nat) (hl : l < len) :
    2 * (code / 2 ^ (len - l)) + (code.testBit (len - 1 - l)).toNat = code / 2 ^ (len - (l + 1)) := by
  obtain ⟨m, rfl⟩ : ∃ m, len = l + 1 + m := ⟨len - (l + 1), by omega⟩
  rw [show l + 1 + m - l = m + 1 by omega, show l + 1 + m - 1 - l = m by omega, Nat.add_sub_cancel_left,
    Nat.toNat_testBit, pow_succ, ← Nat.div_div_eq_div_mul]
  omega

/-- The loop passes the proper starts of a code and stops at the code itself (42_huffman R153). -/
theorem walkCode_of_codeAt {src : BitSource} {pos : Nat} (hc : c ∈ canon ls) (hsrc : CodeAt src pos c) {fuel l : Nat}
    (hl : l < c.len) (hfuel : c.len ≤ l + fuel) :
    walkCode src (canon ls) pos fuel l (c.code / 2 ^ (c.len - l)) = .ok (c.sym, c.len) := by
  induction fuel generalizing l with
  | zero => omega
  | succ fuel ih =>
    rw [walkCode, hsrc l hl]
    dsimp only
    rw [code_div_step _ _ _ hl]
    cases hf : (canon ls).find? fun d => d.len == l + 1 && d.code == c.code / 2 ^ (c.len - (l + 1)) with
    | some d =>
      have hp := List.find?_some hf
      simp only [Bool.and_eq_true, beq_iff_eq] at hp
      obtain ⟨hdl, hdc⟩ := hp
      have hdc : d = c := eq_of_code_start hc (List.mem_of_find?_eq_some hf) (by omega) (by rw [hdl, hdc])
      rw [← hdc, ← hdl]
    | none =>
      have hnot := List.find?_eq_none.mp hf c hc
      have hne : c.len ≠ l + 1 := fun he => hnot (by simp [he])
      exact ih (by omega) (by omega)

theorem readBits_of_isSome {src : BitSource} {pos n : Nat} (h : ∀ i, i < n → (src (pos + i)).isSome) :
    ∃ v, readBits src pos n = .ok v := by
  induction n with
  | zero => exact ⟨0, rfl⟩
  | succ n ih =>
    obtain ⟨v, hv⟩ := ih fun i hi => h i (by omega)
    obtain ⟨b, hb⟩ := Option.isSome_iff_exists.mp (h n (by omega))
    exact ⟨2 * v + b.toNat, by rw [readBits, hv]; simp [hb, bind, Except.bind]⟩

/-- In every table that builds, the code of a symbol decodes to it and is consumed exactly (42_huffman R153, R154). -/
theorem decodeSym_of_codeAt {src : BitSource} {pos : Nat} (hb : Buildable ls) (hc : c ∈ canon ls)
    (hsrc : CodeAt src pos c) : decodeSym ls src pos = .ok (c.sym, c.len) := by
  obtain ⟨h1, h16⟩ := len_of_mem_canon hc
  have hwalk : walkCode src (canon ls) pos 16 0 0 = .ok (c.sym, c.len) := by
    have := walkCode_of_codeAt hc hsrc (fuel := 16) (l := 0) (by omega) (by omega)
    rwa [Nat.sub_zero, Nat.div_eq_of_lt (code_lt_of_mem_canon hb hc)] at this
  have hmem := mem_usedSyms_of_mem_canon hc
  unfold decodeSym
  split
  case h_1 hcl => rw [classify_empty hcl] at hmem; cases hmem
  case h_2 hcl =>
    rw [classify_single hcl, List.mem_singleton] at hmem
    obtain ⟨v, hv⟩ := readBits_of_isSome (src := src) (pos := pos) (n := c.len) fun i hi => by rw [hsrc i hi]; rfl
    cases hmem
    rw [hv]
    rfl
  all_goals exact hwalk

end

end Sys2Proof.Machine
end

section
/-! SUPPORT. The three length sections (30_encoding R87): what each rewrites and what its end makes due
(43_lzx_block_headers R173, R183). -/

namespace Sys2Proof.Machine

/-- 43_lzx_block_headers R183. -/
theorem detectE8_eq_or (s : State) :
    detectE8 s =
      { s with lzx.intelStarted := s.lzx.intelStarted || decide (s.lzx.mainLen.getD 0xE8 0 ≠ 0) } := by
  unfold detectE8
  split
  · rename_i h
    rw [decide_eq_true h, Bool.or_true]
    rfl
  · rename_i h
    rw [decide_eq_false h, Bool.or_false]

section
variable {s : State}

theorem sectionArray_of_main (h : s.seq.sect = .mainA ∨ s.seq.sect = .mainB) : sectionArray s = s.lzx.mainLen := by
  obtain h | h := h <;> simp only [sectionArray, h]

theorem setSectionArray_of_main (h : s.seq.sect = .mainA ∨ s.seq.sect = .mainB) (ls : List Nat) :
    setSectionArray ls s = { s with lzx.mainLen := ls } := by
  obtain h | h := h <;> simp only [setSectionArray, h]

theorem sectionArray_of_length (h : s.seq.sect = .length) : sectionArray s = s.lzx.lenLen := by
  simp only [sectionArray, h]

theorem setSectionArray_of_length (h : s.seq.sect = .length) (ls : List Nat) :
    setSectionArray ls s = { s with lzx.lenLen := ls } := by
  simp only [setSectionArray, h]

theorem endSection_mainA (h : s.seq.sect = .mainA) :
    endSection s = .ok { s with seq.sect := .mainB, seq.expect := some .preLens } := by
  simp only [endSection, h, expectNext]

theorem endSection_mainB (h : s.seq.sect = .mainB) :
    endSection s = (buildTable (s.lzx.mainLen.take 512)).map fun _ =>
      { s with
        lzx.intelStarted := s.lzx.intelStarted || decide (s.lzx.mainLen.getD 0xE8 0 ≠ 0)
        seq.sect := .length
        seq.expect := some .preLens } := by
  simp only [endSection, h, detectE8_eq_or, expectNext]
  cases buildTable (s.lzx.mainLen.take 512) <;> rfl

theorem endSection_length (h : s.seq.sect = .length) :
    endSection s = (buildTable (s.lzx.lenLen.take 250)).bind fun _ => continueFrame s := by
  simp only [endSection, h]
  rfl

end

/-- Settles O30: each section's end by itself, the build being decided by the Kraft sum. -/
theorem lengthSectionsFollowInOrder : Obligations.LengthSectionsFollowInOrder := by
  refine ⟨⟨rfl, rfl, rfl, rfl, rfl, rfl⟩, fun s => ⟨fun h => ⟨sectionArray_of_main h, setSectionArray_of_main h⟩,
    fun h => ⟨sectionArray_of_length h, setSectionArray_of_length h⟩, endSection_mainA, fun h => ?_, fun h => ?_⟩⟩
  · rw [endSection_mainB h]
    exact ⟨fun hk => by rw [buildTable_of_lt_kraftSum hk]; rfl, fun hk => by rw [buildTable_of_kraftSum_le hk]; rfl⟩
  · rw [endSection_length h]
    exact ⟨fun hk => by rw [buildTable_of_lt_kraftSum hk]; rfl, fun hk => by rw [buildTable_of_kraftSum_le hk]; rfl⟩

end Sys2Proof.Machine
end

section
/-! SUPPORT. The host commands' codes (30_encoding R80, 40_host_commands R116), and words written out from the encodings
(30_encoding R80 to R99). -/

namespace Sys2Proof.Machine

theorem decodeCommand_of_ne {v : Word} (h1 : v ≠ 1) (h2 : v ≠ 2) (h3 : v ≠ 3) : decodeCommand v = .cmdReserved v := by
  rw [decodeCommand, if_neg h1, if_neg h2, if_neg h3]

theorem encode_decodeCommand (c : DecodeCtx) (v : Word) : encode c (decodeCommand v) = some (.command v) := by
  unfold decodeCommand
  split_ifs with h1 h2 h3
  · rw [h1]; rfl
  · rw [h2]; rfl
  · rw [h3]; rfl
  · rfl

theorem decodeCommand_wf (v : Word) : (decodeCommand v).wf = true := by
  unfold decodeCommand
  split_ifs with h1 h2 h3
  · rfl
  · rfl
  · rfl
  · exact decide_eq_true ⟨h1, h2, h3⟩

theorem takeFault_faultTaken (e : ErrCode) (s : State) : FaultTaken e s (takeFault e s) :=
  ⟨rfl, rfl, rfl, rfl, rfl, rfl, rfl, rfl⟩

/-- 40_host_commands R116: BadCommand while READY. -/
theorem execCmdReserved_ready {s : State} (v : Word) (h : s.life = .ready) :
    execCmdReserved v s = .next (takeFault .badCommand s) := by
  simp only [execCmdReserved, h]

/-- 60_exceptions R283: ignored while FAULTED. -/
theorem execCmdReserved_faulted {s : State} (v : Word) (h : s.life = .faulted) : execCmdReserved v s = .next s := by
  simp only [execCmdReserved, h]

/-- Settles O5. -/
theorem commandCodesDecodeAndReservedOnesFault : Obligations.CommandCodesDecodeAndReservedOnesFault :=
  ⟨rfl, rfl, rfl, rfl, encode_decodeCommand, fun s v h1 h2 h3 => ⟨decodeCommand_of_ne h1 h2 h3,
    fun h => ⟨_, execCmdReserved_ready v h, takeFault_faultTaken _ s⟩, execCmdReserved_faulted v⟩⟩

/-- Settles O55: thirteen words and program P3's slot-10 MATCH, each evaluated. -/
theorem writtenWordsDecode : Obligations.WrittenWordsDecode := by
  refine ⟨?_, ?_, ?_, ?_, ?_, ?_, ?_, ?_, ?_, ?_, ?_, ?_, ?_, ?_⟩
  all_goals decide +kernel

end Sys2Proof.Machine
end

section
/-! SUPPORT. Every decoder answers well-formed instructions: its fields fit their widths, and its symbols are symbols of
their table (30_encoding R91 to R94, 44_lzx_symbols R220). -/

namespace Sys2Proof.Machine

section
variable {c : DecodeCtx} {src : BitSource} {i : Instr} {k : Nat}

theorem readBits_lt {pos n v : Nat} (h : readBits src pos n = .ok v) : v < 2 ^ n := by
  induction n generalizing v with
  | zero =>
    cases h
    exact Nat.one_pos
  | succ n ih =>
    obtain ⟨u, hu, h⟩ := exceptBind_eq_ok h
    split at h
    · cases h
    · rename_i b _
      cases h
      have := ih hu
      have := b.toNat_le
      omega

theorem toNat_ofNat_of_lt {w n : Nat} (h : n < 2 ^ w) : (BitVec.ofNat w n).toNat = n := by
  rw [BitVec.toNat_ofNat, Nat.mod_eq_of_lt h]

/-- A decoded symbol is one of the table's, and its length in the array is not 0. -/
theorem decodeSym_take_ok {ls : List Nat} {n pos s : Nat} (h : decodeSym (ls.take n) src pos = .ok (s, k)) :
    s < n ∧ ls.getD s 0 ≠ 0 := by
  obtain ⟨hs, hk⟩ := mem_usedSyms.mp (decodeSym_mem_usedSyms h)
  rw [List.getElem?_take] at hs
  split at hs
  · rename_i hn
    exact ⟨hn, by rwa [List.getD_eq_getElem?_getD, hs]⟩
  · cases hs

/-- Symbol 249 of LENLEN has no code, so a footer is at most 248 (44_lzx_symbols R220). -/
theorem decodeSym_len_le (hlen : c.len.getD 249 0 = 0) {pos f : Nat}
    (h : decodeSym (c.len.take 250) src pos = .ok (f, k)) : (BitVec.ofNat 8 f).toNat ≤ 248 := by
  obtain ⟨hf, hne⟩ := decodeSym_take_ok h
  have hf249 : f ≠ 249 := fun he => hne (he ▸ hlen)
  rw [toNat_ofNat_of_lt (by omega)]
  omega

theorem decodeFooter_footerOk (hlen : c.len.getD 249 0 = 0) {lh pos f : Nat} (hlh : lh < 8)
    (h : decodeFooter c lh src pos = .ok (f, k)) : footerOk (BitVec.ofNat 3 lh) (BitVec.ofNat 8 f) = true := by
  have h7 : BitVec.ofNat 3 lh = 7 ↔ lh = 7 := by
    rw [← BitVec.toNat_inj, toNat_ofNat_of_lt hlh]
    rfl
  unfold decodeFooter at h
  unfold footerOk
  split at h
  · rename_i he
    rw [if_pos (h7.mpr he)]
    exact decide_eq_true (decodeSym_len_le hlen h)
  · rename_i he
    cases h
    rw [if_neg (mt h7.mp he)]
    rfl

theorem extraBits_le {slot : Nat} (h : slot < 32) : extraBits slot ≤ 14 := by
  unfold extraBits
  split <;> omega

theorem decodeOffset_fits {slot pos : Nat} {o : OffBits} (hslot : slot < 32)
    (h : decodeOffset c slot src pos = .ok (o, k)) : o.fits (extraBits slot) = true := by
  have hwidth {n v : Nat} (w : Nat) (hn : n ≤ w) (hv : v < 2 ^ n) : (BitVec.ofNat w v).toNat < 2 ^ n := by
    rwa [toNat_ofNat_of_lt (hv.trans_le (Nat.pow_le_pow_right (by decide) hn))]
  have heb := extraBits_le hslot
  unfold decodeOffset at h
  dsimp only at h
  split at h
  · obtain ⟨v, hv, h⟩ := exceptBind_eq_ok h
    obtain ⟨a, _, h⟩ := exceptBind_eq_ok h
    cases h
    exact decide_eq_true (hwidth 11 (by omega) (readBits_lt hv))
  · obtain ⟨v, hv, h⟩ := exceptBind_eq_ok h
    cases h
    exact decide_eq_true (hwidth 14 heb (readBits_lt hv))

theorem rawValue_lt_of_fits {eb : Nat} {o : OffBits} (h : o.fits eb = true) : o.rawValue < 2 ^ eb := by
  cases o with
  | raw v => exact of_decide_eq_true h
  | split v a => exact (of_decide_eq_true h : v.toNat < _).trans_le (Nat.pow_le_pow_right (by decide) (by omega))

theorem mkMatch_wf {slot : Nat} {lh : BitVec 3} {f : Byte} {o : OffBits} (hslot : slot < 32)
    (hf : footerOk lh f = true) (ho : o.fits (extraBits slot) = true) : (mkMatch slot lh f o).wf = true := by
  have heb : 4 ≤ slot → extraBits slot = slot / 2 - 1 := fun h => if_neg (by omega)
  unfold mkMatch
  split_ifs <;> simp only [Instr.wf, hf, Bool.true_and]
  · have hlt := rawValue_lt_of_fits ho
    rw [heb (by omega)] at hlt
    have hpow : 2 ^ (slot / 2 - 1) ≤ 2 ^ 2 := Nat.pow_le_pow_right (by decide) (by omega)
    rw [decide_eq_true_eq, toNat_ofNat_of_lt (hlt.trans_le hpow), toNat_ofNat_of_lt (by omega)]
    rwa [show 1 + (slot - 4) / 2 = slot / 2 - 1 by omega]
  · rwa [heb (by omega), show slot / 2 - 1 = 3 by omega] at ho
  · rwa [heb (by omega), show slot / 2 - 1 = 4 by omega] at ho
  · rw [toNat_ofNat_of_lt (by omega)]
    rwa [heb (by omega), show slot / 2 - 1 = 5 + (slot - 12) / 2 by omega] at ho
  · rw [toNat_ofNat_of_lt (by omega)]
    rwa [heb (by omega), show slot / 2 - 1 = 7 + (slot - 16) / 2 by omega] at ho

/-! ## The decoders -/

/-- At most places of the stream every instruction is well formed. -/
theorem wf_of_dueAt {e : Expect} (h : i.dueAt e) (hpre : e ≠ .preSym) (helem : e ≠ .element)
    (hfoot : e ≠ .lenFooter) : i.wf = true := by
  cases i with
  | reset => exact h.elim
  | lzxFrame => exact h.elim
  | adpcmBlock => exact h.elim
  | cmdReserved => exact h.elim
  | alignLengths => exact decide_eq_true h.2
  | pretreeLengths => exact decide_eq_true h.2
  | preRep19 => exact absurd h hpre
  | lenFooter => exact absurd h hfoot
  | matchRep0 | matchRep1 | matchRep2 | matchOff1 => exact absurd h helem
  | matchS4to7 | matchS8to9 | matchS10to11 | matchS12to15 | matchS16to31 => exact absurd h helem
  | _ => rfl

theorem decodePreSym_wf {pre : List Nat} (h : decodePreSym pre src = .ok (i, k)) : i.wf = true := by
  obtain ⟨⟨z, n⟩, _, h⟩ := exceptBind_eq_ok h
  dsimp only at h
  split_ifs at h
  · cases h
    rfl
  · cases h
    rfl
  · obtain ⟨r, _, h⟩ := exceptBind_eq_ok h
    cases h
    rfl
  · obtain ⟨r, _, h⟩ := exceptBind_eq_ok h
    cases h
    rfl
  · obtain ⟨b, _, h⟩ := exceptBind_eq_ok h
    obtain ⟨⟨d, m⟩, hd, h⟩ := exceptBind_eq_ok h
    cases h
    obtain ⟨hd, _⟩ := decodeSym_take_ok hd
    refine decide_eq_true ?_
    rw [toNat_ofNat_of_lt (by omega)]
    omega

theorem decodeElement_wf (hlen : c.len.getD 249 0 = 0) (h : decodeElement c src = .ok (i, k)) : i.wf = true := by
  obtain ⟨⟨m, n⟩, hm, h⟩ := exceptBind_eq_ok h
  obtain ⟨hm, _⟩ := decodeSym_take_ok hm
  dsimp only at h
  split at h
  · cases h
    rfl
  · obtain ⟨⟨f, nf⟩, hf, h⟩ := exceptBind_eq_ok h
    obtain ⟨⟨o, no⟩, ho, h⟩ := exceptBind_eq_ok h
    cases h
    have hslot : (m - 256) / 8 < 32 := by omega
    exact mkMatch_wf hslot (decodeFooter_footerOk hlen (Nat.mod_lt _ (by decide)) hf) (decodeOffset_fits hslot ho)

theorem decodeLenFooter_wf (hlen : c.len.getD 249 0 = 0) (h : decodeLenFooter c src = .ok (i, k)) :
    i.wf = true := by
  obtain ⟨⟨f, n⟩, hf, h⟩ := exceptBind_eq_ok h
  cases h
  exact decide_eq_true (decodeSym_len_le hlen hf)

theorem decodeBits_wf (hlen : c.len.getD 249 0 = 0) (hb : c.expect.isBits = true) (h : decodeBits c src = .ok (i, k)) :
    i.wf = true := by
  have hdue := decodeBits_dueAt hb h
  unfold decodeBits at h
  cases he : c.expect <;> rw [he] at h hdue
  case preSym => exact decodePreSym_wf h
  case element => exact decodeElement_wf hlen h
  case lenFooter => exact decodeLenFooter_wf hlen h
  all_goals exact wf_of_dueAt hdue nofun nofun nofun

end

theorem decodeBytes_wf {c : DecodeCtx} {src : ByteSource} {i : Instr} {k : Nat} (hb : c.expect.isBits = false)
    (h : decodeBytes c src = .ok (i, k)) : i.wf = true := by
  have hne {e : Expect} (he : e.isBits = true) : c.expect ≠ e := fun hce => by simp [hce, he] at hb
  exact wf_of_dueAt (decodeBytes_dueAt hb h) (hne rfl) (hne rfl) (hne rfl)

theorem fetchElement_wf {e : Expect} {s t : State} {i : Instr} (ht : TablesOk s.lzx)
    (h : fetchElement e s = .ok (i, t)) : i.wf = true := by
  obtain ⟨_, _, hlen, _, _⟩ := ht
  obtain ⟨hb, k, hd, _⟩ | ⟨hb, _, k, hd, _⟩ | ⟨hb, _, k, hd, _⟩ := fetchElement_cases h
  · exact decodeBits_wf (c := decodeCtx s e) hlen hb hd
  · exact decodeBytes_wf (c := decodeCtx s e) hb hd
  · exact decodeBytes_wf (c := decodeCtx s e) hb hd

theorem fetch_of_expect {s t : State} {e : Expect} {i : Instr} (he : s.seq.expect = some e)
    (h : fetch s = .instr i t) : fetchElement e s = .ok (i, t) := by
  unfold fetch at h
  rw [he] at h
  dsimp only at h
  split at h
  · cases h
  · cases h
    assumption

/-- Settles O53: inside a command the decoders' answers are well formed, between commands `decodeCommand`'s are. -/
theorem fetchedInstructionsAreWellFormed : Obligations.FetchedInstructionsAreWellFormed := by
  intro s t i ht h
  cases he : s.seq.expect with
  | some e => exact fetchElement_wf ht (fetch_of_expect he h)
  | none =>
    obtain hf | ⟨v, rest, hf⟩ | ⟨a, rest, hf⟩ := fetch_idle_cases he <;> rw [hf] at h <;> cases h
    exact decodeCommand_wf v

end Sys2Proof.Machine
end

section
/-! SUPPORT. Every decoder reads back what the encoder wrote (30_encoding R80 to R99): a source that reads as an
encoding decodes to the instruction, field by field, and the whole encoding is consumed. -/

namespace Sys2Proof.Machine

theorem exceptBind_of_ok {ε α β : Type} {x : Except ε α} {f : α → Except ε β} {a : α} (h : x = .ok a) :
    x >>= f = f a := by
  rw [h]
  rfl

/-! ## Sources that read as a list -/

/-- The source reads as the list from `pos` on. -/
def Reads {α : Type} (src : Nat → Option α) (pos : Nat) (l : List α) : Prop := ∀ j, j < l.length → src (pos + j) = l[j]?

section
variable {α : Type} {src : Nat → Option α} {pos : Nat}

theorem reads_getElem? (l : List α) : Reads (fun i => l[i]?) 0 l := fun j _ => by rw [Nat.zero_add]

theorem reads_append {a b : List α} : Reads src pos (a ++ b) ↔ Reads src pos a ∧ Reads src (pos + a.length) b := by
  constructor
  · refine fun h => ⟨fun j hj => ?_, fun j hj => ?_⟩
    · rw [h j (by rw [List.length_append]; omega), List.getElem?_append_left hj]
    · rw [Nat.add_assoc, h _ (by rw [List.length_append]; omega), List.getElem?_append_right (by omega),
        Nat.add_sub_cancel_left]
  · rintro ⟨ha, hb⟩ j hj
    rw [List.length_append] at hj
    by_cases hja : j < a.length
    · rw [ha j hja, List.getElem?_append_left hja]
    · rw [List.getElem?_append_right (by omega), ← hb _ (by omega)]
      congr 1
      omega

theorem reads_cons {x : α} {l : List α} : Reads src pos (x :: l) ↔ src pos = some x ∧ Reads src (pos + 1) l := by
  rw [← List.singleton_append, reads_append]
  refine and_congr_left fun _ => ⟨fun h => h 0 Nat.one_pos, fun h j hj => ?_⟩
  obtain rfl : j = 0 := by simpa using hj
  exact h

end

/-! ## Bit fields -/

@[simp] theorem length_fieldBits (n v : Nat) : (fieldBits n v).length = n := by simp [fieldBits]

theorem fieldBits_add (m n v : Nat) : fieldBits (m + n) v = fieldBits m (v / 2 ^ n) ++ fieldBits n v := by
  rw [fieldBits, List.range_add, List.map_append, List.map_map]
  congr 1
  · refine List.map_congr_left fun i hi => ?_
    rw [List.mem_range] at hi
    rw [Nat.testBit_div_two_pow]
    congr 1
    omega
  · refine List.map_congr_left fun i hi => ?_
    rw [List.mem_range] at hi
    rw [Function.comp_apply]
    congr 1
    omega

section
variable {src : BitSource} {pos : Nat}

theorem codeAt_of_reads {c : HuffCode} (h : Reads src pos (fieldBits c.len c.code)) : CodeAt src pos c := by
  intro i hi
  rw [h i (by rwa [length_fieldBits])]
  simp [fieldBits, hi]

/-- 41_bitstream R134. -/
theorem readBits_of_reads {n v : Nat} (h : Reads src pos (fieldBits n v)) : readBits src pos n = .ok (v % 2 ^ n) := by
  induction n generalizing v with
  | zero => rw [pow_zero, Nat.mod_one]; rfl
  | succ n ih =>
    rw [fieldBits_add, reads_append, length_fieldBits] at h
    obtain ⟨hhigh, hlow⟩ := h
    have hbit : src (pos + n) = some (v.testBit 0) := hlow 0 Nat.one_pos
    rw [readBits, exceptBind_of_ok (ih hhigh), hbit, pow_one, pow_succ', Nat.mod_mul, Nat.testBit_zero]
    dsimp only
    congr 1
    rcases Nat.mod_two_eq_zero_or_one v with h | h <;> rw [h] <;> simp [Nat.add_comm]

theorem readBits_toNat_of_reads {w : Nat} {x : BitVec w} (h : Reads src pos (fieldBits w x.toNat)) :
    readBits src pos w = .ok x.toNat := by
  rw [readBits_of_reads h, Nat.mod_eq_of_lt x.isLt]

theorem ofNat_append_ofNat {m n : Nat} (x : BitVec (m + n)) :
    BitVec.ofNat m (x.toNat / 2 ^ n % 2 ^ m) ++ BitVec.ofNat n (x.toNat % 2 ^ n) = x := by
  apply BitVec.eq_of_toNat_eq
  have hlt : x.toNat / 2 ^ n < 2 ^ m := Nat.div_lt_of_lt_mul (by rw [Nat.mul_comm, ← pow_add]; exact x.isLt)
  rw [BitVec.toNat_append, BitVec.toNat_ofNat, BitVec.toNat_ofNat, Nat.mod_mod, Nat.mod_mod, Nat.mod_eq_of_lt hlt,
    ← Nat.shiftLeft_add_eq_or_of_lt (Nat.mod_lt _ (Nat.two_pow_pos n)), Nat.shiftLeft_eq, Nat.div_add_mod']

/-- A field that is read in two parts. -/
theorem readBits_halves_of_reads {m n : Nat} {x : BitVec (m + n)} (h : Reads src pos (fieldBits (m + n) x.toNat)) :
    ∃ hi lo, readBits src pos m = .ok hi ∧ readBits src (pos + m) n = .ok lo ∧
      BitVec.ofNat m hi ++ BitVec.ofNat n lo = x := by
  rw [fieldBits_add, reads_append, length_fieldBits] at h
  exact ⟨_, _, readBits_of_reads h.1, readBits_of_reads h.2, ofNat_append_ofNat x⟩

theorem readFields_of_reads {w : Nat} {ls : List (BitVec w)}
    (h : Reads src pos (ls.flatMap fun l => fieldBits w l.toNat)) : readFields src w pos ls.length = .ok ls := by
  induction ls generalizing pos with
  | nil => rfl
  | cons l ls ih =>
    rw [List.flatMap_cons, reads_append, length_fieldBits] at h
    obtain ⟨hl, hls⟩ := h
    rw [List.length_cons, readFields, exceptBind_of_ok (readBits_toNat_of_reads hl), exceptBind_of_ok (ih hls),
      BitVec.ofNat_toNat, BitVec.setWidth_eq]

theorem length_flatMap_fieldBits {w : Nat} (ls : List (BitVec w)) :
    (ls.flatMap fun l => fieldBits w l.toNat).length = w * ls.length := by
  simp [List.length_flatMap, Nat.mul_comm]

/-- The code of a symbol is read back as the symbol (42_huffman R150, R153). -/
theorem decodeSym_of_encodeSym {ls : List Nat} {s : Nat} {l : List Bool} (hb : Buildable ls)
    (he : encodeSym ls s = some l) (h : Reads src pos l) : decodeSym ls src pos = .ok (s, l.length) := by
  obtain ⟨c, hf, rfl⟩ := Option.map_eq_some_iff.mp he
  rw [decodeSym_of_codeAt hb (List.mem_of_find?_eq_some hf) (codeAt_of_reads h), length_fieldBits]
  have hs := List.find?_some hf
  rw [beq_iff_eq.mp hs]

end

/-! ## The decoder of each place -/

section
variable {c : DecodeCtx} {src : BitSource}

theorem decodeBits_streamHdr (he : c.expect = .streamHdr) : decodeBits c src = decodeStreamHdr src := by
  rw [decodeBits, he]

theorem decodeBits_blockHdr (he : c.expect = .blockHdr) : decodeBits c src = decodeBlockHdr src := by
  rw [decodeBits, he]

theorem decodeBits_alignLens (he : c.expect = .alignLens) : decodeBits c src = decodeAlignLens src := by
  rw [decodeBits, he]

theorem decodeBits_preLens (he : c.expect = .preLens) : decodeBits c src = decodePreLens src := by rw [decodeBits, he]

theorem decodeBits_preSym (he : c.expect = .preSym) : decodeBits c src = decodePreSym c.pre src := by
  rw [decodeBits, he]

theorem decodeBits_element (he : c.expect = .element) : decodeBits c src = decodeElement c src := by
  rw [decodeBits, he]

theorem decodeBits_lenFooter (he : c.expect = .lenFooter) : decodeBits c src = decodeLenFooter c src := by
  rw [decodeBits, he]

theorem decodeBits_alignSym (he : c.expect = .alignSym) : decodeBits c src = decodeAlignSym c src := by
  rw [decodeBits, he]

end

/-! ## Encodings in bits -/

theorem decodeEncoded_bits {c : DecodeCtx} {i : Instr} {l : List Bool}
    (h : ∀ src, Reads src 0 l → decodeBits c src = .ok (i, l.length)) : decodeEncoded c (.bits l) = .ok i := by
  rw [decodeEncoded, h _ (reads_getElem? l)]
  exact if_pos rfl

/-- The four arrays of a context build. -/
structure CtxBuilds (c : DecodeCtx) : Prop where
  main : Buildable (c.main.take 512)
  len : Buildable (c.len.take 250)
  align : Buildable (c.align.take 8)
  pre : Buildable (c.pre.take 20)

/-- The row of a block type (30_encoding R86). -/
def blockRow (t : Nat) (blen : BitVec 24) : Instr :=
  if t = 0 then .blkReserved0 blen
  else if t = 1 then .blkVerbatim blen
  else if t = 2 then .blkAligned blen
  else if t = 3 then .blkUncompressed blen
  else .blkReserved4to7 (BitVec.ofNat 2 (t - 4)) blen

section
variable {c : DecodeCtx}

theorem decodeEncoded_streamHdr (he : c.expect = .streamHdr) :
    decodeEncoded c (.bits (fieldBits 1 0)) = .ok .streamHdr := by
  refine decodeEncoded_bits fun src h => ?_
  rw [decodeBits_streamHdr he, decodeStreamHdr, exceptBind_of_ok (readBits_of_reads h)]
  rfl

theorem decodeEncoded_streamHdrE8 (he : c.expect = .streamHdr) (fs : Word) :
    decodeEncoded c (.bits (fieldBits 1 1 ++ fieldBits 32 fs.toNat)) = .ok (.streamHdrE8 fs) := by
  refine decodeEncoded_bits fun src h => ?_
  obtain ⟨h1, h32⟩ := reads_append.mp h
  obtain ⟨hi, lo, hhi, hlo, hfs⟩ := readBits_halves_of_reads (m := 16) (n := 16) h32
  simp only [length_fieldBits, Nat.zero_add, Nat.reduceAdd] at hhi hlo
  rw [decodeBits_streamHdr he, decodeStreamHdr, exceptBind_of_ok (readBits_of_reads h1), if_neg (by decide),
    exceptBind_of_ok hhi, exceptBind_of_ok hlo, hfs]
  simp

theorem decodeEncoded_blockHdr (he : c.expect = .blockHdr) {t : Nat} (ht : t < 2 ^ 3) (blen : BitVec 24) :
    decodeEncoded c (.bits (blockHdrBits t blen)) = .ok (blockRow t blen) := by
  refine decodeEncoded_bits fun src h => ?_
  obtain ⟨h3, h24⟩ := reads_append.mp h
  obtain ⟨hi, lo, hhi, hlo, hblen⟩ := readBits_halves_of_reads (m := 16) (n := 8) h24
  simp only [length_fieldBits, Nat.zero_add, Nat.reduceAdd] at hhi hlo
  rw [decodeBits_blockHdr he, decodeBlockHdr, exceptBind_of_ok (readBits_of_reads h3), exceptBind_of_ok hhi,
    exceptBind_of_ok hlo]
  dsimp only
  rw [hblen, Nat.mod_eq_of_lt ht]
  simp [blockRow, blockHdrBits]

theorem decodeEncoded_alignLengths (he : c.expect = .alignLens) {ls : List (BitVec 3)} (hls : ls.length = 8) :
    decodeEncoded c (.bits (ls.flatMap fun l => fieldBits 3 l.toNat)) = .ok (.alignLengths ls) := by
  refine decodeEncoded_bits fun src h => ?_
  rw [decodeBits_alignLens he, decodeAlignLens, ← hls, exceptBind_of_ok (readFields_of_reads h),
    length_flatMap_fieldBits, hls]

theorem decodeEncoded_pretreeLengths (he : c.expect = .preLens) {ls : List (BitVec 4)} (hls : ls.length = 20) :
    decodeEncoded c (.bits (ls.flatMap fun l => fieldBits 4 l.toNat)) = .ok (.pretreeLengths ls) := by
  refine decodeEncoded_bits fun src h => ?_
  rw [decodeBits_preLens he, decodePreLens, ← hls, exceptBind_of_ok (readFields_of_reads h),
    length_flatMap_fieldBits, hls]

theorem decodeEncoded_lenFooter (hb : CtxBuilds c) (he : c.expect = .lenFooter) {f : Byte} {l : List Bool}
    (hl : encodeSym (c.len.take 250) f.toNat = some l) : decodeEncoded c (.bits l) = .ok (.lenFooter f) := by
  refine decodeEncoded_bits fun src h => ?_
  rw [decodeBits_lenFooter he, decodeLenFooter, exceptBind_of_ok (decodeSym_of_encodeSym hb.len hl h)]
  simp

theorem decodeEncoded_alignSym (hb : CtxBuilds c) (he : c.expect = .alignSym) {a : BitVec 3} {l : List Bool}
    (hl : encodeSym (c.align.take 8) a.toNat = some l) : decodeEncoded c (.bits l) = .ok (.alignSym a) := by
  refine decodeEncoded_bits fun src h => ?_
  rw [decodeBits_alignSym he, decodeAlignSym, exceptBind_of_ok (decodeSym_of_encodeSym hb.align hl h)]
  simp

/-! ## Pretree elements (30_encoding R91) -/

theorem decodeEncoded_preDelta (hb : CtxBuilds c) (he : c.expect = .preSym) {d : BitVec 4} {l : List Bool}
    (hl : encodeSym (c.pre.take 20) d.toNat = some l) : decodeEncoded c (.bits l) = .ok (.preDelta d) := by
  refine decodeEncoded_bits fun src h => ?_
  rw [decodeBits_preSym he, decodePreSym, exceptBind_of_ok (decodeSym_of_encodeSym hb.pre hl h)]
  dsimp only
  rw [if_pos d.isLt]
  simp

theorem decodeEncoded_preDelta16 (hb : CtxBuilds c) (he : c.expect = .preSym) {l : List Bool}
    (hl : encodeSym (c.pre.take 20) 16 = some l) : decodeEncoded c (.bits l) = .ok .preDelta16 := by
  refine decodeEncoded_bits fun src h => ?_
  rw [decodeBits_preSym he, decodePreSym, exceptBind_of_ok (decodeSym_of_encodeSym hb.pre hl h)]
  rfl

theorem decodeEncoded_preZrun17 (hb : CtxBuilds c) (he : c.expect = .preSym) (n : BitVec 4) {l : List Bool}
    (hl : encodeSym (c.pre.take 20) 17 = some l) :
    decodeEncoded c (.bits (l ++ fieldBits 4 n.toNat)) = .ok (.preZrun17 n) := by
  refine decodeEncoded_bits fun src h => ?_
  obtain ⟨hsym, hn⟩ := reads_append.mp h
  rw [Nat.zero_add] at hn
  rw [decodeBits_preSym he, decodePreSym, exceptBind_of_ok (decodeSym_of_encodeSym hb.pre hl hsym)]
  dsimp only
  rw [if_neg (by decide), if_neg (by decide), if_pos rfl, exceptBind_of_ok (readBits_toNat_of_reads hn)]
  simp

theorem decodeEncoded_preZrun18 (hb : CtxBuilds c) (he : c.expect = .preSym) (n : BitVec 5) {l : List Bool}
    (hl : encodeSym (c.pre.take 20) 18 = some l) :
    decodeEncoded c (.bits (l ++ fieldBits 5 n.toNat)) = .ok (.preZrun18 n) := by
  refine decodeEncoded_bits fun src h => ?_
  obtain ⟨hsym, hn⟩ := reads_append.mp h
  rw [Nat.zero_add] at hn
  rw [decodeBits_preSym he, decodePreSym, exceptBind_of_ok (decodeSym_of_encodeSym hb.pre hl hsym)]
  dsimp only
  rw [if_neg (by decide), if_neg (by decide), if_neg (by decide), if_pos rfl,
    exceptBind_of_ok (readBits_toNat_of_reads hn)]
  simp

theorem decodeEncoded_preRep19 (hb : CtxBuilds c) (he : c.expect = .preSym) (b : BitVec 1) {d : BitVec 5}
    {l l' : List Bool} (hl : encodeSym (c.pre.take 20) 19 = some l)
    (hl' : encodeSym (c.pre.take 20) d.toNat = some l') :
    decodeEncoded c (.bits (l ++ fieldBits 1 b.toNat ++ l')) = .ok (.preRep19 b d) := by
  refine decodeEncoded_bits fun src h => ?_
  obtain ⟨h, hd⟩ := reads_append.mp h
  obtain ⟨hsym, hbit⟩ := reads_append.mp h
  rw [Nat.zero_add] at hbit hd
  rw [List.length_append, length_fieldBits] at hd
  rw [decodeBits_preSym he, decodePreSym, exceptBind_of_ok (decodeSym_of_encodeSym hb.pre hl hsym)]
  dsimp only
  rw [if_neg (by decide), if_neg (by decide), if_neg (by decide), if_neg (by decide),
    exceptBind_of_ok (readBits_toNat_of_reads hbit), exceptBind_of_ok (decodeSym_of_encodeSym hb.pre hl' hd)]
  simp [Nat.add_assoc]

/-! ## Literals and matches (30_encoding R92 to R94) -/

theorem decodeEncoded_lit (hb : CtxBuilds c) (he : c.expect = .element) {b : Byte} {l : List Bool}
    (hl : encodeSym (c.main.take 512) b.toNat = some l) : decodeEncoded c (.bits l) = .ok (.lit b) := by
  refine decodeEncoded_bits fun src h => ?_
  rw [decodeBits_element he, decodeElement, exceptBind_of_ok (decodeSym_of_encodeSym hb.main hl h)]
  dsimp only
  rw [if_pos b.isLt]
  simp

/-- Whether offset bits end with an aligned symbol. -/
def hasAlignedPart : OffBits → Bool
  | .raw _ => false
  | .split _ _ => true

theorem decodeFooter_of_encode {src : BitSource} {pos : Nat} (hb : CtxBuilds c) {lh : BitVec 3} {f : Byte}
    {l : List Bool} (hf : footerOk lh f = true)
    (hl : (if lh = 7 then encodeSym (c.len.take 250) f.toNat else some []) = some l) (h : Reads src pos l) :
    decodeFooter c lh.toNat src pos = .ok (f.toNat, l.length) := by
  have h7 : lh.toNat = 7 ↔ lh = 7 := BitVec.toNat_inj (y := 7#3)
  unfold decodeFooter
  unfold footerOk at hf
  split at hl
  · rename_i he
    rw [if_pos (h7.mpr he)]
    exact decodeSym_of_encodeSym hb.len hl h
  · rename_i he
    rw [if_neg he] at hf
    rw [if_neg (mt h7.mp he), of_decide_eq_true hf, ← Option.some.inj hl]
    rfl

theorem decodeOffset_of_encodeOffset {src : BitSource} {pos slot : Nat} (hb : CtxBuilds c) {o : OffBits} {l : List Bool}
    (hfit : o.fits (extraBits slot) = true) (hform : hasAlignedPart o = (c.aligned && decide (3 ≤ extraBits slot)))
    (hl : encodeOffset c.align (extraBits slot) o = some l) (h : Reads src pos l) :
    decodeOffset c slot src pos = .ok (o, l.length) := by
  rw [decodeOffset, ← hform]
  cases o with
  | raw v =>
    obtain rfl := Option.some.inj hl
    have hv : v.toNat < 2 ^ extraBits slot := of_decide_eq_true hfit
    rw [if_neg (show ¬ hasAlignedPart (.raw v) = true from nofun), exceptBind_of_ok (readBits_of_reads h),
      Nat.mod_eq_of_lt hv]
    simp
  | split v a =>
    obtain ⟨code, hcode, rfl⟩ := Option.map_eq_some_iff.mp hl
    have hv : v.toNat < 2 ^ (extraBits slot - 3) := of_decide_eq_true hfit
    obtain ⟨hraw, hsym⟩ := reads_append.mp h
    rw [length_fieldBits] at hsym
    rw [if_pos (show hasAlignedPart (.split v a) = true from rfl), exceptBind_of_ok (readBits_of_reads hraw),
      exceptBind_of_ok (decodeSym_of_encodeSym hb.align hcode hsym), Nat.mod_eq_of_lt hv]
    simp

theorem encodeMatch_cases {slot : Nat} {lh : BitVec 3} {f : Byte} {o : OffBits} {w : Encoded}
    (h : encodeMatch c slot lh f o = some w) :
    ∃ m ft ob, encodeSym (c.main.take 512) (256 + 8 * slot + lh.toNat) = some m ∧
      (if lh = 7 then encodeSym (c.len.take 250) f.toNat else some []) = some ft ∧
      encodeOffset c.align (extraBits slot) o = some ob ∧ w = .bits (m ++ ft ++ ob) := by
  obtain ⟨m, hm, h⟩ := Option.bind_eq_some_iff.mp h
  by_cases h7 : lh = 7
  · simp only [h7, if_true] at h ⊢
    obtain ⟨ft, hft, h⟩ := Option.bind_eq_some_iff.mp h
    obtain ⟨ob, hob, h⟩ := Option.bind_eq_some_iff.mp h
    exact ⟨m, ft, ob, h7 ▸ hm, hft, hob, (Option.some.inj h).symm⟩
  · simp only [h7, if_false] at h ⊢
    obtain ⟨ft, hft, h⟩ := Option.bind_eq_some_iff.mp h
    obtain ⟨ob, hob, h⟩ := Option.bind_eq_some_iff.mp h
    exact ⟨m, ft, ob, hm, hft, hob, (Option.some.inj h).symm⟩

/-- A MATCH is read back part by part: main code, footer, offset bits (30_encoding R93). -/
theorem decodeEncoded_encodeMatch (hb : CtxBuilds c) (he : c.expect = .element) {slot : Nat} {lh : BitVec 3} {f : Byte}
    {o : OffBits} {w : Encoded} (hf : footerOk lh f = true) (hfit : o.fits (extraBits slot) = true)
    (hform : hasAlignedPart o = (c.aligned && decide (3 ≤ extraBits slot))) (hw : encodeMatch c slot lh f o = some w) :
    decodeEncoded c w = .ok (mkMatch slot lh f o) := by
  obtain ⟨m, ft, ob, hm, hft, hob, rfl⟩ := encodeMatch_cases hw
  refine decodeEncoded_bits fun src h => ?_
  obtain ⟨h, hobits⟩ := reads_append.mp h
  obtain ⟨hmain, hfbits⟩ := reads_append.mp h
  rw [List.length_append, Nat.zero_add] at hobits
  rw [Nat.zero_add] at hfbits
  have hlh := lh.isLt
  rw [decodeBits_element he, decodeElement, exceptBind_of_ok (decodeSym_of_encodeSym hb.main hm hmain)]
  dsimp only
  rw [if_neg (by omega), show (256 + 8 * slot + lh.toNat - 256) % 8 = lh.toNat by omega,
    show (256 + 8 * slot + lh.toNat - 256) / 8 = slot by omega,
    exceptBind_of_ok (decodeFooter_of_encode hb hf hft hfbits)]
  dsimp only
  rw [exceptBind_of_ok (decodeOffset_of_encodeOffset hb hfit hform hob hobits)]
  simp [Nat.add_assoc]

end
end Sys2Proof.Machine
end

section
/-! SUPPORT. The decoders of bytes read back what the encoder wrote (30_encoding R89, R97 to R99), the MATCH rows by
slot, and the round trip of every instruction. -/

namespace Sys2Proof.Machine

/-! ## Byte fields -/

section
variable {src : ByteSource} {o : Nat}

@[simp] theorem length_bytesOf16 (h : Half) : (bytesOf16 h).length = 2 := rfl

@[simp] theorem length_bytesOf32 (w : Word) : (bytesOf32 w).length = 4 := rfl

theorem rawByte_of_some {b : Byte} (h : src o = some b) : rawByte src o = .ok b := by
  rw [rawByte, h]

theorem rawByte_of_reads {b : Byte} {l : List Byte} (h : Reads src o (b :: l)) : rawByte src o = .ok b :=
  rawByte_of_some (reads_cons.mp h).1

/-- 20_memory R64. -/
theorem le16_of_reads {x : Half} (h : Reads src o (bytesOf16 x)) : le16 src o = .ok x := by
  have h0 := rawByte_of_some (h 0 (by simp))
  have h1 := rawByte_of_some (h 1 (by simp))
  rw [Nat.add_zero] at h0
  rw [le16, exceptBind_of_ok h0, exceptBind_of_ok h1]
  exact congrArg Except.ok (BitVec.extractLsb'_append_extractLsb' (w := 8) (len := 8))

/-- 41_bitstream R137. -/
theorem rawU32_of_reads {x : Word} (h : Reads src o (bytesOf32 x)) : rawU32 src o = .ok x := by
  have h0 := rawByte_of_some (h 0 (by simp))
  have h1 := rawByte_of_some (h 1 (by simp))
  have h2 := rawByte_of_some (h 2 (by simp))
  have h3 := rawByte_of_some (h 3 (by simp))
  rw [Nat.add_zero] at h0
  rw [rawU32, exceptBind_of_ok h0, exceptBind_of_ok h1, exceptBind_of_ok h2, exceptBind_of_ok h3]
  exact congrArg Except.ok (by
    rw [BitVec.extractLsb'_append_extractLsb'_eq_extractLsb' (by simp),
      BitVec.extractLsb'_append_extractLsb'_eq_extractLsb' (by simp),
      BitVec.extractLsb'_append_extractLsb'_eq_extractLsb' (by simp)]
    exact BitVec.extractLsb'_eq_self)

end

/-! ## The decoder of each place -/

section
variable {c : DecodeCtx} {src : ByteSource}

theorem decodeBytes_uncOffsets (he : c.expect = .uncOffsets) : decodeBytes c src = decodeUncOffsets src := by
  rw [decodeBytes, he]

theorem decodeBytes_uncData (he : c.expect = .uncData) : decodeBytes c src = decodeUncData src := by
  rw [decodeBytes, he]

theorem decodeBytes_uncClose (he : c.expect = .uncClose) : decodeBytes c src = decodeUncClose c.padded src := by
  rw [decodeBytes, he]

theorem decodeBytes_adpcmByte (he : c.expect = .adpcmByte) : decodeBytes c src = decodeAdpcmByte c.stereo src := by
  rw [decodeBytes, he]

theorem decodeBytes_adpcmNibble (he : c.expect = .adpcmNibble) : decodeBytes c src = decodeNibble src := by
  rw [decodeBytes, he]

theorem decodeBytes_adpcmPreamble (he : c.expect = .adpcmPreamble) :
    decodeBytes c src = if c.stereo then decodeStereoPreamble src else decodeMonoPreamble src := by
  rw [decodeBytes, he]

end

/-! ## Encodings in bytes -/

theorem decodeEncoded_bytes {c : DecodeCtx} {i : Instr} {l : List Byte}
    (h : ∀ src, Reads src 0 l → decodeBytes c src = .ok (i, l.length)) : decodeEncoded c (.bytes l) = .ok i := by
  rw [decodeEncoded, h _ (reads_getElem? l)]
  exact if_pos rfl

section
variable {c : DecodeCtx}

theorem decodeEncoded_uncOffsets (he : c.expect = .uncOffsets) (a b d : Word) :
    decodeEncoded c (.bytes (bytesOf32 a ++ bytesOf32 b ++ bytesOf32 d)) = .ok (.uncBody (.offsets a b d)) := by
  refine decodeEncoded_bytes fun src h => ?_
  simp only [reads_append, List.length_append, length_bytesOf32, Nat.zero_add, Nat.reduceAdd] at h
  obtain ⟨⟨ha, hb⟩, hd⟩ := h
  rw [decodeBytes_uncOffsets he, decodeUncOffsets, exceptBind_of_ok (rawU32_of_reads ha),
    exceptBind_of_ok (rawU32_of_reads hb), exceptBind_of_ok (rawU32_of_reads hd)]
  rfl

theorem decodeEncoded_uncData (he : c.expect = .uncData) (b : Byte) :
    decodeEncoded c (.bytes [b]) = .ok (.uncBody (.data b)) := by
  refine decodeEncoded_bytes fun src h => ?_
  rw [decodeBytes_uncData he, decodeUncData, exceptBind_of_ok (rawByte_of_reads h)]
  rfl

theorem decodeEncoded_uncClose (he : c.expect = .uncClose) {p : Option Byte} (hp : c.padded = p.isSome) :
    decodeEncoded c (.bytes p.toList) = .ok (.uncBody (.close p)) := by
  refine decodeEncoded_bytes fun src h => ?_
  rw [decodeBytes_uncClose he, decodeUncClose, hp]
  cases p with
  | none => rfl
  | some b => exact exceptBind_of_ok (rawByte_of_reads h)

theorem decodeEncoded_monoPreamble (he : c.expect = .adpcmPreamble) (hs : c.stereo = false) (p : Byte) (d a b : Half) :
    decodeEncoded c (.bytes (p :: (bytesOf16 d ++ bytesOf16 a ++ bytesOf16 b))) = .ok (.adpcmMonoPreamble p d a b) := by
  refine decodeEncoded_bytes fun src h => ?_
  simp only [reads_cons, reads_append, List.length_append, length_bytesOf16, Nat.zero_add, Nat.reduceAdd] at h
  obtain ⟨hp, ⟨hd, ha⟩, hb⟩ := h
  rw [decodeBytes_adpcmPreamble he, hs, if_neg (by decide), decodeMonoPreamble,
    exceptBind_of_ok (rawByte_of_some hp), exceptBind_of_ok (le16_of_reads hd),
    exceptBind_of_ok (le16_of_reads ha), exceptBind_of_ok (le16_of_reads hb)]
  rfl

theorem decodeEncoded_stereoPreamble (he : c.expect = .adpcmPreamble) (hs : c.stereo = true) (pL pR : Byte)
    (dL dR aL aR bL bR : Half) :
    decodeEncoded c (.bytes (pL :: pR :: (bytesOf16 dL ++ bytesOf16 dR ++ bytesOf16 aL ++ bytesOf16 aR ++
      bytesOf16 bL ++ bytesOf16 bR))) = .ok (.adpcmStereoPreamble pL pR dL dR aL aR bL bR) := by
  refine decodeEncoded_bytes fun src h => ?_
  simp only [reads_cons, reads_append, List.length_append, length_bytesOf16, Nat.zero_add, Nat.reduceAdd] at h
  obtain ⟨hpL, hpR, ⟨⟨⟨⟨hdL, hdR⟩, haL⟩, haR⟩, hbL⟩, hbR⟩ := h
  rw [decodeBytes_adpcmPreamble he, hs, if_pos rfl, decodeStereoPreamble, exceptBind_of_ok (rawByte_of_some hpL),
    exceptBind_of_ok (rawByte_of_some hpR), exceptBind_of_ok (le16_of_reads hdL),
    exceptBind_of_ok (le16_of_reads hdR), exceptBind_of_ok (le16_of_reads haL),
    exceptBind_of_ok (le16_of_reads haR), exceptBind_of_ok (le16_of_reads hbL), exceptBind_of_ok (le16_of_reads hbR)]
  rfl

theorem decodeEncoded_adpcmByte (he : c.expect = .adpcmByte) (h l : BitVec 4) :
    decodeEncoded c (.bytes [h ++ l]) = .ok (if c.stereo then .adpcmStereoByte h l else .adpcmMonoByte h l) := by
  refine decodeEncoded_bytes fun src hr => ?_
  rw [decodeBytes_adpcmByte he, decodeAdpcmByte, exceptBind_of_ok (rawByte_of_reads hr)]
  dsimp only
  rw [BitVec.extractLsb'_append_eq_left (a := h) (b := l), BitVec.extractLsb'_append_eq_right (a := h) (b := l)]
  rfl

theorem decodeEncoded_adpcmNibble (he : c.expect = .adpcmNibble) (n : BitVec 4) :
    decodeEncoded c (.bytes [n ++ (0 : BitVec 4)]) = .ok (.adpcmNibble n) := by
  refine decodeEncoded_bytes fun src h => ?_
  rw [decodeBytes_adpcmNibble he, decodeNibble, exceptBind_of_ok (rawByte_of_reads h),
    BitVec.extractLsb'_append_eq_left (a := n) (b := (0 : BitVec 4))]
  rfl

end

/-! ## The MATCH rows by slot -/

section
variable (lh : BitVec 3) (f : Byte) (o : OffBits)

theorem ofNat_add_sub {w : Nat} (base : Nat) (sl : BitVec w) : BitVec.ofNat w (base + sl.toNat - base) = sl := by
  rw [Nat.add_sub_cancel_left, BitVec.ofNat_toNat, BitVec.setWidth_eq]

theorem mkMatch_s4to7 (sl v : BitVec 2) :
    mkMatch (4 + sl.toNat) lh f (.raw (v.setWidth 14)) = .matchS4to7 sl lh f v := by
  have := sl.isLt
  have hv : BitVec.ofNat 2 (OffBits.rawValue (.raw (v.setWidth 14))) = v := by
    rw [OffBits.rawValue, BitVec.toNat_setWidth_of_le (by decide), BitVec.ofNat_toNat, BitVec.setWidth_eq]
  rw [mkMatch, if_neg (by omega), if_neg (by omega), if_neg (by omega), if_neg (by omega), if_pos (by omega),
    ofNat_add_sub, hv]

theorem mkMatch_s8to9 (sl : BitVec 1) : mkMatch (8 + sl.toNat) lh f o = .matchS8to9 sl lh f o := by
  have := sl.isLt
  rw [mkMatch, if_neg (by omega), if_neg (by omega), if_neg (by omega), if_neg (by omega), if_neg (by omega),
    if_pos (by omega), ofNat_add_sub]

theorem mkMatch_s10to11 (sl : BitVec 1) : mkMatch (10 + sl.toNat) lh f o = .matchS10to11 sl lh f o := by
  have := sl.isLt
  rw [mkMatch, if_neg (by omega), if_neg (by omega), if_neg (by omega), if_neg (by omega), if_neg (by omega),
    if_neg (by omega), if_pos (by omega), ofNat_add_sub]

theorem mkMatch_s12to15 (sl : BitVec 2) : mkMatch (12 + sl.toNat) lh f o = .matchS12to15 sl lh f o := by
  have := sl.isLt
  rw [mkMatch, if_neg (by omega), if_neg (by omega), if_neg (by omega), if_neg (by omega), if_neg (by omega),
    if_neg (by omega), if_neg (by omega), if_pos (by omega), ofNat_add_sub]

theorem mkMatch_s16to31 (sl : BitVec 4) : mkMatch (16 + sl.toNat) lh f o = .matchS16to31 sl lh f o := by
  rw [mkMatch, if_neg (by omega), if_neg (by omega), if_neg (by omega), if_neg (by omega), if_neg (by omega),
    if_neg (by omega), if_neg (by omega), if_neg (by omega), ofNat_add_sub]

end

section
variable {c : DecodeCtx} {lh : BitVec 3} {f : Byte} {w : Encoded}

/-- Slots 0 to 7 have raw offset bits in every block (30_encoding R94). -/
theorem decodeEncoded_rawMatch (hb : CtxBuilds c) (he : c.expect = .element) {slot : Nat} {v : BitVec 14}
    (hslot : extraBits slot < 3) (hf : footerOk lh f = true) (hv : v.toNat < 2 ^ extraBits slot)
    (hw : encodeMatch c slot lh f (.raw v) = some w) : decodeEncoded c w = .ok (mkMatch slot lh f (.raw v)) := by
  have h3 : decide (3 ≤ extraBits slot) = false := decide_eq_false (by omega)
  exact decodeEncoded_encodeMatch hb he hf (decide_eq_true hv) (by rw [h3, Bool.and_false]; rfl) hw

/-- From slot 8 on the block's type gives the offset bits their form (30_encoding R94). -/
theorem decodeEncoded_slotMatch (hb : CtxBuilds c) (he : c.expect = .element) {slot : Nat} {o : OffBits}
    (hslot : 8 ≤ slot) (ho : offsetInBlock c.aligned o) {eb : Nat} (heb : slot / 2 - 1 = eb)
    (hwf : (footerOk lh f && o.fits eb) = true) (hw : encodeMatch c slot lh f o = some w) :
    decodeEncoded c w = .ok (mkMatch slot lh f o) := by
  obtain ⟨hf, hfit⟩ := Bool.and_eq_true_iff.mp hwf
  have hx : extraBits slot = eb := (if_neg (by omega)).trans heb
  have h3 : decide (3 ≤ extraBits slot) = true := decide_eq_true (by omega)
  refine decodeEncoded_encodeMatch hb he hf (by rwa [hx]) ?_ hw
  rw [h3, Bool.and_true]
  cases o with
  | raw v => exact ho.symm
  | split v a => exact ho.symm

end

/-! ## Every instruction -/

/-- At its place in the stream, under tables that build, a well-formed instruction is decoded from its encoding. -/
theorem decodeEncoded_encode {c : DecodeCtx} {i : Instr} {w : Encoded} (hb : CtxBuilds c) (hin : readIn c i)
    (hwf : i.wf = true) (hw : encode c i = some w) : decodeEncoded c w = .ok i := by
  cases i with
  | reset | lzxFrame | adpcmBlock =>
    cases hw
    rfl
  | cmdReserved v =>
    obtain ⟨h1, h2, h3⟩ := of_decide_eq_true hwf
    cases hw
    exact congrArg Except.ok (decodeCommand_of_ne h1 h2 h3)
  | streamHdr =>
    cases hw
    exact decodeEncoded_streamHdr hin
  | streamHdrE8 fs =>
    cases hw
    exact decodeEncoded_streamHdrE8 hin fs
  | blkVerbatim b | blkAligned b | blkUncompressed b | blkReserved0 b =>
    cases hw
    exact decodeEncoded_blockHdr hin (by decide) b
  | blkReserved4to7 t b =>
    cases hw
    have ht := t.isLt
    rw [decodeEncoded_blockHdr hin (by omega), blockRow, if_neg (by omega), if_neg (by omega), if_neg (by omega),
      if_neg (by omega), ofNat_add_sub]
  | uncBody part =>
    cases part with
    | offsets a b d =>
      cases hw
      exact decodeEncoded_uncOffsets hin a b d
    | data b =>
      cases hw
      exact decodeEncoded_uncData hin b
    | close p =>
      cases hw
      exact decodeEncoded_uncClose hin.1 hin.2
  | alignLengths ls =>
    cases hw
    exact decodeEncoded_alignLengths hin (of_decide_eq_true hwf)
  | pretreeLengths ls =>
    cases hw
    exact decodeEncoded_pretreeLengths hin (of_decide_eq_true hwf)
  | preDelta d =>
    obtain ⟨l, hl, rfl⟩ := Option.map_eq_some_iff.mp hw
    exact decodeEncoded_preDelta hb hin hl
  | preDelta16 =>
    obtain ⟨l, hl, rfl⟩ := Option.map_eq_some_iff.mp hw
    exact decodeEncoded_preDelta16 hb hin hl
  | preZrun17 n =>
    obtain ⟨l, hl, rfl⟩ := Option.map_eq_some_iff.mp hw
    exact decodeEncoded_preZrun17 hb hin n hl
  | preZrun18 n =>
    obtain ⟨l, hl, rfl⟩ := Option.map_eq_some_iff.mp hw
    exact decodeEncoded_preZrun18 hb hin n hl
  | preRep19 b d =>
    obtain ⟨l, hl, hw⟩ := Option.bind_eq_some_iff.mp hw
    obtain ⟨l', hl', hw⟩ := Option.bind_eq_some_iff.mp hw
    cases hw
    exact decodeEncoded_preRep19 hb hin b hl hl'
  | lit b =>
    obtain ⟨l, hl, rfl⟩ := Option.map_eq_some_iff.mp hw
    exact decodeEncoded_lit hb hin hl
  | matchRep0 lh f | matchRep1 lh f | matchRep2 lh f | matchOff1 lh f =>
    exact decodeEncoded_rawMatch hb hin (by decide) hwf (by decide) hw
  | matchS4to7 sl lh f v =>
    obtain ⟨hf, hv⟩ := Bool.and_eq_true_iff.mp hwf
    have hsl := sl.isLt
    have hx : extraBits (4 + sl.toNat) = 1 + sl.toNat / 2 := by
      rw [extraBits, if_neg (by omega)]
      omega
    have hv14 : (v.setWidth 14).toNat = v.toNat := BitVec.toNat_setWidth_of_le (by decide)
    rw [← mkMatch_s4to7]
    exact decodeEncoded_rawMatch hb hin (by omega) hf (by rw [hv14, hx]; exact of_decide_eq_true hv) hw
  | matchS8to9 sl lh f o =>
    have hsl := sl.isLt
    rw [← mkMatch_s8to9]
    exact decodeEncoded_slotMatch hb hin.1 (by omega) hin.2 (by omega) hwf hw
  | matchS10to11 sl lh f o =>
    have hsl := sl.isLt
    rw [← mkMatch_s10to11]
    exact decodeEncoded_slotMatch hb hin.1 (by omega) hin.2 (by omega) hwf hw
  | matchS12to15 sl lh f o =>
    rw [← mkMatch_s12to15]
    exact decodeEncoded_slotMatch hb hin.1 (by omega) hin.2 (by omega) hwf hw
  | matchS16to31 sl lh f o =>
    rw [← mkMatch_s16to31]
    exact decodeEncoded_slotMatch hb hin.1 (by omega) hin.2 (by omega) hwf hw
  | lenFooter f =>
    obtain ⟨l, hl, rfl⟩ := Option.map_eq_some_iff.mp hw
    exact decodeEncoded_lenFooter hb hin hl
  | alignSym a =>
    obtain ⟨l, hl, rfl⟩ := Option.map_eq_some_iff.mp hw
    exact decodeEncoded_alignSym hb hin hl
  | adpcmMonoPreamble p d a b =>
    cases hw
    exact decodeEncoded_monoPreamble hin.1 hin.2 p d a b
  | adpcmStereoPreamble pL pR dL dR aL aR bL bR =>
    cases hw
    exact decodeEncoded_stereoPreamble hin.1 hin.2 pL pR dL dR aL aR bL bR
  | adpcmMonoByte h l | adpcmStereoByte h l =>
    cases hw
    rw [decodeEncoded_adpcmByte hin.1, hin.2]
    rfl
  | adpcmNibble n =>
    cases hw
    exact decodeEncoded_adpcmNibble hin n

theorem encode_isSome_of_fixedLayout (c : DecodeCtx) {i : Instr} (h : fixedLayout i = true) :
    (encode c i).isSome = true := by
  cases i with
  | uncBody part => cases part <;> rfl
  | preDelta | preDelta16 | preZrun17 | preZrun18 | preRep19 | lit => cases h
  | matchRep0 | matchRep1 | matchRep2 | matchOff1 => cases h
  | matchS4to7 | matchS8to9 | matchS10to11 | matchS12to15 | matchS16to31 => cases h
  | lenFooter | alignSym => cases h
  | _ => rfl

/-- Settles O54: by the instruction, each field being read back where it was written and each symbol where its code
stands. -/
theorem decodingUndoesEncoding : Obligations.DecodingUndoesEncoding :=
  ⟨fun _ _ _ hmain hlen halign hpre hin hwf hw => decodeEncoded_encode ⟨hmain, hlen, halign, hpre⟩ hin hwf hw,
    fun c _ => encode_isSome_of_fixedLayout c⟩

end Sys2Proof.Machine
end

section
/-! SUPPORT. Host accesses to the register file (40_host_commands R110, R111, R117, R118): the bits of STATUS, what a
register reads as in each lifecycle state, and the accesses that are ignored (20_memory R66, 70_reset_and_hazards
R328). -/

namespace Sys2Proof.Machine

/-! ## The bits of STATUS -/

theorem getLsbD_flagBit (b : Bool) (n : Nat) {i : Nat} (hi : i < 32) :
    (flagBit b n).getLsbD i = (b && decide (n = i)) := by
  cases b with
  | true =>
    rw [flagBit, if_pos rfl, BitVec.getLsbD_ofNat, decide_eq_true hi, Bool.true_and, Bool.true_and,
      Nat.testBit_two_pow]
  | false => simp [flagBit]

/-- Every bit of STATUS at once: a flag at one place, BTYPE from bit 4 and ERRCODE from bit 8 on. -/
theorem getLsbD_statusWord (s : State) {i : Nat} (hi : i < 32) :
    (statusWord s).getLsbD i =
      (decide (s.life = .ready) && decide (0 = i) || decide (s.life = .faulted) && decide (1 = i) ||
        s.lzx.e8Skipped && decide (2 = i) || s.lzx.hdrRead && decide (3 = i) ||
        !decide (i < 4) && s.lzx.btype.getLsbD (i - 4) || !decide (i < 8) && s.errcode.getLsbD (i - 8) ||
        s.lzx.intelStarted && decide (16 = i)) := by
  have hbtype : i - 4 < 32 := by omega
  have herr : i - 8 < 32 := by omega
  simp only [statusWord, BitVec.getLsbD_or, BitVec.getLsbD_shiftLeft, BitVec.getLsbD_setWidth, getLsbD_flagBit _ _ hi,
    hi, hbtype, herr, decide_true, Bool.true_and, beq_eq_decide]

/-- A field of STATUS is what its bits are. -/
theorem extractLsb'_statusWord {w : Nat} (s : State) (lo : Nat) (x : BitVec w)
    (h : ∀ i < w, (statusWord s).getLsbD (lo + i) = x.getLsbD i) : (statusWord s).extractLsb' lo w = x := by
  apply BitVec.eq_of_getLsbD_eq
  intro i hi
  rw [BitVec.getLsbD_extractLsb', decide_eq_true hi, Bool.true_and, h i hi]

/-- Away from the flags a bit of STATUS is one of BTYPE's or of ERRCODE's. -/
theorem getLsbD_statusWord_of_not_flag (s : State) {i : Nat} (hi : i < 32) (hflag : i ∉ [0, 1, 2, 3, 16]) :
    (statusWord s).getLsbD i =
      (!decide (i < 4) && s.lzx.btype.getLsbD (i - 4) || !decide (i < 8) && s.errcode.getLsbD (i - 8)) := by
  simp only [List.mem_cons, List.not_mem_nil, or_false, not_or] at hflag
  obtain ⟨h0, h1, h2, h3, h16⟩ := hflag
  rw [getLsbD_statusWord s hi, decide_eq_false (Ne.symm h0), decide_eq_false (Ne.symm h1),
    decide_eq_false (Ne.symm h2), decide_eq_false (Ne.symm h3), decide_eq_false (Ne.symm h16)]
  simp only [Bool.and_false, Bool.or_false, Bool.false_or]

theorem statusWord_btype (s : State) : (statusWord s).extractLsb' 4 3 = s.lzx.btype := by
  apply extractLsb'_statusWord
  intro i hi
  rw [getLsbD_statusWord_of_not_flag s (by omega) (by simp; omega), Nat.add_sub_cancel_left,
    decide_eq_false (by omega), decide_eq_true (p := 4 + i < 8) (by omega)]
  simp only [Bool.not_false, Bool.true_and, Bool.not_true, Bool.false_and, Bool.or_false]

theorem statusWord_errcode (s : State) : (statusWord s).extractLsb' 8 8 = s.errcode := by
  apply extractLsb'_statusWord
  intro i hi
  rw [getLsbD_statusWord_of_not_flag s (by omega) (by simp; omega), Nat.add_sub_cancel_left,
    BitVec.getLsbD_of_ge s.lzx.btype (8 + i - 4) (by omega), decide_eq_false (p := 8 + i < 8) (by omega)]
  simp only [Bool.and_false, Bool.not_false, Bool.true_and, Bool.false_or]

theorem statusWord_reserved (s : State) : (statusWord s).extractLsb' 17 15 = 0 := by
  apply extractLsb'_statusWord
  intro i hi
  rw [getLsbD_statusWord_of_not_flag s (by omega) (by simp; omega),
    BitVec.getLsbD_of_ge s.lzx.btype (17 + i - 4) (by omega), BitVec.getLsbD_of_ge s.errcode (17 + i - 8) (by omega)]
  simp only [Bool.and_false, Bool.or_false, BitVec.ofNat_eq_ofNat, BitVec.getLsbD_zero]

theorem statusWord_flags (s : State) :
    (statusWord s).getLsbD 0 = decide (s.life = .ready) ∧ (statusWord s).getLsbD 1 = decide (s.life = .faulted) ∧
      (statusWord s).getLsbD 2 = s.lzx.e8Skipped ∧ (statusWord s).getLsbD 3 = s.lzx.hdrRead ∧
      (statusWord s).getLsbD 7 = false ∧ (statusWord s).getLsbD 16 = s.lzx.intelStarted := by
  refine ⟨?_, ?_, ?_, ?_, ?_, ?_⟩
  all_goals
    rw [getLsbD_statusWord s (by decide)]
    simp

theorem statusWord_resetState (s : State) : statusWord (resetState s) = 1 := by
  change statusWord State.reset = 1
  decide

/-! ## Register reads -/

theorem target_reg {off : Nat} (h : off < 0x40) (ha : off % 4 = 0) : target off .b4 = .reg off := by
  rw [target, if_pos h, if_pos ⟨rfl, ha⟩]

theorem hostAccess_read_reg (s : State) {off : Nat} (h : off < 0x40) (ha : off % 4 = 0) :
    hostAccess (.read off .b4) s = hostReadRegister off s := by
  rw [hostAccess, memRead, target_reg h ha]

theorem hostAccess_write_reg (s : State) (v : Word) {off : Nat} (h : off < 0x40) (ha : off % 4 = 0) :
    hostAccess (.write off .b4 v) s = hostWriteRegister off v s := by
  rw [hostAccess, memWrite, target_reg h ha]

theorem hostReadRegister_ready {s : State} (off : Nat) (h : s.life = .ready) :
    hostReadRegister off s = { s with port.rdata := readRegister s off } := by
  simp only [hostReadRegister, h]

/-- A register with no unspecified bits reads the same in both lifecycle states. -/
theorem hostReadRegister_specified (s : State) {off : Nat} (h : unspecifiedBits off = 0) :
    hostReadRegister off s = { s with port.rdata := readRegister s off } := by
  unfold hostReadRegister
  split
  · rfl
  · rw [if_pos h]

theorem hostReadRegister_eq_rdata (off : Nat) (s : State) :
    ∃ r k, hostReadRegister off s = { s with port.rdata := r, viewReads := k } := by
  unfold hostReadRegister
  split
  · exact ⟨_, s.viewReads, rfl⟩
  · split
    · exact ⟨_, s.viewReads, rfl⟩
    · exact ⟨_, _, rfl⟩

theorem getLsbD_maskedOr {w : Nat} {x y m : BitVec w} {i : Nat} (hi : i < w) (hm : m.getLsbD i = false) :
    ((x &&& ~~~ m) ||| (y &&& m)).getLsbD i = x.getLsbD i := by
  simp only [BitVec.getLsbD_or, BitVec.getLsbD_and, BitVec.getLsbD_not, hi, hm, decide_true, Bool.not_false,
    Bool.and_true, Bool.and_false, Bool.or_false]

/-- Outside a register's unspecified bits a read shows the register, FAULTED or not (40_host_commands R111). -/
theorem hostReadRegister_rdata_specified (s : State) {off i : Nat} (hi : i < 32)
    (hspec : (unspecifiedBits off).getLsbD i = false) :
    (hostReadRegister off s).port.rdata.getLsbD i = (readRegister s off).getLsbD i := by
  unfold hostReadRegister
  split
  · rfl
  · split
    · rfl
    · exact getLsbD_maskedOr hi hspec

theorem statusUnspecified_getLsbD :
    ∀ i < 32, i ∉ [2, 3, 4, 5, 6, 16] → (unspecifiedBits 0x04).getLsbD i = false := by
  decide

/-- Settles O7: the fields by their bits; a read of STATUS shows the word, but for the bits masked while FAULTED. -/
theorem statusRegisterFields : Obligations.StatusRegisterFields := by
  refine ⟨fun s => ?_, fun s => ⟨resetState s, rfl, ?_⟩⟩
  · obtain ⟨hready, hfaulted, hskipped, hhdr, hzero, hstarted⟩ := statusWord_flags s
    refine ⟨hready, hfaulted, hskipped, hhdr, statusWord_btype s, hzero, statusWord_errcode s, hstarted,
      statusWord_reserved s, fun h => ?_, fun i hi hfield => ?_⟩
    · rw [hostAccess_read_reg s (by decide) (by decide), hostReadRegister_ready _ h]
      rfl
    · rw [hostAccess_read_reg s (by decide) (by decide)]
      exact hostReadRegister_rdata_specified s hi (statusUnspecified_getLsbD i hi hfield)
  · rw [hostAccess_read_reg _ (by decide) (by decide), hostReadRegister_ready _ rfl]
    exact statusWord_resetState s

theorem rdata_of_specified (s : State) {off : Nat} (h : off < 0x40) (ha : off % 4 = 0) (hs : unspecifiedBits off = 0) :
    (hostAccess (.read off .b4) s).port.rdata = readRegister s off := by
  rw [hostAccess_read_reg s h ha, hostReadRegister_specified s hs]

theorem rdata_of_ready {s : State} (hl : s.life = .ready) {off : Nat} (h : off < 0x40) (ha : off % 4 = 0) :
    (hostAccess (.read off .b4) s).port.rdata = readRegister s off := by
  rw [hostAccess_read_reg s h ha, hostReadRegister_ready off hl]

/-- Settles O8: `readRegister` evaluated at each offset, CMD and 0x3C reading 0. -/
theorem registerReadsShowTheState : Obligations.RegisterReadsShowTheState := by
  refine fun s => ⟨?_, fun hl => ?_⟩
  · have hread : ∀ off ∈ [0x00, 0x08, 0x0C, 0x10, 0x14, 0x18, 0x3C],
        (hostAccess (.read off .b4) s).port.rdata = readRegister s off := fun off hoff =>
      have hplace : off < 0x40 ∧ off % 4 = 0 ∧ unspecifiedBits off = 0 := by
        revert off
        decide
      rdata_of_specified s hplace.1 hplace.2.1 hplace.2.2
    refine ⟨?_, ?_, ?_, ?_, ?_, ?_, ?_⟩
    all_goals exact hread _ (by decide)
  · have hread : ∀ off ∈ [0x1C, 0x20, 0x24, 0x28, 0x2C, 0x30, 0x34, 0x38],
        (hostAccess (.read off .b4) s).port.rdata = readRegister s off := fun off hoff =>
      have hplace : off < 0x40 ∧ off % 4 = 0 := by
        revert off
        decide
      rdata_of_ready hl hplace.1 hplace.2
    refine ⟨?_, ?_, ?_, ?_, ?_, ?_, ?_, ?_⟩
    all_goals exact hread _ (by decide)

/-! ## Register writes -/

/-- Settles O9: the write lands in its register, and a command keeps the host's side of the block. -/
theorem argumentRegistersKeepWhatTheHostWrote : Obligations.ArgumentRegistersKeepWhatTheHostWrote := by
  refine ⟨fun s v => ⟨?_, ?_, ?_, ?_⟩, fun v s t h => ?_⟩
  · exact hostAccess_write_reg s v (by decide) (by decide)
  · exact hostAccess_write_reg s v (by decide) (by decide)
  · exact hostAccess_write_reg s v (by decide) (by decide)
  · exact hostAccess_write_reg s v (by decide) (by decide)
  · obtain ⟨_, hargs, _⟩ := everyInstructionLeavesTheHostSideAlone _ s t h
    exact hargs

theorem hostWriteRegister_readOnly (s : State) (v : Word) {off : Nat} (h : off ∉ [0x08, 0x0C, 0x10, 0x14]) :
    hostWriteRegister off v s = s := by
  simp only [List.mem_cons, List.not_mem_nil, or_false, not_or] at h
  obtain ⟨hin, hframe, hchannels, hblock⟩ := h
  rw [hostWriteRegister, if_neg hin, if_neg hframe, if_neg hchannels, if_neg hblock]

/-! ## Accesses that are ignored -/

/-- A narrow or misaligned register access, an unmapped offset, or two regions (20_memory R66, 70_reset_and_hazards
R328). -/
theorem target_ignored {addr : Nat} {n : AccessSize}
    (h : addr < 0x40 ∧ (n ≠ .b4 ∨ addr % 4 ≠ 0) ∨
      0x40 ≤ addr ∧ ¬ (0x10000 ≤ addr ∧ addr + n.bytes ≤ 0x30000) ∧
        ¬ (0x30000 ≤ addr ∧ addr + n.bytes ≤ 0x50000)) : target addr n = .ignored := by
  have hin : 0x10000 + Config.inCapacity = 0x30000 := rfl
  have hout : 0x30000 + Config.outCapacity = 0x50000 := rfl
  obtain ⟨hreg, hill⟩ | ⟨hreg, hnin, hnout⟩ := h
  · rw [target, if_pos hreg, if_neg (by tauto)]
  · rw [target, hin, hout, if_neg (by omega), if_neg hnin, if_neg hnout]

theorem memWrite_of_ignored {addr : Nat} {n : AccessSize} (v : Word) (s : State) (h : target addr n = .ignored) :
    memWrite addr n v s = s := by
  rw [memWrite, h]

theorem memRead_of_ignored {addr : Nat} {n : AccessSize} (s : State) (h : target addr n = .ignored) :
    memRead addr n s = { s with port.rdata := 0 } := by
  rw [memRead, h]

/-- A read in the register range is a register's or ignored; either way it leaves the value read and the count of free
reads. -/
theorem memRead_registerRange (s : State) {off : Nat} (n : AccessSize) (h : off < 0x40) :
    ∃ r k, memRead off n s = { s with port.rdata := r, viewReads := k } := by
  by_cases hplace : n = .b4 ∧ off % 4 = 0
  · obtain ⟨rfl, ha⟩ := hplace
    rw [memRead, target_reg h ha]
    exact hostReadRegister_eq_rdata off s
  · exact ⟨0, s.viewReads, memRead_of_ignored s (target_ignored (.inl ⟨h, by tauto⟩))⟩

/-- Settles O10: by where the access lands. -/
theorem registerReadsAndIllPlacedAccessesHaveNoEffect :
    Obligations.RegisterReadsAndIllPlacedAccessesHaveNoEffect := by
  refine fun s => ⟨fun off n h => memRead_registerRange s n h, fun v off hoff => ?_, fun addr n v h =>
    ⟨memWrite_of_ignored v s (target_ignored h), memRead_of_ignored s (target_ignored h)⟩⟩
  obtain ⟨hreg, ha, hreadOnly⟩ : off < 0x40 ∧ off % 4 = 0 ∧ off ∉ [0x08, 0x0C, 0x10, 0x14] := by
    revert off
    decide
  rw [hostAccess_write_reg s v hreg ha, hostWriteRegister_readOnly s v hreadOnly]

end Sys2Proof.Machine
end

section
/-! SUPPORT. One step of the block (40_host_commands R112, R120; log 2, 3, 20): what it runs by what is fetched, that it
answers a next state, and that a command's loop is its elements' steps one after another. -/

namespace Sys2Proof.Machine

/-! ## Every step answers a next state -/

theorem runEngine_next (fuel : Nat) (s : State) : ∃ t, runEngine fuel s = .next t := by
  obtain ⟨t, ht, _⟩ := runEngine_keeps (fun _ => True) (fun _ _ _ _ _ _ => trivial) fuel s trivial
  exact ⟨t, ht⟩

theorem runCommand_next (start : State → Except ErrCode State) (s : State) : ∃ t, runCommand start s = .next t := by
  obtain ⟨_, _, hr⟩ | ⟨u, _, hr⟩ := runCommand_cases start s
  · exact ⟨_, hr⟩
  · rw [hr]
    exact runEngine_next _ u

theorem execLzxFrame_ready {s : State} (h : s.life = .ready) : execLzxFrame s = runCommand startLzx s := by
  simp only [execLzxFrame, h]

theorem execLzxFrame_faulted {s : State} (h : s.life = .faulted) : execLzxFrame s = .next s := by
  simp only [execLzxFrame, h]

theorem execAdpcmBlock_ready {s : State} (h : s.life = .ready) : execAdpcmBlock s = runCommand startAdpcm s := by
  simp only [execAdpcmBlock, h]

theorem execAdpcmBlock_faulted {s : State} (h : s.life = .faulted) : execAdpcmBlock s = .next s := by
  simp only [execAdpcmBlock, h]

theorem exec_decodeCommand_next (v : Word) (s : State) : ∃ t, exec (decodeCommand v) s = .next t := by
  obtain hc | hc | hc | hc := decodeCommand_cases v <;> rw [hc]
  · exact ⟨resetState s, rfl⟩
  · cases hl : s.life with
    | ready =>
      obtain ⟨t, ht⟩ := runCommand_next startLzx s
      exact ⟨t, (execLzxFrame_ready hl).trans ht⟩
    | faulted => exact ⟨s, execLzxFrame_faulted hl⟩
  · cases hl : s.life with
    | ready =>
      obtain ⟨t, ht⟩ := runCommand_next startAdpcm s
      exact ⟨t, (execAdpcmBlock_ready hl).trans ht⟩
    | faulted => exact ⟨s, execAdpcmBlock_faulted hl⟩
  · cases hl : s.life with
    | ready => exact ⟨_, execCmdReserved_ready v hl⟩
    | faulted => exact ⟨s, execCmdReserved_faulted v hl⟩

theorem step_next (s : State) : ∃ t, step s = .next t := by
  cases he : s.seq.expect with
  | some e => exact step_of_expect he ▸ engineStep_next e s
  | none =>
    obtain hq | ⟨v, rest, hc⟩ | ⟨a, rest, ha⟩ := step_idle_cases he
    · exact ⟨s, hq⟩
    · exact hc ▸ exec_decodeCommand_next v _
    · exact ⟨_, ha⟩

/-! ## What a step runs -/

theorem step_of_instr {s t : State} {i : Instr} (h : fetch s = .instr i t) : step s = exec i t := by
  rw [step, h]

theorem step_of_raised {s t : State} {err : ErrCode} (h : fetch s = .raised err t) :
    step s = .next (takeFault err t) := by
  rw [step, h]

theorem step_of_access {s t : State} {a : HostAccess} (h : fetch s = .access a t) :
    step s = .next (hostAccess a t) := by
  rw [step, h]

theorem fetch_command {s : State} {v : Word} {rest : List HostAccess} (he : s.seq.expect = none)
    (hp : s.port.pending = .write 0 .b4 v :: rest) :
    fetch s = .instr (decodeCommand v) { s with port.pending := rest } := by
  simp only [fetch, he, hp]

theorem fetch_access {s : State} {a : HostAccess} {rest : List HostAccess} (he : s.seq.expect = none)
    (hp : s.port.pending = a :: rest) (ha : ∀ v, a ≠ .write 0 .b4 v) :
    fetch s = .access a { s with port.pending := rest } := by
  simp only [fetch, he, hp]

theorem fetch_quiet {s : State} (he : s.seq.expect = none) (hp : s.port.pending = []) : fetch s = .quiet := by
  simp only [fetch, he, hp]

theorem fetch_of_fetchElement {s t : State} {e : Expect} {i : Instr} (he : s.seq.expect = some e)
    (h : fetchElement e s = .ok (i, t)) : fetch s = .instr i t := by
  simp only [fetch, he, h]

theorem fetch_raised {s : State} {e : Expect} {err : ErrCode} (he : s.seq.expect = some e)
    (h : fetchElement e s = .error err) : fetch s = .raised err s := by
  simp only [fetch, he, h]

theorem fetchElement_bits {e : Expect} {s : State} {i : Instr} {k : Nat} (hb : e.isBits = true)
    (h : decodeBits (decodeCtx s e) (bitSource s) = .ok (i, k)) : fetchElement e s = .ok (i, advanceBits s k) := by
  rw [fetchElement, if_pos hb, h]

theorem fetchElement_raw {e : Expect} {s : State} {i : Instr} {k : Nat} (hb : e.isBits = false)
    (ha : isAdpcm e = false) (h : decodeBytes (decodeCtx s e) (rawSource s) = .ok (i, k)) :
    fetchElement e s = .ok (i, advanceRaw s k) := by
  rw [fetchElement, hb, ha, h]
  rfl

theorem fetchElement_adpcm {e : Expect} {s : State} {i : Instr} {k : Nat} (hb : e.isBits = false)
    (ha : isAdpcm e = true) (h : decodeBytes (decodeCtx s e) (adpcmSource s) = .ok (i, k)) :
    fetchElement e s = .ok (i, s) := by
  rw [fetchElement, hb, ha, h]
  rfl

/-- Settles O51: by what `fetch` finds, between commands and inside one. -/
theorem stepRunsTheFetchedInstruction : Obligations.StepRunsTheFetchedInstruction := by
  refine ⟨fun s v rest he hp => step_of_instr (fetch_command he hp),
    fun s a rest he hp ha => step_of_access (fetch_access he hp ha), fun s he hp => ?_,
    fun s e i k he => ⟨fun hb h => ?_, fun hb ha h => ?_, fun hb ha h => ?_⟩,
    fun s e err he h => step_of_raised (fetch_raised he h), step_next⟩
  · rw [step, fetch_quiet he hp]
  · exact step_of_instr (fetch_of_fetchElement he (fetchElement_bits hb h))
  · exact step_of_instr (fetch_of_fetchElement he (fetchElement_raw hb ha h))
  · exact step_of_instr (fetch_of_fetchElement he (fetchElement_adpcm hb ha h))

/-! ## A command is its elements -/

/-- The command loop is as many steps as elements are left, or as its fuel allows. -/
theorem runEngine_stepsTo {fuel : Nat} {s t : State} (h : runEngine fuel s = .next t) : ∃ k, StepsTo k s t := by
  induction fuel generalizing s with
  | zero =>
    cases h
    exact ⟨0, rfl⟩
  | succ n ih =>
    cases he : s.seq.expect with
    | none =>
      rw [runEngine_idle _ s he] at h
      cases h
      exact ⟨0, rfl⟩
    | some e =>
      obtain ⟨u, hu⟩ := engineStep_next e s
      rw [runEngine_step n s u e he hu] at h
      obtain ⟨k, hk⟩ := ih h
      exact ⟨k + 1, u, (step_of_expect he).trans hu, hk⟩

theorem runCommand_of_start {start : State → Except ErrCode State} {s u : State}
    (h : start { s with outCount := 0 } = .ok u) : runCommand start s = runEngine (workBound s) u := by
  simp only [runCommand, h]

theorem runCommand_stepsTo {start : State → Except ErrCode State} {s u : State}
    (h : start { s with outCount := 0 } = .ok u) : ∃ k t, runCommand start s = .next t ∧ StepsTo k u t := by
  obtain ⟨t, ht⟩ := runEngine_next (workBound s) u
  obtain ⟨k, hk⟩ := runEngine_stepsTo ht
  exact ⟨k, t, (runCommand_of_start h).trans ht, hk⟩

/-- Settles O52: each accepted command is its loop, and the loop its elements' steps. -/
theorem commandsRunAsTheirElements : Obligations.CommandsRunAsTheirElements := by
  intro s u hl
  refine ⟨fun h => ?_, fun h => ?_⟩
  · obtain ⟨k, t, hr, hk⟩ := runCommand_stepsTo h
    exact ⟨k, t, (execLzxFrame_ready hl).trans hr, hk⟩
  · obtain ⟨k, t, hr, hk⟩ := runCommand_stepsTo h
    exact ⟨k, t, (execAdpcmBlock_ready hl).trans hr, hk⟩

end Sys2Proof.Machine
end

section
/-! SUPPORT. The argument checks of LZX_FRAME (40_host_commands R114), the end of a frame (45_lzx_frame R234 to R236),
and the copy of an UNCOMPRESSED run from IN to the window (44_lzx_symbols R218). -/

namespace Sys2Proof.Machine

/-! ## The argument checks -/

theorem frameSize_eq_zero_iff (s : State) : s.args.frameSize = 0 ↔ s.args.frameSize.toNat = 0 := by
  rw [← BitVec.toNat_inj]
  rfl

theorem startLzx_badFrameSize {s : State} (h : s.args.frameSize.toNat = 0 ∨ 65535 < s.args.frameSize.toNat) :
    startLzx s = .error .badFrameSize := by
  rw [startLzx, if_pos (h.imp_left (frameSize_eq_zero_iff s).mpr)]

theorem frameSize_accepted {s : State} (h1 : 1 ≤ s.args.frameSize.toNat) (h2 : s.args.frameSize.toNat ≤ 65535) :
    ¬ (s.args.frameSize = 0 ∨ 65535 < s.args.frameSize.toNat) := by
  rw [frameSize_eq_zero_iff]
  omega

theorem startLzx_badLength {s : State} (h1 : 1 ≤ s.args.frameSize.toNat) (h2 : s.args.frameSize.toNat ≤ 65535)
    (h3 : 131070 < s.args.inLen.toNat) : startLzx s = .error .badLength := by
  have hcap : Config.inCapacity - 2 = 131070 := rfl
  rw [startLzx, hcap, if_neg (frameSize_accepted h1 h2), if_pos h3]

/-- What LZX_FRAME does once its arguments are accepted (45_lzx_frame R230). -/
theorem startLzx_accepted {s : State} (h1 : 1 ≤ s.args.frameSize.toNat) (h2 : s.args.frameSize.toNat ≤ 65535)
    (h3 : s.args.inLen.toNat ≤ 131070) :
    startLzx s =
      if s.lzx.hdrRead = true then
        continueFrame (initReader { s with seq.togo := s.args.frameSize.toNat, seq.run := 0 })
      else .ok (expectNext .streamHdr (initReader { s with seq.togo := s.args.frameSize.toNat, seq.run := 0 })) := by
  have hcap : Config.inCapacity - 2 = 131070 := rfl
  rw [startLzx, hcap, if_neg (frameSize_accepted h1 h2), if_neg (Nat.not_lt.mpr h3)]
  rfl

theorem finishFrame_error {s : State} {e : ErrCode} (h : finishFrame s = .error e) :
    e8Bookkeeping s.args.frameSize.toNat s = .error e := by
  unfold finishFrame at h
  cases hu : e8Bookkeeping s.args.frameSize.toNat s with
  | error e' => simpa [hu, bind, Except.bind] using h
  | ok u => simp [hu, bind, Except.bind] at h

/-- A turn of the frame loop raises the two faults of 45_lzx_frame R232 and R236 only. -/
theorem continueFrame_error {s : State} {e : ErrCode} (h : continueFrame s = .error e) :
    e = .e8TranslationRequired ∨ e = .runStraddlesWindow := by
  unfold continueFrame at h
  split_ifs at h with htogo hbrem
  · exact .inl (e8Bookkeeping_error (finishFrame_error h)).1
  · exact .inr (beginRun_error h).1

theorem execLzxFrame_raises {s : State} {e : ErrCode} (hl : s.life = .ready)
    (h : startLzx { s with outCount := 0 } = .error e) : Raises .lzxFrame s e := by
  refine ⟨takeFault e { s with outCount := 0 }, ?_, takeFault_faultTaken e { s with outCount := 0 }⟩
  refine (execLzxFrame_ready hl).trans ?_
  simp only [runCommand, h]

/-- Settles O40: the checks in their order; past them only the frame loop can raise. -/
theorem lzxArgumentChecksComeInOrder : Obligations.LzxArgumentChecksComeInOrder := by
  refine fun s hl => ⟨fun h => execLzxFrame_raises hl (startLzx_badFrameSize h),
    fun h1 h2 h3 => execLzxFrame_raises hl (startLzx_badLength h1 h2 h3), fun h1 h2 h3 e he => ?_⟩
  rw [startLzx_accepted h1 h2 h3] at he
  split_ifs at he
  obtain rfl | rfl := continueFrame_error he <;> exact ⟨nofun, nofun⟩

/-! ## The end of a frame -/

/-- The frame faults at its end: the filter would scan it, under E8_POLICY = Fault (45_lzx_frame R236). -/
def E8Raises (f : Nat) (s : State) : Prop :=
  s.e8Policy = .fault ∧ s.lzx.framesRead < 32768 ∧ s.lzx.intelFilesize ≠ 0 ∧ 6 < f ∧ s.lzx.intelStarted = true

/-- The Intel-E8 books after a frame of `f` bytes (45_lzx_frame R235). -/
def e8Booked (f : Nat) (l : Lzx) : Lzx :=
  { l with
    framesRead := min (l.framesRead + 1) 32768
    intelCurpos :=
      if l.framesRead < 32768 ∧ l.intelFilesize ≠ 0 then l.intelCurpos + BitVec.ofNat 32 f else l.intelCurpos
    e8Skipped :=
      if l.framesRead < 32768 ∧ l.intelFilesize ≠ 0 ∧ 6 < f ∧ l.intelStarted = true then true else l.e8Skipped }

/-- The bookkeeping of a frame under E8_POLICY = PassThrough, or of one the filter would not scan (45_lzx_frame R235,
R236). -/
theorem e8Bookkeeping_ok {f : Nat} {s : State} (h : ¬ E8Raises f s) :
    e8Bookkeeping f s = .ok { s with lzx := e8Booked f s.lzx } := by
  cases hu : e8Bookkeeping f s with
  | error e => exact absurd (e8Bookkeeping_error hu).2 h
  | ok u =>
    obtain ⟨hu, hcurpos, hskipped⟩ := e8Bookkeeping_cases hu
    rw [hu, hcurpos, hskipped]
    rfl

/-- The frame's end as one explicit next state, where no E8 fault is raised. -/
theorem finishFrame_ok {s : State} {f : Nat} (hf : f = s.args.frameSize.toNat) (h : ¬ E8Raises f s) :
    finishFrame s =
      .ok
        { s with
          lzx := e8Booked f s.lzx
          outBuf := Memory.putList s.outBuf 0 (frameBytes s.lzx f)
          outCount := s.args.frameSize
          seq.expect := none } := by
  subst hf
  rw [finishFrame, e8Bookkeeping_ok h]
  rfl

theorem frameBytes_eq_ofFn (l : Lzx) (f : Nat) :
    frameBytes l f = List.ofFn fun k : Fin f => winGet l.win ((l.wpos : Int) - f + (k : Nat)) := by
  apply List.ext_getElem
  · simp [frameBytes]
  · intro k _ _
    simp [frameBytes, ← List.map_eq_flatMap]

/-- OUT after a frame: its F window bytes first, every other byte as it was (45_lzx_frame R234, 20_memory R62). -/
theorem getD_putList_frameBytes (m : Memory) (l : Lzx) (f k : Nat) (d : Byte) :
    (Memory.get (Memory.putList m 0 (frameBytes l f)) k).getD d =
      if k < f then winGet l.win ((l.wpos : Int) - f + k) else (Memory.get m k).getD d := by
  rw [Memory.get_putList, frameBytes_eq_ofFn, List.length_ofFn, Nat.zero_add]
  by_cases hk : k < f
  · rw [if_pos ⟨Nat.zero_le k, hk⟩, if_pos hk, Nat.sub_zero, List.getElem?_ofFn, dif_pos hk, Option.getD_some]
  · rw [if_neg (fun h => hk h.2), if_neg hk]

/-! ## A run copied from IN -/

/-- One byte of an UNCOMPRESSED run: read at RAWPOS, written at WPOS (44_lzx_symbols R218). -/
def copyRawByte (s : State) : State := putWindowByte (inByte s s.rdr.rawpos) (advanceRaw s 1)

/-- `n` bytes of an UNCOMPRESSED run, one after another. -/
def copyRawBytes : Nat → State → State
  | 0, s => s
  | n + 1, s => copyRawBytes n (copyRawByte s)

/-- Copied bytes change the window, and move WPOS, RAWPOS and the run by one each. -/
theorem copyRawBytes_eq (n : Nat) (s : State) :
    copyRawBytes n s =
      { s with
        lzx.win := (copyRawBytes n s).lzx.win
        lzx.wpos := s.lzx.wpos + n
        rdr.rawpos := s.rdr.rawpos + n
        seq.run := s.seq.run - n } := by
  induction n generalizing s with
  | zero => rfl
  | succ n ih =>
    rw [copyRawBytes, ih (copyRawByte s)]
    simp only [copyRawByte, putWindowByte, advanceRaw, Nat.add_assoc, Nat.add_comm 1 n, Nat.sub_sub]

/-- Window byte WPOS + k becomes IN byte RAWPOS + k; the other bytes stay as they were. -/
theorem winGet_copyRawBytes (n : Nat) {s : State} (hw : s.lzx.wpos + n ≤ 65536) (i : Int) :
    winGet (copyRawBytes n s).lzx.win i =
      if s.lzx.wpos ≤ winIndex i ∧ winIndex i < s.lzx.wpos + n then
        inByte s (s.rdr.rawpos + (winIndex i - s.lzx.wpos))
      else winGet s.lzx.win i := by
  induction n generalizing s with
  | zero => rw [if_neg (by omega), copyRawBytes]
  | succ n ih =>
    have hat : winIndex (s.lzx.wpos : Int) = s.lzx.wpos := winIndex_nat (by omega)
    have hwpos : (copyRawByte s).lzx.wpos = s.lzx.wpos + 1 := rfl
    have hwin : (copyRawByte s).lzx.win = winSet s.lzx.win s.lzx.wpos (inByte s s.rdr.rawpos) := rfl
    have hbyte : ∀ k, inByte (copyRawByte s) ((copyRawByte s).rdr.rawpos + k) = inByte s (s.rdr.rawpos + (k + 1)) :=
      fun k => by rw [Nat.add_comm k 1, ← Nat.add_assoc]; rfl
    rw [copyRawBytes, ih (by omega), hwpos, hwin, hbyte]
    by_cases hfirst : winIndex i = s.lzx.wpos
    · rw [if_neg (by omega), if_pos (by omega), winGet_congr _ (hfirst.trans hat.symm), winGet_winSet_same,
        hfirst, Nat.sub_self, Nat.add_zero]
    · rw [winGet_winSet_other _ _ (by rwa [hat])]
      by_cases hrest : s.lzx.wpos + 1 ≤ winIndex i ∧ winIndex i < s.lzx.wpos + 1 + n
      · rw [if_pos hrest, if_pos (by omega), show winIndex i - (s.lzx.wpos + 1) + 1 = winIndex i - s.lzx.wpos by omega]
      · rw [if_neg hrest, if_neg (by omega)]

theorem fetchElement_uncData {s : State} (h : s.rdr.rawpos < s.args.inLen.toNat) :
    fetchElement .uncData s = .ok (.uncBody (.data (inByte s s.rdr.rawpos)), advanceRaw s 1) := by
  have hbyte : rawByte (rawSource s) 0 = .ok (inByte s s.rdr.rawpos) := by
    rw [rawByte, rawSource, if_neg (by omega), Nat.add_zero]
  apply fetchElement_raw rfl rfl
  rw [decodeBytes_uncData rfl, decodeUncData, exceptBind_of_ok hbyte]

theorem engineStep_uncData {s : State} (h : s.rdr.rawpos < s.args.inLen.toNat) :
    engineStep .uncData s = .next (settle (advanceRaw s 1) (continueRun (copyRawByte s))) := by
  rw [engineStep, fetchElement_uncData h]
  rfl

/-- The command loop copies a whole UNCOMPRESSED run, one byte for one fuel, and then takes a turn of the frame loop
(45_lzx_frame R233). -/
theorem runEngine_copyRawBytes (fuel n : Nat) {s t : State} (he : s.seq.expect = some .uncData)
    (hrun : s.seq.run = n + 1) (hin : s.rdr.rawpos + (n + 1) ≤ s.args.inLen.toNat)
    (ht : continueFrame (copyRawBytes (n + 1) s) = .ok t) : runEngine (fuel + (n + 1)) s = runEngine fuel t := by
  have hstep := engineStep_uncData (s := s) (by omega)
  have hleft : (copyRawByte s).seq.run = n := by
    change s.seq.run - 1 = n
    omega
  induction n generalizing s with
  | zero =>
    have hcont : continueRun (copyRawByte s) = .ok t := by rwa [continueRun, if_pos hleft]
    rw [hcont, settle_ok] at hstep
    exact runEngine_step fuel s t .uncData he hstep
  | succ n ih =>
    have hcont : continueRun (copyRawByte s) = .ok (copyRawByte s) := by rw [continueRun, if_neg (by omega)]
    have hrawpos : (copyRawByte s).rdr.rawpos = s.rdr.rawpos + 1 := rfl
    have hargs : (copyRawByte s).args = s.args := rfl
    have hin' : (copyRawByte s).rdr.rawpos + (n + 1) ≤ (copyRawByte s).args.inLen.toNat := by
      rw [hrawpos, hargs]
      omega
    rw [hcont, settle_ok] at hstep
    rw [← Nat.add_assoc fuel, runEngine_step _ s _ .uncData he hstep]
    refine ih he hleft hin' ht (engineStep_uncData (by omega)) ?_
    change (copyRawByte s).seq.run - 1 = n
    omega

/-! ## A frame inside an UNCOMPRESSED block -/

/-- The frame of `f` bytes that LZX_FRAME is to decode lies inside an UNCOMPRESSED block, is in IN, and fits the window
(45_lzx_frame R232). -/
structure FrameInUncompressedBlock (f : Nat) (s : State) : Prop where
  /-- The stream header was read. -/
  hdrRead : s.lzx.hdrRead = true
  /-- The block is UNCOMPRESSED. -/
  btype : s.lzx.btype = 3
  /-- `f` is FRAME_SIZE. -/
  frameSize : f = s.args.frameSize.toNat
  /-- FRAME_SIZE is not 0 (40_host_commands R114). -/
  pos : 1 ≤ f
  /-- FRAME_SIZE is legal (40_host_commands R114). -/
  le_maxFrame : f ≤ 65535
  /-- The block owes the whole frame. -/
  le_brem : f ≤ s.lzx.brem.toNat
  /-- IN holds the whole frame. -/
  le_inLen : f ≤ s.args.inLen.toNat
  /-- IN_LEN is legal (40_host_commands R114). -/
  inLen_le : s.args.inLen.toNat ≤ 131070
  /-- The run does not pass the window's end. -/
  fits : s.lzx.wpos % 65536 + f ≤ 65536

/-- LZX_FRAME at the first byte of a run of `f` bytes that is the whole frame (41_bitstream R130, 45_lzx_frame R232). -/
def wholeFrameRun (f : Nat) (s : State) : State :=
  { initReader { s with outCount := 0 } with
    lzx.brem := BitVec.ofNat 24 (s.lzx.brem.toNat - f)
    lzx.wpos := s.lzx.wpos % 65536
    seq.togo := 0
    seq.run := f
    seq.expect := some .uncData }

/-- The frame of an UNCOMPRESSED run copied from IN, its end included (45_lzx_frame R234, R235). -/
def uncompressedFrame (f : Nat) (s : State) : State :=
  let u := copyRawBytes f (wholeFrameRun f s)
  { u with
    lzx := e8Booked f u.lzx
    outBuf := Memory.putList s.outBuf 0 (frameBytes u.lzx f)
    outCount := s.args.frameSize
    seq.expect := none }

theorem continueFrame_eq_beginRun {s : State} (htogo : s.seq.togo ≠ 0) (hbrem : s.lzx.brem ≠ 0) :
    continueFrame s = beginRun s := by
  rw [continueFrame, if_neg htogo, if_neg hbrem]

theorem continueFrame_eq_finishFrame {s : State} (htogo : s.seq.togo = 0) : continueFrame s = finishFrame s := by
  rw [continueFrame, if_pos htogo]

theorem beginRun_uncompressed {s : State} {f : Nat} (hbtype : s.lzx.btype = 3) (hf : s.seq.togo = f)
    (hbrem : f ≤ s.lzx.brem.toNat) (hw : s.lzx.wpos % 65536 + f ≤ 65536) :
    beginRun s =
      .ok
        { s with
          lzx.brem := BitVec.ofNat 24 (s.lzx.brem.toNat - f)
          lzx.wpos := s.lzx.wpos % 65536
          seq.togo := 0
          seq.run := f
          seq.expect := some .uncData } := by
  have hn : min s.lzx.brem.toNat f = f := Nat.min_eq_right hbrem
  simp only [beginRun, hf, hn, if_neg (Nat.not_lt.mpr hw), Nat.sub_self, hbtype]
  rfl

theorem startLzx_wholeFrameRun {s : State} {f : Nat} (h : FrameInUncompressedBlock f s) :
    startLzx { s with outCount := 0 } = .ok (wholeFrameRun f s) := by
  obtain ⟨hhdr, hbtype, rfl, h1, h2, hbrem, _, hlen, hw⟩ := h
  have hbrem0 : s.lzx.brem ≠ 0 := by
    intro h0
    rw [h0] at hbrem
    exact absurd (h1.trans hbrem) (by decide)
  rw [startLzx_accepted (s := { s with outCount := 0 }) h1 h2 hlen, if_pos hhdr, continueFrame_eq_beginRun]
  · exact beginRun_uncompressed hbtype rfl hbrem hw
  · exact Nat.ne_of_gt h1
  · exact hbrem0

theorem continueFrame_uncompressedFrame {s : State} {f : Nat} (hf : f = s.args.frameSize.toNat)
    (he8 : ¬ E8Raises f s) : continueFrame (copyRawBytes f (wholeFrameRun f s)) = .ok (uncompressedFrame f s) := by
  have hrun := copyRawBytes_eq f (wholeFrameRun f s)
  have htogo : (copyRawBytes f (wholeFrameRun f s)).seq.togo = 0 := by rw [hrun]; rfl
  rw [continueFrame_eq_finishFrame htogo, uncompressedFrame, hrun]
  exact finishFrame_ok hf he8

theorem execLzxFrame_uncompressedFrame {s : State} {f : Nat} (hl : s.life = .ready)
    (h : FrameInUncompressedBlock f s) (he8 : ¬ E8Raises f s) : execLzxFrame s = .next (uncompressedFrame f s) := by
  have hpos := h.pos
  have hin := h.le_inLen
  obtain ⟨n, rfl⟩ : ∃ n, f = n + 1 := ⟨f - 1, by omega⟩
  obtain ⟨fuel, hfuel⟩ : ∃ fuel, workBound s = fuel + (n + 1) := Nat.exists_eq_add_of_le' (by rw [workBound]; omega)
  have hin' : (wholeFrameRun (n + 1) s).rdr.rawpos + (n + 1) ≤ (wholeFrameRun (n + 1) s).args.inLen.toNat := by
    change 0 + (n + 1) ≤ s.args.inLen.toNat
    omega
  calc execLzxFrame s
    _ = runCommand startLzx s := execLzxFrame_ready hl
    _ = runEngine (workBound s) (wholeFrameRun (n + 1) s) := runCommand_of_start (startLzx_wholeFrameRun h)
    _ = runEngine fuel (uncompressedFrame (n + 1) s) := by
      rw [hfuel]
      exact runEngine_copyRawBytes fuel n rfl rfl hin' (continueFrame_uncompressedFrame h.frameSize he8)
    _ = .next (uncompressedFrame (n + 1) s) := runEngine_idle _ _ rfl

/-- The window after the frame holds IN[0..f-1] from WPOS on (44_lzx_symbols R218). -/
theorem winGet_uncompressedFrame {s : State} {f : Nat} (hw : s.lzx.wpos % 65536 + f ≤ 65536) (i : Int) :
    winGet (uncompressedFrame f s).lzx.win i =
      if s.lzx.wpos % 65536 ≤ winIndex i ∧ winIndex i < s.lzx.wpos % 65536 + f then
        inByte s (winIndex i - s.lzx.wpos % 65536)
      else winGet s.lzx.win i := by
  have h := winGet_copyRawBytes f (s := wholeFrameRun f s) hw i
  rwa [show (wholeFrameRun f s).rdr.rawpos = 0 from rfl, Nat.zero_add] at h

/-- OUT after the frame holds IN[0..f-1], its other bytes as they were (45_lzx_frame R234). -/
theorem outByte_uncompressedFrame {s : State} {f : Nat} (hw : s.lzx.wpos % 65536 + f ≤ 65536) (k : Nat) :
    outByte (uncompressedFrame f s) k = if k < f then inByte s k else outByte s k := by
  have hrun := copyRawBytes_eq f (wholeFrameRun f s)
  have hwpos : (copyRawBytes f (wholeFrameRun f s)).lzx.wpos = s.lzx.wpos % 65536 + f := by rw [hrun]; rfl
  have hepoch : (uncompressedFrame f s).outEpoch = s.outEpoch := by rw [uncompressedFrame, hrun]; rfl
  rw [outByte, hepoch, uncompressedFrame, getD_putList_frameBytes, hwpos]
  by_cases hk : k < f
  · have hindex : winIndex (((s.lzx.wpos % 65536 + f : Nat) : Int) - f + k) = s.lzx.wpos % 65536 + k := by
      rw [show ((s.lzx.wpos % 65536 + f : Nat) : Int) - f + k = ((s.lzx.wpos % 65536 + k : Nat) : Int) by omega]
      exact winIndex_nat (by omega)
    have hbyte := winGet_uncompressedFrame hw (((s.lzx.wpos % 65536 + f : Nat) : Int) - f + k)
    rw [hindex, if_pos (by omega), Nat.add_sub_cancel_left] at hbyte
    rw [if_pos hk, if_pos hk]
    exact hbyte
  · rw [if_neg hk, if_neg hk]
    rfl

/-- The LZX state after the frame but for the window. -/
theorem uncompressedFrame_lzx (f : Nat) (s : State) :
    (uncompressedFrame f s).lzx =
      { e8Booked f s.lzx with
        win := (uncompressedFrame f s).lzx.win
        wpos := s.lzx.wpos % 65536 + f
        brem := BitVec.ofNat 24 (s.lzx.brem.toNat - f) } := by
  rw [uncompressedFrame, copyRawBytes_eq]
  rfl

theorem uncompressedFrame_life (f : Nat) (s : State) :
    (uncompressedFrame f s).life = s.life ∧ (uncompressedFrame f s).errcode = s.errcode := by
  rw [uncompressedFrame, copyRawBytes_eq]
  exact ⟨rfl, rfl⟩

/-- Settles O41: the command runs to `uncompressedFrame`, whose bytes are IN's; the rest is LZX_FRAME's own frame. -/
theorem lzxFrameCopiesAnUncompressedRun : Obligations.LzxFrameCopiesAnUncompressedRun := by
  intro s f hl hhdr hbtype hf h1 h2 hbrem hin hlen hw he8
  have hexec := execLzxFrame_uncompressedFrame hl ⟨hhdr, hbtype, hf, h1, h2, hbrem, hin, hlen, hw⟩ he8
  have hframe := execLzxFrame_engineFrame hexec
  obtain ⟨hinBuf, hargs, _, hport, _⟩ := hframe.sameHostSide
  obtain ⟨hlife, herr⟩ := uncompressedFrame_life f s
  exact ⟨uncompressedFrame f s, hexec, hlife.trans hl, herr, rfl, rfl, outByte_uncompressedFrame hw,
    winGet_uncompressedFrame hw, uncompressedFrame_lzx f s, hframe.sameOtherEngine, hargs, hinBuf, hport⟩

end Sys2Proof.Machine
end

section
/-! SUPPORT. The reader (41_bitstream R132 to R138): which bits and raw bytes are there, the value of `readBits` bit by
bit, and the pad byte that closes an UNCOMPRESSED block (43_lzx_block_headers R184). -/

namespace Sys2Proof.Machine

/-! ## Reading bits -/

section
variable {src : BitSource} {pos n : Nat}

/-- Bit `n - 1 - i` of the value is the `i`-th bit read: every further bit doubles what stands before it. -/
theorem testBit_of_readBits {v : Nat} (h : readBits src pos n = .ok v) :
    ∀ i, i < n → src (pos + i) = some (v.testBit (n - 1 - i)) := by
  induction n generalizing v with
  | zero => exact fun i hi => absurd hi (Nat.not_lt_zero i)
  | succ n ih =>
    intro i hi
    obtain ⟨u, hu, h⟩ := exceptBind_eq_ok h
    split at h
    · cases h
    next b hb =>
      cases h
      rw [← Nat.bit_val]
      rcases Nat.lt_succ_iff_lt_or_eq.mp hi with hlt | rfl
      · rw [show n + 1 - 1 - i = n - 1 - i + 1 by omega, Nat.testBit_bit_succ]
        exact ih hu i hlt
      · rw [Nat.add_sub_cancel, Nat.sub_self, Nat.testBit_bit_zero]
        exact hb

theorem readBits_error {e : ErrCode} (h : readBits src pos n = .error e) : e = .inputOverrun := by
  induction n with
  | zero => cases h
  | succ n ih =>
    cases hhigh : readBits src pos n with
    | error e' =>
      rw [readBits, hhigh] at h
      cases h
      exact ih hhigh
    | ok v =>
      rw [readBits, exceptBind_of_ok hhigh] at h
      split at h <;> cases h
      rfl

/-- Were the read to succeed, its value would hold the missing bit. -/
theorem readBits_of_missing {i : Nat} (hi : i < n) (hmissing : src (pos + i) = none) :
    readBits src pos n = .error .inputOverrun := by
  cases hread : readBits src pos n with
  | error e => rw [readBits_error hread]
  | ok v =>
    have hthere := testBit_of_readBits hread i hi
    rw [hmissing] at hthere
    cases hthere

end

/-- Settles O14: a read whose bits are all there succeeds, and its value is fixed bit by bit. -/
theorem readBitsIsMostSignificantFirst : Obligations.ReadBitsIsMostSignificantFirst := by
  refine fun src pos n => ⟨fun hthere => ?_, fun i hi hmissing => readBits_of_missing hi hmissing⟩
  obtain ⟨v, hv⟩ := readBits_of_isSome hthere
  exact ⟨v, hv, readBits_lt hv, testBit_of_readBits hv⟩

/-! ## The slack -/

section
variable {s : State}

theorem streamBit_past_slack {i : Nat} (h : s.args.inLen.toNat + 2 ≤ s.rdr.base + 2 * (i / 16) + 1) :
    streamBit s i = none :=
  if_pos h

theorem streamBit_within_slack {i : Nat} (h : s.rdr.base + 2 * (i / 16) + 1 < s.args.inLen.toNat + 2) :
    streamBit s i =
      some ((inByte s (s.rdr.base + 2 * (i / 16) + 1) ++ inByte s (s.rdr.base + 2 * (i / 16))).getLsbD (15 - i % 16)) :=
  if_neg (Nat.not_le.mpr h)

theorem rawByte_rawSource (h : s.rdr.rawpos < s.args.inLen.toNat) :
    rawByte (rawSource s) 0 = .ok (inByte s s.rdr.rawpos) := by
  rw [rawByte, rawSource, Nat.add_zero, if_neg (Nat.not_le.mpr h)]

theorem rawByte_rawSource_past (h : s.args.inLen.toNat ≤ s.rdr.rawpos) :
    rawByte (rawSource s) 0 = .error .rawOverrun := by
  rw [rawByte, rawSource, Nat.add_zero, if_pos h]

end

/-- Settles O13: the two branches of the slack check, the overrun being that of a one-bit read. -/
theorem streamBitsAndTheSlackBound : Obligations.StreamBitsAndTheSlackBound := fun _ _ =>
  ⟨fun hpast => ⟨streamBit_past_slack hpast, readBits_of_missing Nat.one_pos (streamBit_past_slack hpast)⟩,
    streamBit_within_slack⟩

/-! ## Between the bit stream and the raw bytes -/

/-- RAWPOS after EnterRaw in bits: the stream's position and the 1 to 16 pad bits (41_bitstream R135). -/
theorem enterRaw_pad_bits (s : State) :
    8 * (enterRaw s).rdr.rawpos = 8 * s.rdr.base + s.rdr.bitpos + (16 - s.rdr.bitpos % 16) := by
  rw [enterRaw_rdr_rawpos]
  split <;> omega

/-- Settles O15. -/
theorem enterRawSkipsOneToSixteenPadBits : Obligations.EnterRawSkipsOneToSixteenPadBits :=
  fun s => ⟨rfl, enterRaw_pad_bits s⟩

theorem exec_uncClose (p : Option Byte) (s : State) :
    exec (.uncBody (.close p)) s = .next (expectNext .blockHdr (restartBits s)) := rfl

/-- The pad byte is there exactly when BLEN is odd (43_lzx_block_headers R184). -/
theorem decodeCtx_padded (s : State) (e : Expect) :
    (decodeCtx s e).padded = decide (s.lzx.blen.toNat % 2 = 1) :=
  Nat.testBit_zero _

section
variable {s : State}

theorem fetchElement_raw_raised {e : Expect} {err : ErrCode} (hb : e.isBits = false) (ha : isAdpcm e = false)
    (h : decodeBytes (decodeCtx s e) (rawSource s) = .error err) : fetchElement e s = .error err := by
  rw [fetchElement, hb, ha, h]
  rfl

theorem decodeBytes_uncClose_even (heven : s.lzx.blen.toNat % 2 = 0) :
    decodeBytes (decodeCtx s .uncClose) (rawSource s) = .ok (.uncBody (.close none), 0) := by
  rw [decodeBytes_uncClose rfl, decodeCtx_padded, decodeUncClose, if_neg (by simp [heven])]

theorem decodeBytes_uncClose_odd (hodd : s.lzx.blen.toNat % 2 = 1) :
    decodeBytes (decodeCtx s .uncClose) (rawSource s) =
      rawByte (rawSource s) 0 >>= fun b => .ok (.uncBody (.close (some b)), 1) := by
  rw [decodeBytes_uncClose rfl, decodeCtx_padded, decodeUncClose, if_pos (by simp [hodd])]

theorem fetchElement_uncClose_even (heven : s.lzx.blen.toNat % 2 = 0) :
    fetchElement .uncClose s = .ok (.uncBody (.close none), s) :=
  fetchElement_raw rfl rfl (decodeBytes_uncClose_even heven)

theorem fetchElement_uncClose_odd (hodd : s.lzx.blen.toNat % 2 = 1) (hin : s.rdr.rawpos < s.args.inLen.toNat) :
    fetchElement .uncClose s = .ok (.uncBody (.close (some (inByte s s.rdr.rawpos))), advanceRaw s 1) := by
  apply fetchElement_raw rfl rfl
  rw [decodeBytes_uncClose_odd hodd, exceptBind_of_ok (rawByte_rawSource hin)]

theorem fetchElement_uncClose_past (hodd : s.lzx.blen.toNat % 2 = 1) (hpast : s.args.inLen.toNat ≤ s.rdr.rawpos) :
    fetchElement .uncClose s = .error .rawOverrun := by
  apply fetchElement_raw_raised rfl rfl
  rw [decodeBytes_uncClose_odd hodd, rawByte_rawSource_past hpast]
  rfl

end

/-- Settles O25: the close restarts the bit stream at RAWPOS, which the fetch of the pad byte has moved past it. -/
theorem bitStreamRestartsAfterAnUncompressedBlock : Obligations.BitStreamRestartsAfterAnUncompressedBlock :=
  ⟨fun s p => exec_uncClose p s, fun _ he =>
    ⟨fun heven => fetch_of_fetchElement he (fetchElement_uncClose_even heven),
      fun hodd hin => fetch_of_fetchElement he (fetchElement_uncClose_odd hodd hin),
      fun hodd hpast => fetch_raised he (fetchElement_uncClose_past hodd hpast)⟩⟩

end Sys2Proof.Machine
end

section
/-! SUPPORT. The tables of 42_huffman beyond what decoding a code needs: where a code lies on the scale of 2^16, one code
for each used symbol, a SINGLE array's class, and the decode loop on bits that begin with no code. -/

namespace Sys2Proof.Machine

/-! ## Sums over the used symbols -/

theorem zipIdx_eq_map_range (ls : List Nat) : ls.zipIdx = (List.range ls.length).map fun s => (ls.getD s 0, s) :=
  List.ext_getElem (by simp) fun s hs _ => by simp [List.getElem?_eq_getElem (by simpa using hs : s < ls.length)]

theorem sum_usedSyms (ls : List Nat) (f : Nat × Nat → Nat) :
    ((usedSyms ls).map f).sum =
      ((List.range ls.length).map fun s => if ls.getD s 0 = 0 then 0 else f (s, ls.getD s 0)).sum := by
  rw [usedSyms, zipIdx_eq_map_range, List.filterMap_map]
  induction List.range ls.length with
  | nil => rfl
  | cons s l ih =>
    rw [List.filterMap_cons, List.map_cons, List.sum_cons, ← ih, Function.comp_apply]
    split_ifs
    · exact (Nat.zero_add _).symm
    · rfl

/-! ## The place of a code on the scale of 2^16 -/

/-- The order (length, symbol) of 42_huffman R150, on pairs (symbol, length). -/
abbrev OrderedBefore (p q : Nat × Nat) : Prop := p.2 < q.2 ∨ p.2 = q.2 ∧ p.1 < q.1

/-- What `p` adds to the share of the scale of 2^16 that lies before `q`. -/
def shareIfBefore (q p : Nat × Nat) : Nat := if OrderedBefore p q then 2 ^ (16 - p.2) else 0

theorem sum_shareIfBefore_canonOrder {ls : List Nat} (h : ∀ x ∈ ls, x ≤ 16) (q : Nat × Nat) :
    ((canonOrder ls).map (shareIfBefore q)).sum = shareBefore ls q.2 q.1 := by
  rw [((canonOrder_perm_usedSyms h).map _).sum_eq, sum_usedSyms, shareBefore]
  simp only [shareIfBefore, ite_and, ite_not]

/-- Each code begins where the shares of those before it end. -/
theorem code_eq_of_mem_assignCodes {code prev : Nat} {l : List (Nat × Nat)} (hs : l.Pairwise OrderedBefore)
    (hl : ∀ p ∈ l, prev ≤ p.2 ∧ p.2 ≤ 16) {c : HuffCode} (hc : c ∈ assignCodes code prev l) :
    c.code * 2 ^ (16 - c.len) = code * 2 ^ (16 - prev) + (l.map (shareIfBefore (c.sym, c.len))).sum := by
  induction l generalizing code prev with
  | nil => cases hc
  | cons p l ih =>
    obtain ⟨hp, hp16⟩ := hl p (.head _)
    obtain ⟨hpl, hs⟩ := List.pairwise_cons.mp hs
    rw [List.map_cons, List.sum_cons]
    obtain rfl | hc := List.mem_cons.mp hc
    · have hnone : ∀ n ∈ (p :: l).map (shareIfBefore p), n = 0 := by
        intro n hn
        obtain ⟨q, hq, rfl⟩ := List.mem_map.mp hn
        refine if_neg fun hqp => ?_
        obtain rfl | hq := List.mem_cons.mp hq
        · omega
        · have := hpl q hq
          omega
      have hsum : shareIfBefore p p + (l.map (shareIfBefore p)).sum = 0 := List.sum_eq_zero hnone
      exact (mul_two_pow_sub _ hp hp16).trans (by rw [hsum, Nat.add_zero])
    · have hmem := mem_assignCodes hc
      rw [ih hs (fun q hq => ⟨by have := hpl q hq; omega, (hl q (.tail _ hq)).2⟩) hc, Nat.add_mul,
        mul_two_pow_sub _ hp hp16, shareIfBefore, if_pos (hpl _ hmem), Nat.one_mul, Nat.add_assoc]

section
variable {ls : List Nat} {c d : HuffCode}

theorem code_eq_shareBefore (hlen : ∀ x ∈ ls, x ≤ 16) (hc : c ∈ canon ls) :
    c.code * 2 ^ (16 - c.len) = shareBefore ls c.len c.sym := by
  rw [code_eq_of_mem_assignCodes (canonOrder_pairwise ls)
    (fun p hp => ⟨Nat.zero_le _, (mem_canonOrder.mp hp).2.2⟩) hc, sum_shareIfBefore_canonOrder hlen, Nat.zero_mul,
    Nat.zero_add]

/-! ## One code for each symbol -/

theorem getD_sym_of_mem_canon (hc : c ∈ canon ls) : ls.getD c.sym 0 = c.len := by
  rw [List.getD_eq_getElem?_getD, (mem_usedSyms.mp (mem_usedSyms_of_mem_canon hc)).1, Option.getD_some]

theorem exists_code_of_getD_ne_zero {s : Nat} (hlen : ∀ x ∈ ls, x ≤ 16) (hs : ls.getD s 0 ≠ 0) :
    ∃ c ∈ canon ls, c.sym = s := by
  cases hn : ls[s]? with
  | none => simp [List.getD_eq_getElem?_getD, hn] at hs
  | some n =>
    rw [List.getD_eq_getElem?_getD, hn, Option.getD_some] at hs
    have hmem : (s, n) ∈ (canon ls).map fun c => (c.sym, c.len) := by
      rw [canon, assignCodes_map]
      exact (canonOrder_perm_usedSyms hlen).mem_iff.mpr (mem_usedSyms.mpr ⟨hn, hs⟩)
    obtain ⟨c, hc, heq⟩ := List.mem_map.mp hmem
    exact ⟨c, hc, congrArg Prod.fst heq⟩

/-- `c` comes before `d` in the order (length, symbol), and its code before the code of `d`. -/
def Precedes (c d : HuffCode) : Prop := OrderedBefore (c.sym, c.len) (d.sym, d.len) ∧ CodeBefore c d

theorem canon_pairwise_precedes (ls : List Nat) : (canon ls).Pairwise Precedes := by
  have horder : ((canon ls).map fun c => (c.sym, c.len)).Pairwise OrderedBefore := by
    rw [canon, assignCodes_map]
    exact canonOrder_pairwise ls
  exact (List.pairwise_map.mp horder).and (canon_pairwise ls)

theorem precedes_trichotomy (hc : c ∈ canon ls) (hd : d ∈ canon ls) : c = d ∨ Precedes c d ∨ Precedes d c :=
  List.Pairwise.forall_of_forall_of_flip (R := fun c d => c = d ∨ Precedes c d ∨ Precedes d c) (fun _ _ => .inl rfl)
    ((canon_pairwise_precedes ls).imp fun h => .inr (.inl h))
    ((canon_pairwise_precedes ls).imp fun h => .inr (.inr h)) hc hd

theorem eq_of_sym_eq (hc : c ∈ canon ls) (hd : d ∈ canon ls) (hsym : c.sym = d.sym) : c = d := by
  have hlen : c.len = d.len := by rw [← getD_sym_of_mem_canon hc, ← getD_sym_of_mem_canon hd, hsym]
  obtain heq | ⟨hcd, _⟩ | ⟨hdc, _⟩ := precedes_trichotomy hc hd
  · exact heq
  · simp [OrderedBefore, hlen, hsym] at hcd
  · simp [OrderedBefore, hlen, hsym] at hdc

/-- 42_huffman R150: the codes rise in the order (length, symbol). -/
theorem scaled_code_lt (hc : c ∈ canon ls) (hd : d ∈ canon ls) (horder : OrderedBefore (c.sym, c.len) (d.sym, d.len)) :
    c.code * 2 ^ (16 - c.len) < d.code * 2 ^ (16 - d.len) := by
  obtain rfl | ⟨_, hle, hcode⟩ | ⟨hdc, _⟩ := precedes_trichotomy hc hd
  · simp [OrderedBefore] at horder
  · calc c.code * 2 ^ (16 - c.len)
        < (c.code + 1) * 2 ^ (16 - c.len) := Nat.mul_lt_mul_of_pos_right (Nat.lt_succ_self _) (Nat.two_pow_pos _)
      _ = (c.code + 1) * 2 ^ (d.len - c.len) * 2 ^ (16 - d.len) :=
          (mul_two_pow_sub _ hle (len_of_mem_canon hd).2).symm
      _ ≤ d.code * 2 ^ (16 - d.len) := Nat.mul_le_mul_right _ hcode
  · simp only [OrderedBefore] at horder hdc
    omega

end

/-! ## Classes -/

theorem classify_of_usedSyms_nil {ls : List Nat} (h : usedSyms ls = []) : classify ls = .empty := by
  rw [classify, h]

/-- One length is never OVERSUBSCRIBED (42_huffman R151). -/
theorem classify_of_usedSyms_singleton {ls : List Nat} {s n : Nat} (h : usedSyms ls = [(s, n)]) :
    classify ls = .single s n := by
  have hkraft : ¬ 65536 < kraft ls := by
    have := Nat.pow_le_pow_right (n := 2) (by omega) (Nat.sub_le 16 n)
    simpa [kraft, h] using this
  rw [classify, h]
  exact if_neg hkraft

theorem usedSyms_of_forall_eq_zero {ls : List Nat} (h : ∀ x ∈ ls, x = 0) : usedSyms ls = [] :=
  List.eq_nil_iff_forall_not_mem.mpr fun ⟨_, n⟩ hp =>
    have ⟨hs, hn⟩ := mem_usedSyms.mp hp
    hn (h n (List.mem_of_getElem? hs))

theorem usedSyms_replicate_set {size s0 n : Nat} (hs0 : s0 < size) (hn : n ≠ 0) :
    usedSyms ((List.replicate size 0).set s0 n) = [(s0, n)] := by
  refine List.perm_singleton.mp ((List.perm_ext_iff_of_nodup ?_ (List.nodup_singleton _)).mpr fun ⟨s, m⟩ => ?_)
  · exact (usedSyms_pairwise _).imp fun {p q} hpq heq => by subst heq; omega
  · rw [mem_usedSyms, List.mem_singleton, Prod.mk.injEq]
    by_cases hs : s0 = s
    · subst hs
      simp [hs0]
      omega
    · simp [hs, List.getElem?_replicate, Ne.symm hs]
      omega

theorem decodeSym_single {ls : List Nat} {src : BitSource} {pos s n : Nat} (h : classify ls = .single s n) :
    decodeSym ls src pos = readBits src pos n >>= fun _ => .ok (s, n) := by
  rw [decodeSym, h]

theorem decodeSym_incomplete {ls : List Nat} {src : BitSource} {pos : Nat} (h : classify ls = .incomplete) :
    decodeSym ls src pos = walkCode src (canon ls) pos 16 0 0 := by
  rw [decodeSym, h]

/-! ## The decode loop on bits that begin with no code -/

section
variable {src : BitSource} {pos : Nat}

theorem codeAt_of_readBits {c : HuffCode} (h : readBits src pos c.len = .ok c.code) : CodeAt src pos c :=
  testBit_of_readBits h

/-- After `m` bits that are no code at any length the loop has read their value and still runs (42_huffman R153). -/
theorem walkCode_of_noCode {tbl : List HuffCode} {m : Nat} (fuel : Nat)
    (hthere : ∀ i, i < m → (src (pos + i)).isSome) (hno : ∀ c ∈ tbl, c.len ≤ m → ¬ CodeAt src pos c) :
    ∃ v, readBits src pos m = .ok v ∧
      walkCode src tbl pos (m + fuel) 0 0 = walkCode src tbl pos fuel m v := by
  induction m generalizing fuel with
  | zero => exact ⟨0, rfl, by rw [Nat.zero_add]⟩
  | succ m ih =>
    obtain ⟨v, hv, hwalk⟩ := ih (fuel + 1) (fun i hi => hthere i (by omega)) fun c hc hle => hno c hc (by omega)
    obtain ⟨b, hb⟩ := Option.isSome_iff_exists.mp (hthere m (Nat.lt_succ_self m))
    have hread : readBits src pos (m + 1) = .ok (2 * v + b.toNat) := by
      rw [readBits, exceptBind_of_ok hv, hb]
    have hfind : tbl.find? (fun c => c.len == m + 1 && c.code == 2 * v + b.toNat) = none := by
      refine List.find?_eq_none.mpr fun c hc hfits => ?_
      obtain ⟨hlen, hcode⟩ : c.len = m + 1 ∧ c.code = 2 * v + b.toNat := by simpa using hfits
      exact hno c hc hlen.le (codeAt_of_readBits (by rw [hlen, hcode, hread]))
    refine ⟨_, hread, ?_⟩
    rw [show m + 1 + fuel = m + (fuel + 1) by omega, hwalk, walkCode, hb]
    dsimp only
    rw [hfind]

end

/-! ## The obligations -/

/-- Settles O16. -/
theorem kraftSumDecidesTheBuild : Obligations.KraftSumDecidesTheBuild :=
  fun _ => ⟨buildTable_of_lt_kraftSum, buildTable_of_kraftSum_le⟩

/-- Settles O17: the place of a code by the assignment loop, that it starts no other by `eq_of_code_start`, and one code
for each symbol by the order in which the codes are given out. -/
theorem canonicalCodesArePrefixFree : Obligations.CanonicalCodesArePrefixFree := by
  refine fun ls hb => ⟨fun c hc => ?_, fun s hs => ?_⟩
  · exact ⟨(len_of_mem_canon hc).1, code_lt_of_mem_canon hb hc, getD_sym_of_mem_canon hc, code_eq_shareBefore hb.1 hc,
      fun d hd => ⟨fun hle hstart => eq_of_code_start hd hc hle hstart.symm, scaled_code_lt hc hd⟩⟩
  · obtain ⟨c, hc, rfl⟩ := exists_code_of_getD_ne_zero hb.1 hs
    exact ⟨c, ⟨hc, rfl⟩, fun d ⟨hd, hsym⟩ => eq_of_sym_eq hd hc hsym⟩

/-- Settles O18. -/
theorem decodingReturnsTheSymbolOfTheCode : Obligations.DecodingReturnsTheSymbolOfTheCode :=
  fun _ _ _ hb _ hc hsrc => decodeSym_of_codeAt hb hc hsrc

/-- Settles O19: the array is SINGLE, whose decode reads `n` bits and looks at none of them. -/
theorem singleSymbolTableDecodesEveryPattern : Obligations.SingleSymbolTableDecodesEveryPattern := by
  intro size s0 n src pos hs0 h1 _
  have hclass := classify_of_usedSyms_singleton (usedSyms_replicate_set hs0 (Nat.pos_iff_ne_zero.mp h1))
  rw [decodeSym_single hclass]
  refine ⟨fun hthere => ?_, fun i hi hmissing => ?_⟩
  · obtain ⟨v, hv⟩ := readBits_of_isSome hthere
    rw [exceptBind_of_ok hv]
  · rw [readBits_of_missing hi hmissing]
    rfl

/-- Settles O20: neither class is OVERSUBSCRIBED; past `m` bits that begin with no code the loop has used up its 16 bits
or finds the next one missing. -/
theorem emptyAndIncompleteTablesFaultOnlyWhenUsed : Obligations.EmptyAndIncompleteTablesFaultOnlyWhenUsed := by
  refine fun ls src pos => ⟨fun hzero => ?_, fun hclass => ⟨(buildTable_ok ls ()).mpr (by simp [hclass]), ?_⟩⟩
  · have hclass := classify_of_usedSyms_nil (usedSyms_of_forall_eq_zero hzero)
    exact ⟨(buildTable_ok ls ()).mpr (by simp [hclass]), by rw [decodeSym, hclass]⟩
  · intro m hm hthere hno
    obtain ⟨v, _, hwalk⟩ := walkCode_of_noCode (16 - m) hthere hno
    rw [Nat.add_sub_cancel' hm] at hwalk
    rw [decodeSym_incomplete hclass, hwalk]
    refine ⟨fun h16 => ?_, fun hlt hmissing => ?_⟩
    · rw [h16]
      rfl
    · rw [show 16 - m = 15 - m + 1 by omega, walkCode, hmissing]

end Sys2Proof.Machine
end

section
/-! SUPPORT. The headers (43_lzx_block_headers R170 to R176): the 27 bits of a block header, and what each header and
the lengths it transmits leave. -/

namespace Sys2Proof.Machine

theorem exec_of_element {i : Instr} {s : State} {r r' : Except ErrCode State} (h : exec i s = element s r)
    (hr : r = r') : exec i s = .next (settle s r') := by
  rw [h, hr, element_next]

/-- An element that succeeds answers its result. -/
theorem exec_of_element_ok {i : Instr} {s t : State} {r : Except ErrCode State} (h : exec i s = element s r)
    (hr : r = .ok t) : exec i s = .next t :=
  exec_of_element h hr

/-- An element's fault reaches the state with whatever the element loaded before it. -/
theorem raises_of_element_error {i : Instr} {s u : State} {e : ErrCode} (h : exec i s = element u (.error e))
    (hu : FaultTaken e s (takeFault e u)) : Raises i s e :=
  ⟨takeFault e u, h, hu⟩

/-! ## The block header's bits -/

/-- A source that holds a header's bits one by one reads as the header. -/
theorem reads_blockHdrBits {src : BitSource} {t : Nat} {blen : BitVec 24}
    (h : ∀ i, i < 27 → src i = some ((blockHdrBits t blen).getD i false)) : Reads src 0 (blockHdrBits t blen) := by
  intro j hj
  have hj27 : j < 27 := by simpa [blockHdrBits] using hj
  rw [Nat.zero_add, h j hj27, List.getD_eq_getElem _ _ hj, List.getElem?_eq_getElem hj]

/-- 43_lzx_block_headers R171: a 3-bit type, then BLEN as 16 bits and 8 bits. -/
theorem decodeBlockHdr_of_reads {src : BitSource} {t : Nat} {blen : BitVec 24} (ht : t < 2 ^ 3)
    (h : Reads src 0 (blockHdrBits t blen)) : decodeBlockHdr src = .ok (blockRow t blen, 27) := by
  obtain ⟨htype, hblen⟩ := reads_append.mp h
  obtain ⟨hi, lo, hhi, hlo, hjoin⟩ := readBits_halves_of_reads (m := 16) (n := 8) hblen
  rw [length_fieldBits] at hhi hlo
  rw [decodeBlockHdr, exceptBind_of_ok (readBits_of_reads htype), exceptBind_of_ok hhi, exceptBind_of_ok hlo,
    Nat.mod_eq_of_lt ht, ← hjoin]
  rfl

/-- A decoder that reads a field overruns if a bit of the field is missing, or if what follows overruns. -/
theorem readBits_bind_overrun {α : Type} {src : BitSource} {pos n : Nat} {f : Nat → Except ErrCode α}
    (h : (∃ i, i < n ∧ src (pos + i) = none) ∨ ∀ v, f v = .error .inputOverrun) :
    readBits src pos n >>= f = .error .inputOverrun := by
  obtain ⟨i, hi, hmissing⟩ | hf := h
  · rw [readBits_of_missing hi hmissing]
    rfl
  · cases hread : readBits src pos n with
    | error e => rw [readBits_error hread]; rfl
    | ok v => exact hf v

/-- The missing bit lies in the type, in the high 16 bits of BLEN, or in its low 8 bits. -/
theorem decodeBlockHdr_of_missing {src : BitSource} {i : Nat} (hi : i < 27) (hmissing : src i = none) :
    decodeBlockHdr src = .error .inputOverrun := by
  have hat : ∀ pos, pos ≤ i → src (pos + (i - pos)) = none := fun pos hpos => by rwa [Nat.add_sub_cancel' hpos]
  by_cases htype : i < 3
  · exact readBits_bind_overrun (.inl ⟨i, htype, by rwa [Nat.zero_add]⟩)
  refine readBits_bind_overrun (.inr fun _ => ?_)
  by_cases hhigh : i < 19
  · exact readBits_bind_overrun (.inl ⟨i - 3, by omega, hat 3 (by omega)⟩)
  refine readBits_bind_overrun (.inr fun _ => ?_)
  exact readBits_bind_overrun (.inl ⟨i - 19, by omega, hat 19 (by omega)⟩)

/-- Settles O23: the two reserved rows fault, and the header is decoded from all of its bits or not at all. -/
theorem reservedBlockTypesRaiseBadBlockType : Obligations.ReservedBlockTypesRaiseBadBlockType :=
  ⟨fun s b t =>
    ⟨raises_of_element_error rfl (takeFault_faultTaken _ (loadBlock 0 b s)),
      raises_of_element_error rfl (takeFault_faultTaken _ (loadBlock (1#1 ++ t) b s))⟩,
    rfl, fun _ _ _ ht h => decodeBlockHdr_of_reads ht (reads_blockHdrBits h),
    fun _ _ hi hmissing => decodeBlockHdr_of_missing hi hmissing⟩

/-! ## Turns of the frame loop after a header -/

section
variable {s : State}

/-- 45_lzx_frame R231, 43_lzx_block_headers R184: bytes are owed and the block holds none. -/
theorem continueFrame_of_brem_zero (htogo : s.seq.togo ≠ 0) (hbrem : s.lzx.brem = 0) :
    continueFrame s = .ok (expectNext (if s.lzx.btype = 3 then .uncClose else .blockHdr) s) := by
  rw [continueFrame, if_neg htogo, if_pos hbrem]

theorem continueFrame_blockHdr (htogo : 1 ≤ s.seq.togo) (hbrem : s.lzx.brem = 0) (hbtype : s.lzx.btype ≠ 3) :
    continueFrame s = .ok (expectNext .blockHdr s) := by
  rw [continueFrame_of_brem_zero (by omega) hbrem, if_neg hbtype]

theorem continueFrame_uncClose (htogo : 1 ≤ s.seq.togo) (hbrem : s.lzx.brem = 0) (hbtype : s.lzx.btype = 3) :
    continueFrame s = .ok (expectNext .uncClose s) := by
  rw [continueFrame_of_brem_zero (by omega) hbrem, if_pos hbtype]

/-- 45_lzx_frame R232: a data run of an UNCOMPRESSED block that has room in the window. -/
theorem continueFrame_uncData (htogo : 1 ≤ s.seq.togo) (hbrem : s.lzx.brem ≠ 0) (hbtype : s.lzx.btype = 3)
    (hroom : s.lzx.wpos % 65536 + min s.lzx.brem.toNat s.seq.togo ≤ 65536) :
    continueFrame s =
      .ok
        { s with
          lzx.wpos := s.lzx.wpos % 65536
          lzx.brem := BitVec.ofNat 24 (s.lzx.brem.toNat - min s.lzx.brem.toNat s.seq.togo)
          seq.togo := s.seq.togo - min s.lzx.brem.toNat s.seq.togo
          seq.run := min s.lzx.brem.toNat s.seq.togo
          seq.expect := some .uncData } := by
  simp only [continueFrame_eq_beginRun (Nat.one_le_iff_ne_zero.mp htogo) hbrem, beginRun,
    if_neg (Nat.not_lt.mpr hroom), hbtype]
  rfl

end

/-- Settles O21: both headers leave what the frame loop looks at as it was. -/
theorem streamHeaderLoadsTheFilesize : Obligations.StreamHeaderLoadsTheFilesize := by
  refine fun s fs => ⟨rfl, rfl, fun htogo hbrem hbtype => ⟨?_, ?_⟩⟩
  · exact exec_of_element_ok rfl (continueFrame_blockHdr htogo hbrem hbtype)
  · exact exec_of_element_ok rfl (continueFrame_blockHdr htogo hbrem hbtype)

/-- Settles O22: each row loads its fields and names what is due, with no check. -/
theorem blockHeaderLoadsAndDispatches : Obligations.BlockHeaderLoadsAndDispatches :=
  fun _ _ => ⟨rfl, rfl, rfl⟩

/-- Settles O24: the offsets leave what the frame loop looks at as it was. -/
theorem uncompressedOffsetsLoadTheCache : Obligations.UncompressedOffsetsLoadTheCache := by
  refine fun s a b d => ⟨rfl, fun hbtype htogo hbrem => ?_, fun hbtype htogo hbrem hroom => ?_⟩
  · exact exec_of_element_ok rfl (continueFrame_uncClose htogo hbrem hbtype)
  · exact exec_of_element_ok rfl (continueFrame_uncData htogo hbrem hbtype hroom)

/-! ## Transmitted lengths -/

/-- What the build of a transmitted array decides: the load goes on, or the fault of 42_huffman R152. -/
theorem loadAlignLens_eq {ls : List (BitVec 3)} (hls : ls.length = 8) (s : State) :
    loadAlignLens ls s = (buildTable (ls.map BitVec.toNat)).map fun _ =>
      { s with lzx.alignLen := ls.map BitVec.toNat, seq.sect := .mainA, seq.expect := some .preLens } := by
  simp only [loadAlignLens, List.take_of_length_le (by simp [hls] : (ls.map BitVec.toNat).length ≤ 8)]
  cases buildTable (ls.map BitVec.toNat) <;> rfl

theorem loadPreLens_eq {ls : List (BitVec 4)} (hls : ls.length = 20) (s : State) :
    loadPreLens ls s = (buildTable (ls.map BitVec.toNat)).map fun _ =>
      { s with
        lzx.preLen := ls.map BitVec.toNat, seq.x := sectionFirst s.seq.sect, seq.expect := some .preSym } := by
  simp only [loadPreLens, List.take_of_length_le (by simp [hls] : (ls.map BitVec.toNat).length ≤ 20)]
  cases buildTable (ls.map BitVec.toNat) <;> rfl

/-- An element that builds the array `a` and leaves `t` if it builds (42_huffman R152). -/
theorem exec_of_build {i : Instr} {s t : State} {a : List Nat}
    (h : exec i s = element s ((buildTable a).map fun _ => t)) :
    (kraftSum a ≤ 65536 → exec i s = .next t) ∧ (65536 < kraftSum a → Raises i s .huffmanOversubscribed) := by
  refine ⟨fun hk => exec_of_element_ok h ?_, fun hk => ?_⟩
  · rw [buildTable_of_kraftSum_le hk]
    rfl
  · rw [buildTable_of_lt_kraftSum hk] at h
    exact raises_of_element_error h (takeFault_faultTaken _ s)

/-- Settles O26: the whole array is loaded and built, and the build is decided by its Kraft sum. -/
theorem transmittedLengthsAreLoadedAndBuilt : Obligations.TransmittedLengthsAreLoadedAndBuilt :=
  fun s => ⟨fun _ hls => exec_of_build (congrArg (element s) (loadAlignLens_eq hls s)),
    fun _ hls => exec_of_build (congrArg (element s) (loadPreLens_eq hls s))⟩

end Sys2Proof.Machine
end

section
/-! SUPPORT. The pretree elements (43_lzx_block_headers R177 to R182): a run rewrites exactly its positions of the
section's array, and where it ends decides what follows. -/

namespace Sys2Proof.Machine

/-! ## What a run writes -/

theorem getElem_fillLens (ls : List Nat) (x v n j : Nat) (hj : j < (fillLens ls x v n).length)
    (hj' : j < ls.length) : (fillLens ls x v n)[j] = if x ≤ j ∧ j < x + n then v else ls[j] := by
  induction n generalizing ls x with
  | zero => exact (if_neg (by omega)).symm
  | succ n ih =>
    simp only [fillLens]
    rw [ih (ls.set x v) (x + 1) _ (by rwa [List.length_set]), List.getElem_set]
    by_cases hx : x = j
    · rw [if_neg (by omega), if_pos hx, if_pos (by omega)]
    · rw [if_neg hx]
      exact if_congr (by omega) rfl rfl

/-- The run by its positions, for an array of any size: positions past its end are not there to be written. -/
theorem fillLens_eq_map (ls : List Nat) (x v n : Nat) :
    fillLens ls x v n = (List.range ls.length).map fun j => if x ≤ j ∧ j < x + n then v else ls.getD j 0 := by
  refine List.ext_getElem (by simp [length_fillLens]) fun j hj _ => ?_
  have hj' : j < ls.length := by rwa [length_fillLens] at hj
  rw [getElem_fillLens ls x v n j hj hj', List.getElem_map, List.getElem_range, List.getD_eq_getElem _ _ hj']

@[simp] theorem setSectionArray_seq (ls : List Nat) (s : State) : (setSectionArray ls s).seq = s.seq := by
  unfold setSectionArray
  split <;> rfl

theorem runWritten_eq_fillLens (n v : Nat) (s : State) :
    runWritten n v s =
      { setSectionArray (fillLens (sectionArray s) s.seq.x v n) s with seq.x := s.seq.x + n } := by
  rw [fillLens_eq_map]
  rfl

/-! ## Where a run ends -/

theorem advanceTo_of_lt {x : Nat} {s : State} (h : x < sectionLast s.seq.sect) :
    advanceTo x s = .ok { s with seq.x := x, seq.expect := some .preSym } :=
  if_pos h

theorem advanceTo_of_le {x : Nat} {s : State} (h : sectionLast s.seq.sect ≤ x) :
    advanceTo x s = endSection { s with seq.x := x } :=
  if_neg (Nat.not_lt.mpr h)

/-- The positions of a run are written and the section moves past them (43_lzx_block_headers R177). -/
def writeRun (n v : Nat) (s : State) : Except ErrCode State :=
  advanceTo (s.seq.x + n) (setSectionArray (fillLens (sectionArray s) s.seq.x v n) s)

section
variable {s : State} {n : Nat} (v : Nat)

theorem writeRun_inside (h : s.seq.x + n < sectionLast s.seq.sect) :
    writeRun n v s = .ok { runWritten n v s with seq.x := s.seq.x + n, seq.expect := some .preSym } := by
  rw [writeRun, advanceTo_of_lt (by simpa using h), runWritten_eq_fillLens]

theorem writeRun_to_end (h : sectionLast s.seq.sect ≤ s.seq.x + n) :
    writeRun n v s = endSection (runWritten n v s) := by
  rw [writeRun, advanceTo_of_le (by simpa using h), runWritten_eq_fillLens]

/-- 43_lzx_block_headers R182: the run fits its section. -/
theorem fillRun_fits (h : s.seq.x + n ≤ sectionLast s.seq.sect) : fillRun n v s = writeRun n v s :=
  if_neg (Nat.not_lt.mpr h)

/-- 43_lzx_block_headers R182: the run passes its section's end. -/
theorem fillRun_overrun (h : sectionLast s.seq.sect < s.seq.x + n) : fillRun n v s = .error .lengthRunOverrun :=
  if_pos h

end

/-- A delta is a run of one position, which needs no check. -/
theorem deltaOne_eq_writeRun (d : Nat) (s : State) :
    deltaOne d s = writeRun 1 (lengthMinus ((sectionArray s).getD s.seq.x 0) d) s := rfl

theorem repeatRun_eq_fillRun {b : BitVec 1} {d : BitVec 5} {s : State} (h : d.toNat ≤ 16) :
    repeatRun b d s = fillRun (4 + b.toNat) (lengthMinus ((sectionArray s).getD s.seq.x 0) d.toNat) s :=
  if_neg (Nat.not_lt.mpr h)

theorem repeatRun_badRepeat {b : BitVec 1} {d : BitVec 5} {s : State} (h : 16 < d.toNat) :
    repeatRun b d s = .error .badPretreeRepeat :=
  if_pos h

/-! ## Elements that write a run -/

section
variable {i : Instr} {s : State} {n v : Nat}

theorem exec_fillRun_inside (h : exec i s = element s (fillRun n v s)) (hlt : s.seq.x + n < sectionLast s.seq.sect) :
    exec i s = .next { runWritten n v s with seq.x := s.seq.x + n, seq.expect := some .preSym } :=
  exec_of_element_ok h ((fillRun_fits v hlt.le).trans (writeRun_inside v hlt))

theorem exec_fillRun_to_end (h : exec i s = element s (fillRun n v s)) (heq : s.seq.x + n = sectionLast s.seq.sect) :
    exec i s = .next (settle s (endSection (runWritten n v s))) :=
  exec_of_element h ((fillRun_fits v heq.le).trans (writeRun_to_end v heq.ge))

theorem exec_fillRun_overrun (h : exec i s = element s (fillRun n v s)) (hgt : sectionLast s.seq.sect < s.seq.x + n) :
    Raises i s .lengthRunOverrun := by
  rw [fillRun_overrun v hgt] at h
  exact raises_of_element_error h (takeFault_faultTaken _ s)

end

/-! ## The obligations -/

/-- 43_lzx_block_headers R178: the result is the length in 0..16 that the delta takes back to the old one. -/
theorem lengthMinus_spec (old d : Nat) : lengthMinus old d ≤ 16 ∧ (lengthMinus old d + d) % 17 = old % 17 := by
  unfold lengthMinus
  omega

/-- Settles O27: both rows are a delta, and a delta is a run of one position. -/
theorem pretreeDeltaRewritesOneLength : Obligations.PretreeDeltaRewritesOneLength := by
  refine ⟨lengthMinus_spec, fun i z hi s => ?_⟩
  have hexec : exec i s = element s (writeRun 1 (lengthMinus ((sectionArray s).getD s.seq.x 0) z) s) := by
    obtain ⟨rfl, rfl⟩ | ⟨d, rfl, rfl⟩ := hi
    · exact congrArg (element s) (deltaOne_eq_writeRun 16 s)
    · exact congrArg (element s) (deltaOne_eq_writeRun d.toNat s)
  exact ⟨fun hlt => exec_of_element_ok hexec (writeRun_inside _ hlt),
    fun hle => exec_of_element hexec (writeRun_to_end _ hle)⟩

/-- Settles O28: both rows fill a run of zeros. -/
theorem pretreeZeroRunsStayInTheirSection : Obligations.PretreeZeroRunsStayInTheirSection := by
  intro i n hi s
  have hexec : exec i s = element s (fillRun n 0 s) := by
    obtain ⟨m, rfl, rfl⟩ | ⟨m, rfl, rfl⟩ := hi
    · rfl
    · rfl
  exact ⟨exec_fillRun_inside hexec, exec_fillRun_to_end hexec, exec_fillRun_overrun hexec⟩

/-- Settles O29: the second symbol is checked first; past that check the row fills a run. -/
theorem pretreeRepeatUsesTheFirstOldLength : Obligations.PretreeRepeatUsesTheFirstOldLength := by
  rintro s b d n v rfl rfl
  have hrun (hd : d.toNat ≤ 16) : exec (.preRep19 b d) s =
      element s (fillRun (4 + b.toNat) (lengthMinus ((sectionArray s).getD s.seq.x 0) d.toNat) s) :=
    congrArg (element s) (repeatRun_eq_fillRun hd)
  refine ⟨fun hd => ?_, fun hd => exec_fillRun_overrun (hrun hd), fun hd => exec_fillRun_inside (hrun hd),
    fun hd => exec_fillRun_to_end (hrun hd)⟩
  exact raises_of_element_error (congrArg (element s) (repeatRun_badRepeat hd)) (takeFault_faultTaken _ s)

end Sys2Proof.Machine
end

section
/-! SUPPORT. Literals and matches (44_lzx_symbols): where the slots' offsets lie, what a byte of a run and a copy write
in the window, and what a match's two checks decide. -/

namespace Sys2Proof.Machine

/-! ## Position slots -/

/-- 44_lzx_symbols R217: the bases rise, each by the number of its slot's extra values. -/
theorem positionBase_strictMono : StrictMono positionBase :=
  strictMono_nat_of_lt_succ fun slot => Nat.lt_add_of_pos_right (Nat.two_pow_pos (extraBits slot))

/-- 44_lzx_symbols R221: a slot's offsets are those from its own base up to the next slot's. -/
theorem exists_extra_iff {slot off : Nat} (hslot : 3 ≤ slot) :
    (∃ v, v < 2 ^ extraBits slot ∧ positionBase slot - 2 + v = off) ↔
      positionBase slot ≤ off + 2 ∧ off + 2 < positionBase (slot + 1) := by
  have hbase : 3 ≤ positionBase slot := positionBase_strictMono.monotone hslot
  have hnext : positionBase (slot + 1) = positionBase slot + 2 ^ extraBits slot := rfl
  constructor
  · rintro ⟨v, hv, rfl⟩
    omega
  · exact fun ⟨hle, hlt⟩ => ⟨off + 2 - positionBase slot, by omega, by omega⟩

theorem explicitOffset_range {slot v : Nat} (hlow : 3 ≤ slot) (hhigh : slot < 32) (hv : v < 2 ^ extraBits slot) :
    1 ≤ positionBase slot - 2 + v ∧ positionBase slot - 2 + v ≤ 65533 := by
  obtain ⟨hle, hlt⟩ := (exists_extra_iff hlow).mp ⟨v, hv, rfl⟩
  have hfirst : 3 ≤ positionBase slot := positionBase_strictMono.monotone hlow
  have hlast : positionBase (slot + 1) ≤ 65536 := positionBase_strictMono.monotone hhigh
  omega

/-- The slots' parts cover what is past the first base, without end; slot 3 begins at 3 and slot 31 ends at 65536. -/
theorem exists_slot_of_offset {off : Nat} (hlow : 1 ≤ off) (hhigh : off ≤ 65533) :
    ∃ slot, (3 ≤ slot ∧ slot < 32) ∧ positionBase slot ≤ off + 2 ∧ off + 2 < positionBase (slot + 1) := by
  have hcover : ⋃ slot, Set.Ico (positionBase slot) (positionBase (slot + 1)) = Set.Ici (positionBase 0) :=
    iUnion_Ico_map_succ_eq_Ici (fun _ => positionBase_strictMono.monotone bot_le)
      positionBase_strictMono.not_bddAbove_range_of_wellFoundedLT
  obtain ⟨slot, hle, hlt⟩ := Set.mem_iUnion.mp (hcover.ge (Nat.zero_le (off + 2)))
  have hfirst : positionBase 3 = 3 := rfl
  have hend : positionBase 32 = 65536 := rfl
  have hslot : 3 < slot + 1 := positionBase_strictMono.lt_iff_lt.mp (by omega)
  have hslot' : slot < 32 := positionBase_strictMono.lt_iff_lt.mp (by omega)
  exact ⟨slot, ⟨by omega, hslot'⟩, hle, hlt⟩

theorem slot_unique {slot slot' b : Nat} (h : positionBase slot ≤ b ∧ b < positionBase (slot + 1))
    (h' : positionBase slot' ≤ b ∧ b < positionBase (slot' + 1)) : slot = slot' := by
  have hle : slot < slot' + 1 := positionBase_strictMono.lt_iff_lt.mp (by omega)
  have hge : slot' < slot + 1 := positionBase_strictMono.lt_iff_lt.mp (by omega)
  omega

/-- Settles O36: the tables are evaluated; an offset has the slot whose part it lies in, and one extra value there. -/
theorem positionSlotsReachEveryOffsetOnce : Obligations.PositionSlotsReachEveryOffsetOnce := by
  refine ⟨rfl, rfl, fun _ _ => explicitOffset_range, fun off hlow hhigh => ?_⟩
  obtain ⟨slot, hslot, hmem⟩ := exists_slot_of_offset hlow hhigh
  obtain ⟨v, hv, hoff⟩ := (exists_extra_iff hslot.1).mpr hmem
  refine ⟨(slot, v), ⟨hslot, hv, hoff⟩, ?_⟩
  rintro ⟨slot', v'⟩ ⟨hslot', hv', hoff'⟩
  obtain rfl : slot' = slot := slot_unique ((exists_extra_iff hslot'.1).mp ⟨v', hv', hoff'⟩) hmem
  exact congrArg (Prod.mk slot') (Nat.add_left_cancel (hoff'.trans hoff.symm))

/-! ## The window -/

theorem winIndex_natCast (n : Nat) : winIndex (n : Int) = n % 65536 := by
  unfold winIndex
  omega

/-- 20_memory R65: fewer than 65536 apart, two indices are two window bytes. -/
theorem winIndex_ne {i j : Int} (hlt : i < j) (hnear : j < i + 65536) : winIndex i ≠ winIndex j := by
  unfold winIndex
  omega

theorem winGet_winSet (w : Memory) (i j : Int) (v : Byte) :
    winGet (winSet w i v) j = if winIndex j = winIndex i then v else winGet w j := by
  by_cases h : winIndex j = winIndex i
  · rw [if_pos h, winGet_congr _ h, winGet_winSet_same]
  · rw [if_neg h, winGet_winSet_other w v h]

/-- The last byte of a copy is written over what the bytes before it left (44_lzx_symbols R215). -/
theorem copyBytes_succ (w : Memory) (dst off n : Nat) :
    copyBytes w dst off (n + 1) =
      winSet (copyBytes w dst off n) ((dst : Int) + n) (winGet (copyBytes w dst off n) ((dst : Int) + n - off)) := by
  induction n generalizing w dst with
  | zero => simp only [copyBytes, Nat.cast_zero, Int.add_zero]
  | succ n ih =>
    have hdst : ((dst + 1 : Nat) : Int) + n = (dst : Int) + (n + 1 : Nat) := by omega
    rw [copyBytes, ih, hdst, ← copyBytes]

/-- A copy leaves what lies before its destination, back to the window's size before the destination's end. -/
theorem winGet_copyBytes_before (w : Memory) (dst off n : Nat) {j : Int} (hlt : j < dst)
    (hnear : (dst : Int) + n ≤ j + 65536) : winGet (copyBytes w dst off n) j = winGet w j :=
  winGet_copyBytes_other w dst off n j fun k hk => winIndex_ne (by omega) (by omega)

/-- 44_lzx_symbols R215: a byte of the destination is the one `off` bytes before it, which is the old one for the first
`off` of them and a copied one for the rest. -/
theorem winGet_copyBytes (w : Memory) (dst : Nat) {off n k : Nat} (hoff : 1 ≤ off) (hoff' : off ≤ 65536)
    (hn : n ≤ 65536) (hk : k < n) :
    winGet (copyBytes w dst off n) ((dst : Int) + k) = winGet w ((dst : Int) - off + (k % off : Nat)) := by
  induction n generalizing k with
  | zero => exact absurd hk (Nat.not_lt_zero k)
  | succ n ih =>
    rw [copyBytes_succ]
    obtain hkn | rfl : k < n ∨ k = n := by omega
    · rw [winGet_winSet_other _ _ (winIndex_ne (by omega) (by omega)), ih (by omega) hkn]
    · rw [winGet_winSet_same]
      by_cases hfirst : k < off
      · rw [Nat.mod_eq_of_lt hfirst, winGet_copyBytes_before _ _ _ _ (by omega) (by omega)]
        congr 1
        omega
      · have hback : (dst : Int) + k - off = (dst : Int) + (k - off : Nat) := by omega
        rw [hback, ih (by omega) (by omega), ← Nat.mod_eq_sub_mod (Nat.le_of_not_lt hfirst)]

/-- Settles O35: `copyMatch` itself changes three fields; the window is fixed inside and outside the destination. -/
theorem matchCopyIsByteSerialAndCircular : Obligations.MatchCopyIsByteSerialAndCircular := by
  intro s off len hoff hoff' hroom
  refine ⟨copyBytes s.lzx.win s.lzx.wpos off len, rfl,
    fun k hk => winGet_copyBytes _ _ hoff hoff' (by omega) hk, fun i hi => ?_⟩
  refine winGet_copyBytes_other _ _ _ _ i fun k hk hik => hi ?_
  rw [winIndex_nat (by omega)] at hik
  omega

/-! ## Runs -/

theorem continueRun_inside {s : State} (h : s.seq.run ≠ 0) : continueRun s = .ok s :=
  if_neg h

theorem continueRun_to_end {s : State} (h : s.seq.run = 0) : continueRun s = continueFrame s :=
  if_pos h

/-- Settles O31: both rows put their byte at WPOS, and the bytes left in the run decide what follows. -/
theorem literalsAndRawBytesWriteOneWindowByte : Obligations.LiteralsAndRawBytesWriteOneWindowByte := by
  intro s b
  refine ⟨winSet s.lzx.win s.lzx.wpos b, fun i => ?_, fun i hi => ?_⟩
  · rw [winGet_winSet, winIndex_natCast]
  have hexec : exec i s = element s (continueRun (putWindowByte b s)) := by
    obtain rfl | rfl := hi
    · rfl
    · rfl
  refine ⟨fun hrun => exec_of_element_ok hexec (continueRun_inside ?_), fun hrun => ?_⟩
  · rw [putWindowByte_seq_run]
    omega
  · have hleft : (putWindowByte b s).seq.run = 0 := by rw [putWindowByte_seq_run, hrun]
    rw [exec_of_element hexec (continueRun_to_end hleft), putWindowByte, hrun]

/-! ## The checks of a match -/

section
variable {off : Nat} {s : State}

/-- 44_lzx_symbols R213. -/
theorem checkedCopy_badMatchOffset (h : off = 0 ∨ 65536 < off) : checkedCopy off s = .error .badMatchOffset :=
  if_pos h

theorem checkedCopy_of_legal (hoff : 1 ≤ off) (hoff' : off ≤ 65536) :
    checkedCopy off s =
      if s.seq.run < s.seq.mlen then .error .matchOverrun else continueRun (copyMatch off s.seq.mlen s) :=
  if_neg (by omega)

end

section
variable {i : Instr} {off : Nat} {s u : State}

theorem raises_badMatchOffset (h : exec i s = element s (checkedCopy off u)) (hoff : off = 0 ∨ 65536 < off) :
    Raises i s .badMatchOffset := by
  rw [checkedCopy_badMatchOffset hoff] at h
  exact raises_of_element_error h (takeFault_faultTaken _ s)

/-- 44_lzx_symbols R214, after the offset's check. -/
theorem raises_matchOverrun (h : exec i s = element s (checkedCopy off u)) (hoff : 1 ≤ off) (hoff' : off ≤ 65536)
    (hlen : u.seq.run < u.seq.mlen) : Raises i s .matchOverrun := by
  rw [checkedCopy_of_legal hoff hoff', if_pos hlen] at h
  exact raises_of_element_error h (takeFault_faultTaken _ s)

/-- A match whose offset is legal completes from the state `u` its operands are latched in. -/
theorem matchCompletes_of_checkedCopy (h : exec i s = element s (checkedCopy off u)) (hoff : 1 ≤ off)
    (hoff' : off ≤ 65536) (hrun : u.seq.run = s.seq.run) :
    MatchCompletes i u.seq.mlen s (copyMatch off u.seq.mlen u) := by
  have hcopy (hlen : u.seq.mlen ≤ s.seq.run) : checkedCopy off u = continueRun (copyMatch off u.seq.mlen u) := by
    rw [checkedCopy_of_legal hoff hoff', if_neg (by omega)]
  refine ⟨fun hlt => exec_of_element_ok h ((hcopy hlt.le).trans (continueRun_inside ?_)),
    fun heq => exec_of_element h ((hcopy heq.le).trans (continueRun_to_end ?_))⟩
  · rw [copyMatch_seq_run]
    omega
  · rw [copyMatch_seq_run]
    omega

end

/-! ## Repeated offsets -/

theorem repMatch_eq (use : State → Nat × State) (lh : BitVec 3) (f : Byte) (s : State) :
    repMatch use lh f s =
      checkedCopy (use { s with seq.mlen := matchLength lh f }).1 (use { s with seq.mlen := matchLength lh f }).2 := by
  rw [repMatch, latchLength_eq]

section
variable (lh : BitVec 3) (f : Byte) (s : State)

theorem exec_matchRep0 :
    exec (.matchRep0 lh f) s = element s (checkedCopy s.lzx.r0.toNat { s with seq.mlen := matchLength lh f }) :=
  congrArg (element s) (repMatch_eq useR0 lh f s)

theorem exec_matchRep1 :
    exec (.matchRep1 lh f) s =
      element s
        (checkedCopy s.lzx.r1.toNat
          { s with lzx.r0 := s.lzx.r1, lzx.r1 := s.lzx.r0, seq.mlen := matchLength lh f }) :=
  congrArg (element s) (repMatch_eq useR1 lh f s)

theorem exec_matchRep2 :
    exec (.matchRep2 lh f) s =
      element s
        (checkedCopy s.lzx.r2.toNat
          { s with lzx.r0 := s.lzx.r2, lzx.r2 := s.lzx.r0, seq.mlen := matchLength lh f }) :=
  congrArg (element s) (repMatch_eq useR2 lh f s)

end

/-- Settles O32: each slot's copy is from its own cache entry, with the entries exchanged first. -/
theorem repeatedOffsetMatchesUseTheCache : Obligations.RepeatedOffsetMatchesUseTheCache := by
  rintro s lh f len rfl
  exact ⟨fun hoff hoff' => matchCompletes_of_checkedCopy (exec_matchRep0 lh f s) hoff hoff' rfl,
    fun hoff hoff' => matchCompletes_of_checkedCopy (exec_matchRep1 lh f s) hoff hoff' rfl,
    fun hoff hoff' => matchCompletes_of_checkedCopy (exec_matchRep2 lh f s) hoff hoff' rfl⟩

/-! ## Explicit offsets -/

/-- The state a match of an explicit slot copies in: its length and extra value latched, its offset pushed
(44_lzx_symbols R203, R207 to R212). -/
def explicitLatched (slot : Nat) (lh : BitVec 3) (f : Byte) (v : Nat) (s : State) : State :=
  { s with
    lzx.r0 := BitVec.ofNat 32 (positionBase slot - 2 + v)
    lzx.r1 := s.lzx.r0
    lzx.r2 := s.lzx.r1
    seq.mlen := matchLength lh f
    seq.mext := v }

theorem slotMatch_eq (slot : Nat) (lh : BitVec 3) (f : Byte) (o : OffBits) (s : State) :
    slotMatch slot lh f o s =
      checkedCopy (positionBase slot - 2 + offsetValue o) (explicitLatched slot lh f (offsetValue o) s) := by
  rw [slotMatch, latchLength_eq, latchOffBits_eq]
  rfl

/-- What the six rows of the explicit slots have in common: the slot and extra value `v` a row stands for, and that it
is the match of those. -/
structure ExplicitMatch (i : Instr) (slot : Nat) (lh : BitVec 3) (f : Byte) (v : Nat) : Prop where
  three_le_slot : 3 ≤ slot
  slot_lt : slot < 32
  extra_lt : v < 2 ^ extraBits slot
  exec_eq : ∀ s, exec i s = element s (checkedCopy (positionBase slot - 2 + v) (explicitLatched slot lh f v s))

section
variable {i : Instr} {slot v : Nat} {lh : BitVec 3} {f : Byte}

theorem ExplicitMatch.completes (h : ExplicitMatch i slot lh f v) (s : State) :
    MatchCompletes i (matchLength lh f) s (explicitCopied slot lh f v s) := by
  obtain ⟨hoff, hoff'⟩ := explicitOffset_range h.three_le_slot h.slot_lt h.extra_lt
  exact matchCompletes_of_checkedCopy (h.exec_eq s) hoff (by omega) rfl

theorem ExplicitMatch.raises (h : ExplicitMatch i slot lh f v) {s : State} (hlen : s.seq.run < matchLength lh f) :
    Raises i s .matchOverrun := by
  obtain ⟨hoff, hoff'⟩ := explicitOffset_range h.three_le_slot h.slot_lt h.extra_lt
  exact raises_matchOverrun (h.exec_eq s) hoff (by omega) hlen

end

/-! ## The rows of the explicit slots -/

theorem offsetValue_lt_of_fits {eb : Nat} {o : OffBits} (heb : 3 ≤ eb) (h : o.fits eb = true) :
    offsetValue o < 2 ^ eb := by
  cases o with
  | raw v => exact of_decide_eq_true h
  | split v a =>
    have hv : v.toNat < 2 ^ (eb - 3) := of_decide_eq_true h
    have ha : a.toNat < 8 := a.isLt
    have hpow : 2 ^ eb = 2 ^ (eb - 3) * 8 := (Nat.pow_sub_mul_pow 2 heb).symm
    rw [offsetValue]
    omega

/-- Slots 8 to 31 have three extra bits or more, in either form. -/
theorem explicitMatch_of_fits {i : Instr} {slot eb : Nat} {lh : BitVec 3} {f : Byte} {o : OffBits}
    (hlow : 8 ≤ slot) (hhigh : slot < 32) (heb : slot / 2 - 1 = eb) (hwf : (footerOk lh f && o.fits eb) = true)
    (h : ∀ s, exec i s = element s (slotMatch slot lh f o s)) : ExplicitMatch i slot lh f (offsetValue o) where
  three_le_slot := by omega
  slot_lt := hhigh
  extra_lt := by
    rw [extraBits, if_neg (by omega), heb]
    exact offsetValue_lt_of_fits (by omega) (Bool.and_eq_true_iff.mp hwf).2
  exec_eq s := (h s).trans (congrArg (element s) (slotMatch_eq slot lh f o s))

theorem explicitMatch_off1 (lh : BitVec 3) (f : Byte) : ExplicitMatch (.matchOff1 lh f) 3 lh f 0 where
  three_le_slot := Nat.le_refl 3
  slot_lt := by decide
  extra_lt := by decide
  exec_eq s := congrArg (element s) (slotMatch_eq 3 lh f (.raw 0) s)

section
variable {lh : BitVec 3} {f : Byte}

/-- Slots 4 to 7 have one or two extra bits, all raw. -/
theorem explicitMatch_s4to7 {sl v : BitVec 2} (hwf : Instr.wf (.matchS4to7 sl lh f v) = true) :
    ExplicitMatch (.matchS4to7 sl lh f v) (4 + sl.toNat) lh f v.toNat where
  three_le_slot := by omega
  slot_lt := by omega
  extra_lt := by
    have hv : v.toNat < 2 ^ (1 + sl.toNat / 2) := of_decide_eq_true (Bool.and_eq_true_iff.mp hwf).2
    rwa [extraBits, if_neg (by omega), show (4 + sl.toNat) / 2 - 1 = 1 + sl.toNat / 2 by omega]
  exec_eq s := by
    have hv : offsetValue (.raw (v.setWidth 14)) = v.toNat := BitVec.toNat_setWidth_of_le (by decide)
    rw [← hv]
    exact congrArg (element s) (slotMatch_eq _ lh f _ s)

theorem explicitMatch_s8to9 {sl : BitVec 1} {o : OffBits} (hwf : Instr.wf (.matchS8to9 sl lh f o) = true) :
    ExplicitMatch (.matchS8to9 sl lh f o) (8 + sl.toNat) lh f (offsetValue o) :=
  explicitMatch_of_fits (by omega) (by omega) (by omega) hwf fun _ => rfl

theorem explicitMatch_s10to11 {sl : BitVec 1} {o : OffBits} (hwf : Instr.wf (.matchS10to11 sl lh f o) = true) :
    ExplicitMatch (.matchS10to11 sl lh f o) (10 + sl.toNat) lh f (offsetValue o) :=
  explicitMatch_of_fits (by omega) (by omega) (by omega) hwf fun _ => rfl

theorem explicitMatch_s12to15 {sl : BitVec 2} {o : OffBits} (hwf : Instr.wf (.matchS12to15 sl lh f o) = true) :
    ExplicitMatch (.matchS12to15 sl lh f o) (12 + sl.toNat) lh f (offsetValue o) :=
  explicitMatch_of_fits (by omega) (by omega) (by omega) hwf fun _ => rfl

theorem explicitMatch_s16to31 {sl : BitVec 4} {o : OffBits} (hwf : Instr.wf (.matchS16to31 sl lh f o) = true) :
    ExplicitMatch (.matchS16to31 sl lh f o) (16 + sl.toNat) lh f (offsetValue o) :=
  explicitMatch_of_fits (by omega) (by omega) (by omega) hwf fun _ => rfl

end

/-- Settles O33: the six rows. -/
theorem explicitOffsetMatchesPushTheirOffset : Obligations.ExplicitOffsetMatchesPushTheirOffset :=
  fun s lh f =>
    ⟨(explicitMatch_off1 lh f).completes s, fun _ _ hwf => (explicitMatch_s4to7 hwf).completes s,
      fun _ _ hwf => (explicitMatch_s8to9 hwf).completes s, fun _ _ hwf => (explicitMatch_s10to11 hwf).completes s,
      fun _ _ hwf => (explicitMatch_s12to15 hwf).completes s, fun _ _ hwf => (explicitMatch_s16to31 hwf).completes s⟩

/-- Settles O34: the offset is the cache's own for slots 0 to 2, and legal for every explicit slot. -/
theorem matchChecksComeInOrder : Obligations.MatchChecksComeInOrder := by
  refine fun s lh f => ⟨fun i off hi => ?_, fun i hi hwf hlen => ?_⟩
  · have hexec : ∃ u, exec i s = element s (checkedCopy off.toNat u) ∧ u.seq.run = s.seq.run ∧
        u.seq.mlen = matchLength lh f := by
      obtain ⟨rfl, rfl⟩ | ⟨rfl, rfl⟩ | ⟨rfl, rfl⟩ := hi
      · exact ⟨_, exec_matchRep0 lh f s, rfl, rfl⟩
      · exact ⟨_, exec_matchRep1 lh f s, rfl, rfl⟩
      · exact ⟨_, exec_matchRep2 lh f s, rfl, rfl⟩
    obtain ⟨u, hu, hrun, hmlen⟩ := hexec
    exact ⟨raises_badMatchOffset hu, fun hoff hoff' hlen => raises_matchOverrun hu hoff hoff' (by omega)⟩
  · obtain rfl | ⟨sl, v, rfl⟩ | ⟨sl, o, rfl⟩ | ⟨sl, o, rfl⟩ | ⟨sl, o, rfl⟩ | ⟨sl, o, rfl⟩ := hi
    · exact (explicitMatch_off1 lh f).raises hlen
    · exact (explicitMatch_s4to7 hwf).raises hlen
    · exact (explicitMatch_s8to9 hwf).raises hlen
    · exact (explicitMatch_s10to11 hwf).raises hlen
    · exact (explicitMatch_s12to15 hwf).raises hlen
    · exact (explicitMatch_s16to31 hwf).raises hlen

/-- Settles O37: each latches its operand, with no check. -/
theorem footerAndAlignedSymbolLatchTheirOperand : Obligations.FooterAndAlignedSymbolLatchTheirOperand :=
  fun _ _ _ => ⟨rfl, rfl⟩

end Sys2Proof.Machine
end

section
/-! SUPPORT. The turns of the frame loop (45_lzx_frame R231 to R233) and the two ways a frame ends (R234 to R236). -/

namespace Sys2Proof.Machine

/-! ## The start of a run -/

section
variable {s : State}

/-- 45_lzx_frame R232: the run would pass the window's end. -/
theorem beginRun_straddles (h : 65536 < s.lzx.wpos % 65536 + min s.lzx.brem.toNat s.seq.togo) :
    beginRun s = .error .runStraddlesWindow :=
  if_pos h

theorem beginRun_fits (h : s.lzx.wpos % 65536 + min s.lzx.brem.toNat s.seq.togo ≤ 65536) :
    beginRun s =
      .ok
        { s with
          lzx.brem := BitVec.ofNat 24 (s.lzx.brem.toNat - min s.lzx.brem.toNat s.seq.togo)
          lzx.wpos := s.lzx.wpos % 65536
          seq.togo := s.seq.togo - min s.lzx.brem.toNat s.seq.togo
          seq.run := min s.lzx.brem.toNat s.seq.togo
          seq.expect := if s.lzx.btype = 1 ∨ s.lzx.btype = 2 then some .element else some .uncData } :=
  if_neg (Nat.not_lt.mpr h)

end

/-- Settles O38: the two tests of the frame loop in order, then the check of a run. -/
theorem frameLoopTurns : Obligations.FrameLoopTurns := by
  refine fun s => ⟨continueFrame_eq_finishFrame, fun htogo hbrem hbtype => ?_, fun htogo hbrem hbtype => ?_, ?_⟩
  · exact continueFrame_blockHdr (Nat.one_le_iff_ne_zero.mpr htogo) hbrem hbtype
  · exact continueFrame_uncClose (Nat.one_le_iff_ne_zero.mpr htogo) hbrem hbtype
  · rintro n rfl htogo hbrem
    rw [continueFrame_eq_beginRun htogo hbrem]
    exact ⟨beginRun_straddles, beginRun_fits⟩

/-! ## The end of a frame -/

/-- 45_lzx_frame R236: the books are not kept when the policy faults. -/
theorem e8Bookkeeping_raises {f : Nat} {s : State} (h : E8Raises f s) :
    e8Bookkeeping f s = .error .e8TranslationRequired := by
  obtain ⟨hpolicy, hframes, hfilesize, hlong, hstarted⟩ := h
  rw [e8Bookkeeping, if_pos ⟨hframes, hfilesize⟩, if_pos ⟨hlong, hstarted⟩]
  simp only [applyE8Policy, hpolicy]

theorem finishFrame_raises {s : State} (h : E8Raises s.args.frameSize.toNat s) :
    finishFrame s = .error .e8TranslationRequired := by
  rw [finishFrame, e8Bookkeeping_raises h]
  rfl

/-- Settles O39: the fault and the explicit next state, whose OUT holds the frame's window bytes. -/
theorem frameEndWritesOutAndKeepsTheE8Books : Obligations.FrameEndWritesOutAndKeepsTheE8Books := by
  rintro s f rfl
  refine ⟨fun hpolicy hframes hfilesize hlong hstarted => ?_, fun he8 => ?_⟩
  · exact finishFrame_raises ⟨hpolicy, hframes, hfilesize, hlong, hstarted⟩
  · exact ⟨_, finishFrame_ok rfl he8, fun k => getD_putList_frameBytes _ _ _ k _⟩

end Sys2Proof.Machine
end

section
/-! SUPPORT. Every element of LZX_FRAME takes input (41_bitstream R141, 45_lzx_frame R239, log 13): what a fetch
consumes, and a measure of the input left that every element makes smaller. -/

namespace Sys2Proof.Machine

/-! ## What a decoder takes -/

section
variable {c : DecodeCtx} {src : BitSource} {pos n k : Nat} {i : Instr}

theorem readBits_first_there {v : Nat} (h : readBits src pos n = .ok v) (hn : 1 ≤ n) : src pos ≠ none := by
  have hbit := testBit_of_readBits h 0 hn
  rw [Nat.add_zero] at hbit
  rw [hbit]
  exact Option.some_ne_none _

theorem walkCode_first_there {tbl : List HuffCode} {fuel v z : Nat} (h : walkCode src tbl pos fuel 0 v = .ok (z, k)) :
    src pos ≠ none := by
  intro hmissing
  cases fuel with
  | zero => cases h
  | succ fuel =>
    rw [walkCode, Nat.add_zero, hmissing] at h
    cases h

/-- A code has a bit, and its first one is there (42_huffman R153, R155). -/
theorem decodeSym_takes {ls : List Nat} {z : Nat} (h : decodeSym ls src pos = .ok (z, k)) : 1 ≤ k ∧ src pos ≠ none := by
  have hk : 1 ≤ k := Nat.one_le_iff_ne_zero.mpr (mem_usedSyms.mp (decodeSym_mem_usedSyms h)).2
  refine ⟨hk, ?_⟩
  unfold decodeSym at h
  split at h
  case h_1 => cases h
  case h_2 =>
    obtain ⟨v, hv, h⟩ := exceptBind_eq_ok h
    cases h
    exact readBits_first_there hv hk
  all_goals exact walkCode_first_there h

theorem readFields_first_there {w : Nat} {ls : List (BitVec w)} (h : readFields src w pos (n + 1) = .ok ls)
    (hw : 1 ≤ w) : src pos ≠ none := by
  obtain ⟨v, hv, _⟩ := exceptBind_eq_ok h
  exact readBits_first_there hv hw

theorem decodeStreamHdr_takes (h : decodeStreamHdr src = .ok (i, k)) : 1 ≤ k ∧ src 0 ≠ none := by
  obtain ⟨e8, he8, h⟩ := exceptBind_eq_ok h
  refine ⟨?_, readBits_first_there he8 (Nat.le_refl 1)⟩
  split at h
  · cases h
    decide
  · obtain ⟨hi, _, h⟩ := exceptBind_eq_ok h
    obtain ⟨lo, _, h⟩ := exceptBind_eq_ok h
    cases h
    decide

theorem decodeBlockHdr_takes (h : decodeBlockHdr src = .ok (i, k)) : 1 ≤ k ∧ src 0 ≠ none := by
  obtain ⟨t, ht, h⟩ := exceptBind_eq_ok h
  obtain ⟨hi, _, h⟩ := exceptBind_eq_ok h
  obtain ⟨lo, _, h⟩ := exceptBind_eq_ok h
  cases h
  exact ⟨by decide, readBits_first_there ht (by decide)⟩

theorem decodeAlignLens_takes (h : decodeAlignLens src = .ok (i, k)) : 1 ≤ k ∧ src 0 ≠ none := by
  obtain ⟨ls, hls, h⟩ := exceptBind_eq_ok h
  cases h
  exact ⟨by decide, readFields_first_there hls (by decide)⟩

theorem decodePreLens_takes (h : decodePreLens src = .ok (i, k)) : 1 ≤ k ∧ src 0 ≠ none := by
  obtain ⟨ls, hls, h⟩ := exceptBind_eq_ok h
  cases h
  exact ⟨by decide, readFields_first_there hls (by decide)⟩

theorem decodePreSym_takes {pre : List Nat} (h : decodePreSym pre src = .ok (i, k)) : 1 ≤ k ∧ src 0 ≠ none := by
  obtain ⟨⟨z, m⟩, hz, h⟩ := exceptBind_eq_ok h
  obtain ⟨hm, hfirst⟩ := decodeSym_takes hz
  refine ⟨?_, hfirst⟩
  dsimp only at h
  split_ifs at h
  · cases h
    exact hm
  · cases h
    exact hm
  · obtain ⟨r, _, h⟩ := exceptBind_eq_ok h
    cases h
    omega
  · obtain ⟨r, _, h⟩ := exceptBind_eq_ok h
    cases h
    omega
  · obtain ⟨b, _, h⟩ := exceptBind_eq_ok h
    obtain ⟨d, _, h⟩ := exceptBind_eq_ok h
    cases h
    omega

theorem decodeElement_takes (h : decodeElement c src = .ok (i, k)) : 1 ≤ k ∧ src 0 ≠ none := by
  obtain ⟨⟨m, n⟩, hm, h⟩ := exceptBind_eq_ok h
  obtain ⟨hn, hfirst⟩ := decodeSym_takes hm
  refine ⟨?_, hfirst⟩
  dsimp only at h
  split at h
  · cases h
    exact hn
  · obtain ⟨f, _, h⟩ := exceptBind_eq_ok h
    obtain ⟨o, _, h⟩ := exceptBind_eq_ok h
    cases h
    omega

theorem decodeLenFooter_takes (h : decodeLenFooter c src = .ok (i, k)) : 1 ≤ k ∧ src 0 ≠ none := by
  obtain ⟨f, hf, h⟩ := exceptBind_eq_ok h
  cases h
  exact decodeSym_takes hf

theorem decodeAlignSym_takes (h : decodeAlignSym c src = .ok (i, k)) : 1 ≤ k ∧ src 0 ≠ none := by
  obtain ⟨a, ha, h⟩ := exceptBind_eq_ok h
  cases h
  exact decodeSym_takes ha

/-- An element of the bit stream takes a bit or more, the first of which is there (41_bitstream R133, R134). -/
theorem decodeBits_takes (h : decodeBits c src = .ok (i, k)) : 1 ≤ k ∧ src 0 ≠ none := by
  unfold decodeBits at h
  split at h
  · exact decodeStreamHdr_takes h
  · exact decodeBlockHdr_takes h
  · exact decodeAlignLens_takes h
  · exact decodePreLens_takes h
  · exact decodePreSym_takes h
  · exact decodeLenFooter_takes h
  · exact decodeAlignSym_takes h
  · exact decodeElement_takes h

end

section
variable {c : DecodeCtx} {src : ByteSource} {i : Instr} {k : Nat}

theorem rawByte_there {o : Nat} {b : Byte} (h : rawByte src o = .ok b) : src o ≠ none := by
  intro hmissing
  rw [rawByte, hmissing] at h
  cases h

theorem decodeUncOffsets_takes (h : decodeUncOffsets src = .ok (i, k)) : 1 ≤ k ∧ src 0 ≠ none := by
  obtain ⟨r0, hr0, h⟩ := exceptBind_eq_ok h
  obtain ⟨b, hb, _⟩ := exceptBind_eq_ok hr0
  obtain ⟨r1, _, h⟩ := exceptBind_eq_ok h
  obtain ⟨r2, _, h⟩ := exceptBind_eq_ok h
  cases h
  exact ⟨by decide, rawByte_there hb⟩

theorem decodeUncData_takes (h : decodeUncData src = .ok (i, k)) : 1 ≤ k ∧ src 0 ≠ none := by
  obtain ⟨b, hb, h⟩ := exceptBind_eq_ok h
  cases h
  exact ⟨by decide, rawByte_there hb⟩

/-- The raw parts of UNC_BODY but its close take a byte or more, the first of which is there (41_bitstream R136). -/
theorem decodeBytes_takes (hc : c.expect = .uncOffsets ∨ c.expect = .uncData) (h : decodeBytes c src = .ok (i, k)) :
    1 ≤ k ∧ src 0 ≠ none := by
  obtain hc | hc := hc
  · rw [decodeBytes, hc] at h
    exact decodeUncOffsets_takes h
  · rw [decodeBytes, hc] at h
    exact decodeUncData_takes h

end

/-! ## The input left -/

/-- The bits of IN and its slack (41_bitstream R133). -/
def inputBits (s : State) : Nat := 8 * (s.args.inLen.toNat + 2)

/-- The bits left to the bit stream. -/
def streamBitsLeft (s : State) : Nat := inputBits s - (8 * s.rdr.base + s.rdr.bitpos)

/-- The bits left to the raw bytes. -/
def rawBitsLeft (s : State) : Nat := inputBits s - 8 * s.rdr.rawpos

theorem streamBitsLeft_le (s : State) : streamBitsLeft s ≤ inputBits s := Nat.sub_le _ _

theorem rawBitsLeft_le (s : State) : rawBitsLeft s ≤ inputBits s := Nat.sub_le _ _

theorem streamBit_there {s : State} {pos : Nat} (h : streamBit s pos ≠ none) :
    8 * s.rdr.base + pos < inputBits s := by
  by_contra hpast
  refine h (streamBit_past_slack ?_)
  rw [inputBits] at hpast
  omega

theorem streamBitsLeft_advanceBits {s : State} {k : Nat} (hk : 1 ≤ k) (h : bitSource s 0 ≠ none) :
    streamBitsLeft (advanceBits s k) < streamBitsLeft s := by
  have hthere := streamBit_there h
  simp only [streamBitsLeft, inputBits, advanceBits_args, advanceBits_rdr_base, advanceBits_rdr_bitpos] at hthere ⊢
  omega

/-- The slack is no raw input: with a raw byte there, more than its two bytes are left. -/
theorem rawBitsLeft_advanceRaw {s : State} {k : Nat} (hk : 1 ≤ k) (h : rawSource s 0 ≠ none) :
    rawBitsLeft (advanceRaw s k) + 8 ≤ rawBitsLeft s := by
  have hthere : s.rdr.rawpos < s.args.inLen.toNat := by
    by_contra hpast
    exact h (if_pos (by omega))
  simp only [rawBitsLeft, inputBits, advanceRaw_args, advanceRaw_rdr_rawpos]
  omega

/-- The bytes of LZX_FRAME are the parts of UNC_BODY. -/
theorem rawPlace_cases {e : Expect} (hb : e.isBits = false) (ha : isAdpcm e = false) :
    e = .uncClose ∨ e = .uncOffsets ∨ e = .uncData := by
  cases e with
  | uncClose => exact .inl rfl
  | uncOffsets => exact .inr (.inl rfl)
  | uncData => exact .inr (.inr rfl)
  | adpcmPreamble => cases ha
  | adpcmByte => cases ha
  | adpcmNibble => cases ha
  | _ => cases hb

/-- What the fetch of an element of LZX_FRAME takes: a bit or more, or a byte or more but for the close of an
UNCOMPRESSED block, whose pad byte may be missing (43_lzx_block_headers R184). -/
theorem fetchElement_takes {e : Expect} {s u : State} {i : Instr} (ha : isAdpcm e = false)
    (h : fetchElement e s = .ok (i, u)) :
    (e.isBits = true ∧ streamBitsLeft u < streamBitsLeft s) ∨
      (e = .uncOffsets ∨ e = .uncData) ∧ rawBitsLeft u + 8 ≤ rawBitsLeft s ∨
      e = .uncClose ∧ rawBitsLeft u ≤ rawBitsLeft s := by
  obtain ⟨hb, k, hd, rfl⟩ | ⟨_, ha', _⟩ | ⟨hb, _, k, hd, rfl⟩ := fetchElement_cases h
  · obtain ⟨hk, hfirst⟩ := decodeBits_takes hd
    exact .inl ⟨hb, streamBitsLeft_advanceBits hk hfirst⟩
  · cases ha.symm.trans ha'
  · obtain rfl | he := rawPlace_cases hb ha
    · refine .inr (.inr ⟨rfl, ?_⟩)
      simp only [rawBitsLeft, inputBits, advanceRaw_args, advanceRaw_rdr_rawpos]
      omega
    · obtain ⟨hk, hfirst⟩ := decodeBytes_takes (c := decodeCtx s e) he hd
      exact .inr (.inl ⟨he, rawBitsLeft_advanceRaw hk hfirst⟩)

/-! ## The measure -/

/-- The block type that goes with a place of the stream grammar inside LZX_FRAME; the places of the other engine and the
operands standing alone are none of its own (30_encoding sections 2 to 5). -/
def DueInBlock (btype : BitVec 3) : Expect → Prop
  | .streamHdr => True
  | .blockHdr => True
  | .alignLens => btype = 1 ∨ btype = 2
  | .preLens => btype = 1 ∨ btype = 2
  | .preSym => btype = 1 ∨ btype = 2
  | .uncOffsets => btype = 3
  | .uncData => ¬ (btype = 1 ∨ btype = 2)
  | .uncClose => True
  | .element => btype = 1 ∨ btype = 2
  | .lenFooter => False
  | .alignSym => False
  | .adpcmPreamble => False
  | .adpcmByte => False
  | .adpcmNibble => False

/-- What an UNCOMPRESSED run leaves of the bit stream: nothing, since the stream restarts after the block. A run that is
read raw in a block of no type, as the state before the command may hold, leaves all of it. -/
def streamAfterRun (s : State) : Nat := if s.lzx.btype = 3 then 0 else inputBits s

/-- A bound on the elements to come when `e` is due. An element of bits takes one or more. The close of a block, which
may take nothing, stands between elements that take a byte or more. -/
def workDue (s : State) : Expect → Nat
  | .streamHdr => 2 * inputBits s + 3
  | .uncOffsets => rawBitsLeft s + 1
  | .uncData => streamAfterRun s + rawBitsLeft s + 1
  | .uncClose => rawBitsLeft s + 2
  | _ => streamBitsLeft s + 1

/-- A bound on the elements to come. -/
def workLeft (s : State) : Nat :=
  match s.seq.expect with
  | none => 0
  | some e => workDue s e

theorem workLeft_of_none {s : State} (h : s.seq.expect = none) : workLeft s = 0 := by
  rw [workLeft, h]

theorem workLeft_of_some {s : State} {e : Expect} (h : s.seq.expect = some e) : workLeft s = workDue s e := by
  rw [workLeft, h]

theorem workDue_pos (s : State) (e : Expect) : 0 < workDue s e := by
  cases e <;> exact Nat.succ_pos _

/-- The elements to come from a turn of the frame loop on. -/
def loopWork (s : State) : Nat :=
  if s.lzx.btype = 1 ∨ s.lzx.btype = 2 then streamBitsLeft s + 1 else streamAfterRun s + rawBitsLeft s + 2

theorem loopWork_coded {s : State} (h : s.lzx.btype = 1 ∨ s.lzx.btype = 2) : loopWork s = streamBitsLeft s + 1 :=
  if_pos h

theorem loopWork_raw {s : State} (h : ¬ (s.lzx.btype = 1 ∨ s.lzx.btype = 2)) :
    loopWork s = streamAfterRun s + rawBitsLeft s + 2 :=
  if_neg h

theorem streamAfterRun_uncompressed {s : State} (h : s.lzx.btype = 3) : streamAfterRun s = 0 := if_pos h

theorem loopWork_uncompressed {s : State} (h : s.lzx.btype = 3) : loopWork s = rawBitsLeft s + 2 := by
  rw [loopWork_raw (by rw [h]; decide), streamAfterRun_uncompressed h, Nat.zero_add]

theorem streamAfterRun_le (s : State) : streamAfterRun s ≤ inputBits s := by
  unfold streamAfterRun
  split
  · exact Nat.zero_le _
  · exact Nat.le_refl _

theorem loopWork_le (s : State) : loopWork s ≤ 2 * inputBits s + 2 := by
  have hstream := streamBitsLeft_le s
  have hraw := rawBitsLeft_le s
  have hrun := streamAfterRun_le s
  unfold loopWork
  split <;> omega

theorem finishFrame_expect {s t : State} (h : finishFrame s = .ok t) : t.seq.expect = none := by
  obtain ⟨u, _, rfl⟩ := finishFrame_cases h
  rfl

/-- Between runs a block header is due in a block that needs no close. -/
theorem streamBitsLeft_lt_loopWork {s : State} (h : s.lzx.btype ≠ 3) : streamBitsLeft s + 1 ≤ loopWork s := by
  have hstream := streamBitsLeft_le s
  by_cases hcoded : s.lzx.btype = 1 ∨ s.lzx.btype = 2
  · exact (loopWork_coded hcoded).ge
  · rw [loopWork_raw hcoded, streamAfterRun, if_neg h]
    omega

theorem continueFrame_workLeft_le {s t : State} (h : continueFrame s = .ok t) : workLeft t ≤ loopWork s := by
  obtain ⟨_, hf⟩ | ⟨_, _, rfl⟩ | ⟨_, _, hr⟩ := continueFrame_cases h
  · rw [workLeft_of_none (finishFrame_expect hf)]
    exact Nat.zero_le _
  · split
    · next hbtype => exact (loopWork_uncompressed hbtype).ge
    · next hbtype => exact streamBitsLeft_lt_loopWork hbtype
  · obtain ⟨_, rfl⟩ := beginRun_cases hr
    split
    · next hcoded => exact (loopWork_coded hcoded).ge
    · next hraw =>
      rw [loopWork_raw hraw]
      exact Nat.le_succ _

theorem advanceTo_workLeft_le {x : Nat} {s t : State} (hcoded : s.lzx.btype = 1 ∨ s.lzx.btype = 2)
    (h : advanceTo x s = .ok t) : workLeft t ≤ streamBitsLeft s + 1 := by
  obtain ⟨_, rfl⟩ | ⟨_, _, rfl⟩ | h := advanceTo_ok_cases h
  · exact Nat.le_refl _
  · exact Nat.le_refl _
  · exact (continueFrame_workLeft_le h).trans (loopWork_coded (s := { s with seq.x := x }) hcoded).le

theorem workDue_le_loopWork {s : State} {e : Expect} (he : e = .element ∨ e = .uncData)
    (hdue : DueInBlock s.lzx.btype e) : workDue s e ≤ loopWork s := by
  obtain rfl | rfl := he
  · exact (loopWork_coded hdue).ge
  · rw [loopWork_raw hdue]
    exact Nat.le_succ _

theorem continueRun_workLeft_le {s t : State} {e : Expect} (he : e = .element ∨ e = .uncData)
    (hdue : DueInBlock s.lzx.btype e) (hexp : s.seq.expect = some e) (h : continueRun s = .ok t) :
    workLeft t ≤ loopWork s := by
  obtain ⟨_, h⟩ | ⟨_, rfl⟩ := continueRun_cases h
  · exact continueFrame_workLeft_le h
  · rw [workLeft_of_some hexp]
    exact workDue_le_loopWork he hdue

/-- The elements to come after the one due at `e`, by the input left once its own is taken. -/
def workAfter (s : State) : Expect → Nat
  | .streamHdr => 2 * inputBits s + 2
  | .uncOffsets => loopWork s
  | .uncData => loopWork s
  | .uncClose => rawBitsLeft s + 1
  | _ => streamBitsLeft s + 1

/-- EnterRaw moves the raw bytes past the bits already read (41_bitstream R135). -/
theorem rawBitsLeft_enterRaw_le (s : State) : rawBitsLeft (enterRaw s) ≤ streamBitsLeft s := by
  have hpad := enterRaw_pad_bits s
  have hin : inputBits (enterRaw s) = inputBits s := rfl
  rw [rawBitsLeft, streamBitsLeft, hin]
  omega

theorem ElementStep.workLeft_le {s t : State} {e : Expect} (h : ElementStep s e t)
    (hdue : DueInBlock s.lzx.btype e) (hexp : s.seq.expect = some e) : workLeft t ≤ workAfter s e := by
  cases h with
  | fault err => exact Nat.zero_le _
  | reserved ty blen => exact Nat.zero_le _
  | streamHdr fs h => exact (continueFrame_workLeft_le h).trans (loopWork_le _)
  | verbatim blen => exact Nat.le_refl _
  | aligned blen => exact Nat.le_refl _
  | uncompressed blen => exact Nat.succ_le_succ (rawBitsLeft_enterRaw_le (setIntelStarted (loadBlock 3 blen s)))
  | uncOffsets r0 r1 r2 h => exact (continueFrame_workLeft_le h :)
  | uncClose => exact Nat.le_refl _
  | alignLens ls hls => exact Nat.le_refl _
  | preLens ls hls => exact Nat.le_refl _
  | preSym n v hn hv h =>
    obtain ⟨m, l, hset⟩ := setSectionArray_eq (fillLens (sectionArray s) s.seq.x v n) s
    rw [hset] at h
    exact advanceTo_workLeft_le (s := { s with lzx.mainLen := m, lzx.lenLen := l }) hdue h
  | byte b hplace h =>
    have hwork := continueRun_workLeft_le (s := putWindowByte b s) hplace hdue hexp h
    obtain rfl | rfl := hplace
    · exact hwork.trans (loopWork_coded (s := putWindowByte b s) hdue).le
    · exact hwork
  | copy off mlen mext r0 r1 r2 hlen h =>
    have hwork := continueRun_workLeft_le (.inl rfl) (by exact hdue) (by exact hexp) h
    exact hwork.trans (loopWork_coded (by exact hdue)).le
  | latch mlen mext hplace => obtain rfl | rfl := hplace <;> exact hdue.elim
  | adpcm o hplace hu => obtain rfl | rfl := hplace <;> exact hdue.elim
  | nibble hu => exact hdue.elim

theorem DueInBlock.isAdpcm_eq_false {btype : BitVec 3} {e : Expect} (h : DueInBlock btype e) : isAdpcm e = false := by
  cases e with
  | adpcmPreamble => exact h.elim
  | adpcmByte => exact h.elim
  | adpcmNibble => exact h.elim
  | _ => rfl

/-- What an element takes is more than what it makes due. -/
theorem workAfter_lt_workDue {e : Expect} {s u : State} {i : Instr} (hdue : DueInBlock s.lzx.btype e)
    (h : fetchElement e s = .ok (i, u)) : workAfter u e < workDue s e := by
  obtain ⟨_, r, hu⟩ := fetchElement_dueAt h
  have hbtype : u.lzx.btype = s.lzx.btype := by rw [hu]
  have hin : inputBits u = inputBits s := by rw [hu]; rfl
  have hrun : streamAfterRun u = streamAfterRun s := by rw [hu]; rfl
  obtain ⟨hb, hleft⟩ | ⟨rfl | rfl, hleft⟩ | ⟨rfl, hleft⟩ := fetchElement_takes hdue.isAdpcm_eq_false h
  · cases e with
    | streamHdr => rw [workAfter, workDue, hin]; exact Nat.lt_succ_self _
    | uncOffsets => cases hb
    | uncData => cases hb
    | uncClose => cases hb
    | _ => exact Nat.succ_lt_succ hleft
  · rw [workAfter, workDue, loopWork_uncompressed (hbtype.trans hdue)]
    omega
  · rw [workAfter, workDue, loopWork_raw (by rwa [hbtype]), hrun]
    omega
  · rw [workAfter, workDue]
    omega

/-- Every element of LZX_FRAME leaves fewer to come than it found (41_bitstream R141). -/
theorem engineStep_workLeft_lt {e : Expect} {s t : State} (hdue : DueInBlock s.lzx.btype e)
    (hexp : s.seq.expect = some e) (h : engineStep e s = .next t) : workLeft t < workLeft s := by
  rw [workLeft_of_some hexp]
  obtain ⟨err, _, hs⟩ | ⟨i, u, hf, hs⟩ := engineStep_cases e s <;> rw [hs] at h
  · cases h
    exact workDue_pos s e
  · obtain ⟨hd, r, hu⟩ := fetchElement_dueAt hf
    have hle := (runElement_elementStep hd h).workLeft_le (by rwa [hu]) (by rwa [hu])
    exact hle.trans_lt (workAfter_lt_workDue hdue hf)

/-- The elements of a whole LZX_FRAME, by the reader's start at the first bit (41_bitstream R130). -/
theorem startLzx_workLeft_le {s t : State} (h : startLzx s = .ok t) : workLeft t ≤ 2 * inputBits s + 3 := by
  obtain ⟨_, ⟨_, h⟩ | ⟨_, rfl⟩⟩ := startLzx_cases h
  · exact ((continueFrame_workLeft_le h).trans (loopWork_le _)).trans (Nat.le_succ _)
  · exact Nat.le_refl _

end Sys2Proof.Machine
end

section
/-! SUPPORT. What LZX_FRAME owes while it runs (45_lzx_frame R230 to R234): WPOS and the bytes still owed add up to the
frame's end, around the window, and the command ends with the frame out or a fault latched (R238, R239). -/

namespace Sys2Proof.Machine

/-! ## Bytes owed -/

/-- `s`, inside the frame that began at `s0`, owes `n` bytes. -/
def FrameOwes (s0 : State) (n : Nat) (s : State) : Prop :=
  SameLife s0 s ∧ s.args = s0.args ∧
    (s.lzx.wpos + n) % 65536 = (s0.lzx.wpos + s0.args.frameSize.toNat) % 65536

/-- `s` is inside the frame that began at `s0`, with the element at `e` due; its run has bytes to go exactly where an
element of a run is due. -/
structure InFrame (s0 : State) (e : Expect) (s : State) : Prop where
  owes : FrameOwes s0 (s.seq.run + s.seq.togo) s
  due : DueInBlock s.lzx.btype e
  run_pos_iff : 1 ≤ s.seq.run ↔ e = .element ∨ e = .uncData

/-- `s` is between two runs of the frame that began at `s0`. -/
def BetweenRuns (s0 s : State) : Prop := s.seq.run = 0 ∧ FrameOwes s0 s.seq.togo s

/-- The frame that began at `s0` is out in `t`: its bytes are in the window before WPOS, and in OUT
(45_lzx_frame R234). -/
def FrameOut (s0 t : State) : Prop :=
  SameLife s0 t ∧ t.outCount = s0.args.frameSize ∧
    t.lzx.wpos % 65536 = (s0.lzx.wpos + s0.args.frameSize.toNat) % 65536 ∧
    ∀ k, k < s0.args.frameSize.toNat →
      outByte t k = winGet t.lzx.win ((t.lzx.wpos : Int) - s0.args.frameSize.toNat + k)

/-- A fault is latched (60_exceptions R280). -/
def FaultLatched (t : State) : Prop := t.life = .faulted ∧ t.outCount = 0 ∧ ∃ e, t.errcode = faultCode e

/-- A frame that began at `s0` is in progress in `s`, or it is over. -/
def FrameProgress (s0 s : State) : Prop :=
  (∃ e, s.seq.expect = some e ∧ InFrame s0 e s) ∨ s.seq.expect = none ∧ (FrameOut s0 s ∨ FaultLatched s)

theorem frameProgress_takeFault (s0 : State) (err : ErrCode) (s : State) : FrameProgress s0 (takeFault err s) :=
  .inr ⟨rfl, .inr ⟨rfl, rfl, err, rfl⟩⟩

/-- Between runs an element that is none of a run's is due. -/
theorem BetweenRuns.frameProgress {s0 t : State} {e : Expect} (h : BetweenRuns s0 t) (hexp : t.seq.expect = some e)
    (hdue : DueInBlock t.lzx.btype e) (he : ¬ (e = .element ∨ e = .uncData)) : FrameProgress s0 t := by
  obtain ⟨hrun, howes⟩ := h
  refine .inl ⟨e, hexp, ?_, hdue, ?_⟩
  · rwa [hrun, Nat.zero_add]
  · exact iff_of_false (by omega) he

/-! ## Turns of the frame loop and of a length section -/

/-- 45_lzx_frame R234: with nothing owed, WPOS is at the frame's end. -/
theorem finishFrame_frameOut {s0 s t : State} (howes : FrameOwes s0 0 s) (h : finishFrame s = .ok t) :
    FrameOut s0 t := by
  obtain ⟨hlife, hargs, hwpos⟩ := howes
  obtain ⟨u, hu, rfl⟩ := finishFrame_cases h
  obtain ⟨hu, _, _⟩ := e8Bookkeeping_cases hu
  rw [hu, hargs]
  refine ⟨hlife, rfl, hwpos, fun k hk => ?_⟩
  have hbyte := getD_putList_frameBytes s.outBuf s.lzx s0.args.frameSize.toNat k (Config.unspecifiedOut s.outEpoch k)
  rwa [if_pos hk] at hbyte

/-- 45_lzx_frame R232: a run takes its bytes over from what the frame owes. -/
theorem beginRun_frameProgress {s0 s t : State} (hs : BetweenRuns s0 s) (htogo : s.seq.togo ≠ 0)
    (hbrem : s.lzx.brem ≠ 0) (h : beginRun s = .ok t) : FrameProgress s0 t := by
  obtain ⟨_, hlife, hargs, hwpos⟩ := hs
  obtain ⟨_, rfl⟩ := beginRun_cases h
  have hpos : s.lzx.brem.toNat ≠ 0 := fun h0 => hbrem (BitVec.eq_of_toNat_eq (by simpa using h0))
  have howes : (s.lzx.wpos % 65536 +
      (min s.lzx.brem.toNat s.seq.togo + (s.seq.togo - min s.lzx.brem.toNat s.seq.togo))) % 65536 =
        (s0.lzx.wpos + s0.args.frameSize.toNat) % 65536 := by omega
  have hrun : 1 ≤ min s.lzx.brem.toNat s.seq.togo := by omega
  left
  split
  · next hcoded => exact ⟨.element, rfl, ⟨hlife, hargs, howes⟩, hcoded, iff_of_true hrun (.inl rfl)⟩
  · next hraw => exact ⟨.uncData, rfl, ⟨hlife, hargs, howes⟩, hraw, iff_of_true hrun (.inr rfl)⟩

theorem continueFrame_frameProgress {s0 s t : State} (hs : BetweenRuns s0 s) (h : continueFrame s = .ok t) :
    FrameProgress s0 t := by
  obtain ⟨htogo, hf⟩ | ⟨_, _, rfl⟩ | ⟨htogo, hbrem, hr⟩ := continueFrame_cases h
  · obtain ⟨_, howes⟩ := hs
    rw [htogo] at howes
    exact .inr ⟨finishFrame_expect hf, .inl (finishFrame_frameOut howes hf)⟩
  · split
    · exact BetweenRuns.frameProgress (e := .uncClose) hs rfl trivial nofun
    · exact BetweenRuns.frameProgress (e := .blockHdr) hs rfl trivial nofun
  · exact beginRun_frameProgress hs htogo hbrem hr

theorem continueRun_frameProgress {s0 s t : State} {e : Expect} (howes : FrameOwes s0 (s.seq.run + s.seq.togo) s)
    (hexp : s.seq.expect = some e) (hdue : DueInBlock s.lzx.btype e) (he : e = .element ∨ e = .uncData)
    (h : continueRun s = .ok t) : FrameProgress s0 t := by
  obtain ⟨hrun, h⟩ | ⟨hrun, rfl⟩ := continueRun_cases h
  · rw [hrun, Nat.zero_add] at howes
    exact continueFrame_frameProgress ⟨hrun, howes⟩ h
  · exact .inl ⟨e, hexp, howes, hdue, iff_of_true (Nat.one_le_iff_ne_zero.mpr hrun) he⟩

theorem advanceTo_frameProgress {s0 s t : State} {x : Nat} (hs : BetweenRuns s0 s)
    (hcoded : s.lzx.btype = 1 ∨ s.lzx.btype = 2) (h : advanceTo x s = .ok t) : FrameProgress s0 t := by
  obtain ⟨_, rfl⟩ | ⟨_, _, rfl⟩ | h := advanceTo_ok_cases h
  · exact BetweenRuns.frameProgress (e := .preSym) hs rfl hcoded nofun
  · exact BetweenRuns.frameProgress (e := .preLens) hs rfl hcoded nofun
  · exact continueFrame_frameProgress (s := { s with seq.x := x }) hs h

/-! ## Elements -/

theorem InFrame.betweenRuns {s0 s : State} {e : Expect} (h : InFrame s0 e s) (he : ¬ (e = .element ∨ e = .uncData)) :
    BetweenRuns s0 s := by
  have hrun : s.seq.run = 0 := Nat.lt_one_iff.mp (Nat.not_le.mp fun hpos => he (h.run_pos_iff.mp hpos))
  have howes := h.owes
  rw [hrun, Nat.zero_add] at howes
  exact ⟨hrun, howes⟩

/-- Bytes that a run puts in the window move from what is owed to WPOS (44_lzx_symbols R201, R215, R218). -/
theorem FrameOwes.advance {s0 s u : State} {n : Nat} (h : FrameOwes s0 (s.seq.run + s.seq.togo) s)
    (hn : n ≤ s.seq.run) (hlife : SameLife s u) (hargs : u.args = s.args) (hwpos : u.lzx.wpos = s.lzx.wpos + n)
    (hrun : u.seq.run = s.seq.run - n) (htogo : u.seq.togo = s.seq.togo) :
    FrameOwes s0 (u.seq.run + u.seq.togo) u := by
  obtain ⟨⟨hlife0, herr0⟩, hargs0, hwpos0⟩ := h
  obtain ⟨hlife, herr⟩ := hlife
  refine ⟨⟨hlife.trans hlife0, herr.trans herr0⟩, hargs.trans hargs0, ?_⟩
  rw [hwpos, hrun, htogo]
  omega

/-- Every element of a frame goes on with it, ends it or faults. -/
theorem ElementStep.frameProgress {s0 s t : State} {e : Expect} (h : ElementStep s e t) (hexp : s.seq.expect = some e)
    (hs : InFrame s0 e s) : FrameProgress s0 t := by
  have hdue := hs.due
  cases h with
  | fault err => exact frameProgress_takeFault s0 err s
  | reserved ty blen => exact frameProgress_takeFault s0 .badBlockType (loadBlock ty blen s)
  | streamHdr fs h => exact continueFrame_frameProgress (by exact hs.betweenRuns nofun) h
  | verbatim blen => exact BetweenRuns.frameProgress (e := .preLens) (hs.betweenRuns nofun) rfl (.inl rfl) nofun
  | aligned blen => exact BetweenRuns.frameProgress (e := .alignLens) (hs.betweenRuns nofun) rfl (.inr rfl) nofun
  | uncompressed blen => exact BetweenRuns.frameProgress (e := .uncOffsets) (hs.betweenRuns nofun) rfl rfl nofun
  | uncOffsets r0 r1 r2 h => exact continueFrame_frameProgress (by exact hs.betweenRuns nofun) h
  | uncClose => exact BetweenRuns.frameProgress (e := .blockHdr) (hs.betweenRuns nofun) rfl trivial nofun
  | alignLens ls hls => exact BetweenRuns.frameProgress (e := .preLens) (hs.betweenRuns nofun) rfl hdue nofun
  | preLens ls hls => exact BetweenRuns.frameProgress (e := .preSym) (hs.betweenRuns nofun) rfl hdue nofun
  | preSym n v hn hv h =>
    obtain ⟨m, l, hset⟩ := setSectionArray_eq (fillLens (sectionArray s) s.seq.x v n) s
    rw [hset] at h
    exact advanceTo_frameProgress (by exact hs.betweenRuns nofun) (by exact hdue) h
  | byte b hplace h =>
    have hrun := hs.run_pos_iff.mpr hplace
    have howes := hs.owes.advance (u := putWindowByte b s) hrun ⟨rfl, rfl⟩ rfl rfl rfl rfl
    exact continueRun_frameProgress howes hexp hdue hplace h
  | copy off mlen mext r0 r1 r2 hlen h =>
    exact continueRun_frameProgress (by exact hs.owes.advance hlen ⟨rfl, rfl⟩ rfl rfl rfl rfl) (by exact hexp)
      (by exact hdue) (.inl rfl) h
  | latch mlen mext hplace => obtain rfl | rfl := hplace <;> exact hdue.elim
  | adpcm o hplace hu => obtain rfl | rfl := hplace <;> exact hdue.elim
  | nibble hu => exact hdue.elim

theorem engineStep_frameProgress {s0 s t : State} {e : Expect} (hexp : s.seq.expect = some e) (hs : InFrame s0 e s)
    (h : engineStep e s = .next t) : FrameProgress s0 t := by
  obtain ⟨err, rfl⟩ | ⟨r, hr⟩ := engineStep_elementStep h
  · exact frameProgress_takeFault s0 err s
  · exact hr.frameProgress hexp ⟨hs.owes, hs.due, hs.run_pos_iff⟩

/-! ## The command -/

/-- A command whose elements each keep `P` and make the measure `μ` smaller ends, with `P`, if its fuel is no less than
the measure (log 13). -/
theorem runEngine_ends (P : State → Prop) (μ : State → Nat)
    (hP : ∀ e s t, s.seq.expect = some e → P s → engineStep e s = .next t → P t ∧ μ t < μ s) {fuel : Nat} {s : State}
    (hs : P s) (hfuel : μ s ≤ fuel) : ∃ t, runEngine fuel s = .next t ∧ t.seq.expect = none ∧ P t := by
  induction fuel generalizing s with
  | zero =>
    cases he : s.seq.expect with
    | none => exact ⟨s, rfl, he, hs⟩
    | some e =>
      obtain ⟨t, ht⟩ := engineStep_next e s
      have hlt := (hP e s t he hs ht).2
      omega
  | succ fuel ih =>
    cases he : s.seq.expect with
    | none => exact ⟨s, runEngine_idle _ s he, he, hs⟩
    | some e =>
      obtain ⟨t, ht⟩ := engineStep_next e s
      obtain ⟨hPt, hlt⟩ := hP e s t he hs ht
      rw [runEngine_step fuel s t e he ht]
      exact ih hPt (by omega)

theorem FrameProgress.inFrame {s0 s : State} {e : Expect} (h : FrameProgress s0 s) (hexp : s.seq.expect = some e) :
    InFrame s0 e s := by
  obtain ⟨e', he', hin⟩ | ⟨hidle, _⟩ := h
  · cases hexp.symm.trans he'
    exact hin
  · cases hexp.symm.trans hidle

theorem startLzx_frameProgress {s t : State} (h : startLzx { s with outCount := 0 } = .ok t) : FrameProgress s t := by
  obtain ⟨_, ⟨_, h⟩ | ⟨_, rfl⟩⟩ := startLzx_cases h
  · exact continueFrame_frameProgress (by exact ⟨rfl, ⟨rfl, rfl⟩, rfl, rfl⟩) h
  · exact BetweenRuns.frameProgress (e := .streamHdr) ⟨rfl, ⟨rfl, rfl⟩, rfl, rfl⟩ rfl trivial nofun

/-- The elements of a LZX_FRAME that starts run to its end within the command loop's fuel (45_lzx_frame R239). -/
theorem runEngine_startLzx_ends {s u : State} (h : startLzx { s with outCount := 0 } = .ok u) :
    ∃ t, runEngine (workBound s) u = .next t ∧ t.seq.expect = none ∧ FrameProgress s t := by
  refine runEngine_ends (FrameProgress s) workLeft ?_ (startLzx_frameProgress h) ?_
  · intro e v w hexp hv hstep
    have hin := hv.inFrame hexp
    exact ⟨engineStep_frameProgress hexp hin hstep, engineStep_workLeft_lt hin.due hexp hstep⟩
  · have hwork := startLzx_workLeft_le h
    have hbits : inputBits { s with outCount := 0 } = 8 * (s.args.inLen.toNat + 2) := rfl
    rw [workBound]
    omega

theorem FrameProgress.over {s0 t : State} (h : FrameProgress s0 t) (hidle : t.seq.expect = none) :
    FrameOut s0 t ∨ FaultLatched t := by
  obtain ⟨e, hexp, _⟩ | ⟨_, hover⟩ := h
  · cases hidle.symm.trans hexp
  · exact hover

/-- Settles O42: a refused start latches its fault; an accepted one runs to the frame's end or to a fault. -/
theorem lzxFrameEndsAndYieldsExactlyAFrame : Obligations.LzxFrameEndsAndYieldsExactlyAFrame := by
  intro s hl
  obtain ⟨err, _, hr⟩ | ⟨u, hu, hr⟩ := runCommand_cases startLzx s
  · exact ⟨takeFault err { s with outCount := 0 }, (execLzxFrame_ready hl).trans hr, rfl, .inr ⟨rfl, rfl, err, rfl⟩⟩
  · obtain ⟨⟨hpos, hmax, _⟩, _⟩ := startLzx_cases hu
    obtain ⟨t, ht, hidle, hprogress⟩ := runEngine_startLzx_ends hu
    refine ⟨t, (execLzxFrame_ready hl).trans (hr.trans ht), hidle, ?_⟩
    obtain ⟨⟨hlife, herr⟩, hcount, hwpos, hbytes⟩ | hfault := hprogress.over hidle
    · exact .inl ⟨hlife.trans hl, herr, hcount, hpos, hmax, hwpos, hbytes⟩
    · exact .inr hfault

end Sys2Proof.Machine
end

section
/-! SUPPORT. What LZX_FRAME depends on (45_lzx_frame R243): two blocks that agree on the LZX engine's side and on
IN[0..IN_LEN+1] run element by element alike, whatever else they hold. -/

namespace Sys2Proof.Machine

/-! ## Twins -/

/-- `j` with the LZX engine's side of `s`: the persistent state, the reader, LIFE, IN_LEN and FRAME_SIZE, OUT_COUNT,
E8_POLICY, and the bytes owed. -/
def lzxTwin (s j : State) : State :=
  { j with
    lzx := s.lzx
    rdr := s.rdr
    life := s.life
    args.inLen := s.args.inLen
    args.frameSize := s.args.frameSize
    outCount := s.outCount
    e8Policy := s.e8Policy
    seq.togo := s.seq.togo
    seq.run := s.seq.run }

/-- What the rest of two twins agrees on: the IN bytes a reader can reach, a latched fault's code, and the OUT bytes
that the host is told of. -/
def RestAgrees (s j : State) : Prop :=
  (∀ o, o < s.args.inLen.toNat + 2 → inByte s o = inByte j o) ∧ (s.life = .faulted → s.errcode = j.errcode) ∧
    ∀ o, o < s.outCount.toNat → outByte s o = outByte j o

/-- The locals that the element due next looks at; the others may be left over from earlier elements or commands. -/
def LocalsAgree (s j : State) : Prop :=
  s.seq.expect = j.seq.expect ∧
    (s.seq.expect = some .preLens ∨ s.seq.expect = some .preSym → s.seq.sect = j.seq.sect) ∧
    (s.seq.expect = some .preSym → s.seq.x = j.seq.x)

/-- Two blocks that LZX_FRAME cannot tell apart. -/
def Twins (s u : State) : Prop := ∃ j, u = lzxTwin s j ∧ RestAgrees s j ∧ LocalsAgree s j

/-- Two results that the host cannot tell apart: the same fault, or twins. -/
inductive TwinResults : Except ErrCode State → Except ErrCode State → Prop where
  | ok {t v : State} : Twins t v → TwinResults (.ok t) (.ok v)
  | error (e : ErrCode) : TwinResults (.error e) (.error e)

/-- Two outcomes that are next states, twins of each other. -/
def TwinOutcomes (o o' : Host.Outcome State Fault Refusal) : Prop := ∃ t v, o = .next t ∧ o' = .next v ∧ Twins t v

section
variable {s j : State}

/-- Where no length section is in progress no local but what is due is looked at. -/
theorem localsAgree_of_expect {due : Option Expect} (hs : s.seq.expect = due) (hj : j.seq.expect = due)
    (hdue : ¬ (due = some .preLens ∨ due = some .preSym)) : LocalsAgree s j := by
  rw [← hs] at hdue
  exact ⟨hs.trans hj.symm, fun h => absurd h hdue, fun h => absurd (.inr h) hdue⟩

theorem RestAgrees.takeFault (h : RestAgrees s j) (e : ErrCode) : RestAgrees (takeFault e s) (takeFault e j) :=
  ⟨h.1, fun _ => rfl, fun _ ho => absurd ho (Nat.not_lt_zero _)⟩

theorem twins_takeFault (h : RestAgrees s j) (e : ErrCode) : Twins (takeFault e s) (takeFault e (lzxTwin s j)) :=
  ⟨takeFault e j, rfl, h.takeFault e, localsAgree_of_expect rfl rfl nofun⟩

/-- A fault that both raise is taken by both. -/
theorem element_twin {r r' : Except ErrCode State} (h : RestAgrees s j) (hr : TwinResults r r') :
    TwinOutcomes (element s r) (element (lzxTwin s j) r') := by
  cases hr with
  | ok ht => exact ⟨_, _, rfl, rfl, ht⟩
  | error e => exact ⟨_, _, rfl, rfl, twins_takeFault h e⟩

/-! ## Turns of the frame loop -/

/-- 45_lzx_frame R234: the frame's bytes come from the window, so OUT agrees up to OUT_COUNT. -/
theorem RestAgrees.frameOut (h : RestAgrees s j) (l l' : Lzx) (f : Nat) (c : Word) (hc : c.toNat ≤ f) :
    RestAgrees
      { s with lzx := l', outBuf := Memory.putList s.outBuf 0 (frameBytes l f), outCount := c, seq.expect := none }
      { j with outBuf := Memory.putList j.outBuf 0 (frameBytes l f), seq.expect := none } := by
  obtain ⟨hin, herr, _⟩ := h
  refine ⟨hin, herr, fun o ho => ?_⟩
  have hof : o < f := ho.trans_le hc
  simp only [outByte, getD_putList_frameBytes, if_pos hof]

theorem finishFrame_twin (h : RestAgrees s j) : TwinResults (finishFrame s) (finishFrame (lzxTwin s j)) := by
  by_cases he8 : E8Raises s.args.frameSize.toNat s
  · rw [finishFrame_raises he8, finishFrame_raises (s := lzxTwin s j) he8]
    exact .error _
  · rw [finishFrame_ok rfl he8, finishFrame_ok (s := lzxTwin s j) rfl he8]
    exact .ok ⟨_, rfl, h.frameOut s.lzx _ _ _ le_rfl, localsAgree_of_expect rfl rfl nofun⟩

theorem expectNext_twin (h : RestAgrees s j) {e : Expect} (he : ¬ (e = .preLens ∨ e = .preSym)) :
    Twins (expectNext e s) (expectNext e (lzxTwin s j)) := by
  refine ⟨expectNext e j, rfl, h, localsAgree_of_expect rfl rfl ?_⟩
  rwa [expectNext_seq_expect, Option.some_inj, Option.some_inj]

theorem beginRun_twin (h : RestAgrees s j) : TwinResults (beginRun s) (beginRun (lzxTwin s j)) := by
  by_cases hw : s.lzx.wpos % 65536 + min s.lzx.brem.toNat s.seq.togo ≤ 65536
  · rw [beginRun_fits hw, beginRun_fits (s := lzxTwin s j) hw]
    refine .ok ⟨{ j with seq.expect := if s.lzx.btype = 1 ∨ s.lzx.btype = 2 then some .element else some .uncData },
      rfl, h, localsAgree_of_expect rfl rfl ?_⟩
    split <;> exact nofun
  · rw [beginRun_straddles (Nat.not_le.mp hw), beginRun_straddles (s := lzxTwin s j) (Nat.not_le.mp hw)]
    exact .error _

theorem continueFrame_twin (h : RestAgrees s j) : TwinResults (continueFrame s) (continueFrame (lzxTwin s j)) := by
  by_cases htogo : s.seq.togo = 0
  · rw [continueFrame_eq_finishFrame htogo, continueFrame_eq_finishFrame (s := lzxTwin s j) htogo]
    exact finishFrame_twin h
  by_cases hbrem : s.lzx.brem = 0
  · rw [continueFrame_of_brem_zero htogo hbrem, continueFrame_of_brem_zero (s := lzxTwin s j) htogo hbrem]
    refine .ok (expectNext_twin h ?_)
    split <;> exact nofun
  · rw [continueFrame_eq_beginRun htogo hbrem, continueFrame_eq_beginRun (s := lzxTwin s j) htogo hbrem]
    exact beginRun_twin h

theorem continueRun_twin (h : RestAgrees s j) (hl : LocalsAgree s j) :
    TwinResults (continueRun s) (continueRun (lzxTwin s j)) := by
  by_cases hrun : s.seq.run = 0
  · rw [continueRun_to_end hrun, continueRun_to_end (s := lzxTwin s j) hrun]
    exact continueFrame_twin h
  · rw [continueRun_inside hrun, continueRun_inside (s := lzxTwin s j) hrun]
    exact .ok ⟨j, rfl, h, hl⟩

/-! ## Matches -/

/-- A match looks at the length latched for it, which both have latched. -/
theorem checkedCopy_twin (h : RestAgrees s j) (hl : LocalsAgree s j) (hmlen : j.seq.mlen = s.seq.mlen) (off : Nat) :
    TwinResults (checkedCopy off s) (checkedCopy off (lzxTwin s j)) := by
  have hmlen' : (lzxTwin s j).seq.mlen = s.seq.mlen := hmlen
  by_cases hoff : off = 0 ∨ 65536 < off
  · rw [checkedCopy_badMatchOffset hoff, checkedCopy_badMatchOffset hoff]
    exact .error _
  rw [checkedCopy_of_legal (by omega) (by omega), checkedCopy_of_legal (by omega) (by omega), hmlen']
  by_cases hlen : s.seq.run < s.seq.mlen
  · rw [if_pos hlen, if_pos (c := (lzxTwin s j).seq.run < _) hlen]
    exact .error _
  · rw [if_neg hlen, if_neg (c := (lzxTwin s j).seq.run < _) hlen]
    exact continueRun_twin (s := copyMatch off s.seq.mlen s) h hl

/-- A repeated match reads and exchanges entries of the cache, which is the same in both. -/
theorem repMatch_twin {use : State → Nat × State} {r0 r1 r2 : Lzx → Word} {off : Lzx → Nat}
    (huse : ∀ u, use u =
      (off u.lzx, { u with lzx.r0 := r0 u.lzx, lzx.r1 := r1 u.lzx, lzx.r2 := r2 u.lzx }))
    (h : RestAgrees s j) (hl : LocalsAgree s j) (lh : BitVec 3) (f : Byte) :
    TwinResults (repMatch use lh f s) (repMatch use lh f (lzxTwin s j)) := by
  rw [repMatch_eq, repMatch_eq, huse, huse]
  exact checkedCopy_twin
    (s := { s with
      lzx.r0 := r0 s.lzx, lzx.r1 := r1 s.lzx, lzx.r2 := r2 s.lzx, seq.mlen := matchLength lh f })
    (j := { j with seq.mlen := matchLength lh f })
    h hl rfl _

theorem slotMatch_twin (h : RestAgrees s j) (hl : LocalsAgree s j) (slot : Nat) (lh : BitVec 3) (f : Byte)
    (o : OffBits) : TwinResults (slotMatch slot lh f o s) (slotMatch slot lh f o (lzxTwin s j)) := by
  rw [slotMatch_eq, slotMatch_eq]
  exact checkedCopy_twin (s := explicitLatched slot lh f (offsetValue o) s)
    (j := { j with seq.mlen := matchLength lh f, seq.mext := offsetValue o })
    h hl rfl _

/-! ## Length sections -/

theorem sect_twin (hsect : s.seq.sect = j.seq.sect) : (lzxTwin s j).seq.sect = s.seq.sect := hsect.symm

theorem expectPreLens_twin (h : RestAgrees s j) (hsect : s.seq.sect = j.seq.sect) :
    Twins (expectNext .preLens s) (expectNext .preLens (lzxTwin s j)) :=
  ⟨expectNext .preLens j, rfl, h, rfl, fun _ => hsect, nofun⟩

theorem expectPreSym_twin (h : RestAgrees s j) (hsect : s.seq.sect = j.seq.sect) (hx : s.seq.x = j.seq.x) :
    Twins (expectNext .preSym s) (expectNext .preSym (lzxTwin s j)) :=
  ⟨expectNext .preSym j, rfl, h, rfl, fun _ => hsect, fun _ => hx⟩

theorem beginTrees_twin (h : RestAgrees s j) : Twins (beginTrees s) (beginTrees (lzxTwin s j)) :=
  expectPreLens_twin (s := { s with seq.sect := .mainA }) (j := { j with seq.sect := .mainA }) h rfl

/-- A build that both make decides for both (42_huffman R152). -/
theorem buildTable_twin {ls : List Nat} {r r' : Except ErrCode State} (hr : TwinResults r r') :
    TwinResults (buildTable ls >>= fun _ => r) (buildTable ls >>= fun _ => r') := by
  cases buildTable ls with
  | error e => exact .error e
  | ok u => exact hr

theorem detectE8_twin (s j : State) : detectE8 (lzxTwin s j) = lzxTwin (detectE8 s) j := by
  by_cases hlen : s.lzx.mainLen.getD 0xE8 0 ≠ 0
  · rw [detectE8, detectE8, if_pos hlen, if_pos (by exact hlen)]
    rfl
  · rw [detectE8, detectE8, if_neg hlen, if_neg (by exact hlen)]

theorem RestAgrees.detectE8 (h : RestAgrees s j) : RestAgrees (detectE8 s) j := by
  obtain ⟨started, hd⟩ := detectE8_eq s
  rw [hd]
  exact h

theorem endSection_twin (h : RestAgrees s j) (hsect : s.seq.sect = j.seq.sect) :
    TwinResults (endSection s) (endSection (lzxTwin s j)) := by
  have hrest (x : LenSection) : RestAgrees { s with seq.sect := x } { j with seq.sect := x } := h
  cases hs : s.seq.sect <;> simp only [endSection, sect_twin hsect, hs]
  case mainA => exact .ok (expectPreLens_twin (hrest .mainB) rfl)
  case mainB =>
    have hlens := expectPreLens_twin (j := { j with seq.sect := .length }) (hrest .length).detectE8
      (by rw [detectE8_seq])
    rw [← detectE8_twin] at hlens
    exact buildTable_twin (.ok hlens)
  case length => exact buildTable_twin (continueFrame_twin h)

theorem advanceTo_twin (h : RestAgrees s j) (hsect : s.seq.sect = j.seq.sect) (x : Nat) :
    TwinResults (advanceTo x s) (advanceTo x (lzxTwin s j)) := by
  have hrest : RestAgrees { s with seq.x := x } { j with seq.x := x } := h
  by_cases hx : x < sectionLast s.seq.sect
  · rw [advanceTo_of_lt hx, advanceTo_of_lt (by rwa [sect_twin hsect])]
    exact .ok (expectPreSym_twin hrest hsect rfl)
  · rw [advanceTo_of_le (Nat.not_lt.mp hx), advanceTo_of_le (by rwa [sect_twin hsect, ← Nat.not_lt])]
    exact endSection_twin hrest hsect

theorem sectionArray_twin (hsect : s.seq.sect = j.seq.sect) : sectionArray (lzxTwin s j) = sectionArray s := by
  rw [sectionArray, sectionArray, sect_twin hsect]
  rfl

theorem setSectionArray_twin (hsect : s.seq.sect = j.seq.sect) (ls : List Nat) :
    setSectionArray ls (lzxTwin s j) = lzxTwin (setSectionArray ls s) j := by
  rw [setSectionArray, setSectionArray, sect_twin hsect]
  cases s.seq.sect <;> rfl

/-- The section, its position and its array are the same in both (43_lzx_block_headers R177). -/
theorem writeRun_twin (h : RestAgrees s j) (hsect : s.seq.sect = j.seq.sect) (hx : s.seq.x = j.seq.x) (n v : Nat) :
    TwinResults (writeRun n v s) (writeRun n v (lzxTwin s j)) := by
  have hx' : (lzxTwin s j).seq.x = s.seq.x := hx.symm
  obtain ⟨m, l, hset⟩ := setSectionArray_eq (fillLens (sectionArray s) s.seq.x v n) s
  rw [writeRun, writeRun, hx', sectionArray_twin hsect, setSectionArray_twin hsect, hset]
  exact advanceTo_twin (s := { s with lzx.mainLen := m, lzx.lenLen := l }) h hsect _

theorem fillRun_twin (h : RestAgrees s j) (hsect : s.seq.sect = j.seq.sect) (hx : s.seq.x = j.seq.x) (n v : Nat) :
    TwinResults (fillRun n v s) (fillRun n v (lzxTwin s j)) := by
  have hend : (lzxTwin s j).seq.x + n ≤ sectionLast (lzxTwin s j).seq.sect ↔ s.seq.x + n ≤ sectionLast s.seq.sect := by
    rw [hsect, hx]
    rfl
  by_cases hn : s.seq.x + n ≤ sectionLast s.seq.sect
  · rw [fillRun_fits v hn, fillRun_fits v (hend.mpr hn)]
    exact writeRun_twin h hsect hx n v
  · rw [fillRun_overrun v (Nat.not_le.mp hn), fillRun_overrun v (Nat.not_le.mp (mt hend.mp hn))]
    exact .error _

theorem oldLength_twin (hsect : s.seq.sect = j.seq.sect) (hx : s.seq.x = j.seq.x) :
    (sectionArray (lzxTwin s j)).getD (lzxTwin s j).seq.x 0 = (sectionArray s).getD s.seq.x 0 := by
  rw [sectionArray_twin hsect, hx]
  rfl

theorem deltaOne_twin (h : RestAgrees s j) (hsect : s.seq.sect = j.seq.sect) (hx : s.seq.x = j.seq.x) (d : Nat) :
    TwinResults (deltaOne d s) (deltaOne d (lzxTwin s j)) := by
  rw [deltaOne_eq_writeRun, deltaOne_eq_writeRun, oldLength_twin hsect hx]
  exact writeRun_twin h hsect hx _ _

theorem repeatRun_twin (h : RestAgrees s j) (hsect : s.seq.sect = j.seq.sect) (hx : s.seq.x = j.seq.x) (b : BitVec 1)
    (d : BitVec 5) : TwinResults (repeatRun b d s) (repeatRun b d (lzxTwin s j)) := by
  by_cases hd : d.toNat ≤ 16
  · rw [repeatRun_eq_fillRun hd, repeatRun_eq_fillRun hd, oldLength_twin hsect hx]
    exact fillRun_twin h hsect hx _ _
  · rw [repeatRun_badRepeat (Nat.not_le.mp hd), repeatRun_badRepeat (Nat.not_le.mp hd)]
    exact .error _

theorem loadAlignLens_twin (h : RestAgrees s j) (ls : List (BitVec 3)) :
    TwinResults (loadAlignLens ls s) (loadAlignLens ls (lzxTwin s j)) :=
  buildTable_twin (.ok (beginTrees_twin (s := { s with lzx.alignLen := ls.map BitVec.toNat }) h))

/-- The section begins where its own bounds say, which are the same in both (30_encoding R87). -/
theorem loadPreLens_twin (h : RestAgrees s j) (hsect : s.seq.sect = j.seq.sect) (ls : List (BitVec 4)) :
    TwinResults (loadPreLens ls s) (loadPreLens ls (lzxTwin s j)) :=
  buildTable_twin (.ok (expectPreSym_twin
    (s := { s with lzx.preLen := ls.map BitVec.toNat, seq.x := sectionFirst s.seq.sect })
    (j := { j with seq.x := sectionFirst j.seq.sect })
    h hsect (congrArg sectionFirst hsect)))

/-! ## Elements -/

/-- Run at its own place, an element of LZX_FRAME looks at nothing that twins may differ in. -/
theorem runElement_twin {e : Expect} {i : Instr} (hd : i.dueAt e) (ha : isAdpcm e = false)
    (he : s.seq.expect = some e) (h : RestAgrees s j) (hl : LocalsAgree s j) :
    TwinOutcomes (runElement i s) (runElement i (lzxTwin s j)) := by
  have ⟨_, hsect, hx⟩ := hl
  cases i with
  | reset => exact hd.elim
  | lzxFrame => exact hd.elim
  | adpcmBlock => exact hd.elim
  | cmdReserved v => exact hd.elim
  | streamHdr => exact element_twin h (continueFrame_twin (s := setHdrRead s) (j := j) h)
  | streamHdrE8 fs =>
    exact element_twin h (continueFrame_twin (s := setHdrRead { s with lzx.intelFilesize := fs }) (j := j) h)
  | blkVerbatim blen => exact element_twin h (.ok (beginTrees_twin (s := loadBlock 1 blen s) (j := j) h))
  | blkAligned blen =>
    exact element_twin h (.ok (expectNext_twin (s := loadBlock 2 blen s) (j := j) h nofun))
  | blkUncompressed blen =>
    exact element_twin h (.ok (expectNext_twin (s := enterRaw (setIntelStarted (loadBlock 3 blen s))) (j := j) h nofun))
  | blkReserved0 blen => exact element_twin (s := loadBlock 0 blen s) (j := j) h (.error _)
  | blkReserved4to7 ty blen => exact element_twin (s := loadBlock (1#1 ++ ty) blen s) (j := j) h (.error _)
  | uncBody part =>
    cases part with
    | offsets r0 r1 r2 =>
      exact element_twin h (continueFrame_twin (s := { s with lzx.r0 := r0, lzx.r1 := r1, lzx.r2 := r2 }) (j := j) h)
    | data b =>
      exact element_twin h (continueRun_twin (s := putWindowByte b s) h hl)
    | close pad =>
      exact element_twin h (.ok (expectNext_twin (s := restartBits s) (j := j) h nofun))
  | alignLengths ls => exact element_twin h (loadAlignLens_twin h ls)
  | pretreeLengths ls =>
    obtain ⟨rfl, _⟩ := hd
    exact element_twin h (loadPreLens_twin h (hsect (.inl he)) ls)
  | preDelta d =>
    cases hd
    exact element_twin h (deltaOne_twin h (hsect (.inr he)) (hx he) _)
  | preDelta16 =>
    cases hd
    exact element_twin h (deltaOne_twin h (hsect (.inr he)) (hx he) _)
  | preZrun17 n =>
    cases hd
    exact element_twin h (fillRun_twin h (hsect (.inr he)) (hx he) _ _)
  | preZrun18 n =>
    cases hd
    exact element_twin h (fillRun_twin h (hsect (.inr he)) (hx he) _ _)
  | preRep19 b d =>
    cases hd
    exact element_twin h (repeatRun_twin h (hsect (.inr he)) (hx he) b d)
  | lit b =>
    exact element_twin h (continueRun_twin (s := putWindowByte b s) h hl)
  | matchRep0 lh f => exact element_twin h (repMatch_twin (off := fun l => l.r0.toNat) (fun _ => rfl) h hl lh f)
  | matchRep1 lh f => exact element_twin h (repMatch_twin (off := fun l => l.r1.toNat) (fun _ => rfl) h hl lh f)
  | matchRep2 lh f => exact element_twin h (repMatch_twin (off := fun l => l.r2.toNat) (fun _ => rfl) h hl lh f)
  | matchOff1 lh f => exact element_twin h (slotMatch_twin h hl _ lh f _)
  | matchS4to7 sl lh f v => exact element_twin h (slotMatch_twin h hl _ lh f _)
  | matchS8to9 sl lh f o => exact element_twin h (slotMatch_twin h hl _ lh f o)
  | matchS10to11 sl lh f o => exact element_twin h (slotMatch_twin h hl _ lh f o)
  | matchS12to15 sl lh f o => exact element_twin h (slotMatch_twin h hl _ lh f o)
  | matchS16to31 sl lh f o => exact element_twin h (slotMatch_twin h hl _ lh f o)
  | lenFooter f =>
    exact ⟨latchFooter f s, _, rfl, rfl, latchFooter f j, rfl, h,
      hl⟩
  | alignSym a =>
    exact ⟨latchAligned a s, _, rfl, rfl, latchAligned a j, rfl, h,
      hl⟩
  | adpcmMonoPreamble p d a b => cases hd; cases ha
  | adpcmStereoPreamble pL pR dL dR aL aR bL bR => cases hd; cases ha
  | adpcmMonoByte x y => cases hd; cases ha
  | adpcmStereoByte x y => cases hd; cases ha
  | adpcmNibble n => cases hd; cases ha

/-! ## Fetching -/

theorem inByte_twin (h : RestAgrees s j) {o : Nat} (ho : o < s.args.inLen.toNat + 2) :
    inByte (lzxTwin s j) o = inByte s o :=
  (h.1 o ho).symm

/-- The slack keeps the bit stream inside IN[0..IN_LEN+1] (41_bitstream R133). -/
theorem bitSource_twin (h : RestAgrees s j) : bitSource (lzxTwin s j) = bitSource s := by
  funext i
  change streamBit (lzxTwin s j) (s.rdr.bitpos + i) = streamBit s (s.rdr.bitpos + i)
  by_cases hpast : s.args.inLen.toNat + 2 ≤ s.rdr.base + 2 * ((s.rdr.bitpos + i) / 16) + 1
  · rw [streamBit_past_slack hpast, streamBit_past_slack (s := lzxTwin s j) hpast]
  · rw [streamBit_within_slack (Nat.not_le.mp hpast), streamBit_within_slack (s := lzxTwin s j) (Nat.not_le.mp hpast)]
    change some ((inByte (lzxTwin s j) (s.rdr.base + 2 * ((s.rdr.bitpos + i) / 16) + 1) ++
      inByte (lzxTwin s j) (s.rdr.base + 2 * ((s.rdr.bitpos + i) / 16))).getLsbD _) = _
    rw [inByte_twin h (by omega), inByte_twin h (by omega)]

theorem rawSource_twin (h : RestAgrees s j) : rawSource (lzxTwin s j) = rawSource s := by
  funext i
  by_cases hpast : s.args.inLen.toNat ≤ s.rdr.rawpos + i
  · rw [rawSource, rawSource, if_pos hpast, if_pos (by exact hpast)]
  · rw [rawSource, rawSource, if_neg hpast, if_neg (by exact hpast)]
    have hin : s.rdr.rawpos + i < s.args.inLen.toNat + 2 := by omega
    exact congrArg some (inByte_twin h hin)

/-- Only the ADPCM preambles and body bytes depend on the number of channels (30_encoding R97, R98). -/
theorem decodeBits_twin (s j : State) (e : Expect) (src : BitSource) :
    decodeBits (decodeCtx (lzxTwin s j) e) src = decodeBits (decodeCtx s e) src := by
  cases e <;> rfl

theorem decodeBytes_twin {e : Expect} (hb : e.isBits = false) (ha : isAdpcm e = false) (src : ByteSource) :
    decodeBytes (decodeCtx (lzxTwin s j) e) src = decodeBytes (decodeCtx s e) src := by
  obtain rfl | rfl | rfl := rawPlace_cases hb ha <;> rfl

/-- Both fetch the same element, with the same input taken, or raise the same fault. -/
theorem fetchElement_twin {e : Expect} (ha : isAdpcm e = false) (h : RestAgrees s j) :
    fetchElement e (lzxTwin s j) = (fetchElement e s).map fun p => (p.1, lzxTwin p.2 j) := by
  cases hb : e.isBits with
  | true =>
    rw [fetchElement, fetchElement, if_pos hb, if_pos hb, decodeBits_twin, bitSource_twin h]
    cases decodeBits (decodeCtx s e) (bitSource s) <;> rfl
  | false =>
    have hbits : ¬ e.isBits = true := by simp [hb]
    have hadpcm : ¬ isAdpcm e = true := by simp [ha]
    rw [fetchElement, fetchElement, if_neg hbits, if_neg hbits, if_neg hadpcm, if_neg hadpcm,
      decodeBytes_twin hb ha, rawSource_twin h]
    cases decodeBytes (decodeCtx s e) (rawSource s) <;> rfl

theorem engineStep_twin {e : Expect} (ha : isAdpcm e = false) (he : s.seq.expect = some e) (h : RestAgrees s j)
    (hl : LocalsAgree s j) : TwinOutcomes (engineStep e s) (engineStep e (lzxTwin s j)) := by
  have hfetch := fetchElement_twin ha h
  cases hf : fetchElement e s with
  | error err =>
    rw [hf] at hfetch
    rw [engineStep, engineStep, hf, hfetch]
    exact ⟨_, _, rfl, rfl, twins_takeFault h err⟩
  | ok p =>
    rw [hf] at hfetch
    rw [engineStep, engineStep, hf, hfetch]
    obtain ⟨hd, r, hu⟩ := fetchElement_dueAt (i := p.1) (t := p.2) hf
    change TwinOutcomes (runElement p.1 p.2) (runElement p.1 (lzxTwin p.2 j))
    rw [hu]
    exact runElement_twin hd ha he h hl

end

/-! ## The command -/

/-- Element by element, twins stay twins. -/
theorem runEngine_twins {s u : State} (hdue : DueIn false s.seq.expect) (h : Twins s u) (fuel : Nat) :
    TwinOutcomes (runEngine fuel s) (runEngine fuel u) := by
  induction fuel generalizing s u with
  | zero => exact ⟨s, u, rfl, rfl, h⟩
  | succ fuel ih =>
    have ⟨j, hu, hrest, hlocals⟩ := h
    cases he : s.seq.expect with
    | none =>
      have hidle : u.seq.expect = none := by rw [hu, ← he]; exact hlocals.1.symm
      exact ⟨s, u, runEngine_idle _ s he, runEngine_idle _ u hidle, h⟩
    | some e =>
      have hexp : u.seq.expect = some e := by rw [hu, ← he]; exact hlocals.1.symm
      have ha : isAdpcm e = false := hdue e he
      obtain ⟨t, v, ht, hv, htwins⟩ := engineStep_twin ha he hrest hlocals
      rw [runEngine_step fuel s t e he ht, runEngine_step fuel u v e hexp (by rw [hu, hv])]
      have hframe := engineStep_engineFrame ht
      rw [ha] at hframe
      exact ih (hframe.dueIn hdue) htwins

/-- More fuel changes nothing once the command is over (log 13). -/
theorem runEngine_of_le {n m : Nat} {s t : State} (h : runEngine n s = .next t) (hidle : t.seq.expect = none)
    (hnm : n ≤ m) : runEngine m s = .next t := by
  induction n generalizing m s with
  | zero =>
    cases h
    exact runEngine_idle m _ hidle
  | succ n ih =>
    cases he : s.seq.expect with
    | none =>
      rw [runEngine_idle _ s he] at h
      rw [runEngine_idle _ s he, h]
    | some e =>
      obtain ⟨m, rfl⟩ : ∃ k, m = k + 1 := ⟨m - 1, by omega⟩
      obtain ⟨u, hu⟩ := engineStep_next e s
      rw [runEngine_step n s u e he hu] at h
      rw [runEngine_step m s u e he hu]
      exact ih h (by omega)

/-- What LZX_FRAME depends on is the same in both (45_lzx_frame R243). -/
structure SameLzxInputs (s u : State) : Prop where
  life : s.life = u.life
  lzx : s.lzx = u.lzx
  e8Policy : s.e8Policy = u.e8Policy
  inLen : s.args.inLen = u.args.inLen
  frameSize : s.args.frameSize = u.args.frameSize
  inBytes : ∀ o, o < s.args.inLen.toNat + 2 → inByte s o = inByte u o

/-- The state in which LZX_FRAME takes its first turn of the frame loop, its arguments accepted (45_lzx_frame R230). -/
def lzxStarted (s : State) : State :=
  initReader { s with outCount := 0, seq.togo := s.args.frameSize.toNat, seq.run := 0 }

section
variable {s u : State}

theorem SameLzxInputs.lzxStarted_eq (h : SameLzxInputs s u) : lzxStarted u = lzxTwin (lzxStarted s) (lzxStarted u) := by
  obtain ⟨hlife, hlzx, hpolicy, hlen, hsize, _⟩ := h
  simp only [lzxTwin, lzxStarted, initReader, hlife, hlzx, hpolicy, hlen, hsize]

/-- While READY no fault's code is compared, and no OUT byte before there is an OUT_COUNT. -/
theorem SameLzxInputs.restAgrees (h : SameLzxInputs s u) (hl : s.life = .ready) :
    RestAgrees (lzxStarted s) (lzxStarted u) := by
  refine ⟨h.inBytes, fun hf => ?_, fun _ ho => absurd ho (Nat.not_lt_zero _)⟩
  have hf' : s.life = .faulted := hf
  rw [hl] at hf'
  cases hf'

/-- What LZX_FRAME starts with (40_host_commands R114, 45_lzx_frame R230). -/
theorem startLzx_eq (s : State) :
    startLzx { s with outCount := 0 } =
      if s.args.frameSize = 0 ∨ 65535 < s.args.frameSize.toNat then .error .badFrameSize
      else if Config.inCapacity - 2 < s.args.inLen.toNat then .error .badLength
      else if s.lzx.hdrRead = true then continueFrame (lzxStarted s)
      else .ok (expectNext .streamHdr (lzxStarted s)) := rfl

/-- Both starts make the same checks and take the same first turn. -/
theorem startLzx_twin (h : SameLzxInputs s u) (hl : s.life = .ready) :
    TwinResults (startLzx { s with outCount := 0 }) (startLzx { u with outCount := 0 }) := by
  have hrest := h.restAgrees hl
  rw [startLzx_eq, startLzx_eq, ← h.frameSize, ← h.inLen, ← h.lzx, h.lzxStarted_eq]
  split_ifs
  · exact .error _
  · exact .error _
  · exact continueFrame_twin hrest
  · exact .ok (expectNext_twin hrest nofun)

end

/-- What R243 says two LZX_FRAME commands end with alike. -/
def SameLzxResult (t v : State) : Prop :=
  t.lzx = v.lzx ∧ t.life = v.life ∧ t.outCount = v.outCount ∧ (t.life = .faulted → t.errcode = v.errcode) ∧
    ∀ o, o < t.outCount.toNat → outByte t o = outByte v o

theorem Twins.sameLzxResult {t v : State} (h : Twins t v) : SameLzxResult t v := by
  obtain ⟨j, rfl, ⟨_, herr, hout⟩, _⟩ := h
  exact ⟨rfl, rfl, rfl, herr, hout⟩

theorem runCommand_of_start_error {start : State → Except ErrCode State} {s : State} {e : ErrCode}
    (h : start { s with outCount := 0 } = .error e) :
    runCommand start s = .next (takeFault e { s with outCount := 0 }) := by
  simp only [runCommand, h]

/-- Both commands are over within their own fuel, and so within the larger of the two. -/
theorem runCommand_twin {s u a b : State} (ha : startLzx { s with outCount := 0 } = .ok a)
    (hb : startLzx { u with outCount := 0 } = .ok b) (h : Twins a b) :
    TwinOutcomes (runCommand startLzx s) (runCommand startLzx u) := by
  obtain ⟨t, ht, htidle, _⟩ := runEngine_startLzx_ends ha
  obtain ⟨v, hv, hvidle, _⟩ := runEngine_startLzx_ends hb
  have htwins := runEngine_twins (startLzx_engineFrame ha).2 h (max (workBound s) (workBound u))
  rw [runEngine_of_le ht htidle (le_max_left _ _), runEngine_of_le hv hvidle (le_max_right _ _)] at htwins
  rwa [runCommand_of_start ha, runCommand_of_start hb, ht, hv]

theorem runCommand_sameLzxResult {s u : State} (h : SameLzxInputs s u) (hl : s.life = .ready) :
    ∃ t v, runCommand startLzx s = .next t ∧ runCommand startLzx u = .next v ∧ SameLzxResult t v := by
  have hstart := startLzx_twin h hl
  generalize ha : startLzx { s with outCount := 0 } = r at hstart
  generalize hb : startLzx { u with outCount := 0 } = r' at hstart
  cases hstart with
  | error e =>
    refine ⟨_, _, runCommand_of_start_error ha, runCommand_of_start_error hb, h.lzx, rfl, rfl, fun _ => rfl, ?_⟩
    exact fun _ ho => absurd ho (Nat.not_lt_zero _)
  | ok htwins =>
    obtain ⟨t, v, ht, hv, hresult⟩ := runCommand_twin ha hb htwins
    exact ⟨t, v, ht, hv, hresult.sameLzxResult⟩

/-- Settles O43: started alike, both commands end within their fuel, and element by element they stay twins. -/
theorem lzxFrameDependsOnlyOnItsInputs : Obligations.LzxFrameDependsOnlyOnItsInputs := by
  intro s u hs hu hlzx hpolicy hlen hsize hin
  obtain ⟨t, v, ht, hv, hresult⟩ := runCommand_sameLzxResult ⟨hs.trans hu.symm, hlzx, hpolicy, hlen, hsize, hin⟩ hs
  exact ⟨t, v, (execLzxFrame_ready hs).trans ht, (execLzxFrame_ready hu).trans hv, hresult⟩

end Sys2Proof.Machine
end

section
/-! SUPPORT. The ADPCM arithmetic (46_msadpcm R250 to R258, 30_encoding R99): the registers, read as integers, follow the
integer reference nibble by nibble. -/

namespace Sys2Proof.Machine

/-! ## Registers read as integers -/

/-- 00_scope R9. -/
theorem wrapInt16_eq_bmod (v : Int) : wrapInt16 v = v.bmod 65536 := by
  rw [wrapInt16, Int.bmod_def]
  split <;> omega

theorem s16_ofInt (v : Int) : s16 (BitVec.ofInt 16 v) = wrapInt16 v := by
  rw [s16, BitVec.toInt_ofInt, wrapInt16_eq_bmod]

/-- The order of the two bounds does not matter (46_msadpcm R257). -/
theorem clamp16_eq (v : Int) : clamp16 v = max (-32768) (min 32767 v) := by
  rw [clamp16]
  omega

theorem s16_ofInt_clamp16 (v : Int) : s16 (BitVec.ofInt 16 (clamp16 v)) = clamp16 v := by
  rw [s16_ofInt, wrapInt16]
  unfold clamp16
  omega

/-- 30_encoding R99. -/
theorem toInt_nibble (n : BitVec 4) : n.toInt = signedNibble n.toNat := by
  rw [BitVec.toInt_eq_toNat_cond, signedNibble]
  split_ifs <;> omega

/-- 20_memory R64. -/
theorem s16_append (hi lo : Byte) : s16 (hi ++ lo) = wrapInt16 (lo.toNat + 256 * hi.toNat) := by
  rw [s16, BitVec.toInt_eq_toNat_bmod, BitVec.toNat_append, ← Nat.shiftLeft_add_eq_or_of_lt lo.isLt, Nat.shiftLeft_eq,
    wrapInt16_eq_bmod]
  push_cast
  congr 1
  omega

theorem s16_eq_toNat (v : Half) : s16 v = if 2 * v.toNat < 65536 then (v.toNat : Int) else v.toNat - 65536 :=
  BitVec.toInt_eq_toNat_cond v

/-- 46_msadpcm R263: the low byte of a sample, as integers. -/
theorem extractLsb'_low (v : Half) : v.extractLsb' 0 8 = BitVec.ofInt 8 (s16 v) := by
  apply BitVec.eq_of_toNat_eq
  rw [BitVec.extractLsb'_toNat, BitVec.toNat_ofInt, Nat.shiftRight_zero, s16_eq_toNat]
  split <;> omega

/-- 46_msadpcm R263: the high byte of a sample, as integers. -/
theorem extractLsb'_high (v : Half) : v.extractLsb' 8 8 = BitVec.ofInt 8 (s16 v / 256) := by
  apply BitVec.eq_of_toNat_eq
  rw [BitVec.extractLsb'_toNat, BitVec.toNat_ofInt, Nat.shiftRight_eq_div_pow, s16_eq_toNat]
  split <;> omega

/-! ## A nibble -/

/-- A channel's registers as integers. -/
def channelInts (c : AdpcmChannel) : RefChannel :=
  { pred := c.pred, delta := s16 c.delta, s1 := s16 c.s1, s2 := s16 c.s2 }

/-- 46_msadpcm R255 to R257. -/
theorem s16_expandSample (c : AdpcmChannel) (n : BitVec 4) :
    s16 (expandSample c n) = refSample (channelInts c) n.toNat := by
  rw [expandSample, s16_ofInt_clamp16, toInt_nibble, clamp16_eq]
  rfl

/-- 46_msadpcm R258 (log 27). -/
theorem s16_newDelta (n : BitVec 4) (d : Half) : s16 (newDelta n d) = refDelta n.toNat (s16 d) := by
  have hwrap : s16 (wrapS16 (truncDiv (adapt n * s16 d) 256)) = wrapInt16 (Int.tdiv (adapt n * s16 d) 256) := s16_ofInt _
  rw [newDelta, refDelta, BitVec.ofNat_toNat, BitVec.setWidth_eq, ← hwrap]
  split
  · rename_i hlow
    exact (max_eq_left hlow.le).symm
  · rename_i hhigh
    exact (max_eq_right (not_lt.mp hhigh)).symm

theorem channelInts_expandChannel (c : AdpcmChannel) (n : BitVec 4) :
    channelInts (expandChannel c n) = refChannel (channelInts c) n.toNat := by
  simp only [channelInts, expandChannel, refChannel, s16_newDelta, s16_expandSample]

/-- Settles O48: the tables are evaluated, the registers are those of the reference. -/
theorem nibbleArithmeticIsExact : Obligations.NibbleArithmeticIsExact := by
  refine ⟨by decide, by decide, by decide, ?_⟩
  rintro c n _ rfl
  exact ⟨s16_expandSample c n, s16_newDelta n c.delta, (s16_newDelta n c.delta).symm ▸ le_max_left _ _, rfl⟩

end Sys2Proof.Machine
end

section
/-! SUPPORT. The ADPCM elements (46_msadpcm R252 to R263): the argument checks, the samples that emitting, loading and
selecting channels leave in OUT, and where an element leaves the block. -/

namespace Sys2Proof.Machine

/-! ## The argument checks -/

theorem raises_of_startAdpcm_error {s : State} {e : ErrCode} (hl : s.life = .ready)
    (h : startAdpcm { s with outCount := 0 } = .error e) : Raises .adpcmBlock s e :=
  ⟨_, (execAdpcmBlock_ready hl).trans (runCommand_of_start_error h), takeFault_faultTaken e s⟩

section
variable {s : State}

theorem adpcmChannels_ne_iff (n : Nat) (hn : n < 2 ^ 32) :
    s.args.adpcmChannels ≠ BitVec.ofNat 32 n ↔ s.args.adpcmChannels.toNat ≠ n := by
  rw [ne_eq, ← BitVec.toNat_inj, BitVec.toNat_ofNat, Nat.mod_eq_of_lt hn]

theorem startAdpcm_badChannels (h1 : s.args.adpcmChannels.toNat ≠ 1) (h2 : s.args.adpcmChannels.toNat ≠ 2) :
    startAdpcm s = .error .adpcmBadChannels :=
  if_pos ⟨(adpcmChannels_ne_iff 1 (by decide)).mpr h1, (adpcmChannels_ne_iff 2 (by decide)).mpr h2⟩

/-- With 1 or 2 channels the other three checks decide. -/
theorem startAdpcm_of_channels (h : s.args.adpcmChannels.toNat = 1 ∨ s.args.adpcmChannels.toNat = 2) :
    startAdpcm s =
      if s.args.adpcmBlockBytes.toNat < 7 * s.args.adpcmChannels.toNat ∨ 4096 < s.args.adpcmBlockBytes.toNat then
        .error .adpcmBadBlockBytes
      else if 131070 < s.args.inLen.toNat then .error .badLength
      else if s.args.inLen.toNat < s.args.adpcmBlockBytes.toNat then .error .adpcmTruncatedBlock
      else .ok (expectNext .adpcmPreamble { s with seq.apos := 0, seq.emitted := 0 }) := by
  refine if_neg fun ⟨h1, h2⟩ => ?_
  have h1 := (adpcmChannels_ne_iff 1 (by decide)).mp h1
  have h2 := (adpcmChannels_ne_iff 2 (by decide)).mp h2
  omega

end

/-- Settles O45: each check is one branch of the start. -/
theorem adpcmArgumentChecksComeInOrder : Obligations.AdpcmArgumentChecksComeInOrder := by
  rintro s _ _ hl rfl rfl
  refine ⟨fun h1 h2 => raises_of_startAdpcm_error hl (startAdpcm_badChannels h1 h2), fun hch => ?_⟩
  have hstart := startAdpcm_of_channels (s := s) hch
  have hclear := startAdpcm_of_channels (s := { s with outCount := 0 }) hch
  dsimp only at hclear
  refine ⟨fun hblock => raises_of_startAdpcm_error hl (hclear.trans (if_pos hblock)), fun hlow hhigh => ?_⟩
  rw [if_neg (by omega)] at hstart hclear
  refine ⟨fun hlen => raises_of_startAdpcm_error hl (hclear.trans (if_pos hlen)), fun hlen htrunc => ?_,
    fun hlen hwhole => ?_⟩
  · rw [if_neg (by omega)] at hclear
    exact raises_of_startAdpcm_error hl (hclear.trans (if_pos htrunc))
  · rw [if_neg (by omega), if_neg (by omega)] at hstart
    exact hstart

/-! ## Samples in OUT -/

/-- 46_msadpcm R263: the k-th sample is OUT[2k] and OUT[2k+1]. -/
theorem outByte_emitSample (v : Half) (s : State) (o : Nat) :
    outByte (emitSample v s) o =
      if o / 2 = s.seq.emitted then v.extractLsb' (8 * (o % 2)) 8 else outByte s o := by
  have hout : (emitSample v s).outBuf = Memory.put (Memory.put s.outBuf (2 * s.seq.emitted) (v.extractLsb' 0 8))
      (2 * s.seq.emitted + 1) (v.extractLsb' 8 8) := rfl
  rw [outByte, hout, Memory.get_put, Memory.get_put, emitSample_outEpoch]
  by_cases hhigh : o = 2 * s.seq.emitted + 1
  · rw [if_pos hhigh, if_pos (by omega), show o % 2 = 1 by omega]
    rfl
  · rw [if_neg hhigh]
    by_cases hlow : o = 2 * s.seq.emitted
    · rw [if_pos hlow, if_pos (by omega), show o % 2 = 0 by omega]
      rfl
    · rw [if_neg hlow, if_neg (by omega)]
      rfl

section
variable {s t u : State} {vs ws : List Half}

theorem Emits.nil (s : State) : Emits [] s s :=
  ⟨rfl, fun _ => (if_neg (by simp only [List.length_nil]; omega)).symm⟩

theorem Emits.trans (h : Emits vs s t) (h' : Emits ws t u) : Emits (vs ++ ws) s u := by
  obtain ⟨hn, hout⟩ := h
  obtain ⟨hn', hout'⟩ := h'
  refine ⟨by rw [hn', hn, List.length_append, Nat.add_assoc], fun o => ?_⟩
  rw [hout', hout, hn, List.length_append]
  by_cases hws : 2 * (s.seq.emitted + vs.length) ≤ o ∧ o < 2 * (s.seq.emitted + vs.length + ws.length)
  · rw [if_pos hws, if_pos (by omega), List.getD_append_right _ _ _ _ (by omega), Nat.sub_add_eq]
  · rw [if_neg hws]
    by_cases hvs : 2 * s.seq.emitted ≤ o ∧ o < 2 * (s.seq.emitted + vs.length)
    · rw [if_pos hvs, if_pos (by omega), List.getD_append _ _ _ _ (by omega)]
    · rw [if_neg hvs, if_neg (by omega)]

theorem emits_emitSample (v : Half) (s : State) : Emits [v] s (emitSample v s) := by
  refine ⟨rfl, fun o => ?_⟩
  rw [outByte_emitSample, List.length_singleton]
  by_cases ho : o / 2 = s.seq.emitted
  · rw [if_pos ho, if_pos (by omega), ho, Nat.sub_self]
    rfl
  · rw [if_neg ho, if_neg (by omega)]

/-- One more sample. -/
theorem Emits.emit (h : Emits vs s t) (v : Half) : Emits (vs ++ [v]) s (emitSample v t) :=
  h.trans (emits_emitSample v t)

/-- What leaves OUT and the count of samples alone emits nothing. -/
theorem Emits.of_sameOut (h : Emits vs s t) (hout : u.outBuf = t.outBuf) (hepoch : u.outEpoch = t.outEpoch)
    (hn : u.seq.emitted = t.seq.emitted) : Emits vs s u := by
  have hbyte (o : Nat) : outByte u o = outByte t o := by rw [outByte, outByte, hout, hepoch]
  exact ⟨hn.trans h.1, fun o => (hbyte o).trans (h.2 o)⟩

theorem Emits.setChannel (h : Emits vs s t) (c : Channel) (a : AdpcmChannel) : Emits vs s (setChannel c a t) :=
  h.of_sameOut (setChannel_outBuf t c a) (setChannel_outEpoch t c a) (by rw [setChannel_seq])

theorem Emits.selectChannel (h : Emits vs s t) (c : Channel) : Emits vs s (selectChannel c t) :=
  h.of_sameOut rfl rfl rfl

theorem Emits.expandNibble (h : Emits vs s t) (n : BitVec 4) :
    Emits (vs ++ [expandSample (getChannel t t.seq.chan) n]) s (expandNibble n t) :=
  (h.setChannel _ _).emit _

theorem Emits.continueBlock (h : Emits vs s t) (o : Nat) : Emits vs s (continueBlock o t) := by
  obtain ⟨_, _, _, hb⟩ := continueBlock_eq o t
  exact hb ▸ h.of_sameOut rfl rfl rfl

end

/-! ## Where an element leaves the block -/

@[simp] theorem continueBlock_adpcm (o : Nat) (s : State) : (continueBlock o s).adpcm = s.adpcm := by
  obtain ⟨_, _, _, hb⟩ := continueBlock_eq o s
  rw [hb]

/-- ADPCM work, then the turn of the body loop, changes the ADPCM engine, OUT and OUT_COUNT only. -/
theorem AdpcmWork.blockContinues {s u : State} (h : AdpcmWork s u) (o : Nat) :
    BlockContinues o s (continueBlock o u) := by
  obtain ⟨_, hu⟩ := h.frame
  rw [hu]
  obtain ⟨hlt, hb⟩ | ⟨hle, hb⟩ := continueBlock_cases o u
  · rw [hu] at hlt hb
    rw [hb]
    exact ⟨rfl, fun _ => ⟨rfl, rfl⟩, fun hle => absurd hlt (Nat.not_lt.mpr hle), rfl, rfl, rfl, rfl, rfl, rfl, rfl, rfl⟩
  · rw [hu] at hle hb
    rw [hb]
    exact ⟨rfl, fun hlt => absurd hlt (Nat.not_lt.mpr hle), fun _ => ⟨rfl, rfl⟩, rfl, rfl, rfl, rfl, rfl, rfl, rfl, rfl⟩

/-! ## Preambles -/

section
variable {s : State}

theorem monoPreamble_badPredictor {p : Byte} (d a b : Half) (h : 6 < p.toNat) :
    monoPreamble p d a b s = .error .adpcmBadPredictor := if_pos h

theorem monoPreamble_ok {p : Byte} (d a b : Half) (h : p.toNat ≤ 6) :
    monoPreamble p d a b s =
      .ok (continueBlock 7 (emitSample a (emitSample b (setChannel .left (preambleChannel p d a b) s)))) :=
  if_neg (Nat.not_lt.mpr h)

theorem stereoPreamble_badPredictor {l r : AdpcmChannel} (h : 6 < l.pred ∨ 6 < r.pred) :
    stereoPreamble l r s = .error .adpcmBadPredictor := if_pos h

theorem stereoPreamble_ok {l r : AdpcmChannel} (hl : l.pred ≤ 6) (hr : r.pred ≤ 6) :
    stereoPreamble l r s =
      .ok (continueBlock 14 (emitSample r.s1 (emitSample l.s1 (emitSample r.s2 (emitSample l.s2
        (setChannel .right r (setChannel .left l s))))))) :=
  if_neg (by omega)

end

/-- Settles O46: a preamble is its checks, its loads and its samples in order. -/
theorem adpcmPreamblesLoadAndEmit : Obligations.AdpcmPreamblesLoadAndEmit := by
  refine fun s => ⟨fun p d a b => ⟨fun hp => ?_, fun hp => ?_⟩,
    fun pL pR dL dR aL aR bL bR => ⟨fun hp => ?_, fun hpL hpR => ?_⟩⟩
  · exact ⟨_, exec_of_element rfl (monoPreamble_badPredictor d a b hp), takeFault_faultTaken _ s⟩
  · refine ⟨_, exec_of_element_ok rfl (monoPreamble_ok d a b hp), continueBlock_adpcm _ _, ?_, ?_⟩
    · exact ((((Emits.nil s).setChannel _ _).emit b).emit a).continueBlock 7
    · exact AdpcmWork.blockContinues (.emit a (.emit b (.load _ _ .start))) 7
  · exact ⟨_, exec_of_element rfl (stereoPreamble_badPredictor hp), takeFault_faultTaken _ s⟩
  · refine ⟨_, exec_of_element_ok rfl (stereoPreamble_ok hpL hpR), continueBlock_adpcm _ _, ?_, ?_⟩
    · exact ((((((Emits.nil s).setChannel _ _).setChannel _ _).emit bL).emit bR).emit aL).emit aR |>.continueBlock 14
    · exact AdpcmWork.blockContinues
        (.emit aR (.emit aL (.emit bR (.emit bL (.load _ _ (.load _ _ .start)))))) 14

/-! ## Body bytes -/

/-- Settles O47: a body byte selects a channel for each nibble and expands it. -/
theorem adpcmBytesDecodeTwoNibbles : Obligations.AdpcmBytesDecodeTwoNibbles := by
  refine fun s h l => ⟨⟨_, rfl, ?_, ?_, ?_⟩, ⟨_, rfl, ?_, ?_, ?_⟩, ⟨_, rfl, ?_, ?_⟩⟩
  · exact continueBlock_adpcm _ _
  · exact ((((Emits.nil s).selectChannel .left).expandNibble h).expandNibble l).continueBlock _
  · exact AdpcmWork.blockContinues (.expand l (.expand h (.select .left .start))) _
  · exact continueBlock_adpcm _ _
  · exact (((((Emits.nil s).selectChannel .left).expandNibble h).selectChannel .right).expandNibble l).continueBlock _
  · exact AdpcmWork.blockContinues (.expand l (.select .right (.expand h (.select .left .start)))) _
  · exact (Emits.nil s).expandNibble h
  · change expandNibble h s = _
    rw [expandNibble]
    cases s.seq.chan <;> rfl

end Sys2Proof.Machine
end

section
/-! SUPPORT. A whole ADPCM_BLOCK (46_msadpcm R253 to R263, 40_host_commands R115): the elements due in it, the samples
still to come by the integer reference, and the run of the command to its end. -/

namespace Sys2Proof.Machine

/-! ## The elements of a block -/

/-- The s16 register at offset `o` of IN, least significant byte first (20_memory R64). -/
def inHalf (s : State) (o : Nat) : Half := inByte s (o + 1) ++ inByte s o

theorem s16_inHalf (s : State) (o : Nat) : s16 (inHalf s o) = refS16 (inByte s) o := s16_append _ _

/-- What the bytes of IN from offset 0 on hold as a preamble (30_encoding R97, R98). -/
def preambleInstr (stereo : Bool) (s : State) : Instr :=
  if stereo then
    .adpcmStereoPreamble (inByte s 0) (inByte s 1) (inHalf s 2) (inHalf s 4) (inHalf s 6) (inHalf s 8) (inHalf s 10)
      (inHalf s 12)
  else .adpcmMonoPreamble (inByte s 0) (inHalf s 1) (inHalf s 3) (inHalf s 5)

/-- What a body byte holds (30_encoding R99). -/
def bodyInstr (stereo : Bool) (b : Byte) : Instr :=
  if stereo then .adpcmStereoByte (b.extractLsb' 4 4) (b.extractLsb' 0 4)
  else .adpcmMonoByte (b.extractLsb' 4 4) (b.extractLsb' 0 4)

section
variable {s : State} {stereo : Bool}

/-- An element of the ADPCM engine runs as it is decoded at the block's offset. -/
theorem engineStep_of_adpcmSource {e : Expect} {i : Instr} {k : Nat} (hb : e.isBits = false) (ha : isAdpcm e = true)
    (h : decodeBytes (decodeCtx s e) (adpcmSource s) = .ok (i, k)) : engineStep e s = exec i s := by
  have hf := fetchElement_adpcm hb ha h
  rw [engineStep, hf, exec_eq_runElement s (fetchElement_dueAt hf).1]

theorem engineStep_adpcmPreamble (hs : (s.args.adpcmChannels == 2) = stereo) (hpos : s.seq.apos = 0) :
    engineStep .adpcmPreamble s = exec (preambleInstr stereo s) s := by
  have hsrc : adpcmSource s = fun i => some (inByte s i) := by
    funext i
    rw [adpcmSource, hpos, Nat.zero_add]
  have hctx : (decodeCtx s .adpcmPreamble).stereo = stereo := hs
  refine engineStep_of_adpcmSource (k := if stereo then 14 else 7) rfl rfl ?_
  rw [decodeBytes_adpcmPreamble rfl, hctx, hsrc]
  cases stereo <;> rfl

theorem engineStep_adpcmByte (hs : (s.args.adpcmChannels == 2) = stereo) :
    engineStep .adpcmByte s = exec (bodyInstr stereo (inByte s s.seq.apos)) s := by
  have hctx : (decodeCtx s .adpcmByte).stereo = stereo := hs
  refine engineStep_of_adpcmSource (k := 1) rfl rfl ?_
  rw [decodeBytes_adpcmByte rfl, hctx, decodeAdpcmByte]
  rfl

end

/-! ## The samples still to come -/

section
variable {f g : Nat → Byte} {first last : Nat}

theorem length_refBody : (refBody f first last).length = last - first := by
  rw [refBody, List.length_map, List.length_range]

theorem refBody_of_le (h : last ≤ first) : refBody f first last = [] := by
  rw [refBody, Nat.sub_eq_zero_of_le h]
  rfl

theorem refBody_of_lt (h : first < last) : refBody f first last = f first :: refBody f (first + 1) last := by
  rw [refBody, refBody, show last - first = (last - (first + 1)) + 1 by omega, List.range_succ_eq_map, List.map_cons,
    List.map_map, Nat.add_zero]
  congr 2
  funext i
  exact congrArg f (by omega)

theorem refBody_congr (h : ∀ o, o < last → f o = g o) : refBody f first last = refBody g first last := by
  refine List.map_congr_left fun i hi => h _ ?_
  have := List.mem_range.mp hi
  omega

theorem refS16_congr {o : Nat} (h : ∀ o, o < last → f o = g o) (ho : o + 1 < last) : refS16 f o = refS16 g o := by
  rw [refS16, refS16, h o (by omega), h (o + 1) ho]

/-- The reference reads no byte past the block (46_msadpcm R262). -/
theorem refBlock_congr {stereo : Bool} (h : ∀ o, o < last → f o = g o) (hsize : 7 * (if stereo then 2 else 1) ≤ last) :
    refBlock stereo f last = refBlock stereo g last := by
  have hhalf (o : Nat) (ho : o + 1 < last) : refS16 f o = refS16 g o := refS16_congr h ho
  cases stereo with
  | true =>
    have hsize : 14 ≤ last := hsize
    simp only [refBlock, if_true, refBody_congr h, h 0 (by omega), h 1 (by omega), hhalf 2 (by omega),
      hhalf 4 (by omega), hhalf 6 (by omega), hhalf 8 (by omega), hhalf 10 (by omega), hhalf 12 (by omega)]
  | false =>
    have hsize : 7 ≤ last := hsize
    simp only [refBlock, Bool.false_eq_true, if_false, refBody_congr h, h 0 (by omega), hhalf 1 (by omega),
      hhalf 3 (by omega), hhalf 5 (by omega)]

end

theorem length_refMono (c : RefChannel) (bs : List Byte) : (refMono c bs).length = 2 * bs.length := by
  induction bs generalizing c with
  | nil => rfl
  | cons b bs ih =>
    simp only [refMono, List.length_cons, ih]
    omega

theorem length_refStereo (cl cr : RefChannel) (bs : List Byte) : (refStereo cl cr bs).length = 2 * bs.length := by
  induction bs generalizing cl cr with
  | nil => rfl
  | cons b bs ih =>
    simp only [refStereo, List.length_cons, ih]
    omega

/-- 46_msadpcm R261. -/
theorem length_refBlock (stereo : Bool) (f : Nat → Byte) (size : Nat) :
    (refBlock stereo f size).length =
      2 * (if stereo then 2 else 1) + 2 * (size - 7 * (if stereo then 2 else 1)) := by
  cases stereo with
  | true =>
    simp only [refBlock, if_true, List.length_cons, length_refStereo, length_refBody]
    omega
  | false =>
    simp only [refBlock, Bool.false_eq_true, if_false, List.length_cons, length_refMono, length_refBody]
    omega

/-- The samples the reference gives for body bytes, from the channels as they stand. -/
def bodySamples (stereo : Bool) (a : Adpcm) (bs : List Byte) : List Int :=
  if stereo then refStereo (channelInts a.ch0) (channelInts a.ch1) bs else refMono (channelInts a.ch0) bs

theorem bodySamples_nil (stereo : Bool) (a : Adpcm) : bodySamples stereo a [] = [] := by
  cases stereo <;> rfl

theorem toNat_highNibble (b : Byte) : (b.extractLsb' 4 4).toNat = b.toNat / 16 := by
  rw [BitVec.extractLsb'_toNat, Nat.shiftRight_eq_div_pow]
  omega

theorem toNat_lowNibble (b : Byte) : (b.extractLsb' 0 4).toNat = b.toNat % 16 := by
  rw [BitVec.extractLsb'_toNat, Nat.shiftRight_zero]

/-- 46_msadpcm R259, R260: a body byte emits the reference's next two samples and moves the channels as it does. -/
theorem exec_bodyInstr (stereo : Bool) (b : Byte) (s : State) :
    ∃ t vs, exec (bodyInstr stereo b) s = .next t ∧ Emits vs s t ∧ BlockContinues (s.seq.apos + 1) s t ∧
      ∀ bs, bodySamples stereo s.adpcm (b :: bs) = vs.map s16 ++ bodySamples stereo t.adpcm bs := by
  obtain ⟨⟨t, ht, ha, hemits, hblock⟩, ⟨t', ht', ha', hemits', hblock'⟩, _⟩ :=
    adpcmBytesDecodeTwoNibbles s (b.extractLsb' 4 4) (b.extractLsb' 0 4)
  cases stereo with
  | false =>
    refine ⟨t, _, ht, hemits, hblock, fun bs => ?_⟩
    rw [ha]
    simp only [bodySamples, Bool.false_eq_true, if_false, refMono, toNat_highNibble, toNat_lowNibble, s16_expandSample,
      channelInts_expandChannel, List.map_cons, List.map_nil, List.cons_append, List.nil_append]
  | true =>
    refine ⟨t', _, ht', hemits', hblock', fun bs => ?_⟩
    rw [ha']
    simp only [bodySamples, if_true, refStereo, toNat_highNibble, toNat_lowNibble, s16_expandSample,
      channelInts_expandChannel, List.map_cons, List.map_nil, List.cons_append, List.nil_append]

/-- The predictors in IN are legal (46_msadpcm R253, R254). -/
def PredictorsOk (stereo : Bool) (s : State) : Prop :=
  (inByte s 0).toNat ≤ 6 ∧ (stereo = true → (inByte s 1).toNat ≤ 6)

/-- 46_msadpcm R253, R254: a preamble emits the reference's first samples and loads the channels it starts with. -/
theorem exec_preambleInstr {stereo : Bool} {s : State} (h : PredictorsOk stereo s) :
    ∃ t vs, exec (preambleInstr stereo s) s = .next t ∧ Emits vs s t ∧
      BlockContinues (7 * (if stereo then 2 else 1)) s t ∧
      ∀ b, refBlock stereo (inByte s) b =
        vs.map s16 ++ bodySamples stereo t.adpcm (refBody (inByte s) (7 * (if stereo then 2 else 1)) b) := by
  obtain ⟨hmono, hstereo⟩ := adpcmPreamblesLoadAndEmit s
  obtain ⟨h0, h1⟩ := h
  cases stereo with
  | false =>
    obtain ⟨t, ht, ha, hemits, hblock⟩ := (hmono (inByte s 0) (inHalf s 1) (inHalf s 3) (inHalf s 5)).2 h0
    refine ⟨t, _, ht, hemits, hblock, fun b => ?_⟩
    rw [ha]
    simp [refBlock, bodySamples, channelInts, s16_inHalf]
  | true =>
    obtain ⟨t, ht, ha, hemits, hblock⟩ :=
      (hstereo (inByte s 0) (inByte s 1) (inHalf s 2) (inHalf s 4) (inHalf s 6) (inHalf s 8) (inHalf s 10)
        (inHalf s 12)).2 h0 (h1 rfl)
    refine ⟨t, _, ht, hemits, hblock, fun b => ?_⟩
    rw [ha]
    simp [refBlock, bodySamples, channelInts, s16_inHalf]

theorem raises_preambleInstr {stereo : Bool} {s : State} (h : ¬ PredictorsOk stereo s) :
    Raises (preambleInstr stereo s) s .adpcmBadPredictor := by
  obtain ⟨hmono, hstereo⟩ := adpcmPreamblesLoadAndEmit s
  cases stereo with
  | false => exact (hmono _ _ _ _).1 (not_le.mp fun h0 => h ⟨h0, nofun⟩)
  | true =>
    refine (hstereo _ _ _ _ _ _ _ _).1 ?_
    by_contra hlegal
    exact h ⟨by omega, fun _ => by omega⟩

/-! ## The body loop -/

theorem BlockContinues.trans {o o' : Nat} {s t u : State} (h : BlockContinues o s t)
    (hlt : o < s.args.adpcmBlockBytes.toNat) (h' : BlockContinues o' t u) : BlockContinues o' s u := by
  obtain ⟨_, hgo, _, hlzx, hrdr, hlife, herr, hargs, hin, hpolicy, hport⟩ := h
  obtain ⟨hpos', hgo', hend', hlzx', hrdr', hlife', herr', hargs', hin', hpolicy', hport'⟩ := h'
  rw [hargs] at hgo' hend'
  refine ⟨hpos', fun hlt' => ?_, hend', hlzx'.trans hlzx, hrdr'.trans hrdr, hlife'.trans hlife, herr'.trans herr,
    hargs'.trans hargs, hin'.trans hin, hpolicy'.trans hpolicy, hport'.trans hport⟩
  obtain ⟨hexp', hcount'⟩ := hgo' hlt'
  exact ⟨hexp', hcount'.trans (hgo hlt).2⟩

/-- `t` is between two bytes of the block that began at `s`, or past its last: the samples emitted so far and those the
reference still gives for the bytes left are `samples`. -/
structure InBlock (s : State) (stereo : Bool) (samples : List Int) (t : State) : Prop where
  continues : BlockContinues t.seq.apos s t
  emits : ∃ vs, Emits vs s t ∧
    vs.map s16 ++ bodySamples stereo t.adpcm (refBody (inByte s) t.seq.apos s.args.adpcmBlockBytes.toNat) = samples

section
variable {s t : State} {stereo : Bool} {samples : List Int}

/-- Inside a block what is due is its next body byte. -/
theorem InBlock.due (h : InBlock s stereo samples t) {e : Expect} (he : t.seq.expect = some e) :
    e = .adpcmByte ∧ t.seq.apos < s.args.adpcmBlockBytes.toNat := by
  obtain ⟨_, hgo, hend, _⟩ := h.continues
  obtain hlt | hle := Nat.lt_or_ge t.seq.apos s.args.adpcmBlockBytes.toNat
  · exact ⟨Option.some.inj (he.symm.trans (hgo hlt).1), hlt⟩
  · exact nomatch he.symm.trans (hend hle).1

theorem InBlock.args_eq (h : InBlock s stereo samples t) : t.args = s.args := by
  obtain ⟨_, _, _, _, _, _, _, hargs, _⟩ := h.continues
  exact hargs

theorem InBlock.inByte_eq (h : InBlock s stereo samples t) (o : Nat) : inByte t o = inByte s o := by
  obtain ⟨_, _, _, _, _, _, _, _, hin, _⟩ := h.continues
  rw [inByte, inByte, hin]

/-- A body byte takes the block one byte further. -/
theorem InBlock.step (h : InBlock s stereo samples t) (hs : (s.args.adpcmChannels == 2) = stereo) {e : Expect}
    {u : State} (he : t.seq.expect = some e) (hstep : engineStep e t = .next u) :
    InBlock s stereo samples u ∧ u.seq.apos = t.seq.apos + 1 := by
  obtain ⟨rfl, hlt⟩ := h.due he
  obtain ⟨u', ws, hu, hemits', hblock, hrest⟩ := exec_bodyInstr stereo (inByte t t.seq.apos) t
  rw [engineStep_adpcmByte (h.args_eq ▸ hs), hu] at hstep
  cases hstep
  obtain ⟨vs, hemits, hsamples⟩ := h.emits
  have hpos : u.seq.apos = t.seq.apos + 1 := hblock.1
  refine ⟨⟨hpos ▸ h.continues.trans hlt hblock, vs ++ ws, hemits.trans hemits', ?_⟩, hpos⟩
  rw [hpos, List.map_append, List.append_assoc, ← hrest, h.inByte_eq, ← refBody_of_lt hlt, hsamples]

/-- The body loop runs a block to its end, one fuel for a byte. -/
theorem InBlock.runEngine (h : InBlock s stereo samples t) (hs : (s.args.adpcmChannels == 2) = stereo) {fuel : Nat}
    (hfuel : s.args.adpcmBlockBytes.toNat - t.seq.apos ≤ fuel) :
    ∃ u, runEngine fuel t = .next u ∧ u.seq.expect = none ∧ InBlock s stereo samples u := by
  refine runEngine_ends (InBlock s stereo samples) (fun u => s.args.adpcmBlockBytes.toNat - u.seq.apos) ?_ h hfuel
  intro e u v he hu hstep
  obtain ⟨hv, hpos⟩ := hu.step hs he hstep
  have hlt := (hu.due he).2
  exact ⟨hv, by omega⟩

/-- Past the last byte all samples are out. -/
theorem InBlock.over (h : InBlock s stereo samples t) (hidle : t.seq.expect = none) :
    s.args.adpcmBlockBytes.toNat ≤ t.seq.apos ∧ ∃ vs, Emits vs s t ∧ vs.map s16 = samples := by
  obtain ⟨_, hgo, _⟩ := h.continues
  have hle : s.args.adpcmBlockBytes.toNat ≤ t.seq.apos := by
    by_contra hlt
    exact nomatch hidle.symm.trans (hgo (Nat.not_le.mp hlt)).1
  obtain ⟨vs, hemits, hsamples⟩ := h.emits
  rw [refBody_of_le hle, bodySamples_nil, List.append_nil] at hsamples
  exact ⟨hle, vs, hemits, hsamples⟩

end

/-! ## The command -/

/-- The arguments that ADPCM_BLOCK accepts in a READY block (46_msadpcm R252). -/
structure AcceptedBlock (stereo : Bool) (s : State) : Prop where
  life : s.life = .ready
  channels : s.args.adpcmChannels.toNat = if stereo then 2 else 1
  whole : 7 * (if stereo then 2 else 1) ≤ s.args.adpcmBlockBytes.toNat
  small : s.args.adpcmBlockBytes.toNat ≤ 4096
  inside : s.args.adpcmBlockBytes.toNat ≤ s.args.inLen.toNat
  inLen : s.args.inLen.toNat ≤ 131070

/-- The state in which the preamble is due. -/
def adpcmStarted (s : State) : State :=
  expectNext .adpcmPreamble { s with outCount := 0, seq.apos := 0, seq.emitted := 0 }

section
variable {s : State} {stereo : Bool}

theorem AcceptedBlock.stereo_eq (h : AcceptedBlock stereo s) : (s.args.adpcmChannels == 2) = stereo := by
  have hch := h.channels
  rw [Bool.eq_iff_iff, beq_iff_eq, ← BitVec.toNat_inj, hch]
  cases stereo <;> decide

/-- With its arguments accepted the command runs its preamble, then the rest. -/
theorem AcceptedBlock.exec_eq (h : AcceptedBlock stereo s) {u : State}
    (hu : exec (preambleInstr stereo (adpcmStarted s)) (adpcmStarted s) = .next u) :
    exec .adpcmBlock s = runEngine (workBound s - 1) u := by
  have hpreamble := (engineStep_adpcmPreamble (s := adpcmStarted s) h.stereo_eq rfl).trans hu
  obtain ⟨hl, hch, hwhole, hsmall, hinside, hlen⟩ := h
  have hch' : s.args.adpcmChannels.toNat = 1 ∨ s.args.adpcmChannels.toNat = 2 := by
    rw [hch]
    cases stereo <;> decide
  have hstart : startAdpcm { s with outCount := 0 } = .ok (adpcmStarted s) := by
    refine (startAdpcm_of_channels (s := { s with outCount := 0 }) hch').trans ?_
    dsimp only
    rw [hch, if_neg (by omega), if_neg (by omega), if_neg (by omega)]
    rfl
  have hfuel : workBound s = workBound s - 1 + 1 := by
    unfold workBound
    omega
  change execAdpcmBlock s = _
  rw [execAdpcmBlock_ready hl, runCommand_of_start hstart, hfuel]
  exact runEngine_step _ _ u .adpcmPreamble rfl hpreamble

/-- A predictor above 6 ends the command with its fault. -/
theorem AcceptedBlock.raises (h : AcceptedBlock stereo s) (hp : ¬ PredictorsOk stereo s) :
    Raises .adpcmBlock s .adpcmBadPredictor := by
  obtain ⟨t, ht, hfault⟩ := raises_preambleInstr (s := adpcmStarted s) hp
  obtain ⟨_, _, _, hidle, _⟩ := id hfault
  exact ⟨t, (h.exec_eq ht).trans (runEngine_idle _ t hidle), hfault⟩

/-- With legal predictors the command ends past the block's last byte, its samples those of the reference. -/
theorem AcceptedBlock.completes (h : AcceptedBlock stereo s) (hp : PredictorsOk stereo s) :
    ∃ t, exec .adpcmBlock s = .next t ∧ t.seq.expect = none ∧
      InBlock (adpcmStarted s) stereo (refBlock stereo (inByte s) s.args.adpcmBlockBytes.toNat) t := by
  obtain ⟨u, vs, hu, hemits, hblock, hsamples⟩ := exec_preambleInstr (s := adpcmStarted s) hp
  have hpos : u.seq.apos = 7 * (if stereo then 2 else 1) := hblock.1
  have hin : InBlock (adpcmStarted s) stereo (refBlock stereo (inByte s) s.args.adpcmBlockBytes.toNat) u :=
    ⟨hpos ▸ hblock, vs, hemits, hpos ▸ (hsamples _).symm⟩
  have hfuel : (adpcmStarted s).args.adpcmBlockBytes.toNat - u.seq.apos ≤ workBound s - 1 := by
    change s.args.adpcmBlockBytes.toNat - u.seq.apos ≤ _
    unfold workBound
    omega
  obtain ⟨t, ht, hidle, hover⟩ := hin.runEngine h.stereo_eq hfuel
  exact ⟨t, (h.exec_eq hu).trans ht, hidle, hover⟩

end

end Sys2Proof.Machine
end

section
/-! SUPPORT. What ADPCM_BLOCK gives the host: the bytes of its samples in OUT (46_msadpcm R261, R263), and nothing of what
came before the block (R262). -/

namespace Sys2Proof.Machine

/-! ## The bytes of the samples -/

section
variable {s t : State} {vs : List Half}

theorem getD_map_s16 (vs : List Half) (k : Nat) : (vs.map s16).getD k 0 = s16 (vs.getD k 0) :=
  List.getD_map vs 0 s16

/-- 46_msadpcm R263, the samples read as integers. -/
theorem Emits.outByte_sample (h : Emits vs s t) (hs : s.seq.emitted = 0) {k : Nat} (hk : k < vs.length) :
    outByte t (2 * k) = BitVec.ofInt 8 ((vs.map s16).getD k 0) ∧
      outByte t (2 * k + 1) = BitVec.ofInt 8 ((vs.map s16).getD k 0 / 256) := by
  obtain ⟨_, hout⟩ := h
  rw [hout, hout, hs, if_pos (by omega), if_pos (by omega), getD_map_s16, ← extractLsb'_low, ← extractLsb'_high]
  rw [show 2 * k / 2 - 0 = k by omega, show (2 * k + 1) / 2 - 0 = k by omega, show 2 * k % 2 = 0 by omega,
    show (2 * k + 1) % 2 = 1 by omega]
  exact ⟨rfl, rfl⟩

theorem Emits.outByte_beyond (h : Emits vs s t) (hs : s.seq.emitted = 0) {o : Nat} (ho : 2 * vs.length ≤ o) :
    outByte t o = outByte s o := by
  obtain ⟨_, hout⟩ := h
  rw [hout, hs, if_neg (by omega)]

end

/-- Settles O49: the command ends past the block's last byte with the reference's samples emitted. -/
theorem adpcmBlockRefinesTheIntegerReference : Obligations.AdpcmBlockRefinesTheIntegerReference := by
  rintro s stereo _ _ _ hl rfl hch rfl hwhole hsmall hinside hlen h0 h1 rfl
  rw [hch] at hwhole ⊢
  have haccepted : AcceptedBlock stereo s := ⟨hl, hch, hwhole, hsmall, hinside, hlen⟩
  obtain ⟨t, ht, hidle, hblock⟩ := haccepted.completes ⟨h0, h1⟩
  obtain ⟨hpast, vs, hemits, hsamples⟩ := hblock.over hidle
  obtain ⟨_, _, hend, hlzx, hrdr, hlife, herr, hargs, hin, _, hport⟩ := hblock.continues
  have hlength : (refBlock stereo (inByte s) s.args.adpcmBlockBytes.toNat).length = vs.length := by
    rw [← hsamples, List.length_map]
  have hcount : t.seq.emitted = vs.length := hemits.1.trans (Nat.zero_add _)
  refine ⟨length_refBlock _ _ _, t, ht, hlife.trans hl, herr, hidle, ?_, fun k hk => ?_, fun o ho => ?_, hlzx, hrdr,
    hargs, hin, hport⟩
  · rw [(hend hpast).2, hcount, hlength]
  · rw [← hsamples]
    exact hemits.outByte_sample rfl (hlength ▸ hk)
  · exact hemits.outByte_beyond rfl (hlength ▸ ho)

/-! ## What a block depends on -/

/-- What R262 says two ADPCM_BLOCK commands end with alike, and the code of a fault. -/
def SameAdpcmResult (t v : State) : Prop :=
  t.life = v.life ∧ t.outCount = v.outCount ∧ (t.life = .faulted → t.errcode = v.errcode) ∧
    ∀ o, o < t.outCount.toNat → outByte t o = outByte v o

/-- Both commands end, alike. -/
def EndAlike (s u : State) : Prop :=
  ∃ t v, exec .adpcmBlock s = .next t ∧ exec .adpcmBlock u = .next v ∧ SameAdpcmResult t v

theorem endAlike_of_raises {s u : State} {e : ErrCode} (h : Raises .adpcmBlock s e) (h' : Raises .adpcmBlock u e) :
    EndAlike s u := by
  obtain ⟨t, ht, hlife, herr, hcount, _⟩ := h
  obtain ⟨v, hv, hlife', herr', hcount', _⟩ := h'
  refine ⟨t, v, ht, hv, hlife.trans hlife'.symm, hcount.trans hcount'.symm, fun _ => herr.trans herr'.symm, ?_⟩
  rw [hcount]
  exact fun o ho => absurd ho (Nat.not_lt_zero o)

/-- What ADPCM_BLOCK depends on is the same in both (46_msadpcm R262). -/
structure SameAdpcmInputs (s u : State) : Prop where
  channels : s.args.adpcmChannels = u.args.adpcmChannels
  blockBytes : s.args.adpcmBlockBytes = u.args.adpcmBlockBytes
  inLen : s.args.inLen = u.args.inLen
  inBytes : ∀ o, o < s.args.adpcmBlockBytes.toNat → inByte s o = inByte u o

section
variable {s u : State} {stereo : Bool}

/-- The checks look at the arguments only. -/
theorem SameAdpcmInputs.startAdpcm_error (h : SameAdpcmInputs s u) {e : ErrCode}
    (hs : startAdpcm { s with outCount := 0 } = .error e) : startAdpcm { u with outCount := 0 } = .error e := by
  unfold startAdpcm at hs ⊢
  dsimp only at hs ⊢
  rw [← h.channels, ← h.blockBytes, ← h.inLen]
  split_ifs at hs ⊢ <;> exact hs

theorem acceptedBlock_of_startAdpcm {t : State} (hl : s.life = .ready)
    (h : startAdpcm { s with outCount := 0 } = .ok t) : AcceptedBlock (s.args.adpcmChannels == 2) s := by
  obtain ⟨⟨hch, hwhole, hsmall, hlen, hinside⟩, _⟩ := startAdpcm_cases h
  have hnat : s.args.adpcmChannels.toNat = if (s.args.adpcmChannels == 2) = true then 2 else 1 := by
    obtain hch | hch := hch <;> rw [hch] <;> decide
  exact ⟨hl, hnat, hnat ▸ hwhole, hsmall, hinside, hlen⟩

theorem AcceptedBlock.of_sameAdpcmInputs (hs : AcceptedBlock stereo s) (h : SameAdpcmInputs s u) (hl : u.life = .ready) :
    AcceptedBlock stereo u := by
  obtain ⟨_, hch, hwhole, hsmall, hinside, hlen⟩ := hs
  rw [h.channels] at hch
  rw [h.blockBytes] at hwhole hsmall hinside
  rw [h.inLen] at hinside hlen
  exact ⟨hl, hch, hwhole, hsmall, hinside, hlen⟩

theorem SameAdpcmInputs.predictorsOk_iff (h : SameAdpcmInputs s u) (hs : AcceptedBlock stereo s) :
    PredictorsOk stereo s ↔ PredictorsOk stereo u := by
  have hwhole : 7 ≤ s.args.adpcmBlockBytes.toNat := le_trans (by split <;> decide) hs.whole
  rw [PredictorsOk, PredictorsOk, h.inBytes 0 (by omega), h.inBytes 1 (by omega)]

/-- Two commands that complete give the samples of the same reference. -/
theorem SameAdpcmInputs.endAlike_of_predictorsOk (h : SameAdpcmInputs s u) (hs : AcceptedBlock stereo s)
    (hu : AcceptedBlock stereo u) (hp : PredictorsOk stereo s) : EndAlike s u := by
  obtain ⟨hp0, hp1⟩ := (h.predictorsOk_iff hs).mp hp
  have hsame : refBlock stereo (inByte u) u.args.adpcmBlockBytes.toNat =
      refBlock stereo (inByte s) s.args.adpcmBlockBytes.toNat := by
    rw [← h.blockBytes]
    exact (refBlock_congr h.inBytes hs.whole).symm
  obtain ⟨_, t, ht, hlife, _, _, hout, hbytes, _⟩ := adpcmBlockRefinesTheIntegerReference s stereo _ _ _ hs.life rfl
    hs.channels rfl (hs.channels ▸ hs.whole) hs.small hs.inside hs.inLen hp.1 hp.2 rfl
  obtain ⟨_, v, hv, hlife', _, _, hout', hbytes', _⟩ := adpcmBlockRefinesTheIntegerReference u stereo _ _ _ hu.life rfl
    hu.channels rfl (hu.channels ▸ hu.whole) hu.small hu.inside hu.inLen hp0 hp1 hsame.symm
  refine ⟨t, v, ht, hv, hlife.trans hlife'.symm, hout.trans hout'.symm, fun hf => (nomatch hlife.symm.trans hf), ?_⟩
  intro o ho
  rw [hout, BitVec.toNat_ofNat] at ho
  have hk : o / 2 < (refBlock stereo (inByte s) s.args.adpcmBlockBytes.toNat).length := by
    have := Nat.mod_le (2 * (refBlock stereo (inByte s) s.args.adpcmBlockBytes.toNat).length) (2 ^ 32)
    omega
  obtain ⟨hlow, hhigh⟩ := hbytes (o / 2) hk
  obtain ⟨hlow', hhigh'⟩ := hbytes' (o / 2) hk
  obtain heven | hodd : o = 2 * (o / 2) ∨ o = 2 * (o / 2) + 1 := by omega
  · rw [heven, hlow, hlow']
  · rw [hodd, hhigh, hhigh']

end

/-- Settles O50: both commands fault in the same check, on the same predictor, or complete with the same samples. -/
theorem adpcmBlockForgetsEarlierBlocks : Obligations.AdpcmBlockForgetsEarlierBlocks := by
  intro s u hs hu hch hblock hlen hin
  have h : SameAdpcmInputs s u := ⟨hch, hblock, hlen, hin⟩
  change EndAlike s u
  cases hstart : startAdpcm { s with outCount := 0 } with
  | error e =>
    exact endAlike_of_raises (raises_of_startAdpcm_error hs hstart)
      (raises_of_startAdpcm_error hu (h.startAdpcm_error hstart))
  | ok w =>
    have haccepted := acceptedBlock_of_startAdpcm hs hstart
    have haccepted' := haccepted.of_sameAdpcmInputs h hu
    by_cases hp : PredictorsOk (s.args.adpcmChannels == 2) s
    · exact h.endAlike_of_predictorsOk haccepted haccepted' hp
    · exact endAlike_of_raises (haccepted.raises hp) (haccepted'.raises (mt (h.predictorsOk_iff haccepted).mpr hp))

end Sys2Proof.Machine
end

section
/-! SUPPORT. Fault entry and the FAULTED state (60_exceptions R280, R281, R283): what STATUS shows after a fault, the
table of fault codes, and what the host can still do until RESET. -/

namespace Sys2Proof.Machine

/-! ## STATUS after a fault -/

/-- A field of STATUS clear of the bits that may differ while FAULTED is read as it stands (40_host_commands R111). -/
theorem status_read_field (s : State) {lo w : Nat} (h : ∀ i < w, lo + i < 32 ∧ lo + i ∉ [2, 3, 4, 5, 6, 16]) :
    (hostAccess (.read 0x04 .b4) s).port.rdata.extractLsb' lo w = (statusWord s).extractLsb' lo w := by
  rw [hostAccess_read_reg s (by decide) (by decide)]
  apply BitVec.eq_of_getLsbD_eq
  intro i hi
  obtain ⟨hlt, hfield⟩ := h i hi
  rw [BitVec.getLsbD_extractLsb', BitVec.getLsbD_extractLsb',
    hostReadRegister_rdata_specified s hlt (statusUnspecified_getLsbD _ hlt hfield)]
  rfl

theorem statusWord_life_faulted {s : State} (h : s.life = .faulted) : (statusWord s).extractLsb' 0 2 = 0b10 := by
  obtain ⟨hready, hfaulted, _⟩ := statusWord_flags s
  apply extractLsb'_statusWord
  intro i hi
  obtain rfl | rfl : i = 0 ∨ i = 1 := by omega
  · rw [hready, h]
    rfl
  · rw [hfaulted, h]
    rfl

/-! ## The fault codes -/

/-- The faults in the order of the table of 60_exceptions R281. -/
def faultTable : List ErrCode :=
  [.badCommand, .notReset, .badFrameSize, .badLength, .badBlockType, .inputOverrun, .rawOverrun, .huffmanOversubscribed,
    .emptyTableLookup, .unassignedCode, .lengthRunOverrun, .badPretreeRepeat, .badMatchOffset, .matchOverrun,
    .runStraddlesWindow, .e8TranslationRequired, .adpcmBadChannels, .adpcmBadBlockBytes, .adpcmTruncatedBlock,
    .adpcmBadPredictor]

theorem mem_faultTable (e : ErrCode) : e ∈ faultTable := by
  cases e <;> decide

theorem faultCode_ne_zero (e : ErrCode) : faultCode e ≠ 0 := by
  cases e <;> decide

/-- Every fault is in the table, and the table's codes are distinct. -/
theorem faultCode_injective {e f : ErrCode} (h : faultCode e = faultCode f) : e = f :=
  have hnodup : (faultTable.map faultCode).Nodup := by decide
  List.inj_on_of_nodup_map hnodup (mem_faultTable e) (mem_faultTable f) h

/-- Settles O6: the next state is `takeFault`'s own, and STATUS is read back through its specified fields. -/
theorem faultEntryLatchesTheCode : Obligations.FaultEntryLatchesTheCode := by
  refine ⟨fun e s => ⟨rfl, ?_, ?_⟩, rfl, faultCode_ne_zero, fun _ _ => faultCode_injective⟩
  · rw [status_read_field _ (by decide)]
    exact statusWord_life_faulted rfl
  · rw [status_read_field _ (by decide), statusWord_errcode, takeFault_errcode]

/-! ## While FAULTED -/

/-- 60_exceptions R283: of the four kinds of command only RESET looks past LIFE. -/
theorem exec_decodeCommand_faulted {s : State} (hl : s.life = .faulted) {v : Word} (hv : v ≠ 1) :
    exec (decodeCommand v) s = .next s := by
  rw [decodeCommand, if_neg hv]
  split_ifs
  · exact execLzxFrame_faulted hl
  · exact execAdpcmBlock_faulted hl
  · exact execCmdReserved_faulted v hl

/-- A 1-byte write to a buffer is read back there, in any lifecycle state (20_memory R66). -/
theorem buffers_show_written_byte (s : State) {o : Nat} (v : Word) (ho : o < 131072) :
    inByte (hostAccess (.write (0x10000 + o) .b1 v) s) o = v.setWidth 8 ∧
      outByte (hostAccess (.write (0x30000 + o) .b1 v) s) o = v.setWidth 8 := by
  obtain ⟨⟨_, hin, hinByte⟩, ⟨_, hout, houtByte⟩, _⟩ :=
    bufferAccessesAreLittleEndianAtAnyAlignment s o .b1 v ho
  have hplace : o ≤ o ∧ o < o + AccessSize.b1.bytes := ⟨le_rfl, o.lt_succ_self⟩
  have hlow : v.extractLsb' (8 * (o - o)) 8 = v.setWidth 8 := by
    rw [Nat.sub_self, BitVec.setWidth_eq_extractLsb' (by decide)]
  exact ⟨by rw [hin, hinByte, if_pos hplace, hlow], by rw [hout, houtByte, if_pos hplace, hlow]⟩

/-- Settles O4: only the ignored commands need LIFE; host writes land and RESET is taken in either lifecycle state. -/
theorem faultedBlockIgnoresEveryCommandButReset : Obligations.FaultedBlockIgnoresEveryCommandButReset := by
  intro s hl
  refine ⟨fun v hv => exec_decodeCommand_faulted hl hv, fun v => ?_, fun o v ho => buffers_show_written_byte s v ho,
    resetState s, rfl, rfl⟩
  obtain ⟨hinLen, hframe, hchannels, hblock⟩ := argumentRegistersKeepWhatTheHostWrote.1 s v
  rw [hinLen, hframe, hchannels, hblock]
  exact ⟨rfl, rfl, rfl, rfl⟩

end Sys2Proof.Machine
end

section
/-! SUPPORT. RESET and power-on (70_reset_and_hazards R310, R311, R313): the values RESET establishes as the host reads
them, what it forgets, and the invariants as they stand before the first command. -/

namespace Sys2Proof.Machine

/-! ## RESET -/

/-- A window that lists nothing is SENTINEL throughout (10_state R21). -/
theorem winGet_nil (i : Int) : winGet [] i = sentinel := by
  rw [winGet, Memory.get_nil, Option.getD_none]

/-- 70_reset_and_hazards R313: `Reset()` writes constants only, so after it two histories differ at most in the elements
it leaves alone. -/
theorem resetState_eq_resetState_of_untouched (s u : State) :
    resetState s =
      { resetState u with
        rdr := s.rdr, adpcm := s.adpcm, args := s.args, inBuf := s.inBuf, outBuf := s.outBuf,
        e8Policy := s.e8Policy, seq := s.seq, port := s.port, outEpoch := s.outEpoch, viewReads := s.viewReads } := rfl

theorem resetState_resetState (s : State) : resetState (resetState s) = resetState s := rfl

/-- The model's state after reset is one RESET after power-on (70_reset_and_hazards R311). -/
theorem resetState_powerOn : resetState State.powerOn = State.reset := rfl

/-- Settles O1: the window lists nothing, and the host reads a READY block, whose registers show the constants. -/
theorem resetEstablishesTheResetState : Obligations.ResetEstablishesTheResetState := by
  refine fun s => ⟨resetState s, rfl, rfl, winGet_nil, ?_, ?_⟩
  · rw [rdata_of_ready (resetState_life s) (by decide) (by decide)]
    exact statusWord_resetState s
  · obtain ⟨hr0, hr1, hr2, hwpos, hbrem, hfilesize, hcurpos, hframes⟩ :=
      (registerReadsShowTheState (resetState s)).2 (resetState_life s)
    simp only [List.forall_mem_cons, hr0, hr1, hr2, hwpos, hbrem, hfilesize, hcurpos, hframes]
    exact ⟨⟨rfl, rfl, rfl, List.forall_mem_nil _⟩, rfl, rfl, rfl, rfl, rfl, List.forall_mem_nil _⟩

/-- Settles O2: a second RESET writes the same constants, and power-on is one history among the others. -/
theorem resetIsIdempotentAfterAnyHistory : Obligations.ResetIsIdempotentAfterAnyHistory := fun s =>
  ⟨resetState s, resetState State.powerOn, rfl, congrArg Host.Outcome.next (resetState_resetState s), rfl,
    resetState_eq_resetState_of_untouched s State.powerOn⟩

/-! ## Power-on -/

/-- Settles O3: power-on is one FAULTED state among the others, whose RESET leads to `State.reset`. -/
theorem powerOnAcceptsOnlyReset : Obligations.PowerOnAcceptsOnlyReset := by
  refine ⟨rfl, rfl, rfl, ⟨?_, ?_⟩, fun v hv => exec_decodeCommand_faulted rfl hv,
    congrArg Host.Outcome.next resetState_powerOn⟩
  · rw [status_read_field _ (by decide)]
    exact statusWord_life_faulted rfl
  · rw [status_read_field _ (by decide), statusWord_errcode]
    rfl

/-! ## The invariants before the first command -/

theorem memoryOk_powerOn : MemoryOk State.powerOn :=
  ⟨Memory.wf_nil _, Memory.within_nil _, Memory.wf_nil _, Memory.within_nil _, Memory.wf_nil _⟩

/-- No command is in progress, so no section is. -/
theorem lengthsOk_powerOn : LengthsOk State.powerOn := lengthsOk_of_expect tablesOk_lzxReset nofun

theorem cursorsOk_powerOn : CursorsOk State.powerOn :=
  cursorsOk_of_not_inRun (Nat.zero_le _) (Nat.zero_le _) (by rintro (h | h) <;> cases h)

/-- The power-on code is the one of NotReset (60_exceptions R281). -/
theorem lifeOk_powerOn : LifeOk State.powerOn := ⟨nofun, fun _ => ⟨rfl, rfl, .notReset, rfl⟩⟩

/-- What holds at power-on and survives RESET holds after reset. -/
theorem KeptByStep.reset_of_powerOn {P : State → Prop} (k : KeptByStep P) (h : P State.powerOn) : P State.reset :=
  resetState_powerOn ▸ k.reset State.powerOn h

/-- Settles O60: by evaluation at power-on, and after reset because RESET keeps each invariant. -/
theorem resetAndPowerOnMeetTheInvariants : Obligations.ResetAndPowerOnMeetTheInvariants := by
  rintro s (rfl | rfl)
  · obtain ⟨htab, hsect⟩ := lengthsOk_keptByStep.reset_of_powerOn lengthsOk_powerOn
    exact ⟨memoryOk_keptByStep.reset_of_powerOn memoryOk_powerOn, htab, hsect,
      cursorsOk_keptByStep.reset_of_powerOn cursorsOk_powerOn, lifeOk_keptByStep.reset_of_powerOn lifeOk_powerOn⟩
  · obtain ⟨htab, hsect⟩ := lengthsOk_powerOn
    exact ⟨memoryOk_powerOn, htab, hsect, cursorsOk_powerOn, lifeOk_powerOn⟩

end Sys2Proof.Machine
end
